-- ==== Sys2Proof/Word.lean ====
section
/-! DEFINITION. The word types of the hub: what the manual treats as numbers of a fixed width.
Helpers over them stand in Machine/Operands.lean. -/

namespace Sys2Proof

/-- One byte of a message, of a line or of the register window. -/
abbrev Byte := BitVec 8

/-- A host port, 0 to 3 (00_scope, "Principal Numbers"). -/
abbrev HostNo := Fin 4

/-- A host tag, 0 to 255. -/
abbrev HostTag := BitVec 8

/-- A holder set: bit `h` stands for host `h` (R55, R179). -/
abbrev HostSet := BitVec 4

/-- A line number, 0 to 4,194,303 (22 bits, R4). -/
abbrev LineNo := BitVec 22

/-- A directory set, 0 to 2,047. -/
abbrev SetNo := BitVec 11

/-- A directory tag, 0 to 2,047. -/
abbrev DirTag := BitVec 11

/-- A way of a directory set, 0 to 7. -/
abbrev WayNo := Fin 8

/-- A tracker number, 0 to 63. -/
abbrev TrackerNo := Fin 64

/-- The 64 bytes of a line, byte `i` in bits `8i+7` to `8i`. -/
abbrev LineData := BitVec 512

/-- A byte mask: bit `i` stands for byte `i` of the line (R5). -/
abbrev ByteMask := BitVec 64

/-- One 8-byte word of a line. -/
abbrev Word64 := BitVec 64

/-- The epoch, 0 to 65,535 (R45). -/
abbrev Epoch := BitVec 16

/-- The 12-byte message header of R4, byte 0 in bits 7 to 0. -/
abbrev Header := BitVec 96

end Sys2Proof
end

