-- ==== Sys2Proof/Syntax.lean ====
section
/-! DEFINITION. The commands of the hub: one constructor for each row of spec/opcode_table.json, in the
table's order, with the operands the event carries. The table gives no fields; the operands are those
the rule of the row names, and for an event of one of several like parts (a host link, a tracker) the
number of that part. -/

namespace Sys2Proof

/-- The operations of an ATOMIC, codes 0 to 2 (R8). -/
inductive AtomicOp where
  | fetchAdd
  | swap
  | compareSwap
deriving DecidableEq, Repr

/-- The held field of an ANSWER, values 0 to 2 (R4). -/
inductive Held where
  | notHeld
  | shared
  | owned
deriving DecidableEq, Repr

/-- The two inbound lanes of a host link (R2). -/
inductive Lane where
  | a
  | b
deriving DecidableEq, Repr

/-- What the hub can see as the first byte of a management transaction (R174): the first byte of a
four-wire frame, or the address byte after an I2C START made while MSEL_N is high. -/
inductive LockEvent where
  | fourWire (first : Byte)
  | i2c (address : Byte)
deriving DecidableEq, Repr

/-- The two index bytes of a frame or write transaction, as they come: the high byte first (R175, R176). -/
structure IndexBytes where
  first : Byte
  second : Byte
deriving DecidableEq, Repr

/-- The commands of the hub, one for each row of spec/opcode_table.json. -/
inductive Instr where
  /-- POWER_ON_RESET: POR_N is released; `maddr` is the level of the MADDR1 and MADDR0 pins (R176). -/
  | powerOnReset (maddr : BitVec 2)
  | initEnd
  | linkUp (h : HostNo)
  | linkDown (h : HostNo)
  | messageDelivery (h : HostNo)
  | readShared (h : HostNo) (tag : HostTag) (line : LineNo)
  | readOwn (h : HostNo) (tag : HostTag) (line : LineNo)
  | upgrade (h : HostNo) (tag : HostTag) (line : LineNo)
  | directRead (h : HostNo) (tag : HostTag) (line : LineNo)
  | directWrite (h : HostNo) (tag : HostTag) (line : LineNo) (mask : ByteMask) (data : LineData)
  /-- ATOMIC: `first` is the addend, the new value or the compare value; `second` is the new value of
  a COMPARE_SWAP and 0 for the other two operations, which carry one operand (R6). -/
  | atomic (h : HostNo) (tag : HostTag) (line : LineNo) (op : AtomicOp) (word : Fin 8)
      (first second : Word64)
  | fenceMessage (h : HostNo) (tag : HostTag)
  | writeback (h : HostNo) (line : LineNo) (modified poisoned : Bool) (data : LineData)
  | releaseMessage (h : HostNo) (line : LineNo)
  /-- ANSWER: `data` is 0 where held is not OWNED, since no data is carried then (R6). -/
  | answer (h : HostNo) (line : LineNo) (tracker : TrackerNo) (held : Held)
      (modified poisoned : Bool) (data : LineData)
  | purgeDoneMessage (h : HostNo) (set : SetNo)
  | join (h : HostNo) (level : BitVec 4)
  | depart (h : HostNo)
  /-- UNKNOWN_KIND: the header of the message and the lane it arrived on. -/
  | unknownKind (h : HostNo) (lane : Lane) (header : Header)
  | processJoin (h : HostNo)
  | processDepart (h : HostNo)
  | processReturn (h : HostNo)
  | processAnswer (h : HostNo)
  | processPurgeDone (h : HostNo)
  | dispatch
  | takeParked
  | trackerLookup (t : TrackerNo)
  | deadlineExpiry (t : TrackerNo)
  | purgeDeadlineExpiry
  | poolReadCompletion
  | drainCompletion
  | walkerSetVisit
  /-- INTERFACE_LOCK: the first byte of a frame or transaction, which locks the interface while it is undetermined and
  the byte is a recognised one; after the lock it is the first byte of a later frame or transaction (R174 to R176). -/
  | interfaceLock (event : LockEvent)
  | indexLoad (index : IndexBytes)
  | registerWrite (data : Byte)
  | stagedTableWrite (data : Byte)
  | alertLatchClear (data : Byte)
  | alertMaskWrite (data : Byte)
  | recordClear (data : Byte)
  | cutover
  | fenceCommand
  | releaseCommand
  | hubReset
  | clearLost
  | diagRead
  | diagWrite
  | maintEnter
  | maintExit
  | poolClear
  | poolClearEnd
  | invalidCommand (code : Byte)
  /-- REGISTER_READ: `acknowledged` says whether the I2C master acknowledges the byte sent, as it does where it wants
  another (R176); a four-wire frame has no such bit. -/
  | registerRead (acknowledged : Bool)
  /-- POOL_STORAGE_FAULT: `flips` are the stored data bits disturbed, none where the fault strikes the stored check
  code alone; `correctable` says whether the line, as then disturbed, is within the power of its check code (R132). -/
  | poolStorageFault (line : LineNo) (flips : LineData) (correctable : Bool)
  /-- DIRECTORY_STORAGE_FAULT: the bits of the way that are disturbed (R58). -/
  | directoryStorageFault (set : SetNo) (way : WayNo) (tagFlips : DirTag) (codeFlips : BitVec 3)
      (holderFlips : HostSet) (tagParityFlip stateParityFlip : Bool)
deriving DecidableEq, Repr

end Sys2Proof
end

