-- ==== Sys2Proof/Machine/State.lean ====
section
/-! DEFINITION. The state of the hub as plain data: every register, queue, list, table, mark and pin
that spec/ gives it, each in one home, and the state right after power-on reset. -/

namespace Sys2Proof.Machine

/-! ### The host links (01) -/

/-- The kinds of lane A request (R6). -/
inductive ReqKind where
  | readShared
  | readOwn
  | upgrade
  | directRead
  | directWrite
  | atomic
  | fence
deriving DecidableEq, Repr

/-- The operands of a request (R76): a mask and data for DIRECT_WRITE; op, word index and one or two
operands for ATOMIC; absent otherwise. -/
inductive Operands where
  | absent
  | write (mask : ByteMask) (data : LineData)
  | atomic (op : AtomicOp) (word : Fin 8) (first second : Word64)
deriving DecidableEq, Repr

/-- A lane A request. A FENCE names no line; its `line` is 0. -/
structure Request where
  kind : ReqKind
  tag : HostTag
  line : LineNo
  operands : Operands
deriving DecidableEq, Repr

/-- A lane B message (R6). -/
inductive LaneBMsg where
  | writeback (line : LineNo) (modified poisoned : Bool) (data : LineData)
  | release (line : LineNo)
  | answer (line : LineNo) (tracker : TrackerNo) (held : Held) (modified poisoned : Bool) (data : LineData)
  | purgeDone (set : SetNo)
  | join (level : BitVec 4)
  | depart
deriving DecidableEq, Repr

/-- The DONE statuses (R8). -/
inductive DoneStatus where
  | ok
  | stray
  | poisoned
  | mismatch
deriving DecidableEq, Repr

/-- The REFUSE reasons (R8). -/
inductive RefuseReason where
  | notOnline
  | notReady
  | admission
  | fenced
  | noRegion
  | denied
  | mode
  | dupTag
  | overrun
  | lost
  | noEntry
  | protocol
deriving DecidableEq, Repr

/-- The NOTICE kinds (R8). -/
inductive NoticeKind where
  | cutoverDone
  | peerJoined
  | peerLeft
  | peerFenced
  | youAreFenced
  | departDone
  | hubReset
deriving DecidableEq, Repr

/-- The messages of the hub (R7). DONE and REFUSE stand in two forms each, by their subject bit; a
NOTICE whose kind names no host carries host 0 (R5). -/
inductive HubMsg where
  | dataShared (tag : HostTag) (line : LineNo) (poisoned : Bool) (data : LineData)
  | dataOwned (tag : HostTag) (line : LineNo) (poisoned : Bool) (data : LineData)
  | dataDirect (tag : HostTag) (line : LineNo) (poisoned : Bool) (data : LineData)
  | grant (tag : HostTag) (line : LineNo)
  | doneReq (tag : HostTag) (status : DoneStatus) (value : Option Word64)
  | doneRet (line : LineNo) (status : DoneStatus)
  | refuseReq (tag : HostTag) (reason : RefuseReason)
  | refuseJoin (reason : RefuseReason)
  | recallDrop (line : LineNo) (tracker : TrackerNo)
  | recallShare (line : LineNo) (tracker : TrackerNo)
  | purgeSet (set : SetNo)
  | stall
  | resume
  | welcome (host : HostNo) (epoch : Epoch)
  | notice (kind : NoticeKind) (host : HostNo) (epoch : Epoch)
deriving DecidableEq, Repr

/-- One Host Link Interface (R1 to R23). -/
structure Hli where
  /-- the link is up (R1) -/
  linkUp : Bool
  /-- a hub reset has stopped this interface's intake, and its link is yet to be taken down (R23) -/
  intakeStopped : Bool
  /-- the link has gone down of itself since the hub reset began, so that its link is not to be taken down (R182) -/
  linkFell : Bool
  /-- lane A queue, head first (R15) -/
  laneA : List Request
  /-- stalled mark (R16) -/
  stalled : Bool
  /-- lane B queue, head first (R17) -/
  laneB : List LaneBMsg
  /-- answered set (R13) -/
  answered : List TrackerNo
  /-- purge-answer mark (R13) -/
  purgeAnswer : Bool
  /-- control-pending mark (R14) -/
  controlPending : Bool
  /-- outstanding tag set (R20) -/
  tags : List HostTag
  /-- return list, in arrival order (R21) -/
  returns : List LineNo
  /-- outbound queue, next to be delivered first (R3) -/
  outbound : List HubMsg
deriving DecidableEq, Repr

/-! ### The Port Controller (02) -/

/-- The port states, codes 0 to 4 (R40). -/
inductive PortState where
  | offline
  | online
  | departing
  | fencing
  | fenced
deriving DecidableEq, Repr

/-- The last fence reasons, codes 0 to 5 (R40). -/
inductive FenceReason where
  | noReason
  | recallTimeout
  | purgeTimeout
  | linkDown
  | protocol
  | command
deriving DecidableEq, Repr

/-- What the Port Controller holds for one port (R24), with the walker's report that the port's
DEPART or FORFEIT job has finished its walk (R30, R36). -/
structure Port where
  state : PortState
  admission : Bool
  reason : FenceReason
  sweepDone : Bool
deriving DecidableEq, Repr

/-! ### The Region Table (03) -/

/-- The region modes (R41). -/
inductive RegionMode where
  | tracked
  | directOnly
deriving DecidableEq, Repr

/-- The rights of a host over a region, in rising order (R41). -/
inductive Right where
  | noRight
  | read
  | write
deriving DecidableEq, Repr

/-- A region descriptor (R41). -/
structure Descriptor where
  enabled : Bool
  base : BitVec 8
  size : BitVec 16
  mode : RegionMode
  rights : Vector Right 4
deriving DecidableEq, Repr

/-- The cutover statuses, codes 0 to 6 (R46). -/
inductive CutoverStatus where
  | idle
  | pending
  | draining
  | recalling
  | done
  | failed
  | abandoned
deriving DecidableEq, Repr

/-- The Region Table (R42 to R47). `offending` has bit `d` for descriptor `d`. -/
structure RegionTable where
  staged : Vector Descriptor 16
  active : Vector Descriptor 16
  epoch : Epoch
  status : CutoverStatus
  offending : BitVec 16
  lock : Bool
deriving DecidableEq, Repr

/-! ### The coherence directory (04) -/

/-- One way as it is stored (R55): the stored state code 0 to 7, the tag, the holders, the binding
and the two parity bits. -/
structure Way where
  code : BitVec 3
  tag : DirTag
  holders : HostSet
  binding : Option TrackerNo
  tagParity : Bool
  stateParity : Bool
deriving DecidableEq, Repr

/-- One set: its eight ways and their touch order, least recent first (R60). -/
structure DirSet where
  ways : Vector Way 8
  order : List WayNo
deriving DecidableEq, Repr

/-- What is presented for, or read from, a way (R56, R65). SHARED with no holders is what a lookup
reports when masking leaves none (R67). -/
inductive Entry where
  | free
  | shared (holders : HostSet)
  | owned (owner : HostNo)
  | lost
deriving DecidableEq, Repr

/-- The causes of the lost-line record (R69). -/
inductive LostCause where
  | commit
  | forfeit
deriving DecidableEq, Repr

/-- The lost-line record (R69). -/
structure LostRecord where
  line : LineNo
  owner : HostNo
  cause : LostCause
deriving DecidableEq, Repr

/-- The directory (R54 to R74). `freed` names the ways made FREE at the present event and not touched since, which
stand together in the touch orders (R60); it is empty between events. -/
structure Directory where
  sets : Vector DirSet 2048
  lostCount : Nat
  lostRecord : Option LostRecord
  freed : List (SetNo × WayNo)
deriving DecidableEq, Repr

/-! ### The tracker table (05, 06, 07) -/

/-- The tracker kinds (R76). -/
inductive TrackerKind where
  | readShared
  | readOwn
  | upgrade
  | directRead
  | directWrite
  | atomic
  | evict
  | sweepRecall
deriving DecidableEq, Repr

/-- The tracker phases at rest (R77). REPLY is entered and left at one event, so no tracker rests in it. -/
inductive Phase where
  | setup
  | victimWait
  | recall
  | memWait
deriving DecidableEq, Repr

/-- The recall kinds (R76). -/
inductive RecallKind where
  | drop
  | share
deriving DecidableEq, Repr

/-- One member of an awaited set: the host, the recall it was sent, and the mark of a host whose
return was absorbed and whose answer is still due (R76). -/
structure Awaited where
  host : HostNo
  kind : RecallKind
  returned : Bool
deriving DecidableEq, Repr

/-- The sources of the data in a data buffer (R76). -/
inductive DataSource where
  | absorbed
  | answer
  | forward
  | memory
deriving DecidableEq, Repr

/-- A data buffer (R76), with the host whose WRITEBACK was absorbed into it (R128). -/
structure DataBuffer where
  data : LineData
  modified : Bool
  poisoned : Bool
  source : DataSource
  absorbedFrom : Option HostNo
deriving DecidableEq, Repr

/-- The record of a tracker in use (R76). Beside the fields of that table it holds what its rules have
the tracker keep: the bound entry as it stood stored (`stored`, R96) and as the lookup reported it
(`reported`, R67), whether it scrubs (R160), the hosts it sent RECALL_DROP (R107), whether an owner
sent RECALL_SHARE kept a copy (R98), and whether its owner was let go without data (R110, R120). -/
structure Tracker where
  kind : TrackerKind
  line : LineNo
  mode : RegionMode
  requester : Option (HostNo × HostTag)
  operands : Operands
  phase : Phase
  awaited : List Awaited
  deadline : Option Nat
  graceUsed : Bool
  buffer : Option DataBuffer
  waitingRequester : Option TrackerNo
  result : Option (DoneStatus × Word64)
  ownerLost : Bool
  stored : Entry
  reported : Entry
  scrubbing : Bool
  dropped : HostSet
  kept : Bool
deriving DecidableEq, Repr

/-- A claim for the internal pool (R79): of a host-pool tracker that needs an eviction, or of the walker. -/
inductive InternalClaim where
  | evict (t : TrackerNo)
  | walker
deriving DecidableEq, Repr

/-- The tracker table (R75 to R83), the internal claim list (R79), the trackers in VICTIM_WAIT in the
order they began to wait (R61), those that a reported change has yet to let ask again (R61), and the
trackers waiting in SETUP to re-park their request, in the order they began (R91). -/
structure TrackerTable where
  table : Vector (Option Tracker) 64
  claims : List InternalClaim
  victimWait : List TrackerNo
  askAgain : List TrackerNo
  reparkWait : List TrackerNo
deriving DecidableEq, Repr

/-! ### The dispatcher (05, 07) -/

/-- A parked request (R88). -/
structure Parked where
  host : HostNo
  req : Request
deriving DecidableEq, Repr

/-- A fence slot that holds a FENCE: its tag and the four parts of its marker (R127). -/
structure FenceSlot where
  tag : HostTag
  requests : List HostTag
  returns : List LineNo
  absorptions : List TrackerNo
  drainLines : List LineNo
deriving DecidableEq, Repr

/-- The dispatcher (R84 to R94): park list in order of parking, fence slots, round-robin pointer, the halt of a
cutover (R85), and the hosts whose queue head has been judged to need a tracker while none of the host pool was
free, and which is not judged again until one is freed (R92). -/
structure Dispatcher where
  park : List Parked
  slots : Vector (Option FenceSlot) 4
  pointer : HostNo
  halted : Bool
  passedOver : HostSet
deriving DecidableEq, Repr

/-! ### The pool memory controller (08) -/

/-- A disturbance of a stored line: the data bits disturbed, none where only the stored check code is, and whether it
is within the power of the check code (R132). -/
structure PoolFault where
  flips : LineData
  correctable : Bool
deriving DecidableEq, Repr

/-- The condition of a pool line that is not plainly GOOD and undisturbed: whether it was written with
POISON_MARK, and any disturbance since (R132). -/
structure LineCond where
  poisonMark : Bool
  fault : Option PoolFault
deriving DecidableEq, Repr

/-- The sources of a write-buffer entry (R135). -/
inductive WriteSource where
  | ret
  | tracker
deriving DecidableEq, Repr

/-- A write-buffer entry (R135). Its age is its place in the buffer's list, oldest first. -/
structure WbEntry where
  line : LineNo
  data : LineData
  mask : ByteMask
  poisoned : Bool
  source : WriteSource
  draining : Bool
  rewritten : Bool
  held : Bool
deriving DecidableEq, Repr

/-- A claimant of the write buffer (R136): a tracker, or the return at the head of a host's lane B queue. -/
inductive WbClaim where
  | tracker (t : TrackerNo)
  | ret (h : HostNo)
deriving DecidableEq, Repr

/-- Who holds the pool port (R132, R140): nobody, a pool read for a tracker, the drain of an entry as it
stood when the drain was granted, or the rewrite of the whole pool (R188, R191). -/
inductive PoolPort where
  | idle
  | read (t : TrackerNo)
  | drain (entry : WbEntry)
  | rewrite
deriving DecidableEq, Repr

/-- The accesses of the memory error record (R134). -/
inductive MemAccess where
  | read
  | drain
deriving DecidableEq, Repr

/-- The causes of the memory error record (R134). -/
inductive MemCause where
  | uncorrectable
  | poisonMark
deriving DecidableEq, Repr

/-- The memory error record while its valid flag is set (R134); `source` is present for access DRAIN. -/
structure MemRecord where
  line : LineNo
  access : MemAccess
  cause : MemCause
  source : Option WriteSource
  more : Bool
deriving DecidableEq, Repr

/-- The pool memory controller (R132 to R143). `pool` lists the bytes of the pool that are not 0, by pool
byte address, addresses rising; line `n` is bytes `64 n` to `64 n + 63`. `conds` lists the lines that
are not plainly GOOD, line numbers rising. `clearing` is set while a POOL_CLEAR runs (R191). -/
structure Memory where
  pool : List Host.Cell
  conds : List (LineNo × LineCond)
  wbuf : List WbEntry
  claims : List WbClaim
  reads : List TrackerNo
  streak : Nat
  port : PoolPort
  clearing : Bool
  record : Option MemRecord
deriving DecidableEq, Repr

/-! ### The directory walker (09) -/

/-- The walker's jobs (R144). -/
inductive Job where
  | depart (h : HostNo)
  | forfeit (h : HostNo)
  | cutover
deriving DecidableEq, Repr

/-- What the walker waits for within a job: its next set visit; the way it stands at, whose entry for the line named
is busy (R148); the grant of its claim, for the line named and for a scrub or not (R146); or nothing, standing at a
way it is to deal with at once. -/
inductive WalkWait where
  | visit
  | busy (line : LineNo)
  | claim (line : LineNo) (scrub : Bool)
  | ready
deriving DecidableEq, Repr

/-- The Directory Walker (R144 to R158). `revisiting` is set once set 2,047 has been passed, `walked` once
the walk is finished, and `draining` while a CUTOVER job waits for the host pool to empty (R153). `reopened` names the
skipped sets of which the walker has been told, since they were skipped, that they have reopened (R145, R170). -/
structure Walker where
  jobs : List Job
  current : Option Job
  set : SetNo
  way : WayNo
  wait : WalkWait
  revisiting : Bool
  walked : Bool
  draining : Bool
  skipped : List SetNo
  trackers : List TrackerNo
  reopened : List SetNo
deriving DecidableEq, Repr

/-! ### The Integrity Unit (10) -/

/-- The phases of the purge slot, codes 0 to 2 (R173). -/
inductive PurgePhase where
  | idle
  | closing
  | purging
deriving DecidableEq, Repr

/-- The kinds of parity error (R159). -/
inductive ParityKind where
  | tag
  | state
deriving DecidableEq, Repr

/-- The readers of the directory error record, codes 0 to 5 (R159, R179). -/
inductive Reader where
  | lookup
  | reserve
  | ret
  | walker
  | command
  | diag
deriving DecidableEq, Repr

/-- The directory error record while its valid flag is set (R159). -/
structure DirRecord where
  set : SetNo
  way : WayNo
  kind : ParityKind
  reader : Reader
  more : Bool
deriving DecidableEq, Repr

/-- The Integrity Unit (R159 to R173): the purge list, and the purge slot with its set, awaited set,
deadline and grace. A set is closed while it is in the list or in the slot (R165). -/
structure Integrity where
  purgeList : List SetNo
  phase : PurgePhase
  set : SetNo
  awaited : List HostNo
  deadline : Option Nat
  graceUsed : Bool
  record : Option DirRecord
deriving DecidableEq, Repr

/-! ### The Management Port and Alert Unit (11) -/

/-- The interface in use, codes 0 to 2 (R174, R179). -/
inductive Interface where
  | undetermined
  | fourWire
  | i2c
deriving DecidableEq, Repr

/-- Where the frame or transaction on the interface in use stands (R175, R176): none has begun; it is ignored to its
end; its two index bytes come next, of a read frame or else of a write frame or transaction; its data bytes are written,
or read. -/
inductive Transfer where
  | noTransfer
  | ignored
  | index (isRead : Bool)
  | write
  | read
deriving DecidableEq, Repr

/-- The command statuses, codes 0 to 3 (R179). -/
inductive CommandStatus where
  | idle
  | busy
  | done
  | refused
deriving DecidableEq, Repr

/-- The alert events; the bit of each is its place in this list (R183). -/
inductive AlertEvent where
  | portChange
  | grace
  | fence
  | lost
  | dirParity
  | purgeDone
  | cutoverDone
  | cutoverFail
  | memError
  | protocol
  | mgmtRefused
  | resetDone
deriving DecidableEq, Repr

/-- The causes of the protocol error record (R185). -/
inductive ProtocolCause where
  | notAdmitted
  | dupTag
  | overrun
  | dupReturn
  | returnLimit
  | unmatchedAnswer
  | unmatchedPurge
  | controlRepeat
  | joinWhileAdmitted
  | unknownKind
  | badLevel
  | answerLine
  | answerExtraData
  | answerNoData
  | strayReturn
deriving DecidableEq, Repr

/-- The protocol error record while its valid flag is set (R185). -/
structure ProtocolRecord where
  port : HostNo
  kind : Byte
  cause : ProtocolCause
  tag : Option HostTag
  line : Option LineNo
  more : Bool
deriving DecidableEq, Repr

/-- The last-grace record, with the bytes it shows at 0024h to 0029h (R179, R185). -/
structure GraceRecord where
  kind : Byte
  tracker : Byte
  hosts : HostSet
  value : BitVec 24
deriving DecidableEq, Repr

/-- The outcomes of a DIAG_READ, codes 0 to 3 (R171). -/
inductive WayCheck where
  | notChecked
  | good
  | tagError
  | stateError
deriving DecidableEq, Repr

/-- The diagnostic window (10.5, R179). -/
structure DiagWindow where
  set : BitVec 16
  way : Byte
  code : BitVec 3
  tag : DirTag
  holders : HostSet
  binding : Option TrackerNo
  tagParity : Bool
  stateParity : Bool
  outcome : WayCheck
deriving DecidableEq, Repr

/-- A captured multi-byte field (R177): the address of the next byte to be returned from the capture,
the first address past the field, and the bytes still to come, the next one lowest. -/
structure Capture where
  next : BitVec 16
  stop : BitVec 16
  rest : BitVec 24
deriving DecidableEq, Repr

/-- The Management Port and Alert Unit (R174 to R187): interface lock, where the frame or transaction stands, I2C
address pins, index and captured field, the held bytes of the assembled fields (R178), command register, alert latch and
mask, records and settings, and the pins it drives: ALERT_N low or released, the last byte driven on
MDO (none while undriven), and on SDA the last acknowledgement and the last data byte sent. -/
structure Mgmt where
  interface : Interface
  transfer : Transfer
  maddr : BitVec 2
  index : BitVec 16
  capture : Option Capture
  heldSize : Vector (Option Byte) 16
  heldRecall : Option Byte
  heldLine0 : Option Byte
  heldLine1 : Option Byte
  heldDiagSet : Option Byte
  heldDiagTag : Option Byte
  code : Byte
  status : CommandStatus
  portOperand : Byte
  lineOperand : BitVec 24
  latch : BitVec 16
  mask : BitVec 16
  alertLow : Bool
  grace : GraceRecord
  recallLimit : BitVec 16
  diagEnable : Bool
  diag : DiagWindow
  proto : Option ProtocolRecord
  mdo : Option Byte
  sdaAck : Option Bool
  sdaData : Option Byte
deriving DecidableEq, Repr

/-! ### The hub -/

/-- The hub states, codes 0 to 2 (R179, R188). -/
inductive HubState where
  | init
  | run
  | maint
deriving DecidableEq, Repr

/-- Where a hub reset stands (R182): none in progress; step 3, the drain; or step 6, the links. -/
inductive ResetPhase where
  | noReset
  | drain
  | links
deriving DecidableEq, Repr

/-- The state of the hub, its waiting commands, and the counter of free values consumed (the last is
the model's own). -/
structure State where
  hub : HubState
  resetPhase : ResetPhase
  hli : Vector Hli 4
  ports : Vector Port 4
  region : RegionTable
  dir : Directory
  trk : TrackerTable
  disp : Dispatcher
  mem : Memory
  walker : Walker
  integ : Integrity
  mgmt : Mgmt
  freeCount : Nat
  pending : List Instr
deriving DecidableEq, Repr

/-! ### Faults and refusals -/

/-- The reasons a step stops with a fault. There is one, and no step of this model raises it: the spec
gives every command an effect in every state, and the register window, the pool and the directory
have no address that does not exist. Safe: a fault that is never raised hides no behaviour. -/
inductive Fault where
  /-- An access to an address the spec says does not exist. Raised by nothing: the window reads 00h at an
  unlisted address (R177), and a line number of 22 bits names a line (R4). Safe. -/
  | noSuchAddress
deriving DecidableEq, Repr

/-- The reasons a step is refused. -/
inductive Refusal where
  /-- The command has no meaning in the model yet. Raised only by an arm of exec; none does. Safe. -/
  | notModelled (mnemonic : String)
deriving DecidableEq, Repr

/-! ### The state after power-on reset -/

/-- A FREE way (R55, R74). -/
def Way.reset : Way := ⟨0, 0, 0, none, false, false⟩

/-- A set after either reset: every way FREE, way 0 least recent through way 7 most recent (R74). -/
def DirSet.reset : DirSet := ⟨Vector.replicate 8 Way.reset, [0, 1, 2, 3, 4, 5, 6, 7]⟩

/-- An HLI after power-on reset (R23). -/
def Hli.reset : Hli := ⟨false, false, false, [], false, [], [], false, false, [], [], []⟩

/-- A port after power-on reset (R24). -/
def Port.reset : Port := ⟨.offline, false, .noReason, false⟩

/-- A descriptor after power-on reset (R53). -/
def Descriptor.reset : Descriptor := ⟨false, 0, 0, .tracked, Vector.replicate 4 .noRight⟩

/-- The Region Table after power-on reset (R53). -/
def RegionTable.reset : RegionTable :=
  ⟨Vector.replicate 16 Descriptor.reset, Vector.replicate 16 Descriptor.reset, 0, .idle, 0, false⟩

/-- The directory after power-on reset (R74). -/
def Directory.reset : Directory := ⟨Vector.replicate 2048 DirSet.reset, 0, none, []⟩

/-- The tracker table after either reset (R95). -/
def TrackerTable.reset : TrackerTable := ⟨Vector.replicate 64 none, [], [], [], []⟩

/-- The dispatcher after either reset (R84, R95). -/
def Dispatcher.reset : Dispatcher := ⟨[], Vector.replicate 4 none, 0, false, 0⟩

/-- The memory controller after power-on reset (R142): the pool, cleared to zero during INIT, is being
rewritten through the port (R188). -/
def Memory.reset : Memory := ⟨[], [], [], [], [], 0, .rewrite, false, none⟩

/-- The walker after either reset (R157). -/
def Walker.reset : Walker := ⟨[], none, 0, 0, .visit, false, false, false, [], [], []⟩

/-- The Integrity Unit after power-on reset (R173). -/
def Integrity.reset : Integrity := ⟨[], .idle, 0, [], none, false, none⟩

/-- The Management Port and Alert Unit after power-on reset (R187). -/
def Mgmt.reset : Mgmt where
  interface := .undetermined
  transfer := .noTransfer
  maddr := 0
  index := 0
  capture := none
  heldSize := Vector.replicate 16 none
  heldRecall := none
  heldLine0 := none
  heldLine1 := none
  heldDiagSet := none
  heldDiagTag := none
  code := 0
  status := .idle
  portOperand := 0
  lineOperand := 0
  latch := 0
  mask := 0x0FFF
  alertLow := false
  grace := ⟨0, 0, 0, 0⟩
  recallLimit := 200
  diagEnable := false
  diag := ⟨0, 0, 0, 0, 0, none, false, false, .notChecked⟩
  proto := none
  mdo := none
  sdaAck := none
  sdaData := none

/-- The hub at the release of POR_N (R188 and the reset tables of every chapter), no command waiting. -/
def State.reset : State where
  hub := .init
  resetPhase := .noReset
  hli := Vector.replicate 4 Hli.reset
  ports := Vector.replicate 4 Port.reset
  region := RegionTable.reset
  dir := Directory.reset
  trk := TrackerTable.reset
  disp := Dispatcher.reset
  mem := Memory.reset
  walker := Walker.reset
  integ := Integrity.reset
  mgmt := Mgmt.reset
  freeCount := 0
  pending := []

end Sys2Proof.Machine
end

