-- ==== Sys2Proof/Machine/Operands.lean ====
section
/-! DEFINITION. The operand forms: line numbers as set and tag, holder sets, lines as bytes and words,
byte masks and merges, and the atomic operations. -/

namespace Sys2Proof.Machine

/-! ### Lists of the like parts -/

/-- The four hosts in ascending order. -/
def hosts : List HostNo := [0, 1, 2, 3]

/-- The eight ways of a set in ascending order. -/
def allWays : List WayNo := [0, 1, 2, 3, 4, 5, 6, 7]

/-- The 64 trackers in ascending order. -/
def allTrackers : List TrackerNo := List.finRange 64

/-- The host pool, trackers 0 to 55 (R75). -/
def hostPool : List TrackerNo := allTrackers.filter (fun t => t.val < 56)

/-- The internal pool, trackers 56 to 63 (R75). -/
def internalPool : List TrackerNo := allTrackers.filter (fun t => 56 ≤ t.val)

/-! ### Line numbers (00_scope "Conventions", R57) -/

/-- The directory set of a line: its number modulo 2,048. -/
def lineSet (n : LineNo) : SetNo := n.extractLsb' 0 11

/-- The directory tag of a line: its number divided by 2,048. -/
def lineTag (n : LineNo) : DirTag := n.extractLsb' 11 11

/-- The line with a given tag and set: tag × 2,048 + set. -/
def lineOf (tag : DirTag) (set : SetNo) : LineNo := tag ++ set

/-- The MiB of a line: its number divided by 16,384 (R41). -/
def lineMib (n : LineNo) : Nat := n.toNat / 16384

/-! ### Holder sets -/

/-- Whether a host is in a holder set. -/
def hasHost (s : HostSet) (h : HostNo) : Bool := s.getLsbD h.val

/-- The holder set of one host. -/
def oneHost (h : HostNo) : HostSet := 1#4 <<< h.val

/-- A holder set with a host added. -/
def addHost (s : HostSet) (h : HostNo) : HostSet := s ||| oneHost h

/-- A holder set with a host removed. -/
def dropHost (s : HostSet) (h : HostNo) : HostSet := s &&& ~~~oneHost h

/-- The members of a holder set in ascending order. -/
def members (s : HostSet) : List HostNo := hosts.filter (hasHost s)

/-- The holder set of a list of hosts. -/
def hostSetOf (l : List HostNo) : HostSet := l.foldl addHost 0

/-! ### Lines as bytes and words -/

/-- Byte `i` of a line. -/
def lineByte (d : LineData) (i : Nat) : Byte := d.extractLsb' (8 * i) 8

/-- Word `w` of a line: bytes `8w` to `8w + 7`, byte `8w` least significant (R124). -/
def lineWord (d : LineData) (w : Fin 8) : Word64 := d.extractLsb' (64 * w.val) 64

/-- A line with word `w` replaced and the other seven words as found (R125). -/
def setLineWord (d : LineData) (w : Fin 8) (v : Word64) : LineData :=
  (d &&& ~~~((BitVec.allOnes 64).setWidth 512 <<< (64 * w.val))) ||| (v.setWidth 512 <<< (64 * w.val))

/-- The data bits that a byte mask names. -/
def maskBits (m : ByteMask) : LineData :=
  (List.range 64).foldl
    (fun acc i => if m.getLsbD i then acc ||| ((BitVec.allOnes 8).setWidth 512 <<< (8 * i)) else acc) 0

/-- `old` with the bytes under the mask replaced by those of `new` (R122, R137). -/
def mergeUnder (m : ByteMask) (new old : LineData) : LineData :=
  (old &&& ~~~maskBits m) ||| (new &&& maskBits m)

/-- The mask of all 64 bytes. -/
def fullMask : ByteMask := BitVec.allOnes 64

/-- The bytes of a value, least significant first (R5). -/
def bytesOf (n : Nat) {w : Nat} (v : BitVec w) : List Byte :=
  (List.range n).map (fun i => v.extractLsb' (8 * i) 8)

/-- The value of bytes given least significant first (R5). -/
def ofBytes (w : Nat) (l : List Byte) : BitVec w :=
  l.foldr (fun b acc => (acc <<< 8) ||| b.setWidth w) 0

/-! ### Atomic operations (R125) -/

/-- The new word and the status of an atomic operation on the old word. -/
def atomicResult (op : AtomicOp) (first second old : Word64) : Word64 × DoneStatus :=
  match op with
  | .fetchAdd => (old + first, .ok)
  | .swap => (first, .ok)
  | .compareSwap => if old = first then (second, .ok) else (old, .mismatch)

/-! ### Coded values of the register window (R40, R46, R158, R179) -/

/-- The code of a port state (R40). -/
def PortState.toCode : PortState → Nat
  | .offline => 0
  | .online => 1
  | .departing => 2
  | .fencing => 3
  | .fenced => 4

/-- The code of a fence reason (R40). -/
def FenceReason.toCode : FenceReason → Nat
  | .noReason => 0
  | .recallTimeout => 1
  | .purgeTimeout => 2
  | .linkDown => 3
  | .protocol => 4
  | .command => 5

/-- The code of a cutover status (R46). -/
def CutoverStatus.toCode : CutoverStatus → Nat
  | .idle => 0
  | .pending => 1
  | .draining => 2
  | .recalling => 3
  | .done => 4
  | .failed => 5
  | .abandoned => 6

/-- The code of a hub state (R179). -/
def HubState.toCode : HubState → Nat
  | .init => 0
  | .run => 1
  | .maint => 2

/-- The code of the interface in use (R179). -/
def Interface.toCode : Interface → Nat
  | .undetermined => 0
  | .fourWire => 1
  | .i2c => 2

/-- The code of a command status (R179). -/
def CommandStatus.toCode : CommandStatus → Nat
  | .idle => 0
  | .busy => 1
  | .done => 2
  | .refused => 3

/-- The code of a reader of the directory error record (R179). -/
def Reader.toCode : Reader → Nat
  | .lookup => 0
  | .reserve => 1
  | .ret => 2
  | .walker => 3
  | .command => 4
  | .diag => 5

/-- The code of a protocol error cause; 7 is unused (R185). -/
def ProtocolCause.toCode : ProtocolCause → Nat
  | .notAdmitted => 0
  | .dupTag => 1
  | .overrun => 2
  | .dupReturn => 3
  | .returnLimit => 4
  | .unmatchedAnswer => 5
  | .unmatchedPurge => 6
  | .controlRepeat => 8
  | .joinWhileAdmitted => 9
  | .unknownKind => 10
  | .badLevel => 11
  | .answerLine => 12
  | .answerExtraData => 13
  | .answerNoData => 14
  | .strayReturn => 15

/-- The code of a DIAG_READ outcome (R171, R179). -/
def WayCheck.toCode : WayCheck → Nat
  | .notChecked => 0
  | .good => 1
  | .tagError => 2
  | .stateError => 3

/-- The code of a purge phase (R173). -/
def PurgePhase.toCode : PurgePhase → Nat
  | .idle => 0
  | .closing => 1
  | .purging => 2

/-- The code of a region mode (R41). -/
def RegionMode.toCode : RegionMode → Nat
  | .tracked => 0
  | .directOnly => 1

/-- The code of a right, which is also its place in the order NONE, READ, WRITE (R41). -/
def Right.toCode : Right → Nat
  | .noRight => 0
  | .read => 1
  | .write => 2

/-- The rights byte of a descriptor: host `h` in bits `2h + 1` and `2h` (R179). -/
def rightsByte (r : Vector Right 4) : Nat :=
  (r[0]).toCode + 4 * (r[1]).toCode + 16 * (r[2]).toCode + 64 * (r[3]).toCode

/-- The right coded by two bits; 3 is no code (R41). -/
def rightOfCode (n : Nat) : Option Right :=
  match n with
  | 0 => some .noRight
  | 1 => some .read
  | 2 => some .write
  | _ => none

/-- The four rights of a rights byte; none where any host's is 3 (R42). -/
def rightsOfByte (b : Byte) : Option (Vector Right 4) := do
  let r0 ← rightOfCode (b.toNat % 4)
  let r1 ← rightOfCode (b.toNat / 4 % 4)
  let r2 ← rightOfCode (b.toNat / 16 % 4)
  let r3 ← rightOfCode (b.toNat / 64 % 4)
  return #v[r0, r1, r2, r3]

end Sys2Proof.Machine
end

