-- ==== Sys2Proof/Machine/Wire.lean ====
section
/-! DEFINITION. The link messages on the wire (R4 to R8): the 12-byte header, the payloads, the bytes of
every message the hub sends, and the command that the bytes of an arriving message are. -/

namespace Sys2Proof.Machine

/-- The fields of a message header (R4). -/
structure HeaderFields where
  kind : Byte
  tag : HostTag
  line : LineNo
  poisoned : Bool
  modified : Bool
  tracker : BitVec 6
  held : BitVec 2
  code : BitVec 4
  word : BitVec 3
  subject : Bool
  host : BitVec 2
  level : BitVec 4
  epoch : BitVec 16
  set : BitVec 11
deriving DecidableEq, Repr

/-- A header of one kind with every other field zero (R5). -/
def headerOfKind (kind : Byte) : HeaderFields :=
  ⟨kind, 0, 0, false, false, 0, 0, 0, 0, false, 0, 0, 0, 0⟩

/-- The 96 bits of a header, byte 0 in bits 7 to 0 (R4). Bits 2 and 3 of byte 7 and bits 3 to 7 of
byte 11 belong to no field and are sent as zero (R5). -/
def packHeader (f : HeaderFields) : Header :=
  (0 : BitVec 5) ++ (f.set ++ (f.epoch ++ (f.level ++ ((0 : BitVec 2) ++ (f.host ++
    (BitVec.ofBool f.subject ++ (f.word ++ (f.code ++ (f.held ++ (f.tracker ++
      (BitVec.ofBool f.modified ++ (BitVec.ofBool f.poisoned ++ (f.line ++ (f.tag ++ f.kind))))))))))))))

/-- The fields of a header (R4). -/
def unpackHeader (w : Header) : HeaderFields where
  kind := w.extractLsb' 0 8
  tag := w.extractLsb' 8 8
  line := w.extractLsb' 16 22
  poisoned := w.getLsbD 38
  modified := w.getLsbD 39
  tracker := w.extractLsb' 40 6
  held := w.extractLsb' 46 2
  code := w.extractLsb' 48 4
  word := w.extractLsb' 52 3
  subject := w.getLsbD 55
  host := w.extractLsb' 56 2
  level := w.extractLsb' 60 4
  epoch := w.extractLsb' 64 16
  set := w.extractLsb' 80 11

/-- The lane on which a kind code of R6 arrives; none for a code not in R6. -/
def laneOfKind (kind : Byte) : Option Lane :=
  if 0x01 ≤ kind.toNat ∧ kind.toNat ≤ 0x07 then some .a
  else if 0x10 ≤ kind.toNat ∧ kind.toNat ≤ 0x15 then some .b
  else none

/-- Whether a message is of unknown kind (R5): a kind code not allowed on its lane, an ANSWER with held
value 3, or an ATOMIC with an op code above 2. -/
def isUnknownKind (lane : Lane) (f : HeaderFields) : Bool :=
  laneOfKind f.kind ≠ some lane ∨ (f.kind = 0x12 ∧ f.held = 3) ∨ (f.kind = 0x06 ∧ 2 < f.code.toNat)

/-- The tag that a message of a listed kind carries (R6, R7). -/
def carriedTag (f : HeaderFields) : Option HostTag :=
  if (0x01 ≤ f.kind.toNat ∧ f.kind.toNat ≤ 0x07) ∨ (0x20 ≤ f.kind.toNat ∧ f.kind.toNat ≤ 0x23)
      ∨ ((f.kind = 0x24 ∨ f.kind = 0x25) ∧ f.subject = false) then some f.tag
  else none

/-- The line that a message of a listed kind carries (R6, R7). -/
def carriedLine (f : HeaderFields) : Option LineNo :=
  if (0x01 ≤ f.kind.toNat ∧ f.kind.toNat ≤ 0x06) ∨ (0x10 ≤ f.kind.toNat ∧ f.kind.toNat ≤ 0x12)
      ∨ (0x20 ≤ f.kind.toNat ∧ f.kind.toNat ≤ 0x23) ∨ f.kind = 0x26 ∨ f.kind = 0x27
      ∨ (f.kind = 0x24 ∧ f.subject = true) then some f.line
  else none

/-! ### Codes (R8) -/

/-- The code of a DONE status. -/
def DoneStatus.toCode : DoneStatus → BitVec 4
  | .ok => 0
  | .stray => 1
  | .poisoned => 2
  | .mismatch => 3

/-- The code of a REFUSE reason. -/
def RefuseReason.toCode : RefuseReason → BitVec 4
  | .notOnline => 0
  | .notReady => 1
  | .admission => 2
  | .fenced => 3
  | .noRegion => 4
  | .denied => 5
  | .mode => 6
  | .dupTag => 7
  | .overrun => 8
  | .lost => 9
  | .noEntry => 10
  | .protocol => 11

/-- The code of a NOTICE kind. -/
def NoticeKind.toCode : NoticeKind → BitVec 4
  | .cutoverDone => 0
  | .peerJoined => 1
  | .peerLeft => 2
  | .peerFenced => 3
  | .youAreFenced => 4
  | .departDone => 5
  | .hubReset => 6

/-- The code of an atomic operation. -/
def atomicCode : AtomicOp → BitVec 4
  | .fetchAdd => 0
  | .swap => 1
  | .compareSwap => 2

/-- The code of a held value (R4). -/
def heldCode : Held → BitVec 2
  | .notHeld => 0
  | .shared => 1
  | .owned => 2

/-- The 12 bytes of a header and the payload after it (R5). -/
def message (f : HeaderFields) (payload : List Byte) : List Byte :=
  bytesOf 12 (packHeader f) ++ payload

/-- The bytes of a message the hub sends (R4, R5, R7). -/
def HubMsg.encode : HubMsg → List Byte
  | .dataShared tag line p d =>
    message { headerOfKind 0x20 with tag := tag, line := line, poisoned := p } (bytesOf 64 d)
  | .dataOwned tag line p d =>
    message { headerOfKind 0x21 with tag := tag, line := line, poisoned := p } (bytesOf 64 d)
  | .dataDirect tag line p d =>
    message { headerOfKind 0x22 with tag := tag, line := line, poisoned := p } (bytesOf 64 d)
  | .grant tag line => message { headerOfKind 0x23 with tag := tag, line := line } []
  | .doneReq tag status value =>
    message { headerOfKind 0x24 with tag := tag, code := status.toCode }
      (match value with | some v => bytesOf 8 v | none => [])
  | .doneRet line status =>
    message { headerOfKind 0x24 with line := line, code := status.toCode, subject := true } []
  | .refuseReq tag reason => message { headerOfKind 0x25 with tag := tag, code := reason.toCode } []
  | .refuseJoin reason => message { headerOfKind 0x25 with code := reason.toCode, subject := true } []
  | .recallDrop line t => message { headerOfKind 0x26 with line := line, tracker := BitVec.ofNat 6 t.val } []
  | .recallShare line t => message { headerOfKind 0x27 with line := line, tracker := BitVec.ofNat 6 t.val } []
  | .purgeSet set => message { headerOfKind 0x28 with set := set } []
  | .stall => message (headerOfKind 0x29) []
  | .resume => message (headerOfKind 0x2A) []
  | .welcome host epoch =>
    message { headerOfKind 0x2B with host := BitVec.ofNat 2 host.val, epoch := epoch } []
  | .notice kind host epoch =>
    message { headerOfKind 0x2C with code := kind.toCode, host := BitVec.ofNat 2 host.val, epoch := epoch } []

/-- The lane and the bytes with which a host sends the message whose arrival a command is (R4 to R6);
none for a command that is no arrival of a listed kind. -/
def encodeArrival : Instr → Option (Lane × List Byte)
  | .readShared _ tag line => some (.a, message { headerOfKind 0x01 with tag := tag, line := line } [])
  | .readOwn _ tag line => some (.a, message { headerOfKind 0x02 with tag := tag, line := line } [])
  | .upgrade _ tag line => some (.a, message { headerOfKind 0x03 with tag := tag, line := line } [])
  | .directRead _ tag line => some (.a, message { headerOfKind 0x04 with tag := tag, line := line } [])
  | .directWrite _ tag line mask data =>
    some (.a, message { headerOfKind 0x05 with tag := tag, line := line } (bytesOf 8 mask ++ bytesOf 64 data))
  | .atomic _ tag line op word first second =>
    some (.a, message
      { headerOfKind 0x06 with
        tag := tag, line := line, code := atomicCode op, word := BitVec.ofNat 3 word.val }
      (match op with | .compareSwap => bytesOf 8 first ++ bytesOf 8 second | _ => bytesOf 8 first))
  | .fenceMessage _ tag => some (.a, message { headerOfKind 0x07 with tag := tag } [])
  | .writeback _ line m p d =>
    some (.b, message { headerOfKind 0x10 with line := line, modified := m, poisoned := p } (bytesOf 64 d))
  | .releaseMessage _ line => some (.b, message { headerOfKind 0x11 with line := line } [])
  | .answer _ line t held m p d =>
    some (.b, message
      { headerOfKind 0x12 with
        line := line, tracker := BitVec.ofNat 6 t.val, held := heldCode held, modified := m, poisoned := p }
      (match held with | .owned => bytesOf 64 d | _ => []))
  | .purgeDoneMessage _ set => some (.b, message { headerOfKind 0x13 with set := set } [])
  | .join _ level => some (.b, message { headerOfKind 0x14 with level := level } [])
  | .depart _ => some (.b, message (headerOfKind 0x15) [])
  | _ => none

/-- The length of the payload that a header calls for on arrival (R5, R6). -/
def payloadLength (f : HeaderFields) : Nat :=
  if f.kind = 0x05 then 72
  else if f.kind = 0x06 then (if f.code = 2 then 16 else 8)
  else if f.kind = 0x10 then 64
  else if f.kind = 0x12 then (if f.held = 2 then 64 else 0)
  else 0

/-- The command that a listed kind's header and payload are (R6). Fields the kind does not use, and the
bits of no field, are ignored (R5). -/
def arrivalOfFields (h : HostNo) (f : HeaderFields) (payload : List Byte) : Option Instr :=
  if f.kind = 0x01 then some (.readShared h f.tag f.line)
  else if f.kind = 0x02 then some (.readOwn h f.tag f.line)
  else if f.kind = 0x03 then some (.upgrade h f.tag f.line)
  else if f.kind = 0x04 then some (.directRead h f.tag f.line)
  else if f.kind = 0x05 then
    some (.directWrite h f.tag f.line (ofBytes 64 (payload.take 8)) (ofBytes 512 (payload.drop 8)))
  else if f.kind = 0x06 then
    let first := ofBytes 64 (payload.take 8)
    if f.code = 0 then some (.atomic h f.tag f.line .fetchAdd f.word.toFin first 0)
    else if f.code = 1 then some (.atomic h f.tag f.line .swap f.word.toFin first 0)
    else some (.atomic h f.tag f.line .compareSwap f.word.toFin first (ofBytes 64 (payload.drop 8)))
  else if f.kind = 0x07 then some (.fenceMessage h f.tag)
  else if f.kind = 0x10 then some (.writeback h f.line f.modified f.poisoned (ofBytes 512 payload))
  else if f.kind = 0x11 then some (.releaseMessage h f.line)
  else if f.kind = 0x12 then
    let held := if f.held = 0 then Held.notHeld else if f.held = 1 then Held.shared else Held.owned
    some (.answer h f.line f.tracker.toFin held f.modified f.poisoned
      (if f.held = 2 then ofBytes 512 payload else 0))
  else if f.kind = 0x13 then some (.purgeDoneMessage h f.set)
  else if f.kind = 0x14 then some (.join h f.level)
  else if f.kind = 0x15 then some (.depart h)
  else none

/-- The command that the bytes of a whole message arriving from host `h` on a lane are (R4 to R6): an
UNKNOWN_KIND where R5 makes it one; none where the bytes are not a whole message. -/
def arrivalOf (h : HostNo) (lane : Lane) (bytes : List Byte) : Option Instr :=
  if bytes.length < 12 then none
  else
    let header : Header := ofBytes 96 (bytes.take 12)
    let f := unpackHeader header
    let payload := bytes.drop 12
    if isUnknownKind lane f then some (.unknownKind h lane header)
    else if payload.length ≠ payloadLength f then none
    else arrivalOfFields h f payload

end Sys2Proof.Machine
end

