-- ==== Sys2Proof/WellFormed.lean ====
section
/-! DEFINITION. Which commands are well formed: the checks on operands that their types do not make. -/

namespace Sys2Proof

/-- An operation with one operand carries no second one (R6). -/
def wfAtomic (op : AtomicOp) (second : Word64) : Bool :=
  match op with
  | .compareSwap => true
  | _ => second = 0

/-- An ANSWER carries data only when held is OWNED (R6). -/
def wfAnswer (held : Held) (data : LineData) : Bool :=
  match held with
  | .owned => true
  | _ => data = 0

/-- The header of an UNKNOWN_KIND is one of unknown kind on its lane (R5). -/
def wfUnknownKind (lane : Lane) (header : Header) : Bool :=
  Machine.isUnknownKind lane (Machine.unpackHeader header)

/-- A command code of R181. -/
def isListedCommand (code : Byte) : Bool := 0x01 ≤ code.toNat ∧ code.toNat ≤ 0x0A

/-- Whether a command is well formed. -/
def Instr.wf : Instr → Bool
  | .atomic _ _ _ op _ _ second => wfAtomic op second
  | .answer _ _ _ held _ _ data => wfAnswer held data
  | .unknownKind _ lane header => wfUnknownKind lane header
  | .invalidCommand code => !isListedCommand code
  | .directoryStorageFault _ _ tagFlips codeFlips holderFlips tagParityFlip stateParityFlip =>
    tagFlips ≠ 0 ∨ codeFlips ≠ 0 ∨ holderFlips ≠ 0 ∨ tagParityFlip ∨ stateParityFlip
  | _ => true

end Sys2Proof
end

