-- ==== Sys2Proof/Config.lean ====
section
/-! DEFINITION. The free values: what the manual leaves open and no rule of it fixes. They have no
body, so no statement can rest on what they are (assumptions 5, 6, 21, 24 and 41). -/

namespace Sys2Proof

/-- Whether a pool line marked POISON_MARK that has also been disturbed uncorrectably is recorded
with cause UNCORRECTABLE rather than POISON_MARK: R133 gives both causes for one row and does not
say which of the two such a line is recorded with. Applied to the model's counter of free values. -/
opaque Config.doubleFaultReadsUncorrectable : Nat → Bool

/-- Whether a storage fault that strikes a line while the whole pool is being rewritten (INIT, or a
POOL_CLEAR) strikes it after the rewrite of that line: the manual gives the rewrite no rate, so how
far it has come is open. Applied to the model's counter of free values. -/
opaque Config.faultAfterRewrite : Nat → Bool

/-- The tag parity and state parity bits that a way is left with when it is made FREE, from what it stored before: its tag,
state code, holders and parity bits. R55 gives the other fields of a FREE way, and these are not examined while it is FREE. -/
opaque Config.freedParity : DirTag → BitVec 3 → HostSet → Bool → Bool → Bool × Bool

/-- What the source field of the memory error record reads for an error of access READ, for which R134 gives none. -/
opaque Config.readErrorSource : Byte

/-- What the tag field of the protocol error record reads for an error that carries none (R185). -/
opaque Config.absentTag : Byte

/-- What the line field of the protocol error record reads for an error that carries none (R185). -/
opaque Config.absentLine : BitVec 24

/-- What the walker port reads while no DEPART or FORFEIT job runs (R158). -/
opaque Config.noJobPort : Byte

/-- What the purge set reads while the purge slot is idle and holds no set (R173). -/
opaque Config.noPurgeSet : BitVec 16

/-- What the tracker number of the last-grace record holds for a grace of the purge slot (R185). -/
opaque Config.purgeGraceTracker : Byte

end Sys2Proof
end

