-- ==== Sys2Proof/Machine/Flags.lean ====
section
/-! DEFINITION. The flags the hub computes: directory parity (R58, R59) and alert bits (R183, R184). -/

namespace Sys2Proof.Machine

/-- Whether a value holds an odd number of ones. -/
def oddOnes {w : Nat} (v : BitVec w) : Bool :=
  (List.range w).foldl (fun acc i => acc ^^ v.getLsbD i) false

/-- The tag parity bit: with it, the tag and the hidden bit 1, the number of ones is even (R58). -/
def tagParityOf (tag : DirTag) : Bool := !oddOnes tag

/-- The state parity bit over the stored state code and the holders (R58). -/
def stateParityOf (code : BitVec 3) (holders : HostSet) : Bool := !oddOnes (code ++ holders)

/-- The check of a way at a read (R59): not checked for codes 0 and 1; else a tag parity error, a state
parity error (which codes 5 to 7 always are), or good. -/
def checkWay (w : Way) : WayCheck :=
  if w.code.toNat ≤ 1 then .notChecked
  else if w.tagParity ≠ tagParityOf w.tag then .tagError
  else if 5 ≤ w.code.toNat ∨ w.stateParity ≠ stateParityOf w.code w.holders then .stateError
  else .good

/-- The bit of an alert event in the latch and the mask (R183). -/
def AlertEvent.bit : AlertEvent → BitVec 16
  | .portChange => 0x0001
  | .grace => 0x0002
  | .fence => 0x0004
  | .lost => 0x0008
  | .dirParity => 0x0010
  | .purgeDone => 0x0020
  | .cutoverDone => 0x0040
  | .cutoverFail => 0x0080
  | .memError => 0x0100
  | .protocol => 0x0200
  | .mgmtRefused => 0x0400
  | .resetDone => 0x0800

/-- Whether ALERT_N is driven low: an event is both latched and not masked (R184). -/
def alertLowOf (latch mask : BitVec 16) : Bool := latch &&& ~~~mask ≠ 0

end Sys2Proof.Machine
end

