-- ==== Sys2Proof/Machine/Ops.lean ====
section
/-! DEFINITION. The named operations over State: one accessor and one update for each home of state, the
outbound queues, the records and alerts, the directory ways, and the bytes and conditions of the pool. -/

namespace Sys2Proof.Machine

/-! ### One home, one accessor -/

/-- The link interface of a host. -/
def hliOf (s : State) (h : HostNo) : Hli := s.hli[h]

/-- Changes the link interface of a host. -/
def updHli (s : State) (h : HostNo) (f : Hli → Hli) : State :=
  { s with hli := s.hli.set h (f (hliOf s h)) }

/-- What the Port Controller holds for a port. -/
def portOf (s : State) (h : HostNo) : Port := s.ports[h]

/-- Changes what the Port Controller holds for a port. -/
def updPort (s : State) (h : HostNo) (f : Port → Port) : State :=
  { s with ports := s.ports.set h (f (portOf s h)) }

/-- The state of a port. -/
def portState (s : State) (h : HostNo) : PortState := (portOf s h).state

/-- Whether a port is ONLINE or DEPARTING: its host is admitted (R26). -/
def isAdmitted (s : State) (h : HostNo) : Bool :=
  portState s h = .online ∨ portState s h = .departing

/-- Whether a hub reset is in progress: from its acceptance to its last step (R182). -/
def inReset (s : State) : Bool := s.resetPhase ≠ .noReset

/-- The record of a tracker; none while it is free. -/
def trackerOf (s : State) (t : TrackerNo) : Option Tracker := s.trk.table[t]

/-- Writes the record of a tracker. -/
def setTracker (s : State) (t : TrackerNo) (x : Option Tracker) : State :=
  { s with trk := { s.trk with table := s.trk.table.set t x } }

/-- Changes the record of a tracker in use; a free one holds nothing (R76). -/
def updTracker (s : State) (t : TrackerNo) (f : Tracker → Tracker) : State :=
  match trackerOf s t with
  | none => s
  | some tr => setTracker s t (some (f tr))

/-- The fence slot of a host. -/
def slotOf (s : State) (h : HostNo) : Option FenceSlot := s.disp.slots[h]

/-- Writes the fence slot of a host. -/
def setSlot (s : State) (h : HostNo) (x : Option FenceSlot) : State :=
  { s with disp := { s.disp with slots := s.disp.slots.set h x } }

/-- Changes the FENCE in a host's fence slot, if it holds one. -/
def updSlot (s : State) (h : HostNo) (f : FenceSlot → FenceSlot) : State :=
  match slotOf s h with
  | none => s
  | some x => setSlot s h (some (f x))

/-- A directory set. -/
def setOf (s : State) (k : SetNo) : DirSet := s.dir.sets[k.toNat]

/-- A way of a directory set. -/
def wayOf (s : State) (k : SetNo) (w : WayNo) : Way := (setOf s k).ways[w]

/-- Writes a directory set. -/
def putSet (s : State) (k : SetNo) (x : DirSet) : State :=
  { s with dir := { s.dir with sets := s.dir.sets.set k.toNat x } }

/-- Adds `x` at the end of a list that does not hold it. -/
def insertNew {α : Type} [DecidableEq α] (x : α) (l : List α) : List α :=
  if x ∈ l then l else l ++ [x]

/-! ### Alerts (R183, R184) -/

/-- Sets the alert latch and mask; ALERT_N follows at that event (R184). -/
def setAlerts (latch mask : BitVec 16) (s : State) : State :=
  { s with mgmt := { s.mgmt with latch := latch, mask := mask, alertLow := alertLowOf latch mask } }

/-- Latches an alert event (R183). -/
def latch (e : AlertEvent) (s : State) : State :=
  setAlerts (s.mgmt.latch ||| e.bit) s.mgmt.mask s

/-! ### Records (R134, R159, R185) -/

/-- Hands a protocol error over: it fills the record if it is clear, else sets its more flag, and latches
PROTOCOL (R9, R185). -/
def protocolError (port : HostNo) (kind : Byte) (cause : ProtocolCause) (tag : Option HostTag)
    (line : Option LineNo) (s : State) : State :=
  let r : ProtocolRecord :=
    match s.mgmt.proto with
    | none => ⟨port, kind, cause, tag, line, false⟩
    | some r => { r with more := true }
  latch .protocol { s with mgmt := { s.mgmt with proto := some r } }

/-- Hands a memory error over: record and MEM_ERROR (R134). -/
def memError (line : LineNo) (access : MemAccess) (cause : MemCause) (source : Option WriteSource)
    (s : State) : State :=
  let r : MemRecord :=
    match s.mem.record with
    | none => ⟨line, access, cause, source, false⟩
    | some r => { r with more := true }
  latch .memError { s with mem := { s.mem with record := some r } }

/-- Records a parity error and latches DIR_PARITY; the closing of the set is apart (R159). -/
def recordParity (k : SetNo) (w : WayNo) (kind : ParityKind) (reader : Reader) (s : State) : State :=
  let r : DirRecord :=
    match s.integ.record with
    | none => ⟨k, w, kind, reader, false⟩
    | some r => { r with more := true }
  latch .dirParity { s with integ := { s.integ with record := some r } }

/-- Latches GRACE and overwrites the last-grace record (R82, R168, R185). -/
def graceEvent (r : GraceRecord) (s : State) : State :=
  latch .grace { s with mgmt := { s.mgmt with grace := r } }

/-! ### The outbound queues (R3) -/

/-- The two messages that a FENCING or FENCED port's queue still takes (R3). -/
def passesFence : HubMsg → Bool
  | .notice .youAreFenced _ _ => true
  | .refuseJoin .fenced => true
  | _ => false

/-- Places a message in the outbound queue of a host: discarded while the link is down (R1), and while
the port is FENCING or FENCED unless it is one of the two excepted (R3). -/
def place (h : HostNo) (m : HubMsg) (s : State) : State :=
  if (hliOf s h).linkUp = false then s
  else if (portState s h = .fencing ∨ portState s h = .fenced) ∧ passesFence m = false then s
  else updHli s h (fun x => { x with outbound := x.outbound ++ [m] })

/-- Takes a tag out of the outstanding tag set and out of the host's fence marker (R20, R129). -/
def dropTag (h : HostNo) (tag : HostTag) (s : State) : State :=
  updSlot (updHli s h (fun x => { x with tags := x.tags.filter (· ≠ tag) })) h
    (fun x => { x with requests := x.requests.filter (· ≠ tag) })

/-- Sends the response or refusal that ends a request (R3, R20). -/
def respond (h : HostNo) (tag : HostTag) (m : HubMsg) (s : State) : State :=
  place h m (dropTag h tag s)

/-- Takes a line out of the return list and out of the host's fence marker (R21, R129). -/
def dropReturn (h : HostNo) (line : LineNo) (s : State) : State :=
  updSlot (updHli s h (fun x => { x with returns := x.returns.filter (· ≠ line) })) h
    (fun x => { x with returns := x.returns.filter (· ≠ line) })

/-- Sends the DONE that answers an accepted return (R3, R21). -/
def doneReturn (h : HostNo) (line : LineNo) (status : DoneStatus) (s : State) : State :=
  place h (.doneRet line status) (dropReturn h line s)

/-- Sends a NOTICE naming host `h` to every ONLINE port that `wanted` picks (R8, R26). -/
def noticeOnline (kind : NoticeKind) (h : HostNo) (wanted : HostNo → Bool) (s : State) : State :=
  hosts.foldl
    (fun s p => if portState s p = .online ∧ wanted p then place p (.notice kind h s.region.epoch) s else s) s

/-! ### Ports and cutover status -/

/-- Changes the state of a port and latches PORT_CHANGE (R24). -/
def setPortState (h : HostNo) (p : PortState) (s : State) : State :=
  latch .portChange (updPort s h (fun x => { x with state := p, sweepDone := false }))

/-- Whether a cutover status sets the cutover lock (R47). -/
def locks : CutoverStatus → Bool
  | .pending => true
  | .draining => true
  | .recalling => true
  | _ => false

/-- Sets the cutover status; the lock follows it (R46, R47). -/
def setCutover (c : CutoverStatus) (s : State) : State :=
  { s with region := { s.region with status := c, lock := locks c } }

/-! ### Directory ways (R54 to R60) -/

/-- What a way that stored `x` stores when it is made FREE: code 0, tag 0, no holders, no binding (R55). Its parity
bits, which are not examined while it is FREE, are a free value (assumption 41). -/
def freeWay (x : Way) : Way :=
  let parity := Config.freedParity x.tag x.code x.holders x.tagParity x.stateParity
  ⟨0, 0, 0, none, parity.1, parity.2⟩

/-- A way as written for an entry over the way `x`, unbound, with both parity bits generated (R55, R58). -/
def wayFor (x : Way) (tag : DirTag) : Entry → Way
  | .free => freeWay x
  | .shared holders =>
    if holders = 0 then freeWay x
    else ⟨2, tag, holders, none, tagParityOf tag, stateParityOf 2 holders⟩
  | .owned o => ⟨3, tag, oneHost o, none, tagParityOf tag, stateParityOf 3 (oneHost o)⟩
  | .lost => ⟨4, tag, 0, none, tagParityOf tag, stateParityOf 4 0⟩

/-- A RESERVED way: the line's tag, no holders, and the binding, with parity generated (R55, R63). -/
def reservedWay (tag : DirTag) (t : TrackerNo) : Way :=
  ⟨1, tag, 0, some t, tagParityOf tag, stateParityOf 1 0⟩

/-- The entry that a way records, its parity being good (R55). -/
def entryOf (w : Way) : Entry :=
  if w.code = 2 then .shared w.holders
  else if w.code = 3 then (match members w.holders with | o :: _ => .owned o | [] => .free)
  else if w.code = 4 then .lost
  else .free

/-- 1 for a way whose stored state code is LOST, else 0. -/
def lostBit (w : Way) : Nat := if w.code = 4 then 1 else 0

/-- Writes one way. The LOST count follows every change into or out of stored code 4 (R69). -/
def putWay (k : SetNo) (w : WayNo) (v : Way) (s : State) : State :=
  let d := setOf s k
  let s1 := putSet s k { d with ways := d.ways.set w v }
  { s1 with dir := { s1.dir with lostCount := s.dir.lostCount + lostBit v - lostBit (wayOf s k w) } }

/-- Makes one way FREE (R55). -/
def putFree (k : SetNo) (w : WayNo) (s : State) : State := putWay k w (freeWay (wayOf s k w)) s

/-- Notes the ways made FREE at the present event (R60). -/
def noteFreed (l : List (SetNo × WayNo)) (s : State) : State := { s with dir := { s.dir with freed := l } }

/-- Moves a way to the most recent place of its set's touch order (R60); it no longer stands with the ways made FREE at
the present event. -/
def touchMost (k : SetNo) (w : WayNo) (s : State) : State :=
  let d := setOf s k
  noteFreed (s.dir.freed.filter (· ≠ (k, w))) (putSet s k { d with order := d.order.filter (· ≠ w) ++ [w] })

/-- The ways of a set made FREE at the present event and not touched since, in ascending order (R60). -/
def freedNow (s : State) (k : SetNo) : List WayNo := allWays.filter (fun w => (k, w) ∈ s.dir.freed)

/-- Moves ways of a set, just made FREE, to the least recent end of its touch order. All the ways of the set that the
present event makes FREE stand there together, the lowest-numbered least recent (R60). -/
def touchFreed (k : SetNo) (ways : List WayNo) (s : State) : State :=
  let s1 := noteFreed (s.dir.freed ++ ways.map (fun w => (k, w))) s
  let together := freedNow s1 k
  putSet s1 k { setOf s1 k with order := together ++ (setOf s1 k).order.filter (· ∉ together) }

/-- Moves a way just made FREE to the least recent end of its set's touch order (R60). -/
def touchLeast (k : SetNo) (w : WayNo) (s : State) : State := touchFreed k [w] s

/-- Whether a set is closed: in the purge list or in the purge slot (R165). -/
def isClosed (s : State) (k : SetNo) : Bool :=
  k ∈ s.integ.purgeList ∨ (s.integ.phase ≠ .idle ∧ s.integ.set = k)

/-- The way of a set that is bound to a tracker (R62). -/
def boundWay (s : State) (k : SetNo) (t : TrackerNo) : Option WayNo :=
  allWays.find? (fun w => (wayOf s k w).binding = some t)

/-- The hosts whose holding counts: those ONLINE or DEPARTING (R26). -/
def holding (s : State) : HostSet := hostSetOf (hosts.filter (isAdmitted s))

/-- An entry as a lookup reports it (R67). -/
def reportEntry (s : State) : Entry → Entry
  | .shared holders => .shared (holders &&& holding s)
  | .owned o => if isAdmitted s o then .owned o else .lost
  | e => e

/-- A presented entry as it is written (R65, R68). -/
def maskEntry (s : State) : Entry → Entry
  | .shared holders => if holders &&& holding s = 0 then .free else .shared (holders &&& holding s)
  | .owned o => if isAdmitted s o then .owned o else .lost
  | e => e

/-- Raises a LOST event, the LOST count apart, which follows the way (R69). -/
def lostEvent (line : LineNo) (owner : HostNo) (cause : LostCause) (s : State) : State :=
  latch .lost { s with dir := { s.dir with lostRecord := some ⟨line, owner, cause⟩ } }

/-- Writes a presented entry into a way with the masking of R68; a stored state that becomes LOST raises
the LOST event (R65, R69, R70). The touch order is apart. -/
def writeEntry (k : SetNo) (w : WayNo) (tag : DirTag) (e : Entry) (cause : LostCause) (s : State) : State :=
  let v := wayFor (wayOf s k w) tag (maskEntry s e)
  let s1 := putWay k w v s
  match e with
  | .owned o => if v.code = 4 ∧ (wayOf s k w).code ≠ 4 then lostEvent (lineOf tag k) o cause s1 else s1
  | _ => s1

/-! ### Trackers and lines (R75, R61) -/

/-- The tracker on a line, if one is in use (R75). -/
def trackerOn (s : State) (line : LineNo) : Option TrackerNo :=
  allTrackers.find? (fun t => match trackerOf s t with | some tr => tr.line = line | none => false)

/-- Whether a tracker's requester of an eviction has been granted: an EVICT tracker names it (R61). -/
def evictGranted (s : State) (t : TrackerNo) : Bool :=
  allTrackers.any (fun i => match trackerOf s i with | some tr => tr.waitingRequester = some t | none => false)

/-- Lets the waiting trackers that `wanted` picks ask again, beside those already let; all of them ask in the order
they began to wait (R61). -/
def letAsk (wanted : TrackerNo → Bool) (s : State) : State :=
  { s with
    trk := { s.trk with askAgain := s.trk.victimWait.filter (fun t => s.trk.askAgain.contains t || wanted t) } }

/-- Whether a tracker is on a line of a set, its eviction, if any, not granted (R61). -/
def waitsOn (s : State) (k : SetNo) (t : TrackerNo) : Bool :=
  match trackerOf s t with
  | some tr => lineSet tr.line = k && !evictGranted s t
  | none => false

/-- Reports a change in a set to the trackers that wait on it (R61). -/
def reportChange (k : SetNo) (s : State) : State := letAsk (waitsOn s k) s

/-- Makes a way FREE, moves it to least recent and reports the change (R60, R61). -/
def makeFree (k : SetNo) (w : WayNo) (s : State) : State :=
  reportChange k (touchLeast k w (putFree k w s))

/-- Whether an awaited set holds a host. -/
def awaits (tr : Tracker) (h : HostNo) : Bool := tr.awaited.any (fun a => a.host = h)

/-! ### The pool (R132) -/

/-- The byte of the pool at an address; an unlisted byte is 0, as INIT leaves it (R188). -/
def poolByte (m : Memory) (a : Nat) : Byte :=
  match m.pool.find? (fun c => c.1 = a) with
  | some c => c.2
  | none => 0

/-- The bytes of a line as they were last written. -/
def poolLine (m : Memory) (n : LineNo) : LineData :=
  ofBytes 512 ((List.range 64).map (fun i => poolByte m (64 * n.toNat + i)))

/-- The cells of one line's bytes that are not 0. -/
def lineCells (n : LineNo) (d : LineData) : List Host.Cell :=
  (List.range 64).filterMap (fun i => if lineByte d i = 0 then none else some (64 * n.toNat + i, lineByte d i))

/-- The cells of the pool with one line's bytes replaced. -/
def putLine (pool : List Host.Cell) (n : LineNo) (d : LineData) : List Host.Cell :=
  pool.filter (fun c => c.1 < 64 * n.toNat) ++ (lineCells n d ++ pool.filter (fun c => 64 * n.toNat + 64 ≤ c.1))

/-- A line written GOOD and not disturbed. -/
def goodCond : LineCond := ⟨false, none⟩

/-- The condition of a pool line. -/
def condOf (m : Memory) (n : LineNo) : LineCond :=
  match m.conds.find? (fun c => c.1 = n) with
  | some c => c.2
  | none => goodCond

/-- The list of conditions with one line's replaced; a plainly GOOD line is not listed. -/
def putCond (l : List (LineNo × LineCond)) (n : LineNo) (c : LineCond) : List (LineNo × LineCond) :=
  l.filter (fun x => x.1.toNat < n.toNat) ++
    ((if c = goodCond then [] else [(n, c)]) ++ l.filter (fun x => n.toNat < x.1.toNat))

/-- Writes a whole line to the pool, GOOD or with POISON_MARK; any earlier mark or fault is cleared (R132). -/
def writePool (n : LineNo) (d : LineData) (poisonMark : Bool) (s : State) : State :=
  { s with
    mem := { s.mem with pool := putLine s.mem.pool n d, conds := putCond s.mem.conds n ⟨poisonMark, none⟩ } }

/-- The pool in its canonical form: addresses inside the pool and strictly rising, no byte listed that is
0; lines of unusual condition rising, none listed that is plainly GOOD. -/
abbrev Memory.wf (m : Memory) : Prop :=
  m.pool.Pairwise (fun a b => a.1 < b.1) ∧ (∀ c ∈ m.pool, c.2 ≠ 0 ∧ c.1 < 268435456) ∧
    m.conds.Pairwise (fun a b => a.1.toNat < b.1.toNat) ∧ (∀ c ∈ m.conds, c.2 ≠ goodCond)

end Sys2Proof.Machine
end

