-- ==== Sys2Proof/Machine/PoolOps.lean ====
section
/-! DEFINITION. The pool memory controller: judging a read, the write buffer, its claims, the drain of an
entry, and the arbiter's choices (R132 to R142). -/

namespace Sys2Proof.Machine

/-! ### Reading the pool (R133) -/

/-- What a pool read finds: the data delivered, the poisoned flag, and the cause it is recorded with. -/
structure PoolRead where
  data : LineData
  poisoned : Bool
  cause : Option MemCause
deriving DecidableEq, Repr

/-- Judges a line's check code (R133). `double` is the free value that says which cause a marked line
with an uncorrectable disturbance is recorded with. -/
def judgeLine (m : Memory) (n : LineNo) (double : Bool) : PoolRead :=
  let c := condOf m n
  let written := poolLine m n
  match c.poisonMark, c.fault with
  | false, none => ⟨written, false, none⟩
  | false, some f =>
    if f.correctable then ⟨written, false, none⟩ else ⟨written ^^^ f.flips, true, some .uncorrectable⟩
  | true, none => ⟨written, true, some .poisonMark⟩
  | true, some f =>
    ⟨written ^^^ f.flips, true,
      some (if f.correctable = false ∧ double then .uncorrectable else .poisonMark)⟩

/-- The next free value of `Config.doubleFaultReadsUncorrectable`. -/
def doubleFault (s : State) : Bool := Config.doubleFaultReadsUncorrectable s.freeCount

/-- Makes a pool read of a line: what it finds, and the state with any error recorded (R133, R134). -/
def readPool (n : LineNo) (access : MemAccess) (source : Option WriteSource) (s : State) : PoolRead × State :=
  let r := judgeLine s.mem n (doubleFault s)
  match r.cause with
  | none => (r, s)
  | some c => (r, memError n access c source { s with freeCount := s.freeCount + 1 })

/-! ### The write buffer (R135 to R137) -/

/-- The write-buffer entry for a line. -/
def entryFor (m : Memory) (n : LineNo) : Option WbEntry := m.wbuf.find? (fun e => e.line = n)

/-- A write that reaches the buffer (R137). -/
structure Write where
  line : LineNo
  data : LineData
  mask : ByteMask
  poisoned : Bool
  source : WriteSource
deriving DecidableEq, Repr

/-- An entry after a write merges into it (R137). -/
def mergeEntry (w : Write) (e : WbEntry) : WbEntry :=
  { e with
    data := mergeUnder w.mask w.data e.data
    mask := e.mask ||| w.mask
    poisoned := if w.mask = fullMask then w.poisoned else e.poisoned || w.poisoned
    source := w.source
    rewritten := e.rewritten || e.draining }

/-- The buffer after a write is placed: merged into the line's entry, or a new, youngest entry (R137). -/
def placeIn (w : Write) (b : List WbEntry) : List WbEntry :=
  if b.any (fun e => e.line = w.line) then b.map (fun e => if e.line = w.line then mergeEntry w e else e)
  else b ++ [⟨w.line, w.data, w.mask, w.poisoned, w.source, false, false, false⟩]

/-- Places a granted write in the write buffer (R137). The fence markers are apart. -/
def placeWrite (w : Write) (s : State) : State :=
  { s with mem := { s.mem with wbuf := placeIn w s.mem.wbuf } }

/-- Whether an entry may drain: neither draining nor held (R135). -/
def isEligible (e : WbEntry) : Bool := !e.draining && !e.held

/-- Adds a claim at the tail of the write-buffer claim list; a claimant holds at most one (R136). -/
def addClaim (c : WbClaim) (s : State) : State :=
  { s with mem := { s.mem with claims := insertNew c s.mem.claims } }

/-- Takes a claim off the write-buffer claim list (R136). -/
def dropClaim (c : WbClaim) (s : State) : State :=
  { s with mem := { s.mem with claims := s.mem.claims.filter (· ≠ c) } }

/-! ### Fence markers (R129) -/

/-- A line joins the drain lines of a FENCE. -/
def joinDrain (line : LineNo) (x : FenceSlot) : FenceSlot :=
  { x with drainLines := insertNew line x.drainLines }

/-- The marker changes at a placement by a tracker (R129): for the FENCE whose pending request it carries,
and for a FENCE that waits on the absorbed data it holds. -/
def markTrackerPlaced (t : TrackerNo) (tr : Tracker) (s : State) : State :=
  hosts.foldl
    (fun s h => updSlot s h (fun x =>
      let x1 := match tr.requester with
        | some (rh, tag) => if rh = h ∧ tag ∈ x.requests then joinDrain tr.line x else x
        | none => x
      if t ∈ x1.absorptions then
        { joinDrain tr.line x1 with absorptions := x1.absorptions.filter (· ≠ t) }
      else x1)) s

/-- The marker change at a placement by a pending return of host `h` (R129). -/
def markReturnPlaced (h : HostNo) (line : LineNo) (s : State) : State :=
  updSlot s h (fun x => if line ∈ x.returns then joinDrain line x else x)

/-- The marker change at an absorption, by tracker `t`, of a modified pending return of host `h` (R129). -/
def markAbsorbed (h : HostNo) (line : LineNo) (t : TrackerNo) (s : State) : State :=
  updSlot s h (fun x => if line ∈ x.returns then { x with absorptions := insertNew t x.absorptions } else x)

/-- The marker change at the drain of a line's entry (R129). -/
def markDrained (line : LineNo) (s : State) : State :=
  hosts.foldl
    (fun s h => updSlot s h (fun x => { x with drainLines := x.drainLines.filter (· ≠ line) })) s

/-! ### Drains (R138) -/

/-- Marks an entry as draining and gives it the port; every drain grant sets the read streak to 0 (R138, R140). -/
def grantDrain (e : WbEntry) (s : State) : State :=
  { s with
    mem := { s.mem with
      wbuf := s.mem.wbuf.map (fun x => if x.line = e.line then { x with draining := true } else x)
      port := .drain e
      streak := 0 } }

/-- Writes a draining entry to the pool: a full entry as it stands; a partial one merged with the pool
line it reads (R138). -/
def drainToPool (e : WbEntry) (s : State) : State :=
  if e.mask = fullMask then writePool e.line e.data e.poisoned s
  else
    let (r, s1) := readPool e.line .drain (some e.source) s
    writePool e.line (mergeUnder e.mask e.data r.data) r.poisoned s1

/-- Whether the entry of a drain just completed stays: it was rewritten or is held (R138), and no
POOL_CLEAR is discarding the buffer (R191). -/
def staysAfterDrain (clearing : Bool) (x : WbEntry) : Bool := !clearing && (x.rewritten || x.held)

/-- The buffer after the drain of a line's entry completes (R138, R191). -/
def afterDrain (clearing : Bool) (line : LineNo) (b : List WbEntry) : List WbEntry :=
  b.filterMap (fun x =>
    if x.line ≠ line then some x
    else if staysAfterDrain clearing x then some { x with draining := false, rewritten := false }
    else none)

/-- The port becomes free at the completion of an access, or goes to the rewrite of the whole pool that
waits for it (R191). No access reads a line while the rewrite runs, so the lines stand cleared from its start. -/
def freePort (s : State) : State :=
  if s.mem.clearing then { s with mem := { s.mem with port := .rewrite, pool := [], conds := [] } }
  else { s with mem := { s.mem with port := .idle } }

/-- Completes the drain that holds the port (R138): the pool is written, the entry leaves or stays, the
completion is reported to the fence markers unless the entry was rewritten meanwhile, and the port is freed. -/
def completeDrain (e : WbEntry) (s : State) : State :=
  let s1 := drainToPool e s
  let wasRewritten := s1.mem.wbuf.any (fun x => x.line = e.line ∧ x.rewritten)
  let s2 := freePort { s1 with mem := { s1.mem with wbuf := afterDrain s1.mem.clearing e.line s1.mem.wbuf } }
  if wasRewritten then s2 else markDrained e.line s2

/-! ### The arbiter (R140, R142) -/

/-- The oldest eligible entry. -/
def oldestEligible (m : Memory) : Option WbEntry := m.wbuf.find? isEligible

/-- The head read is granted: it leaves the read list and holds the port; the streak rises by one if an
eligible entry stands, and otherwise is 0 (R140). -/
def grantRead (t : TrackerNo) (rest : List TrackerNo) (s : State) : State :=
  { s with
    mem := { s.mem with
      reads := rest
      port := .read t
      streak := if (oldestEligible s.mem).isSome then s.mem.streak + 1 else 0 } }

/-- The arbiter's choice when the port is free (R140). -/
def arbiterChoice (s : State) : Option State :=
  match oldestEligible s.mem, s.mem.reads with
  | some e, [] => some (grantDrain e s)
  | some e, t :: rest =>
    if 8 ≤ s.mem.wbuf.length ∨ 4 ≤ s.mem.streak then some (grantDrain e s) else some (grantRead t rest s)
  | none, t :: rest => some (grantRead t rest s)
  | none, [] => none

/-- The arbiter chooses whenever the port is free and something waits (R140); while a POOL_CLEAR runs it
grants nothing (R191). -/
def dueArbiter (s : State) : Option State :=
  if s.mem.port = .idle ∧ s.mem.clearing = false then arbiterChoice s else none

/-- At the drain step of a hub reset the port goes to drains alone, in order of age (R142). -/
def dueResetDrain (s : State) : Option State :=
  if s.mem.port = .idle then
    (s.mem.wbuf.find? (fun e => !e.draining)).map (fun e => grantDrain e s)
  else none

end Sys2Proof.Machine
end

