-- ==== Sys2Proof/Machine/TrackerOps.lean ====
section
/-! DEFINITION. The life of a tracker: allocation, the recall round, contents, writing, reply and commit,
release to re-park, the asking for a way, eviction, and the scrub (R61 to R66, R75 to R83, R91, R93,
R96 to R110, R119 to R126, R160 to R165). -/

namespace Sys2Proof.Machine

/-! ### Records -/

/-- The tracker kind of a request (R76). A FENCE takes no tracker (R127). -/
def kindOf : ReqKind → Option TrackerKind
  | .readShared => some .readShared
  | .readOwn => some .readOwn
  | .upgrade => some .upgrade
  | .directRead => some .directRead
  | .directWrite => some .directWrite
  | .atomic => some .atomic
  | .fence => none

/-- The request kind of a host-pool tracker's kind (R91); an internal kind carries no request. -/
def reqKindOf : TrackerKind → Option ReqKind
  | .readShared => some .readShared
  | .readOwn => some .readOwn
  | .upgrade => some .upgrade
  | .directRead => some .directRead
  | .directWrite => some .directWrite
  | .atomic => some .atomic
  | .evict => none
  | .sweepRecall => none

/-- A tracker's record at allocation (R76). -/
def newTracker (kind : TrackerKind) (line : LineNo) (mode : RegionMode)
    (requester : Option (HostNo × HostTag)) (operands : Operands) : Tracker where
  kind := kind
  line := line
  mode := mode
  requester := requester
  operands := operands
  phase := .setup
  awaited := []
  deadline := none
  graceUsed := false
  buffer := none
  waitingRequester := none
  result := none
  ownerLost := false
  stored := .free
  reported := .free
  scrubbing := false
  dropped := 0
  kept := false

/-- The lowest-numbered free tracker of the host pool (R75). -/
def freeHostTracker (s : State) : Option TrackerNo := hostPool.find? (fun t => trackerOf s t = none)

/-- The lowest-numbered free tracker of the internal pool (R75). -/
def freeInternalTracker (s : State) : Option TrackerNo := internalPool.find? (fun t => trackerOf s t = none)

/-- Whether a tracker kind is coherent (06). -/
def isCoherent : TrackerKind → Bool
  | .readShared => true
  | .readOwn => true
  | .upgrade => true
  | _ => false

/-- The byte mask and data of a DIRECT_WRITE; nothing for another kind. -/
def writeOperands (tr : Tracker) : ByteMask × LineData :=
  match tr.operands with
  | .write mask data => (mask, data)
  | _ => (0, 0)

/-- Whether a tracker carries a full-line DIRECT_WRITE (R71, R120). -/
def isFullWrite (tr : Tracker) : Bool := tr.kind = .directWrite ∧ (writeOperands tr).1 = fullMask

/-- Whether the data buffer holds data with the modified flag. -/
def holdsModified (tr : Tracker) : Bool := match tr.buffer with | some b => b.modified | none => false

/-! ### Freeing (R78) -/

/-- Whether some VALID way of a line's set holds that line (R61). -/
def lineHasWay (s : State) (line : LineNo) : Bool :=
  allWays.any (fun w => 2 ≤ (wayOf s (lineSet line) w).code.toNat ∧ (wayOf s (lineSet line) w).tag = lineTag line)

/-- The freeing of a tracker of the host pool lets every queue head that waited for one be judged again (R92). -/
def headsAfterFree (t : TrackerNo) (passed : HostSet) : HostSet := if t.val < 56 then 0 else passed

/-- What the walker waits for, once the tracker on a line has committed or is freed: it waits no more for that line's
entry, and examines the way it stands at afresh (R148). -/
def toldFree (line : LineNo) (x : WalkWait) : WalkWait := if x = .busy line then .ready else x

/-- Frees a tracker: its record is cleared, it leaves every list that names it, the set of its line
is told if one of its ways holds that line, the walker that waits for the line is told, and the dispatcher is told of a
place in the host pool (R61, R78, R148). -/
def freeTracker (t : TrackerNo) (s : State) : State :=
  match trackerOf s t with
  | none => s
  | some tr =>
    let s1 := setTracker s t none
    let s2 : State := { s1 with
      trk := { s1.trk with
        claims := s1.trk.claims.filter (· ≠ .evict t)
        victimWait := s1.trk.victimWait.filter (· ≠ t)
        askAgain := s1.trk.askAgain.filter (· ≠ t)
        reparkWait := s1.trk.reparkWait.filter (· ≠ t) }
      walker := { s1.walker with
        trackers := s1.walker.trackers.filter (· ≠ t)
        wait := toldFree tr.line s1.walker.wait }
      disp := { s1.disp with passedOver := headsAfterFree t s1.disp.passedOver } }
    if lineHasWay s2 tr.line then reportChange (lineSet tr.line) s2 else s2

/-- The tracker leaves VICTIM_WAIT: it waits for no way and claims none (R79). -/
def leaveVictimWait (t : TrackerNo) (s : State) : State :=
  { s with
    trk := { s.trk with
      claims := s.trk.claims.filter (· ≠ .evict t)
      victimWait := s.trk.victimWait.filter (· ≠ t)
      askAgain := s.trk.askAgain.filter (· ≠ t) } }

/-! ### Reply and commit (R65, R107 to R110, R120 to R126) -/

/-- Whether a requester is granted what it asks: its port is ONLINE at the commit (R109). -/
def requesterOnline (s : State) (tr : Tracker) : Bool :=
  match tr.requester with
  | some (h, _) => portState s h = .online
  | none => false

/-- The hosts that a READ_SHARED presents as sharers beside its requester (R103): the stored holders, but none where
the lookup reported SHARED with no holders; a former owner that kept a copy. -/
def sharersBeside (tr : Tracker) : HostSet :=
  match tr.stored with
  | .shared holders => if tr.reported = .shared 0 then 0 else holders
  | .owned o => if tr.kept then oneHost o else 0
  | _ => 0

/-- The entry a coherent tracker presents when it grants, or would grant but for its requester's port
state (R103 to R105, R109). -/
def presentCoherent (s : State) (tr : Tracker) : Entry :=
  match tr.requester with
  | none => tr.stored
  | some (h, _) =>
    match tr.kind with
    | .readShared =>
      .shared (if requesterOnline s tr then addHost (sharersBeside tr) h else sharersBeside tr)
    | _ =>
      if requesterOnline s tr then .owned h
      else
        match tr.stored with
        | .shared holders => if hasHost holders h then .shared (oneHost h) else .free
        | _ => .free

/-- The entry a DIRECT_READ presents (R121). -/
def presentDirectRead (tr : Tracker) : Entry :=
  match tr.reported with
  | .shared holders => if holders = 0 then .free else tr.stored
  | .owned o => if tr.kept then .shared (oneHost o) else .free
  | .lost => tr.stored
  | .free => .free

/-- The entry a SWEEP_RECALL tracker presents (R147). -/
def presentSweep (tr : Tracker) : Entry :=
  if tr.ownerLost ∨ tr.reported = .lost then tr.stored
  else
    match tr.stored with
    | .shared holders => .shared (holders &&& ~~~tr.dropped)
    | .owned o => if hasHost tr.dropped o then .free else if tr.kept then .shared (oneHost o) else .free
    | e => e

/-- The entry a tracker presents at its commit. A refusal presents the stored entry (R106, R110, R120). -/
def presented (s : State) (refuse : Option RefuseReason) (tr : Tracker) : Entry :=
  match refuse with
  | some _ => tr.stored
  | none =>
    match tr.kind with
    | .directRead => presentDirectRead tr
    | .directWrite => .free
    | .atomic => .free
    | .evict => if tr.ownerLost ∨ tr.reported = .lost then tr.stored else .free
    | .sweepRecall => presentSweep tr
    | _ => presentCoherent s tr

/-- The data of a tracker's buffer, with its poisoned flag. -/
def bufferData (tr : Tracker) : LineData × Bool :=
  match tr.buffer with
  | some b => (b.data, b.poisoned)
  | none => (0, false)

/-- The response of a tracker that does not refuse (R108, R121, R122, R125, R126). -/
def responseOf (tr : Tracker) (tag : HostTag) : HubMsg :=
  match tr.kind with
  | .readShared => .dataShared tag tr.line (bufferData tr).2 (bufferData tr).1
  | .readOwn => .dataOwned tag tr.line (bufferData tr).2 (bufferData tr).1
  | .upgrade => .grant tag tr.line
  | .directRead => .dataDirect tag tr.line (bufferData tr).2 (bufferData tr).1
  | .atomic =>
    match tr.result with
    | some (status, value) => .doneReq tag status (some value)
    | none => .doneReq tag .ok none
  | _ => .doneReq tag .ok none

/-- Hands the response to the requester's outbound queue; internal kinds send none (R78). A coherent
request of a DEPARTING requester is refused NOT_ONLINE at its commit (R29, R109). -/
def sendResponse (tr : Tracker) (refuse : Option RefuseReason) (s : State) : State :=
  match tr.requester with
  | none => s
  | some (h, tag) =>
    match refuse with
    | some r => respond h tag (.refuseReq tag r) s
    | none =>
      if isCoherent tr.kind ∧ portState s h = .departing then respond h tag (.refuseReq tag .notOnline) s
      else respond h tag (responseOf tr tag) s

/-- A way of a set passes to an EVICT tracker's waiting requester: RESERVED at once if it has been freed
(R63), else the requester asks again (R61). -/
def handOver (k : SetNo) (w : WayNo) (waiting : Option TrackerNo) (s : State) : State :=
  match waiting with
  | none => s
  | some r =>
    match trackerOf s r with
    | none => s
    | some rt =>
      if (wayOf s k w).code = 0 then putWay k w (reservedWay (lineTag rt.line) r) s
      else letAsk (· = r) s

/-- The touch a commit or a return update gives the way it wrote (R60). -/
def touchWritten (k : SetNo) (w : WayNo) (s : State) : State :=
  if (wayOf s k w).code = 0 then touchLeast k w s else touchMost k w s

/-- Makes a tracker's commit, if it is bound to a way (R65), with the handover of an eviction (R63). -/
def commit (t : TrackerNo) (tr : Tracker) (e : Entry) (s : State) : State :=
  let k := lineSet tr.line
  match boundWay s k t with
  | none => s
  | some w =>
    reportChange k (handOver k w tr.waitingRequester (touchWritten k w (writeEntry k w (lineTag tr.line) e .commit s)))

/-- REPLY: the response is handed over, the commit is made, and the tracker is freed, at one event (R77, R78). -/
def reply (t : TrackerNo) (refuse : Option RefuseReason) (s : State) : State :=
  match trackerOf s t with
  | none => s
  | some tr => freeTracker t (commit t tr (presented s refuse tr) (sendResponse tr refuse s))

/-! ### Writing to the pool (R101, R123, R125) -/

/-- What a tracker has to write: for a scrub, an internal kind, a coherent request or a DIRECT_READ, its
modified data (R101); for a DIRECT_WRITE the table of R123; for an ATOMIC the line as changed (R125),
or poisoned modified data as it came (R126). -/
def trackerWrite (tr : Tracker) : Option (LineData × ByteMask × Bool) :=
  let modified : Option (LineData × ByteMask × Bool) :=
    match tr.buffer with
    | some b => if b.modified then some (b.data, fullMask, b.poisoned) else none
    | none => none
  if tr.scrubbing then modified
  else
    match tr.kind, tr.operands with
    | .directWrite, .write mask data =>
      match tr.buffer with
      | none => if mask = 0 then none else some (data, mask, false)
      | some b =>
        if mask = fullMask then some (data, fullMask, false)
        else if mask = 0 then modified
        else some (mergeUnder mask data b.data, fullMask, b.poisoned)
    | .atomic, .atomic op word first second =>
      match tr.buffer with
      | none => none
      | some b =>
        if b.poisoned then modified
        else
          let old := lineWord b.data word
          let new := (atomicResult op first second old).1
          if new ≠ old ∨ b.modified then some (setLineWord b.data word new, fullMask, false) else none
    | _, _ => modified

/-- The tracker enters MEM_WAIT and claims the write buffer (R101, R136). -/
def claimWrite (t : TrackerNo) (s : State) : State :=
  addClaim (.tracker t) (updTracker s t (fun tr => { tr with phase := .memWait }))

/-- Claims the write buffer if the tracker has something to write, else replies. -/
def writeOrReply (t : TrackerNo) (s : State) : State :=
  match trackerOf s t with
  | none => s
  | some tr => if (trackerWrite tr).isSome then claimWrite t s else reply t none s

/-- The status and value of an ATOMIC whose contents are in the buffer (R125, R126). -/
def atomicOutcome (tr : Tracker) : Option (DoneStatus × Word64) :=
  match tr.operands, tr.buffer with
  | .atomic op word first second, some b =>
    let old := lineWord b.data word
    if b.poisoned then some (.poisoned, old) else some ((atomicResult op first second old).2, old)
  | _, _ => none

/-- The tracker has the line's contents in its buffer: an ATOMIC applies its op; every kind then writes
what it must and replies (R100, R125). -/
def contentsReady (t : TrackerNo) (s : State) : State :=
  writeOrReply t (updTracker s t (fun tr =>
    match tr.kind with
    | .atomic => { tr with result := atomicOutcome tr }
    | _ => tr))

/-! ### Reading the pool (R139) -/

/-- Fills a tracker's data buffer from the memory controller; the modified flag is clear (R139). -/
def fillBuffer (t : TrackerNo) (data : LineData) (poisoned : Bool) (source : DataSource) (s : State) : State :=
  updTracker s t (fun tr => { tr with buffer := some ⟨data, false, poisoned, source, none⟩ })

/-- The tracker enters MEM_WAIT and asks for its line: a full write-buffer entry serves it at once; a
partial one is held while a pool read is made; otherwise a pool read joins the read list (R139). -/
def requestRead (t : TrackerNo) (s : State) : State :=
  match trackerOf s t with
  | none => s
  | some tr =>
    let s1 := updTracker s t (fun tr => { tr with phase := .memWait })
    match entryFor s1.mem tr.line with
    | some e =>
      if e.mask = fullMask then contentsReady t (fillBuffer t e.data e.poisoned .forward s1)
      else
        { s1 with
          mem := { s1.mem with
            wbuf := s1.mem.wbuf.map (fun x => if x.line = tr.line then { x with held := true } else x)
            reads := insertNew t s1.mem.reads } }
    | none => { s1 with mem := { s1.mem with reads := insertNew t s1.mem.reads } }

/-! ### The end of a scrub (R162) -/

/-- Ends a scrub: the way is made FREE, and the tracker goes on by its kind. -/
def endScrub (t : TrackerNo) (s : State) : State :=
  match trackerOf s t with
  | none => s
  | some tr =>
    let k := lineSet tr.line
    let s1 :=
      match boundWay s k t with
      | none => s
      | some w => reportChange k (handOver k w tr.waitingRequester (touchLeast k w (putFree k w s)))
    match tr.kind with
    | .evict => freeTracker t s1
    | .sweepRecall => freeTracker t s1
    | _ =>
      updTracker s1 t (fun tr =>
        { tr with
          phase := .setup, awaited := [], deadline := none, graceUsed := false, ownerLost := false,
          stored := .free, reported := .free, scrubbing := false, dropped := 0, kept := false })

/-! ### Going on from a recall round (R77, R100, R110, R120) -/

/-- The tracker goes on once its recall round has ended, or at once where it sent none: to its write, its
read, the end of its scrub, its reply, or its refusal LOST where its owner was let go without data. -/
def goOn (t : TrackerNo) (s : State) : State :=
  match trackerOf s t with
  | none => s
  | some tr =>
    if tr.scrubbing then (if holdsModified tr then claimWrite t s else endScrub t s)
    else
      match tr.kind with
      | .evict => writeOrReply t s
      | .sweepRecall => writeOrReply t s
      | .directWrite => if tr.ownerLost ∧ !isFullWrite tr then reply t (some .lost) s else writeOrReply t s
      | .upgrade => writeOrReply t s
      | _ =>
        if tr.ownerLost then reply t (some .lost) s
        else if tr.buffer.isSome then contentsReady t s
        else requestRead t s

/-! ### The recall round (R80, R96) -/

/-- The recall message of a kind. -/
def recallMsg (kind : RecallKind) (line : LineNo) (t : TrackerNo) : HubMsg :=
  match kind with
  | .drop => .recallDrop line t
  | .share => .recallShare line t

/-- Sends a recall round: the messages, the awaited set, the deadline and RECALL (R80). A round that names
no host sends nothing and the tracker goes on. -/
def startRound (t : TrackerNo) (round : List (HostNo × RecallKind)) (s : State) : State :=
  match trackerOf s t with
  | none => s
  | some tr =>
    match round with
    | [] => goOn t s
    | _ :: _ =>
      let s1 := round.foldl (fun s r => place r.1 (recallMsg r.2 tr.line t) s) s
      updTracker s1 t (fun tr =>
        { tr with
          phase := .recall
          awaited := round.map (fun r => ⟨r.1, r.2, false⟩)
          deadline := some s.mgmt.recallLimit.toNat
          graceUsed := false
          dropped := hostSetOf ((round.filter (fun r => r.2 = .drop)).map (fun r => r.1)) })

/-- A round of one recall kind to each host of a holder set. -/
def roundTo (kind : RecallKind) (holders : HostSet) : List (HostNo × RecallKind) :=
  (members holders).map (fun h => (h, kind))

/-- The holder set of a reported entry. -/
def holdersOf : Entry → HostSet
  | .shared holders => holders
  | .owned o => oneHost o
  | _ => 0

/-- The round of a host-pool tracker from the entry its lookup reports (R96, R105, R121, R122, R124). -/
def roundOf (kind : TrackerKind) (requester : HostNo) (e : Entry) : List (HostNo × RecallKind) :=
  match kind, e with
  | .readShared, .owned o => [(o, .share)]
  | .readShared, _ => []
  | .directRead, .owned o => [(o, .share)]
  | .directRead, _ => []
  | .directWrite, e => roundTo .drop (holdersOf e)
  | .atomic, e => roundTo .drop (holdersOf e)
  | _, .shared holders => roundTo .drop (dropHost holders requester)
  | _, .owned o => [(o, .drop)]
  | _, _ => []

/-- The recall round of a scrub: RECALL_DROP to every host ONLINE or DEPARTING (R160). -/
def startScrub (t : TrackerNo) (s : State) : State :=
  startRound t (roundTo .drop (holding s))
    (updTracker s t (fun tr => { tr with scrubbing := true, stored := .free, reported := .free }))

/-- Binds a way to a tracker (R62). -/
def bindWay (k : SetNo) (w : WayNo) (t : TrackerNo) (s : State) : State :=
  putWay k w { wayOf s k w with binding := some t } s

/-- An internal tracker just bound to a way takes its entry as a lookup would report it: a LOST view is
committed as stored; otherwise the round is sent, to those whose holding counts (R93, R147). -/
def startInternal (t : TrackerNo) (round : List (HostNo × RecallKind)) (e : Entry) (s : State) : State :=
  let s1 := updTracker s t (fun tr => { tr with stored := e, reported := reportEntry s e })
  if reportEntry s e = .lost then reply t none s1
  else startRound t (round.filter (fun r => isAdmitted s r.1)) s1

/-! ### Release to re-park (R91, R165) -/

/-- Puts a request just ahead of the first request already parked for its line, or at the tail (R91). -/
def parkAhead (p : Parked) : List Parked → List Parked
  | [] => [p]
  | q :: rest => if q.req.line = p.req.line then p :: q :: rest else q :: parkAhead p rest

/-- The request a host-pool tracker carries. -/
def requestOf (tr : Tracker) : Option Parked :=
  match tr.requester, reqKindOf tr.kind with
  | some (h, tag), some kind => some ⟨h, ⟨kind, tag, tr.line, tr.operands⟩⟩
  | _, _ => none

/-- Parks a released tracker's request in its place and frees the tracker (R91). -/
def reparkNow (t : TrackerNo) (s : State) : State :=
  match trackerOf s t with
  | none => s
  | some tr =>
    match requestOf tr with
    | none => freeTracker t s
    | some p => freeTracker t { s with disp := { s.disp with park := parkAhead p s.disp.park } }

/-- Gives up a way the tracker has reserved (R66). -/
def giveUpReservation (t : TrackerNo) (s : State) : State :=
  match trackerOf s t with
  | none => s
  | some tr =>
    match boundWay s (lineSet tr.line) t with
    | none => s
    | some w => if (wayOf s (lineSet tr.line) w).code = 1 then makeFree (lineSet tr.line) w s else s

/-- Releases a host-pool tracker (R91, R165): it gives up its reservation and its claim; its request is parked
and it is freed, or, with the park list full, it waits in SETUP to re-park. So it does too while others wait for a
place: one just freed goes to the tracker that began to wait first. It does so whatever its requester's port state: a
fence frees a tracker that waits to re-park at that event alone (R77, R94). -/
def release (t : TrackerNo) (s : State) : State :=
  match trackerOf s t with
  | none => s
  | some _ =>
    let s1 := leaveVictimWait t (giveUpReservation t s)
    if s1.trk.reparkWait = [] ∧ s1.disp.park.length < 48 then reparkNow t s1
    else
      let s2 := updTracker s1 t (fun tr => { tr with phase := .setup })
      { s2 with trk := { s2.trk with reparkWait := insertNew t s2.trk.reparkWait } }

/-! ### Parity errors handed over, and the closing of a set (R159, R165) -/

/-- The parity errors that a read of the given ways finds, in the order given. -/
def errorsIn (s : State) (k : SetNo) (ways : List WayNo) : List (WayNo × ParityKind) :=
  ways.filterMap (fun w =>
    match checkWay (wayOf s k w) with
    | .tagError => some (w, .tag)
    | .stateError => some (w, .state)
    | _ => none)

/-- Closes a set (R165): it joins the purge list; every host-pool tracker in VICTIM_WAIT for it is released,
in the order they began to wait; an EVICT tracker running for one of them loses its waiting requester. -/
def closeSet (k : SetNo) (s : State) : State :=
  let s1 : State := { s with integ := { s.integ with purgeList := insertNew k s.integ.purgeList } }
  let s2 := internalPool.foldl
    (fun s i =>
      match trackerOf s i with
      | some tr => if lineSet tr.line = k then updTracker s i (fun tr => { tr with waitingRequester := none }) else s
      | none => s) s1
  let waiting := s2.trk.victimWait.filter
    (fun t => match trackerOf s2 t with | some tr => lineSet tr.line = k | none => false)
  waiting.foldl (fun s t => release t s) s2

/-- Hands one parity error to the Integrity Unit (R159). -/
def handError (k : SetNo) (reader : Reader) (s : State) (e : WayNo × ParityKind) : State :=
  let s1 := recordParity k e.1 e.2 reader s
  if e.2 = .tag ∧ isClosed s1 k = false then closeSet k s1 else s1

/-- Hands over, in ascending way number, every parity error that a read of the given ways finds (R159). -/
def handErrors (k : SetNo) (ways : List WayNo) (reader : Reader) (s : State) : State :=
  (errorsIn s k ways).foldl (handError k reader) s

/-! ### Asking for a way (R61, R63, R164) -/

/-- The least recently touched FREE way of a set. -/
def leastRecentFree (s : State) (k : SetNo) : Option WayNo :=
  (setOf s k).order.find? (fun w => (wayOf s k w).code = 0)

/-- Whether a way is a victim: VALID, unbound, not LOST, of good parity, with no tracker on its line (R61). -/
def isVictim (s : State) (k : SetNo) (w : WayNo) : Bool :=
  let x := wayOf s k w
  checkWay x = .good ∧ x.code ≠ 4 ∧ x.binding = none ∧ trackerOn s (lineOf x.tag k) = none

/-- Whether a way has a state parity error and good tag parity, with no tracker on its line (R164). -/
def isScrubVictim (s : State) (k : SetNo) (w : WayNo) : Bool :=
  let x := wayOf s k w
  checkWay x = .stateError ∧ x.binding = none ∧ trackerOn s (lineOf x.tag k) = none

/-- The way given to an eviction: the least recently touched victim (R61), or, where there is none, the
least recently touched way to scrub (R164). -/
def victimOf (s : State) (k : SetNo) : Option WayNo :=
  match (setOf s k).order.find? (isVictim s k) with
  | some w => some w
  | none => (setOf s k).order.find? (isScrubVictim s k)

/-- Whether some way of a set is bound or RESERVED, or some VALID way's line has a tracker on it (R61, case 3). -/
def someWayInUse (s : State) (k : SetNo) : Bool :=
  allWays.any (fun w =>
    let x := wayOf s k w
    x.binding.isSome ∨ x.code = 1 ∨ (2 ≤ x.code.toNat ∧ (trackerOn s (lineOf x.tag k)).isSome))

/-- Whether all eight ways of a set are LOST (R61, case 4). -/
def allLost (s : State) (k : SetNo) : Bool := allWays.all (fun w => (wayOf s k w).code = 4)

/-- The tracker waits in VICTIM_WAIT, in its place among those that wait (R61). -/
def waitForWay (t : TrackerNo) (s : State) : State :=
  let s1 := updTracker s t (fun tr => { tr with phase := .victimWait })
  { s1 with trk := { s1.trk with victimWait := insertNew t s1.trk.victimWait } }

/-- The tracker claims the internal pool for an eviction; a claim it holds stands (R79). -/
def claimEviction (t : TrackerNo) (s : State) : State :=
  { s with trk := { s.trk with claims := insertNew (.evict t) s.trk.claims } }

/-- A host-pool tracker asks for a way in its line's set (R61, R164). A reserve in a closed set is not made:
the tracker is released (R165). -/
def askWay (t : TrackerNo) (s : State) : State :=
  match trackerOf s t with
  | none => s
  | some tr =>
    let k := lineSet tr.line
    if isClosed s k then release t s
    else
      match leastRecentFree s k with
      | some w => goOn t (leaveVictimWait t (putWay k w (reservedWay (lineTag tr.line) t) s))
      | none =>
        let s1 := handErrors k allWays .reserve s
        if isClosed s1 k then release t s1
        else if (victimOf s1 k).isSome then claimEviction t (waitForWay t s1)
        else if someWayInUse s1 k then waitForWay t s1
        else if allLost s1 k then reply t (some .noEntry) (leaveVictimWait t s1)
        else waitForWay t s1

/-- The grant of an internal tracker for an eviction (R61, R79, R93, R164): the victim is chosen again and
bound to it at once. With no victim left the tracker is given back and the asking tracker asks again. -/
def grantEviction (asker i : TrackerNo) (s : State) : State :=
  match trackerOf s asker with
  | none => s
  | some tr =>
    let k := lineSet tr.line
    if isClosed s k then release asker s
    else
      let s1 := handErrors k allWays .reserve s
      if isClosed s1 k then s1
      else
        match victimOf s1 k with
        | none => letAsk (· = asker) s1
        | some w =>
          let x := wayOf s1 k w
          let new : Tracker :=
            { newTracker .evict (lineOf x.tag k) .tracked none .absent with waitingRequester := some asker }
          let s2 := bindWay k w i (setTracker s1 i (some new))
          if checkWay x = .stateError then startScrub i s2
          else startInternal i (roundTo .drop (holdersOf (entryOf x))) (entryOf x) s2

/-! ### The lookup (R62, R160, R165) -/

/-- The VALID way of a line's set whose tag is the line's, tag parity good. -/
def matchingWay (s : State) (line : LineNo) : Option WayNo :=
  allWays.find? (fun w =>
    let x := wayOf s (lineSet line) w
    (checkWay x = .good ∨ checkWay x = .stateError) ∧ x.tag = lineTag line)

/-- Whether a read of a set finds a tag parity error. -/
def hasTagError (s : State) (k : SetNo) : Bool := allWays.any (fun w => checkWay (wayOf s k w) = .tagError)

/-- The kind a request is served as, once its lookup reports an entry: an UPGRADE whose requester is not a
holder is served as a READ_OWN (R105). -/
def servedAs (kind : TrackerKind) (requester : HostNo) (e : Entry) : TrackerKind :=
  match kind, e with
  | .upgrade, .shared holders => if hasHost holders requester then .upgrade else .readOwn
  | .upgrade, .lost => .upgrade
  | .upgrade, _ => .readOwn
  | k, _ => k

/-- The refusal that the reported entry brings at once (R71, R106). -/
def refusalAt (tr : Tracker) (requester : HostNo) (e : Entry) : Option RefuseReason :=
  match e with
  | .lost => if isFullWrite tr then none else some .lost
  | .owned o => if isCoherent tr.kind ∧ o = requester then some .protocol else none
  | _ => none

/-- The lookup has found no way for the line: a coherent request asks for one, a direct kind for none
(R63, R105, R119). -/
def lookupMiss (t : TrackerNo) (tr : Tracker) (s : State) : State :=
  let s1 := updTracker s t (fun tr => { tr with kind := servedAs tr.kind 0 .free })
  if isCoherent tr.kind then askWay t s1 else goOn t s1

/-- The lookup has found the line's way with good parity (R62, R96, R106). -/
def lookupHit (t : TrackerNo) (tr : Tracker) (w : WayNo) (s : State) : State :=
  match tr.requester with
  | none => s
  | some (h, _) =>
    let k := lineSet tr.line
    let e := entryOf (wayOf s k w)
    let r := reportEntry s e
    let kind := servedAs tr.kind h r
    let s1 := updTracker (bindWay k w t s) t (fun tr => { tr with kind := kind, stored := e, reported := r })
    match refusalAt tr h r with
    | some reason => reply t (some reason) s1
    | none => startRound t (roundOf kind h r) s1

/-- A host-pool tracker in SETUP looks its line up (R62, R119, R160, R165). -/
def lookup (t : TrackerNo) (s : State) : State :=
  match trackerOf s t with
  | none => s
  | some tr =>
    let k := lineSet tr.line
    if isClosed s k then release t s
    else
      let s1 := handErrors k allWays .lookup s
      if hasTagError s k then release t s1
      else
        match matchingWay s tr.line with
        | none => lookupMiss t tr s1
        | some w =>
          if checkWay (wayOf s k w) = .stateError then startScrub t (bindWay k w t s1) else lookupHit t tr w s1

end Sys2Proof.Machine
end

