-- ==== Sys2Proof/Machine/PortOps.lean ====
section
/-! DEFINITION. The Port Controller: the start of a fence, the end of a departure and of a forfeit, and the
two-stage deadlines of a tracker and of the purge slot (R24 to R36, R82, R83, R168). -/

namespace Sys2Proof.Machine

/-! ### The start of a fence (R22, R34, R35) -/

/-- The HLI of a fenced host clears its queues, marks and lists; its outbound queue is emptied (R22). -/
def clearHli (x : Hli) : Hli :=
  { x with
    laneA := [], stalled := false, laneB := [], answered := [], purgeAnswer := false,
    controlPending := false, tags := [], returns := [], outbound := [] }

/-- Brings the walk list to a forfeit for host `h` (R34, R151). A running DEPART(h) becomes FORFEIT(h) where
it stands: a claim is withdrawn, a wait at a busy way ends, and the way is dealt with as R150 gives. -/
def walkerForfeit (h : HostNo) (s : State) : State :=
  if s.walker.current = some (.depart h) then
    let standing : Bool := match s.walker.wait with | .visit => false | _ => true
    { s with
      walker := { s.walker with current := some (.forfeit h), wait := if standing then .ready else .visit }
      trk := { s.trk with claims := s.trk.claims.filter (· ≠ .walker) } }
  else if Job.depart h ∈ s.walker.jobs then
    { s with
      walker := { s.walker with jobs := s.walker.jobs.map (fun j => if j = .depart h then .forfeit h else j) } }
  else { s with walker := { s.walker with jobs := s.walker.jobs ++ [.forfeit h] } }

/-- A tracker lets a fenced host go from its awaited set (R35): an owner let go with no data in the buffer is
noted (R110, R120), and an awaited set emptied clears the deadline. -/
def letGo (h : HostNo) (tr : Tracker) : Tracker :=
  if awaits tr h then
    let left := tr.awaited.filter (fun a => a.host ≠ h)
    { tr with
      awaited := left
      deadline := if left = [] then none else tr.deadline
      ownerLost := tr.ownerLost || (!tr.scrubbing && tr.stored = .owned h && tr.buffer.isNone) }
  else tr

/-- Every tracker lets the fenced host go (R35). -/
def trackersLetGo (h : HostNo) (s : State) : State :=
  allTrackers.foldl (fun s t => updTracker s t (letGo h)) s

/-- The purge slot lets the fenced host go (R35, R168). -/
def purgeLetGo (h : HostNo) (s : State) : State :=
  let left := s.integ.awaited.filter (· ≠ h)
  { s with integ := { s.integ with awaited := left, deadline := if left = [] then none else s.integ.deadline } }

/-- Whether a tracker's requester is host `h`. -/
def requestedBy (s : State) (h : HostNo) (t : TrackerNo) : Bool :=
  match trackerOf s t with
  | some tr => (match tr.requester with | some (r, _) => r = h | none => false)
  | none => false

/-- The dispatcher drops the fenced host's parked requests, its fence slot and the note of its queue head, and frees a
tracker of it that waits in SETUP to re-park (R34, R94). -/
def dispatcherDrop (h : HostNo) (s : State) : State :=
  let s1 := setSlot s h none
  let s2 : State := { s1 with
    disp := { s1.disp with
      park := s1.disp.park.filter (fun p => p.host ≠ h)
      passedOver := dropHost s1.disp.passedOver h } }
  (allTrackers.filter (fun t => s2.trk.reparkWait.contains t && requestedBy s2 h t)).foldl
    (fun s t => freeTracker t s) s2

/-- The start of a fence of an ONLINE or DEPARTING port (R34, R35). -/
def startFence (h : HostNo) (reason : FenceReason) (s : State) : State :=
  let s1 := latch .fence (setPortState h .fencing s)
  let s2 := updPort s1 h (fun p => { p with reason := reason })
  let s3 := dropClaim (.ret h) (updHli s2 h clearHli)
  let s4 := place h (.notice .youAreFenced h s3.region.epoch) s3
  let s5 := noticeOnline .peerFenced h (· ≠ h) (dispatcherDrop h s4)
  purgeLetGo h (trackersLetGo h (walkerForfeit h s5))

/-- A fence request (R33): it fences a port found ONLINE or DEPARTING and is ignored otherwise. During a
hub reset fence requests of every cause are ignored (R182). -/
def requestFence (h : HostNo) (reason : FenceReason) (s : State) : State :=
  if inReset s then s
  else if isAdmitted s h then startFence h reason s
  else s

/-! ### Deadlines (R82, R83, R168) -/

/-- The expiry of a tracker's deadline with hosts still awaited (R82, R83). Several hosts are fenced one after another in
the order they stand in the awaited set, and so their FORFEIT jobs join the walk list (assumption 9). -/
def trackerDeadline (t : TrackerNo) (s : State) : State :=
  match trackerOf s t with
  | none => s
  | some tr =>
    if tr.deadline = none ∨ tr.awaited = [] then s
    else if tr.graceUsed = false then
      graceEvent ⟨1, BitVec.ofNat 8 t.val, hostSetOf (tr.awaited.map (fun a => a.host)), tr.line.setWidth 24⟩
        (updTracker s t (fun tr =>
          { tr with graceUsed := true, deadline := some s.mgmt.recallLimit.toNat }))
    else
      (tr.awaited.map (fun a => a.host)).foldl (fun s h => requestFence h .recallTimeout s)
        (updTracker s t (fun tr => { tr with deadline := none }))

/-- The expiry of the purge slot's deadline with hosts still awaited (R168). Several hosts are fenced one after another in
the order they stand in the awaited set, and so their FORFEIT jobs join the walk list (assumption 9). -/
def purgeDeadline (s : State) : State :=
  if s.integ.phase ≠ .purging ∨ s.integ.deadline = none ∨ s.integ.awaited = [] then s
  else if s.integ.graceUsed = false then
    graceEvent ⟨2, Config.purgeGraceTracker, hostSetOf s.integ.awaited, s.integ.set.setWidth 24⟩
      { s with
        integ := { s.integ with graceUsed := true, deadline := some s.mgmt.recallLimit.toNat } }
  else
    s.integ.awaited.foldl (fun s h => requestFence h .purgeTimeout s)
      { s with integ := { s.integ with deadline := none } }

/-! ### The ends of a departure and of a forfeit (R30, R31, R36) -/

/-- No tracker has host `h` as requester or in its awaited set (R30, R36). -/
def noTrackerNames (s : State) (h : HostNo) : Bool :=
  allTrackers.all (fun t =>
    match trackerOf s t with
    | none => true
    | some tr => !requestedBy s h t && !awaits tr h)

/-- The six conditions of R30. -/
def departureReady (s : State) (h : HostNo) : Bool :=
  (portOf s h).sweepDone && noTrackerNames s h && !(s.integ.awaited.contains h)
    && s.disp.park.all (fun p => p.host ≠ h) && (slotOf s h).isNone && (hliOf s h).returns.isEmpty

/-- The end of a departure (R31). -/
def endDeparture (h : HostNo) (s : State) : State :=
  let s1 := setPortState h .offline s
  let s2 := (hliOf s1 h).laneA.foldl (fun s r => respond h r.tag (.refuseReq r.tag .notOnline) s) s1
  let s3 : State :=
    { updHli s2 h (fun x => { x with laneA := [], tags := [], stalled := false }) with
      disp := { s2.disp with passedOver := dropHost s2.disp.passedOver h } }
  noticeOnline .peerLeft h (fun _ => true) (place h (.notice .departDone h s3.region.epoch) s3)

/-- A port whose departure or forfeit is complete leaves DEPARTING or FENCING (R31, R36). -/
def duePort (h : HostNo) (s : State) : Option State :=
  match portState s h with
  | .departing => if departureReady s h then some (endDeparture h s) else none
  | .fencing => if (portOf s h).sweepDone && noTrackerNames s h then some (setPortState h .fenced s) else none
  | _ => none

end Sys2Proof.Machine
end

