-- ==== Sys2Proof/Machine/ReturnOps.lean ====
section
/-! DEFINITION. Lane B at its head: the return path and the answers (R17, R98, R99, R111 to R118, R161, R166). -/

namespace Sys2Proof.Machine

/-- A WRITEBACK or RELEASE as the return path judges it. A RELEASE carries no data. -/
structure Return where
  line : LineNo
  isWriteback : Bool
  modified : Bool
  poisoned : Bool
  data : LineData
deriving DecidableEq, Repr

/-- The return that a lane B message is. -/
def returnOf : LaneBMsg → Option Return
  | .writeback line m p d => some ⟨line, true, m, p, d⟩
  | .release line => some ⟨line, false, false, false, 0⟩
  | _ => none

/-- The return at the head of a host's lane B queue. -/
def headReturn (s : State) (h : HostNo) : Option Return := (hliOf s h).laneB.head?.bind returnOf

/-- The kind code of a return (R6). -/
def returnKind (r : Return) : Byte := if r.isWriteback then 0x10 else 0x11

/-- Removes the head of a host's lane B queue. -/
def popLaneB (h : HostNo) (s : State) : State := updHli s h (fun x => { x with laneB := x.laneB.tail })

/-- Whether a tracker's read of its line is outstanding: it waits in the read list or holds the port (R139). -/
def readOutstanding (s : State) (t : TrackerNo) : Bool := s.mem.reads.contains t || s.mem.port = .read t

/-- Whether a tracker works on the contents of its line: its read is outstanding, and a return then meets it (R139), or
it is an ATOMIC in MEM_WAIT, whose read and write are one indivisible step (R124). -/
def worksOnContents (s : State) (t : TrackerNo) (tr : Tracker) : Bool :=
  readOutstanding s t || (tr.kind = .atomic && tr.phase = .memWait)

/-- Whether the tracker on a return's line is one the return meets (R111): one that has left SETUP, since R64 has a
return processed ahead of the lookup find no tracker. In a closed set a tracker that is bound to no way and awaits no
host counts as not on the line (R166), but for one that works on the line's contents (assumption 11). -/
def isMet (s : State) (t : TrackerNo) (tr : Tracker) : Bool :=
  tr.phase ≠ .setup &&
    (!isClosed s (lineSet tr.line) || (boundWay s (lineSet tr.line) t).isSome || tr.awaited ≠ [] ||
      worksOnContents s t tr)

/-- The tracker that a return of a line meets (R111, step 1). -/
def metTracker (s : State) (line : LineNo) : Option TrackerNo :=
  match trackerOn s line with
  | none => none
  | some t => match trackerOf s t with | some tr => if isMet s t tr then some t else none | none => none

/-- A stray return: DONE(STRAY), its data discarded, a protocol error (R115). -/
def strayReturn (h : HostNo) (r : Return) (s : State) : State :=
  protocolError h (returnKind r) .strayReturn none (some r.line) (doneReturn h r.line .stray s)

/-- A WRITEBACK is absorbed by a tracker (R113, R161): buffer, mark, and DONE(OK). -/
def absorb (h : HostNo) (r : Return) (t : TrackerNo) (s : State) : State :=
  let s1 := updTracker s t (fun tr =>
    { tr with
      buffer := some ⟨r.data, r.modified, r.poisoned, .absorbed, some h⟩
      awaited := tr.awaited.map (fun a => if a.host = h then { a with returned := true } else a) })
  doneReturn h r.line .ok (if r.modified then markAbsorbed h r.line t s1 else s1)

/-- Whether a tracker absorbs a host's WRITEBACK: while it scrubs, of an unmarked awaited host into an empty
buffer (R161); otherwise of its stored owner, awaited and unmarked (R113). -/
def absorbs (tr : Tracker) (h : HostNo) : Bool :=
  tr.awaited.any (fun a => a.host = h ∧ a.returned = false) &&
    (if tr.scrubbing then tr.buffer.isNone else tr.stored = .owned h)

/-- Whether a tracker's RELEASE is answered DONE(OK): while it scrubs, of an awaited host (R161); otherwise of
a shared holder of its stored entry (R114). -/
def takesRelease (tr : Tracker) (h : HostNo) : Bool :=
  if tr.scrubbing then awaits tr h
  else match tr.stored with | .shared holders => hasHost holders h | _ => false

/-- A return meets a tracker on its line (R113, R114, R115, R161). -/
def meetTracker (h : HostNo) (r : Return) (t : TrackerNo) (s : State) : State :=
  match trackerOf s t with
  | none => s
  | some tr =>
    if r.isWriteback then (if absorbs tr h then absorb h r t s else strayReturn h r s)
    else if takesRelease tr h then doneReturn h r.line .ok s
    else strayReturn h r s

/-- Places the data of a modified WRITEBACK in its granted slot, whole line (R112, R116, R166), with the
marker change of a pending return (R129). -/
def placeReturn (h : HostNo) (r : Return) (s : State) : State :=
  if r.isWriteback ∧ r.modified then
    markReturnPlaced h r.line (placeWrite ⟨r.line, r.data, fullMask, r.poisoned, .ret⟩ s)
  else s

/-- The way of a set with good tag parity whose tag is the line's (R166). -/
def taggedWay (s : State) (line : LineNo) : Option WayNo :=
  allWays.find? (fun w =>
    let x := wayOf s (lineSet line) w
    2 ≤ x.code.toNat ∧ x.tagParity = tagParityOf x.tag ∧ x.tag = lineTag line)

/-- A return of a line of a closed set (R166): parity errors are recorded only; a LOST entry makes it stray;
otherwise its data is placed, a matching way is freed, and it is answered DONE(OK). -/
def closedSetReturn (h : HostNo) (r : Return) (s : State) : State :=
  let k := lineSet r.line
  let s1 := handErrors k allWays .ret s
  match taggedWay s r.line with
  | none => doneReturn h r.line .ok (placeReturn h r s1)
  | some w =>
    if (wayOf s k w).code = 4 then strayReturn h r s1
    else doneReturn h r.line .ok (touchLeast k w (putFree k w (placeReturn h r s1)))

/-- Whether the read of a return's set finds an error that keeps its update from being made (R70, R116): a tag
parity error, or a state parity error on the line's own way. An error on another line's way is passed
over (R163). -/
def returnBlocked (s : State) (line : LineNo) : Bool :=
  hasTagError s (lineSet line) ||
    (match matchingWay s line with
     | some w => checkWay (wayOf s (lineSet line) w) = .stateError
     | none => false)

/-- The return update: an entry presented for an unbound way, with the touch of R60; one that frees the way is
reported to the trackers waiting on the set, and one that leaves it VALID is not (R61, R70). -/
def returnUpdate (k : SetNo) (w : WayNo) (tag : DirTag) (e : Entry) (s : State) : State :=
  let s1 := touchWritten k w (writeEntry k w tag e .commit s)
  if (wayOf s1 k w).code = 0 then reportChange k s1 else s1

/-- A return that finds no tracker on its line and the set open (R112, R116). -/
def openSetReturn (h : HostNo) (r : Return) (s : State) : State :=
  let k := lineSet r.line
  let s1 := handErrors k allWays .ret s
  if returnBlocked s r.line then doneReturn h r.line .ok (placeReturn h r s1)
  else
    match matchingWay s r.line with
    | none => strayReturn h r s1
    | some w =>
      match entryOf (wayOf s k w) with
      | .owned o =>
        if r.isWriteback ∧ o = h then
          doneReturn h r.line .ok (returnUpdate k w (lineTag r.line) .free (placeReturn h r s1))
        else strayReturn h r s1
      | .shared holders =>
        if r.isWriteback = false ∧ hasHost holders h then
          doneReturn h r.line .ok (returnUpdate k w (lineTag r.line) (.shared (dropHost holders h)) s1)
        else strayReturn h r s1
      | _ => strayReturn h r s1

/-- A return is judged from step 1 of R111. -/
def judgeReturn (h : HostNo) (r : Return) (s : State) : State :=
  match metTracker s r.line with
  | some t => meetTracker h r t s
  | none => if isClosed s (lineSet r.line) then closedSetReturn h r s else openSetReturn h r s

/-- The processing event of a return: it leaves the head and is judged. -/
def processingEvent (h : HostNo) (r : Return) (s : State) : State := judgeReturn h r (popLaneB h s)

/-- Whether a return at the head must first claim a slot: a modified WRITEBACK that finds no tracker (R111). -/
def mustClaim (s : State) (r : Return) : Bool :=
  r.isWriteback && r.modified && (metTracker s r.line).isNone

/-- Whether a return at the head would be absorbed: an event in which a tracker sends its DONE, which a
hub reset does not let come about (R182). -/
def blockedByReset (s : State) (h : HostNo) (r : Return) : Bool :=
  inReset s &&
    (match metTracker s r.line with
     | some t => (match trackerOf s t with | some tr => r.isWriteback && absorbs tr h | none => false)
     | none => false)

/-- A WRITEBACK or RELEASE reaches the head of lane B (R111): it claims a slot and waits for the grant, or is
judged at once. One whose claim already stands goes on waiting. -/
def processReturn (h : HostNo) (s : State) : State :=
  match headReturn s h with
  | none => s
  | some r =>
    if isAdmitted s h = false ∨ blockedByReset s h r ∨ WbClaim.ret h ∈ s.mem.claims then s
    else if mustClaim s r then addClaim (.ret h) s
    else processingEvent h r s

/-! ### Answers (R98, R99, R161) -/

/-- What an ANSWER does to its tracker and to the protocol record, the removal of the host apart. The stored owner that
answers SHARED is recorded ANSWER_NO_DATA even where a return of it has been absorbed (assumption 42). -/
def judgeAnswer (h : HostNo) (t : TrackerNo) (tr : Tracker) (line : LineNo) (held : Held)
    (modified poisoned : Bool) (data : LineData) (s : State) : State :=
  let takeData : State → State := fun s =>
    updTracker s t (fun tr => { tr with buffer := some ⟨data, modified, poisoned, .answer, none⟩ })
  let extraData : State → State := protocolError h 0x12 .answerExtraData none (some line)
  if line ≠ tr.line then protocolError h 0x12 .answerLine none (some line) s
  else if tr.scrubbing then
    match held with
    | .owned => if tr.buffer.isNone then takeData s else extraData s
    | _ => s
  else
    let keepsCopy : Bool :=
      tr.awaited.any (fun a => a.host = h ∧ a.kind = .share) && held ≠ .notHeld
    let s1 := updTracker s t (fun tr => { tr with kept := tr.kept || keepsCopy })
    if tr.stored = .owned h then
      let absorbed := tr.awaited.any (fun a => a.host = h ∧ a.returned)
      match held with
      | .owned => if tr.buffer.isSome then extraData s1 else takeData s1
      | .notHeld => if absorbed then s1 else protocolError h 0x12 .answerNoData none (some line) s1
      | .shared => protocolError h 0x12 .answerNoData none (some line) s1
    else
      match held with
      | .owned => extraData s1
      | _ => s1

/-- A host leaves a tracker's awaited set with any mark it carries; an emptied set clears the deadline (R81, R98). -/
def removeAwaited (h : HostNo) (tr : Tracker) : Tracker :=
  let left := tr.awaited.filter (fun a => a.host ≠ h)
  { tr with awaited := left, deadline := if left = [] then none else tr.deadline }

/-- An ANSWER at the head of lane B is taken by its tracker (R17, R81, R98). -/
def processAnswer (h : HostNo) (s : State) : State :=
  match (hliOf s h).laneB with
  | .answer line t held m p d :: rest =>
    let s1 := updHli s h (fun x => { x with laneB := rest, answered := x.answered.filter (· ≠ t) })
    match trackerOf s t with
    | none => s1
    | some tr =>
      if awaits tr h then updTracker (judgeAnswer h t tr line held m p d s1) t (removeAwaited h) else s1
  | _ => s

/-- A PURGE_DONE at the head of lane B lets its host leave the purge slot's awaited set (R17, R168). -/
def processPurgeDone (h : HostNo) (s : State) : State :=
  match (hliOf s h).laneB with
  | .purgeDone k :: rest =>
    let s1 := updHli s h (fun x => { x with laneB := rest, purgeAnswer := false })
    if s.integ.phase = .purging ∧ s.integ.set = k then purgeLetGo h s1 else s1
  | _ => s

end Sys2Proof.Machine
end

