-- ==== Sys2Proof/Machine/IntegrityOps.lean ====
section
/-! DEFINITION. The purge slot of the Integrity Unit: taking a set, the sending of PURGE_SET, and the clear
(R167 to R170). -/

namespace Sys2Proof.Machine

/-- Whether some way of a set is bound to a tracker (R167). -/
def hasBinding (s : State) (k : SetNo) : Bool := allWays.any (fun w => (wayOf s k w).binding.isSome)

/-- The idle slot takes the set at the head of the purge list and enters CLOSING (R167). -/
def takePurge (k : SetNo) (rest : List SetNo) (s : State) : State :=
  { s with integ := { s.integ with purgeList := rest, phase := .closing, set := k } }

/-- The slot enters PURGING: PURGE_SET to every host ONLINE or DEPARTING, the awaited set, the deadline, grace
clear. With no such host nothing is sent and no deadline is set (R168). -/
def startPurging (s : State) : State :=
  let asked := members (holding s)
  let s1 := asked.foldl (fun s h => place h (.purgeSet s.integ.set) s) s
  { s1 with
    integ := { s1.integ with
      phase := .purging
      awaited := asked
      deadline := if asked = [] then none else some s.mgmt.recallLimit.toNat
      graceUsed := false } }

/-- Whether the clear keeps a way: LOST with both parity bits good (R170). -/
def keptByClear (x : Way) : Bool := x.code = 4 && checkWay x = .good

/-- The ways that the clear makes FREE, in ascending order (R170). -/
def clearedWays (s : State) (k : SetNo) : List WayNo :=
  allWays.filter (fun w => (wayOf s k w).code ≠ 0 && !keptByClear (wayOf s k w))

/-- Makes ways of a set FREE at one event; they move together to the least recent end (R60). -/
def freeTogether (k : SetNo) (ways : List WayNo) (s : State) : State :=
  touchFreed k ways (ways.foldl (fun s w => putFree k w s) s)

/-- The Integrity Unit tells the walker that a set has reopened, which counts for a set it has skipped (R145, R170). -/
def tellReopened (k : SetNo) (x : Walker) : Walker :=
  { x with reopened := if k ∈ x.skipped then insertNew k x.reopened else x.reopened }

/-- The clear of the set in the slot (R170): its ways are freed, PURGE_DONE is latched, the set reopens, the
trackers that wait to re-park a request of it begin again from their lookup, the walker is told of a set it has
skipped, and the slot is idle. -/
def clearSet (s : State) : State :=
  let k := s.integ.set
  let s1 := freeTogether k (clearedWays s k) s
  let s2 : State := { s1 with
    integ := { s1.integ with phase := .idle, set := 0, awaited := [], deadline := none, graceUsed := false }
    trk := { s1.trk with
      reparkWait := s1.trk.reparkWait.filter (fun t =>
        match trackerOf s1 t with | some tr => lineSet tr.line ≠ k | none => true) }
    walker := tellReopened k s1.walker }
  reportChange k (latch .purgeDone s2)

/-- What the purge slot does next of itself. -/
def duePurge (s : State) : Option State :=
  match s.integ.phase with
  | .idle =>
    match s.integ.purgeList with
    | [] => none
    | k :: rest => some (takePurge k rest s)
  | .closing => if hasBinding s s.integ.set then none else some (startPurging s)
  | .purging => if s.integ.awaited = [] then some (clearSet s) else none

end Sys2Proof.Machine
end

