-- ==== Sys2Proof/Machine/RegionOps.lean ====
section
/-! DEFINITION. The Region Table: what a descriptor covers, the validity of a table, and the access check
(R41, R44, R49, R50). -/

namespace Sys2Proof.Machine

/-! ### Coverage and the access check -/

/-- Whether a descriptor covers a line (R41). -/
def covers (d : Descriptor) (line : LineNo) : Bool :=
  d.enabled && d.base.toNat ≤ lineMib line && lineMib line < d.base.toNat + d.size.toNat

/-- The region of a line in a table; none where the line is unmapped (R49). -/
def regionOf (table : Vector Descriptor 16) (line : LineNo) : Option Descriptor :=
  table.toList.find? (fun d => covers d line)

/-- The right that a request kind needs (R50). A FENCE names no line and is not judged. -/
def rightNeeded : ReqKind → Right
  | .readShared => .read
  | .readOwn => .write
  | .upgrade => .write
  | .directRead => .read
  | .directWrite => .write
  | .atomic => .write
  | .fence => .noRight

/-- Whether a request kind is one of the three coherent kinds, which a DIRECT_ONLY region does not allow (R50). -/
def isCoherentReq : ReqKind → Bool
  | .readShared => true
  | .readOwn => true
  | .upgrade => true
  | _ => false

/-- The access check of a request: its refusal, or the mode of its region (R50). -/
def accessCheck (table : Vector Descriptor 16) (h : HostNo) (kind : ReqKind) (line : LineNo) :
    Except RefuseReason RegionMode :=
  match regionOf table line with
  | none => .error .noRegion
  | some d =>
    if (d.rights[h]).toCode < (rightNeeded kind).toCode then .error .denied
    else if d.mode = .directOnly ∧ isCoherentReq kind then .error .mode
    else .ok d.mode

/-! ### Validity of a table (R44) -/

/-- An enabled descriptor of size 0, or whose base plus size exceeds 256. -/
def badSize (d : Descriptor) : Bool := d.enabled && (d.size = 0 || 256 < d.base.toNat + d.size.toNat)

/-- Two enabled descriptors, each base less than the other's base plus size. -/
def overlaps (d e : Descriptor) : Bool :=
  d.enabled && e.enabled && d.base.toNat < e.base.toNat + e.size.toNat
    && e.base.toNat < d.base.toNat + d.size.toNat

/-- Whether descriptor `i` is one of the offending descriptors of a table. -/
def isOffending (table : Vector Descriptor 16) (i : Fin 16) : Bool :=
  badSize table[i] || (List.finRange 16).any (fun j => j ≠ i && overlaps table[i] table[j])

/-- The offending descriptors of a table, bit `d` for descriptor `d`; none of them where the table is valid. -/
def offendingOf (table : Vector Descriptor 16) : BitVec 16 :=
  (List.finRange 16).foldl (fun acc i => if isOffending table i then acc ||| (1#16 <<< i.val) else acc) 0

/-- Whether a table is valid. -/
def isValidTable (table : Vector Descriptor 16) : Bool := (List.finRange 16).all (fun i => !isOffending table i)

/-! ### The recall of a cutover (R154) -/

/-- The recall, if any, that the staged table asks of a holder of a line. -/
def recallUnder (staged : Vector Descriptor 16) (line : LineNo) (isOwner : Bool) (h : HostNo) :
    Option RecallKind :=
  match regionOf staged line with
  | none => some .drop
  | some d =>
    match d.mode, isOwner, d.rights[h] with
    | .directOnly, _, _ => some .drop
    | .tracked, _, .noRight => some .drop
    | .tracked, true, .read => some .share
    | .tracked, _, _ => none

end Sys2Proof.Machine
end

