-- ==== Sys2Proof/Machine/WalkerOps.lean ====
section
/-! DEFINITION. The Directory Walker: its jobs, the dealing with each way, its claims and grants, the drain
and the swap of a cutover (R144 to R155). -/

namespace Sys2Proof.Machine

/-! ### What a job asks of an entry -/

/-- Whether an entry is OWNED. -/
def isOwnedEntry : Entry → Bool
  | .owned _ => true
  | _ => false

/-- The recalls that a job asks of an entry: DEPART(h) recalls `h` (R148), CUTOVER whom the staged table
leaves without the right needed (R154), FORFEIT nobody (R150). -/
def jobRound (s : State) (j : Job) (line : LineNo) (e : Entry) : List (HostNo × RecallKind) :=
  match j with
  | .depart h => if hasHost (holdersOf e) h then [(h, .drop)] else []
  | .forfeit _ => []
  | .cutover =>
    (members (holdersOf e)).filterMap (fun h =>
      (recallUnder s.region.staged line (isOwnedEntry e) h).map (fun k => (h, k)))

/-- The host that a job strikes from an entry without a recall (R150). -/
def struckBy (j : Job) (e : Entry) : Option HostNo :=
  match j with
  | .forfeit h => if hasHost (holdersOf e) h then some h else none
  | _ => none

/-- Whether a way is busy: it is bound, or a tracker is on its line (R145). -/
def isBusy (s : State) (k : SetNo) (w : WayNo) : Bool :=
  (wayOf s k w).binding.isSome || (trackerOn s (lineOf (wayOf s k w).tag k)).isSome

/-- The entry with a fenced host struck out, as the forfeit update presents it; an owner stays, for the masking
to make the line LOST (R70). -/
def strike (h : HostNo) : Entry → Entry
  | .shared holders => .shared (dropHost holders h)
  | e => e

/-- The forfeit update of an unbound entry (R70, R150). An entry left VALID keeps its place in the touch order;
one that is freed moves to least recent and is reported. -/
def forfeitUpdate (k : SetNo) (w : WayNo) (h : HostNo) (s : State) : State :=
  let x := wayOf s k w
  let s1 := writeEntry k w x.tag (strike h (entryOf x)) .forfeit s
  if (wayOf s1 k w).code = 0 then reportChange k (touchLeast k w s1) else s1

/-! ### Moving on -/

/-- The walker has finished with a set (R145): it goes to the next set, or past set 2,047 to its skipped list;
with nothing skipped the walk is finished. It stands at the next set from then on, before its visit, and past set 2,047
at the last set walked (assumption 43). -/
def finishSet (s : State) : State :=
  let wk := s.walker
  let last := wk.revisiting || wk.set = 2047
  { s with
    walker := { wk with
      set := if last then wk.set else wk.set + 1
      way := 0
      wait := .visit
      revisiting := last
      walked := last && wk.skipped.isEmpty } }

/-- The walker skips the rest of its set, which joins the skipped list (R145). -/
def skipSet (s : State) : State :=
  finishSet { s with walker := { s.walker with skipped := s.walker.skipped ++ [s.walker.set] } }

/-- The walker stands at a way and waits. -/
def standAt (w : WayNo) (x : WalkWait) (s : State) : State :=
  { s with walker := { s.walker with way := w, wait := x } }

/-- The walker claims the internal pool for a way and waits there for the grant (R146). -/
def claimWalker (w : WayNo) (scrub : Bool) (s : State) : State :=
  let line := lineOf (wayOf s s.walker.set w).tag s.walker.set
  let s1 := standAt w (.claim line scrub) s
  { s1 with trk := { s1.trk with claims := insertNew .walker s1.trk.claims } }

/-- What the walker does after dealing with a way: it goes on to the next, or it stops there. -/
inductive AfterWay where
  | goOn (s : State)
  | stop (s : State)

/-- Deals with one way of the set reached (R145, R148, R150, R154). -/
def visitWay (j : Job) (w : WayNo) (s : State) : AfterWay :=
  let k := s.walker.set
  let x := wayOf s k w
  match checkWay x with
  | .notChecked => .goOn s
  | .tagError => .stop (skipSet (handError k .walker s (w, .tag)))
  | .stateError =>
    let s1 := handError k .walker s (w, .state)
    if isBusy s k w then .goOn s1 else .stop (claimWalker w true s1)
  | .good =>
    let e := entryOf x
    match struckBy j e with
    | some h => if isBusy s k w then .goOn s else .goOn (forfeitUpdate k w h s)
    | none =>
      if jobRound s j (lineOf x.tag k) e = [] then .goOn s
      else if isBusy s k w then .stop (standAt w (.busy (lineOf x.tag k)) s)
      else .stop (claimWalker w false s)

/-- Deals with the given ways of the set reached, in order, until one makes the walker stop. -/
def scanWays (j : Job) : List WayNo → State → State
  | [], s => finishSet s
  | w :: rest, s =>
    match visitWay j w s with
    | .goOn s1 => scanWays j rest s1
    | .stop s1 => s1

/-- The ways of a set from a way onward. -/
def waysFrom (w : WayNo) : List WayNo := allWays.filter (fun x => w ≤ x)

/-- The ways of a set after a way. -/
def waysAfter (w : WayNo) : List WayNo := allWays.filter (fun x => w < x)

/-- The walker resumes at the way it stands at. A set closed meanwhile is skipped (R165). -/
def resumeWalk (j : Job) (s : State) : State :=
  if isClosed s s.walker.set then skipSet s else scanWays j (waysFrom s.walker.way) s

/-! ### The set visit (R145) -/

/-- The walker comes to the first of its skipped sets (R145). Reopened, it is walked. Reopened and closed again since,
it is appended to the list once more. Not yet reopened, it is waited for, and stays counted as skipped until it is
taken (assumption 43). -/
def revisitSet (j : Job) (k : SetNo) (rest : List SetNo) (s : State) : State :=
  let x := { s.walker with reopened := s.walker.reopened.filter (· ≠ k) }
  if isClosed s k = false then scanWays j allWays { s with walker := { x with skipped := rest, set := k, way := 0 } }
  else if k ∈ s.walker.reopened then { s with walker := { x with skipped := rest ++ [k] } }
  else s

/-- The walker examines the next set of its current job: it skips a closed set, and past set 2,047 comes to the sets it
skipped, in the order they were skipped. -/
def visitSet (s : State) : State :=
  match s.walker.current with
  | none => s
  | some j =>
    if inReset s ∨ s.walker.draining ∨ s.walker.walked ∨ s.walker.wait ≠ .visit then s
    else if s.walker.revisiting then
      match s.walker.skipped with
      | [] => s
      | k :: rest => revisitSet j k rest s
    else if isClosed s s.walker.set then skipSet s
    else scanWays j allWays s

/-! ### The grant of an internal tracker (R146, R147) -/

/-- Whether the way still is what the claim was made for. -/
def claimHolds (s : State) (j : Job) (line : LineNo) (scrub : Bool) : Bool :=
  let k := s.walker.set
  let w := s.walker.way
  let x := wayOf s k w
  !isBusy s k w && lineOf x.tag k = line &&
    (if scrub then checkWay x = .stateError else checkWay x = .good && jobRound s j line (entryOf x) ≠ [])

/-- An internal tracker becomes a SWEEP_RECALL tracker on the way the walker stands at, bound to it. -/
def startSweep (i : TrackerNo) (j : Job) (line : LineNo) (scrub : Bool) (s : State) : State :=
  let k := s.walker.set
  let w := s.walker.way
  let e := entryOf (wayOf s k w)
  let round := jobRound s j line e
  let s1 := bindWay k w i (setTracker s i (some (newTracker .sweepRecall line .tracked none .absent)))
  let s2 : State := { s1 with walker := { s1.walker with trackers := insertNew i s1.walker.trackers } }
  if scrub then startScrub i (recordParity k w .state .walker s2) else startInternal i round e s2

/-- The grant to the walker of internal tracker `i` (R146, R165): the way is read again. If it still is what the
claim was made for, the tracker is started and the walker goes on to the next way; otherwise the tracker is
given back and the way is dealt with as found. In a closed set the tracker is given back and the set skipped. -/
def grantWalker (i : TrackerNo) (s : State) : State :=
  match s.walker.current, s.walker.wait with
  | some j, .claim line scrub =>
    if isClosed s s.walker.set then skipSet s
    else if claimHolds s j line scrub then
      scanWays j (waysAfter s.walker.way) (startSweep i j line scrub s)
    else scanWays j (waysFrom s.walker.way) s
  | _, _ => s

/-! ### Jobs: their beginning and their end -/

/-- The walker takes the job at the head of its list (R144); a CUTOVER job begins its drain (R153). -/
def takeJob (j : Job) (rest : List Job) (s : State) : State :=
  let s1 : State := { s with
    walker := {
      jobs := rest, current := some j, set := 0, way := 0, wait := .visit, revisiting := false, walked := false,
      draining := j = .cutover, skipped := [], trackers := [], reopened := [] } }
  if j = .cutover then
    setCutover .draining { s1 with disp := { s1.disp with halted := true } }
  else s1

/-- Whether some host-pool tracker is in use. -/
def hostPoolInUse (s : State) : Bool := hostPool.any (fun t => (trackerOf s t).isSome)

/-- The end of the drain of a cutover (R153). -/
def endCutoverDrain (s : State) : State :=
  setCutover .recalling { s with walker := { s.walker with draining := false } }

/-- The swap of a cutover (R155). -/
def swapTables (s : State) : State :=
  let s1 := setCutover .done
    { s with region := { s.region with active := s.region.staged, epoch := s.region.epoch + 1 } }
  let s2 := noticeOnline .cutoverDone 0 (fun _ => true) (latch .cutoverDone s1)
  { s2 with disp := { s2.disp with halted := false } }

/-- The walker's report to the Port Controller that a port's job has finished its walk (R149, R150). -/
def reportSweep (h : HostNo) (s : State) : State :=
  updPort s h (fun p => { p with sweepDone := p.state = .departing ∨ p.state = .fencing })

/-- The end of a job (R145): its report or its swap. -/
def endJob (j : Job) (s : State) : State :=
  let s1 : State := { s with walker := { s.walker with current := none } }
  match j with
  | .depart h => reportSweep h s1
  | .forfeit h => reportSweep h s1
  | .cutover => swapTables s1

/-- Whether the entry that the walker waits for at a way is busy still: the way is VALID, and a tracker is on the
entry's line. Of a commit and of the freeing of that tracker the walker is told (`toldFree`, R148). -/
def stillBusy (s : State) (line : LineNo) : Bool :=
  2 ≤ (wayOf s s.walker.set s.walker.way).code.toNat && (trackerOn s line).isSome

/-- What the walker does next of itself: it takes a job, ends a drain, goes on at a way that is no longer busy
or that a fence has set free to be dealt with, or ends its job. -/
def dueWalker (s : State) : Option State :=
  match s.walker.current with
  | none =>
    match s.walker.jobs with
    | [] => none
    | j :: rest => some (takeJob j rest s)
  | some j =>
    if s.walker.draining then (if hostPoolInUse s then none else some (endCutoverDrain s))
    else
      match s.walker.wait with
      | .ready => some (resumeWalk j s)
      | .busy line => if stillBusy s line then none else some (resumeWalk j s)
      | .claim _ _ => none
      | .visit => if s.walker.walked ∧ s.walker.trackers = [] then some (endJob j s) else none

end Sys2Proof.Machine
end

