-- ==== Sys2Proof/Machine/Registers.lean ====
section
/-! DEFINITION. The register window (R179): which field stands at an address, what a byte of it reads, and the
reads and writes that any register takes (R175 to R178). -/

namespace Sys2Proof.Machine

/-! ### The fields of the window -/

/-- The fields of one port's block. -/
inductive PortField where
  | state
  | admission
  | reason
  | tags
  | returns
  | laneA
deriving DecidableEq, Repr

/-- The fields of one descriptor's block. -/
inductive DescField where
  | enabled
  | base
  | size
  | mode
  | rights
deriving DecidableEq, Repr

/-- The fields of the window (R179). -/
inductive Field where
  | deviceNumber
  | hubState
  | interfaceInUse
  | commandCode
  | commandStatus
  | portOperand
  | lineOperand
  | alertLatch
  | alertMask
  | graceKind
  | graceTracker
  | graceHosts
  | graceValue
  | port (h : HostNo) (f : PortField)
  | recallLimit
  | diagEnable
  | staged (d : Fin 16) (f : DescField)
  | active (d : Fin 16) (f : DescField)
  | cutoverStatus
  | epoch
  | offending
  | dirFlags
  | dirSet
  | dirWay
  | dirKind
  | dirReader
  | dirClear
  | memFlags
  | memLine
  | memAccess
  | memCause
  | memSource
  | memClear
  | protoFlags
  | protoPort
  | protoKind
  | protoCause
  | protoTag
  | protoLine
  | protoClear
  | lostFlags
  | lostLine
  | lostOwner
  | lostCause
  | lostCount
  | lostClear
  | diagSet
  | diagWay
  | diagCode
  | diagTag
  | diagHolders
  | diagBinding
  | diagTagParity
  | diagStateParity
  | diagOutcome
  | hostTrackers
  | internalTrackers
  | parkCount
  | internalClaims
  | writeEntries
  | writeClaims
  | walkerJob
  | walkerPort
  | walkerSet
  | walkCount
  | skippedCount
  | purgePhase
  | purgeSet
  | purgeCount
deriving DecidableEq, Repr

/-- A row of the window: its first address, its width in bytes, its field. -/
structure Row where
  start : Nat
  width : Nat
  field : Field
deriving DecidableEq, Repr

/-- The rows from 0000h to 003Fh. -/
def generalRows : List Row :=
  [⟨0x0000, 2, .deviceNumber⟩, ⟨0x0002, 1, .hubState⟩, ⟨0x0003, 1, .interfaceInUse⟩,
   ⟨0x0010, 1, .commandCode⟩, ⟨0x0011, 1, .commandStatus⟩, ⟨0x0012, 1, .portOperand⟩,
   ⟨0x0013, 3, .lineOperand⟩, ⟨0x0020, 2, .alertLatch⟩, ⟨0x0022, 2, .alertMask⟩,
   ⟨0x0024, 1, .graceKind⟩, ⟨0x0025, 1, .graceTracker⟩, ⟨0x0026, 1, .graceHosts⟩,
   ⟨0x0027, 3, .graceValue⟩]

/-- The rows from 0100h to 01FFh and from 0400h to 04FFh. -/
def settingRows : List Row :=
  [⟨0x0100, 2, .recallLimit⟩, ⟨0x0102, 1, .diagEnable⟩,
   ⟨0x0400, 1, .cutoverStatus⟩, ⟨0x0401, 2, .epoch⟩, ⟨0x0403, 2, .offending⟩]

/-- The error record block at 0500h. -/
def recordRows : List Row :=
  [⟨0x0500, 1, .dirFlags⟩, ⟨0x0501, 2, .dirSet⟩, ⟨0x0503, 1, .dirWay⟩, ⟨0x0504, 1, .dirKind⟩,
   ⟨0x0505, 1, .dirReader⟩, ⟨0x050F, 1, .dirClear⟩,
   ⟨0x0510, 1, .memFlags⟩, ⟨0x0511, 3, .memLine⟩, ⟨0x0514, 1, .memAccess⟩, ⟨0x0515, 1, .memCause⟩,
   ⟨0x0516, 1, .memSource⟩, ⟨0x051F, 1, .memClear⟩,
   ⟨0x0520, 1, .protoFlags⟩, ⟨0x0521, 1, .protoPort⟩, ⟨0x0522, 1, .protoKind⟩, ⟨0x0523, 1, .protoCause⟩,
   ⟨0x0524, 1, .protoTag⟩, ⟨0x0525, 3, .protoLine⟩, ⟨0x052F, 1, .protoClear⟩,
   ⟨0x0530, 1, .lostFlags⟩, ⟨0x0531, 3, .lostLine⟩, ⟨0x0534, 1, .lostOwner⟩, ⟨0x0535, 1, .lostCause⟩,
   ⟨0x0536, 2, .lostCount⟩, ⟨0x053F, 1, .lostClear⟩]

/-- The diagnostic window at 0600h and the status block at 0700h. -/
def statusRows : List Row :=
  [⟨0x0600, 2, .diagSet⟩, ⟨0x0602, 1, .diagWay⟩, ⟨0x0603, 1, .diagCode⟩, ⟨0x0604, 2, .diagTag⟩,
   ⟨0x0606, 1, .diagHolders⟩, ⟨0x0607, 1, .diagBinding⟩, ⟨0x0608, 1, .diagTagParity⟩,
   ⟨0x0609, 1, .diagStateParity⟩, ⟨0x060A, 1, .diagOutcome⟩,
   ⟨0x0700, 1, .hostTrackers⟩, ⟨0x0701, 1, .internalTrackers⟩, ⟨0x0702, 1, .parkCount⟩,
   ⟨0x0703, 1, .internalClaims⟩, ⟨0x0704, 1, .writeEntries⟩, ⟨0x0705, 1, .writeClaims⟩,
   ⟨0x0706, 1, .walkerJob⟩, ⟨0x0707, 1, .walkerPort⟩, ⟨0x0708, 2, .walkerSet⟩, ⟨0x070A, 1, .walkCount⟩,
   ⟨0x070B, 2, .skippedCount⟩, ⟨0x070D, 1, .purgePhase⟩, ⟨0x070E, 2, .purgeSet⟩, ⟨0x0710, 2, .purgeCount⟩]

/-- The rows of the port block at a base address. -/
def portRows (base : Nat) (h : HostNo) : List Row :=
  [⟨base, 1, .port h .state⟩, ⟨base + 1, 1, .port h .admission⟩, ⟨base + 2, 1, .port h .reason⟩,
   ⟨base + 3, 2, .port h .tags⟩, ⟨base + 5, 1, .port h .returns⟩, ⟨base + 6, 1, .port h .laneA⟩]

/-- The rows of the descriptor block at a base address. -/
def descRows (base : Nat) (field : DescField → Field) : List Row :=
  [⟨base, 1, field .enabled⟩, ⟨base + 1, 1, field .base⟩, ⟨base + 2, 2, field .size⟩,
   ⟨base + 4, 1, field .mode⟩, ⟨base + 5, 1, field .rights⟩]

/-- The rows of the block that an address lies in (R179). -/
def rowsNear (a : Nat) : List Row :=
  if a < 0x40 then generalRows
  else if a < 0x80 then portRows (a / 16 * 16) (Fin.ofNat 4 (a / 16))
  else if 0x200 ≤ a ∧ a < 0x280 then descRows (a / 8 * 8) (.staged (Fin.ofNat 16 (a / 8)))
  else if 0x300 ≤ a ∧ a < 0x380 then descRows (a / 8 * 8) (.active (Fin.ofNat 16 (a / 8)))
  else if 0x600 ≤ a then statusRows
  else if 0x500 ≤ a then recordRows
  else settingRows

/-- The row that lists an address, if one does. -/
def rowAt (a : BitVec 16) : Option Row :=
  (rowsNear a.toNat).find? (fun r => r.start ≤ a.toNat ∧ a.toNat < r.start + r.width)

/-- The field that an address lies in, with the place of the byte in it. -/
def fieldAt (a : BitVec 16) : Option (Field × Nat) := (rowAt a).map (fun r => (r.field, a.toNat - r.start))

/-! ### What a field reads -/

/-- The value a port's field reads (R40). -/
def portValue (s : State) (h : HostNo) : PortField → Nat
  | .state => (portState s h).toCode
  | .admission => (portOf s h).admission.toNat
  | .reason => (portOf s h).reason.toCode
  | .tags => (hliOf s h).tags.length
  | .returns => (hliOf s h).returns.length
  | .laneA => (hliOf s h).laneA.length

/-- The value a descriptor's field reads (R41). -/
def descValue (d : Descriptor) : DescField → Nat
  | .enabled => d.enabled.toNat
  | .base => d.base.toNat
  | .size => d.size.toNat
  | .mode => d.mode.toCode
  | .rights => rightsByte d.rights

/-- The flags of a record: bit 0 valid, bit 1 more (R179). -/
def flagsOf (more : Bool) : Nat := 1 + 2 * more.toNat

/-- How many trackers of a pool are in use (R95). -/
def inUse (s : State) (pool : List TrackerNo) : Nat := (pool.filter (fun t => (trackerOf s t).isSome)).length

/-- The code of the walker's current job; 0 for none (R158). -/
def jobCode : Option Job → Nat
  | none => 0
  | some (.depart _) => 1
  | some (.forfeit _) => 2
  | some .cutover => 3

/-- The port of the walker's current job (R158); a free value where there is none (assumption 21). -/
def jobPort : Option Job → Nat
  | some (.depart h) => h.val
  | some (.forfeit h) => h.val
  | _ => Config.noJobPort.toNat

/-- What the fields of the directory error record read; 0 while it is clear (R159, R186). -/
def dirRecordValue (r : Option DirRecord) : Field → Nat
  | .dirFlags => match r with | some x => flagsOf x.more | none => 0
  | .dirSet => match r with | some x => x.set.toNat | none => 0
  | .dirWay => match r with | some x => x.way.val | none => 0
  | .dirKind => match r with | some x => (match x.kind with | .tag => 0 | .state => 1) | none => 0
  | .dirReader => match r with | some x => x.reader.toCode | none => 0
  | _ => 0

/-- What the fields of the memory error record read; 0 while it is clear (R134, R186). The source of an
access READ is a free value (assumption 24). -/
def memRecordValue (r : Option MemRecord) : Field → Nat
  | .memFlags => match r with | some x => flagsOf x.more | none => 0
  | .memLine => match r with | some x => x.line.toNat | none => 0
  | .memAccess => match r with | some x => (match x.access with | .read => 0 | .drain => 1) | none => 0
  | .memCause => match r with | some x => (match x.cause with | .uncorrectable => 0 | .poisonMark => 1) | none => 0
  | .memSource =>
    match r with
    | some x =>
      (match x.source with | some .ret => 0 | some .tracker => 1 | none => Config.readErrorSource.toNat)
    | none => 0
  | _ => 0

/-- What the fields of the protocol error record read; 0 while it is clear (R185, R186). A tag or
line that the error did not carry is a free value (assumption 24). -/
def protoRecordValue (r : Option ProtocolRecord) : Field → Nat
  | .protoFlags =>
    match r with | some x => flagsOf x.more + 4 * x.tag.isSome.toNat + 8 * x.line.isSome.toNat | none => 0
  | .protoPort => match r with | some x => x.port.val | none => 0
  | .protoKind => match r with | some x => x.kind.toNat | none => 0
  | .protoCause => match r with | some x => x.cause.toCode | none => 0
  | .protoTag => match r with | some x => (x.tag.getD Config.absentTag).toNat | none => 0
  | .protoLine =>
    match r with | some x => (match x.line with | some n => n.toNat | none => Config.absentLine.toNat) | none => 0
  | _ => 0

/-- What the fields of the lost-line record read; 0 while it is clear (R69, R186). -/
def lostRecordValue (r : Option LostRecord) : Field → Nat
  | .lostFlags => match r with | some _ => 1 | none => 0
  | .lostLine => match r with | some x => x.line.toNat | none => 0
  | .lostOwner => match r with | some x => x.owner.val | none => 0
  | .lostCause => match r with | some x => (match x.cause with | .commit => 0 | .forfeit => 1) | none => 0
  | _ => 0

/-- What the diagnostic window reads (R179). -/
def diagValue (d : DiagWindow) : Field → Nat
  | .diagSet => d.set.toNat
  | .diagWay => d.way.toNat
  | .diagCode => d.code.toNat
  | .diagTag => d.tag.toNat
  | .diagHolders => d.holders.toNat
  | .diagBinding => match d.binding with | some t => t.val | none => 0xFF
  | .diagTagParity => d.tagParity.toNat
  | .diagStateParity => d.stateParity.toNat
  | .diagOutcome => d.outcome.toCode
  | _ => 0

/-- What the status block reads (R95, R143, R158, R173). The set of an idle purge slot is a free value (assumption 21). -/
def statusValue (s : State) : Field → Nat
  | .hostTrackers => inUse s hostPool
  | .internalTrackers => inUse s internalPool
  | .parkCount => s.disp.park.length
  | .internalClaims => s.trk.claims.length
  | .writeEntries => s.mem.wbuf.length
  | .writeClaims => s.mem.claims.length
  | .walkerJob => jobCode s.walker.current
  | .walkerPort => jobPort s.walker.current
  | .walkerSet => s.walker.set.toNat
  | .walkCount => s.walker.jobs.length
  | .skippedCount => s.walker.skipped.length
  | .purgePhase => s.integ.phase.toCode
  | .purgeSet => if s.integ.phase = .idle then Config.noPurgeSet.toNat else s.integ.set.toNat
  | .purgeCount => s.integ.purgeList.length
  | _ => 0

/-- The value a field reads as it stands (R177, R179). -/
def fieldValue (s : State) : Field → Nat
  | .deviceNumber => 7724
  | .hubState => s.hub.toCode
  | .interfaceInUse => s.mgmt.interface.toCode
  | .commandCode => s.mgmt.code.toNat
  | .commandStatus => s.mgmt.status.toCode
  | .portOperand => s.mgmt.portOperand.toNat
  | .lineOperand => s.mgmt.lineOperand.toNat
  | .alertLatch => s.mgmt.latch.toNat
  | .alertMask => s.mgmt.mask.toNat
  | .graceKind => s.mgmt.grace.kind.toNat
  | .graceTracker => s.mgmt.grace.tracker.toNat
  | .graceHosts => s.mgmt.grace.hosts.toNat
  | .graceValue => s.mgmt.grace.value.toNat
  | .port h f => portValue s h f
  | .recallLimit => s.mgmt.recallLimit.toNat
  | .diagEnable => s.mgmt.diagEnable.toNat
  | .staged d f => descValue s.region.staged[d] f
  | .active d f => descValue s.region.active[d] f
  | .cutoverStatus => s.region.status.toCode
  | .epoch => s.region.epoch.toNat
  | .offending => s.region.offending.toNat
  | .lostCount => s.dir.lostCount
  | .dirFlags => dirRecordValue s.integ.record .dirFlags
  | .dirSet => dirRecordValue s.integ.record .dirSet
  | .dirWay => dirRecordValue s.integ.record .dirWay
  | .dirKind => dirRecordValue s.integ.record .dirKind
  | .dirReader => dirRecordValue s.integ.record .dirReader
  | .memFlags => memRecordValue s.mem.record .memFlags
  | .memLine => memRecordValue s.mem.record .memLine
  | .memAccess => memRecordValue s.mem.record .memAccess
  | .memCause => memRecordValue s.mem.record .memCause
  | .memSource => memRecordValue s.mem.record .memSource
  | .protoFlags => protoRecordValue s.mgmt.proto .protoFlags
  | .protoPort => protoRecordValue s.mgmt.proto .protoPort
  | .protoKind => protoRecordValue s.mgmt.proto .protoKind
  | .protoCause => protoRecordValue s.mgmt.proto .protoCause
  | .protoTag => protoRecordValue s.mgmt.proto .protoTag
  | .protoLine => protoRecordValue s.mgmt.proto .protoLine
  | .lostFlags => lostRecordValue s.dir.lostRecord .lostFlags
  | .lostLine => lostRecordValue s.dir.lostRecord .lostLine
  | .lostOwner => lostRecordValue s.dir.lostRecord .lostOwner
  | .lostCause => lostRecordValue s.dir.lostRecord .lostCause
  | .dirClear => 0
  | .memClear => 0
  | .protoClear => 0
  | .lostClear => 0
  | .diagSet => diagValue s.mgmt.diag .diagSet
  | .diagWay => diagValue s.mgmt.diag .diagWay
  | .diagCode => diagValue s.mgmt.diag .diagCode
  | .diagTag => diagValue s.mgmt.diag .diagTag
  | .diagHolders => diagValue s.mgmt.diag .diagHolders
  | .diagBinding => diagValue s.mgmt.diag .diagBinding
  | .diagTagParity => diagValue s.mgmt.diag .diagTagParity
  | .diagStateParity => diagValue s.mgmt.diag .diagStateParity
  | .diagOutcome => diagValue s.mgmt.diag .diagOutcome
  | .hostTrackers => statusValue s .hostTrackers
  | .internalTrackers => statusValue s .internalTrackers
  | .parkCount => statusValue s .parkCount
  | .internalClaims => statusValue s .internalClaims
  | .writeEntries => statusValue s .writeEntries
  | .writeClaims => statusValue s .writeClaims
  | .walkerJob => statusValue s .walkerJob
  | .walkerPort => statusValue s .walkerPort
  | .walkerSet => statusValue s .walkerSet
  | .walkCount => statusValue s .walkCount
  | .skippedCount => statusValue s .skippedCount
  | .purgePhase => statusValue s .purgePhase
  | .purgeSet => statusValue s .purgeSet
  | .purgeCount => statusValue s .purgeCount

/-- Byte `i` of a value, least significant byte at the lowest address (R179). -/
def valueByte (v i : Nat) : Byte := BitVec.ofNat 8 (v / 256 ^ i)

/-- The byte that an address reads as it stands; 00h where the window lists none (R177). -/
def regByte (s : State) (a : BitVec 16) : Byte :=
  match fieldAt a with
  | some (f, i) => valueByte (fieldValue s f) i
  | none => 0

/-! ### Data bytes -/

/-- What the hub drives for a data byte written: on four-wire the value the byte held before (R175), on I2C an
acknowledgement unless the byte was refused (R176). -/
def driveWrite (echo : Byte) (refused : Bool) (m : Mgmt) : Mgmt :=
  match m.interface with
  | .fourWire => { m with mdo := some echo }
  | .i2c => { m with sdaAck := some (!refused) }
  | .undetermined => m

/-- What the hub drives for a data byte read: the byte, on MDO or on SDA. -/
def driveRead (b : Byte) (m : Mgmt) : Mgmt :=
  match m.interface with
  | .fourWire => { m with mdo := some b }
  | .i2c => { m with sdaData := some b }
  | .undetermined => m

/-- What a data byte does to the register at the index: the state after, and whether the byte is refused. -/
abbrev WriteEffect := State → State × Bool

/-- Whether the frame or transaction on the locked interface stands at `x` (R174 to R176). -/
def inTransfer (s : State) (x : Transfer) : Bool := s.mgmt.interface ≠ .undetermined ∧ s.mgmt.transfer = x

/-- A data byte written at the index (R175 to R177): its effect, MGMT_REFUSED where it is refused, what the hub
drives, and the index raised by one. It is a data byte of a write frame or transaction whose index has been loaded; in a
read frame, and in one that is ignored to its end, no byte is written (R175, R176). -/
def writeData (effect : WriteEffect) (s : State) : State :=
  if inTransfer s .write = false then s
  else
    let echo := regByte s s.mgmt.index
    let r := effect s
    let s1 := if r.2 then latch .mgmtRefused r.1 else r.1
    { s1 with mgmt := { driveWrite echo r.2 s1.mgmt with index := s.mgmt.index + 1, capture := none } }

/-- The bytes of a multi-byte field above its lowest, captured when the lowest is read (R177). -/
def captureOf (s : State) (a : BitVec 16) : Option Capture :=
  match rowAt a with
  | some r =>
    if r.start = a.toNat ∧ 1 < r.width then
      some ⟨a + 1, BitVec.ofNat 16 (r.start + r.width), BitVec.ofNat 24 (fieldValue s r.field / 256)⟩
    else none
  | none => none

/-- A captured field after its next byte has been returned; none once its last has been. -/
def restOfCapture (c : Capture) : Option Capture :=
  if c.next + 1 = c.stop then none else some ⟨c.next + 1, c.stop, c.rest >>> 8⟩

/-- The byte that a read at the index returns, and the capture after it (R177). A capture is of a byte read earlier in
the same frame or transaction. -/
def readByte (s : State) : Byte × Option Capture :=
  let a := s.mgmt.index
  let fresh := (regByte s a, captureOf s a)
  match s.mgmt.capture with
  | some c => if c.next = a then (c.rest.setWidth 8, restOfCapture c) else fresh
  | none => fresh

/-- How a read goes on after a data byte: a four-wire frame reads on, and on I2C the byte that the master does not
acknowledge is the last of its transaction (R176). -/
def afterRead (acknowledged : Bool) (m : Mgmt) : Transfer :=
  if m.interface = .i2c ∧ acknowledged = false then .noTransfer else .read

/-- A data byte read at the index, in a read frame or transaction (R175 to R177). -/
def readData (acknowledged : Bool) (s : State) : State :=
  if inTransfer s .read = false then s
  else
    let r := readByte s
    { s with mgmt := { driveRead r.1 s.mgmt with
      index := s.mgmt.index + 1
      capture := r.2
      transfer := afterRead acknowledged s.mgmt } }

end Sys2Proof.Machine
end

