-- ==== Sys2Proof/Machine/WindowOps.lean ====
section
/-! DEFINITION. The writes of the register window: plain registers, assembled fields, the staged table, the alert
latch and mask, the record clears (R42, R47, R177, R178, R183, R184, R186). -/

namespace Sys2Proof.Machine

/-! ### Storing and refusing -/

/-- A byte that is stored, held or ignored. -/
def taken (s : State) : State × Bool := (s, false)

/-- A byte that is refused: nothing is stored. -/
def refused (s : State) : State × Bool := (s, true)

/-- Changes the Management Port's state. -/
def updMgmt (f : Mgmt → Mgmt) (s : State) : State := { s with mgmt := f s.mgmt }

/-- A flag of one byte: 0 and 1 are its codes (R179). -/
def flagOf (b : Byte) : Option Bool := if b = 0 then some false else if b = 1 then some true else none

/-- Stores a value if there is one, else refuses the byte. -/
def storeSome {α : Type} (x : Option α) (store : α → State → State) (s : State) : State × Bool :=
  match x with
  | some v => taken (store v s)
  | none => refused s

/-- Stores a field assembled from its highest byte if its value is accepted; the held bytes of the field are
discarded in either case (R178). -/
def assemble {w : Nat} (v : BitVec w) (accepted : Bool) (drop : Mgmt → Mgmt) (store : BitVec w → State → State)
    (s : State) : State × Bool :=
  if accepted then taken (store v (updMgmt drop s)) else refused (updMgmt drop s)

/-- The 16-bit value of a new high byte, the held low byte or, where none is held, the current low byte (R178). -/
def assembled16 (high : Byte) (held : Option Byte) (current : BitVec 16) : BitVec 16 :=
  high ++ held.getD (current.setWidth 8)

/-- The 24-bit value of a new high byte and the two lower bytes, held or current (R178). -/
def assembled24 (high : Byte) (held1 held0 : Option Byte) (current : BitVec 24) : BitVec 24 :=
  high ++ (held1.getD (current.extractLsb' 8 8) ++ held0.getD (current.extractLsb' 0 8))

/-! ### Registers with no row of their own (R177, R179) -/

/-- Changes the diagnostic window. -/
def updDiag (f : DiagWindow → DiagWindow) (s : State) : State := updMgmt (fun m => { m with diag := f m.diag }) s

/-- A byte written to the line operand (R178). -/
def writeLineOperand (i : Nat) (b : Byte) (s : State) : State × Bool :=
  if i = 0 then taken (updMgmt (fun m => { m with heldLine0 := some b }) s)
  else if i = 1 then taken (updMgmt (fun m => { m with heldLine1 := some b }) s)
  else
    assemble (assembled24 b s.mgmt.heldLine1 s.mgmt.heldLine0 s.mgmt.lineOperand) true
      (fun m => { m with heldLine0 := none, heldLine1 := none })
      (fun v => updMgmt (fun m => { m with lineOperand := v })) s

/-- A byte written to the recall limit: 10 to 65,535 is accepted (R178, R179). -/
def writeRecallLimit (i : Nat) (b : Byte) (s : State) : State × Bool :=
  if i = 0 then taken (updMgmt (fun m => { m with heldRecall := some b }) s)
  else
    let v := assembled16 b s.mgmt.heldRecall s.mgmt.recallLimit
    assemble v (10 ≤ v.toNat) (fun m => { m with heldRecall := none })
      (fun v => updMgmt (fun m => { m with recallLimit := v })) s

/-- A byte written to the set of the diagnostic window: stored as written (R178, R179). -/
def writeDiagSet (i : Nat) (b : Byte) (s : State) : State × Bool :=
  if i = 0 then taken (updMgmt (fun m => { m with heldDiagSet := some b }) s)
  else
    assemble (assembled16 b s.mgmt.heldDiagSet s.mgmt.diag.set) true (fun m => { m with heldDiagSet := none })
      (fun v => updDiag (fun d => { d with set := v })) s

/-- A byte written to the tag of the diagnostic window: 0 to 2,047 is accepted (R178, R179). -/
def writeDiagTag (i : Nat) (b : Byte) (s : State) : State × Bool :=
  if i = 0 then taken (updMgmt (fun m => { m with heldDiagTag := some b }) s)
  else
    let v := assembled16 b s.mgmt.heldDiagTag (s.mgmt.diag.tag.setWidth 16)
    assemble v (v.toNat ≤ 2047) (fun m => { m with heldDiagTag := none })
      (fun v => updDiag (fun d => { d with tag := v.setWidth 11 })) s

/-- A byte written to a register with no row of its own: stored, held, ignored if read-only, or refused. -/
def writePlain (f : Field) (i : Nat) (b : Byte) (s : State) : State × Bool :=
  match f with
  | .portOperand => taken (updMgmt (fun m => { m with portOperand := b }) s)
  | .lineOperand => writeLineOperand i b s
  | .port h .admission => storeSome (flagOf b) (fun v => (updPort · h (fun p => { p with admission := v }))) s
  | .recallLimit => writeRecallLimit i b s
  | .diagEnable => storeSome (flagOf b) (fun v => updMgmt (fun m => { m with diagEnable := v })) s
  | .diagSet => writeDiagSet i b s
  | .diagWay => taken (updDiag (fun d => { d with way := b }) s)
  | .diagCode => if b.toNat ≤ 7 then taken (updDiag (fun d => { d with code := b.setWidth 3 }) s) else refused s
  | .diagTag => writeDiagTag i b s
  | .diagHolders =>
    if b.toNat ≤ 15 then taken (updDiag (fun d => { d with holders := b.setWidth 4 }) s) else refused s
  | .diagTagParity => storeSome (flagOf b) (fun v => updDiag (fun d => { d with tagParity := v })) s
  | .diagStateParity => storeSome (flagOf b) (fun v => updDiag (fun d => { d with stateParity := v })) s
  | _ => taken s

/-- Whether a field's writes have rows of their own in the table of operations and events. -/
def hasOwnRow : Field → Bool
  | .commandCode => true
  | .alertLatch => true
  | .alertMask => true
  | .staged _ _ => true
  | .dirClear => true
  | .memClear => true
  | .protoClear => true
  | .lostClear => true
  | _ => false

/-- REGISTER_WRITE: a data byte written to a register with no row of its own, or to no register at all. -/
def registerWrite (b : Byte) (s : State) : State :=
  match fieldAt s.mgmt.index with
  | none => writeData taken s
  | some (f, i) => if hasOwnRow f then s else writeData (writePlain f i b) s

/-! ### The staged table (R42, R47) -/

/-- Changes a staged descriptor. -/
def updStaged (d : Fin 16) (f : Descriptor → Descriptor) (s : State) : State :=
  { s with region := { s.region with staged := s.region.staged.set d (f s.region.staged[d]) } }

/-- The mode coded by a byte (R41). -/
def modeOf (b : Byte) : Option RegionMode :=
  if b = 0 then some .tracked else if b = 1 then some .directOnly else none

/-- A byte written to the size field of a staged descriptor (R42, R178). -/
def writeStagedSize (d : Fin 16) (i : Nat) (b : Byte) (s : State) : State × Bool :=
  if i = 0 then taken (updMgmt (fun m => { m with heldSize := m.heldSize.set d (some b) }) s)
  else
    assemble (assembled16 b s.mgmt.heldSize[d] s.region.staged[d].size) true
      (fun m => { m with heldSize := m.heldSize.set d none })
      (fun v => updStaged d (fun x => { x with size := v })) s

/-- A byte written to a field of a staged descriptor (R42); every write is refused under the cutover lock (R47). -/
def writeStaged (d : Fin 16) (f : DescField) (i : Nat) (b : Byte) (s : State) : State × Bool :=
  if s.region.lock then refused s
  else
    match f with
    | .enabled => storeSome (flagOf b) (fun v => updStaged d (fun x => { x with enabled := v })) s
    | .base => taken (updStaged d (fun x => { x with base := b }) s)
    | .size => writeStagedSize d i b s
    | .mode => storeSome (modeOf b) (fun v => updStaged d (fun x => { x with mode := v })) s
    | .rights => storeSome (rightsOfByte b) (fun v => updStaged d (fun x => { x with rights := v })) s

/-- STAGED_TABLE_WRITE: a data byte written to a field of a staged descriptor. -/
def stagedTableWrite (b : Byte) (s : State) : State :=
  match fieldAt s.mgmt.index with
  | some (.staged d f, i) => writeData (writeStaged d f i b) s
  | _ => s

/-! ### The alert latch and mask (R183, R184) -/

/-- A byte at place `i` of a 16-bit register. -/
def byteAt (i : Nat) (b : Byte) : BitVec 16 := b.setWidth 16 <<< (8 * i)

/-- ALERT_LATCH_CLEAR: each bit written as one is cleared (R183). -/
def alertLatchClear (b : Byte) (s : State) : State :=
  match fieldAt s.mgmt.index with
  | some (.alertLatch, i) =>
    writeData (fun s => taken (setAlerts (s.mgmt.latch &&& ~~~byteAt i b) s.mgmt.mask s)) s
  | _ => s

/-- ALERT_MASK_WRITE: a byte of the mask takes the value written (R178, R184). -/
def alertMaskWrite (b : Byte) (s : State) : State :=
  match fieldAt s.mgmt.index with
  | some (.alertMask, i) =>
    writeData
      (fun s => taken (setAlerts s.mgmt.latch ((s.mgmt.mask &&& ~~~byteAt i 0xFF) ||| byteAt i b) s)) s
  | _ => s

/-! ### The record clears (R186) -/

/-- Clears the record that a clear byte belongs to. -/
def clearRecord (f : Field) (s : State) : State :=
  match f with
  | .dirClear => { s with integ := { s.integ with record := none } }
  | .memClear => { s with mem := { s.mem with record := none } }
  | .protoClear => { s with mgmt := { s.mgmt with proto := none } }
  | .lostClear => { s with dir := { s.dir with lostRecord := none } }
  | _ => s

/-- Whether a field is one of the four clear bytes. -/
def isClearByte : Field → Bool
  | .dirClear => true
  | .memClear => true
  | .protoClear => true
  | .lostClear => true
  | _ => false

/-- RECORD_CLEAR: a value with bit 0 set clears the record; one with bit 0 clear is ignored (R186). -/
def recordClear (b : Byte) (s : State) : State :=
  match fieldAt s.mgmt.index with
  | some (f, _) =>
    if isClearByte f then
      writeData (fun s => taken (if b.getLsbD 0 then clearRecord f s else s)) s
    else s
  | none => s

/-! ### The interface and the index (R174 to R177) -/

/-- Whether an I2C address byte names the hub: 1011 0 A1 A0 and the read or write bit (R176). -/
def namesHub (maddr : BitVec 2) (address : Byte) : Bool := address.extractLsb' 1 7 = (0b10110 : BitVec 5) ++ maddr

/-- How a four-wire frame goes on after its command byte: 3Ah writes, 3Bh reads, any other is ignored to the frame's
end (R175). -/
def afterCommandByte (first : Byte) : Transfer :=
  if first = 0x3A then .index false else if first = 0x3B then .index true else .ignored

/-- How an I2C transaction goes on after its address byte: one that does not name the hub is ignored to its end; with
the write bit the index bytes come next, with the read bit data bytes are read (R176). -/
def afterAddress (maddr : BitVec 2) (address : Byte) : Transfer :=
  if namesHub maddr address = false then .ignored else if address.getLsbD 0 then .read else .index false

/-- A frame or transaction has begun: it stands at `x`, and no byte has been read in it (R177). -/
def beginTransfer (x : Transfer) (m : Mgmt) : Mgmt := { m with transfer := x, capture := none }

/-- INTERFACE_LOCK: the first byte of a frame or transaction. Before the lock the first recognised one locks the
interface and is carried out (R174), MDO undriven during that byte (R175). After it, on the interface in use, MDO
carries 00h in a frame's command byte, as it then does to the end of a frame that is ignored (R175), and an I2C address
byte is acknowledged exactly if it names the hub (R176). The other interface is ignored (R174). -/
def lockInterface (e : LockEvent) (s : State) : State :=
  match s.mgmt.interface, e with
  | .undetermined, .fourWire first =>
    if first = 0x3A ∨ first = 0x3B then
      updMgmt (fun m => beginTransfer (afterCommandByte first) { m with interface := .fourWire }) s
    else s
  | .undetermined, .i2c address =>
    if namesHub s.mgmt.maddr address then
      updMgmt (fun m => beginTransfer (afterAddress m.maddr address) { m with interface := .i2c, sdaAck := some true }) s
    else s
  | .fourWire, .fourWire first => updMgmt (fun m => beginTransfer (afterCommandByte first) { m with mdo := some 0 }) s
  | .i2c, .i2c address =>
    updMgmt (fun m => beginTransfer (afterAddress m.maddr address) { m with sdaAck := some (namesHub m.maddr address) }) s
  | .fourWire, .i2c _ => s
  | .i2c, .fourWire _ => s

/-- INDEX_LOAD: the two index bytes of a frame or write transaction, the high one first, load the index, and data bytes
come next. MDO carries 00h in those bytes, and on I2C they are acknowledged (R175, R176). -/
def loadIndex (index : IndexBytes) (s : State) : State :=
  let load := fun (x : Transfer) =>
    updMgmt (fun m => { driveWrite 0 false m with index := index.first ++ index.second, capture := none, transfer := x }) s
  if inTransfer s (.index false) then load .write
  else if inTransfer s (.index true) then load .read
  else s

end Sys2Proof.Machine
end

