-- ==== Sys2Proof/Machine/CommandOps.lean ====
section
/-! DEFINITION. The commands of the command register: how a command is issued, and the judging of each (R72, R152,
R171, R172, R180 to R182, R190, R191). -/

namespace Sys2Proof.Machine

/-! ### Issuing a command (R180) -/

/-- How a command is judged: refused on its own terms, done at the judging, or taking time. The state is the one
after everything the judging brings about apart from the command register itself. -/
inductive Verdict where
  | refuse (s : State)
  | finish (s : State)
  | start (s : State)

/-- Sets the code and the status of the command register. -/
def setCommand (code : Byte) (status : CommandStatus) (s : State) : State :=
  updMgmt (fun m => { m with code := code, status := status }) s

/-- Judges a command: while another is in progress it is refused without effect (R180). -/
def judgeCommand (code : Byte) (judge : State → Verdict) (s : State) : State × Bool :=
  if s.mgmt.status = .busy then refused s
  else
    match judge s with
    | .refuse s1 => refused (setCommand code .refused s1)
    | .finish s1 => taken (setCommand code .done s1)
    | .start s1 => taken (setCommand code .busy s1)

/-- Writes a command's code to 0010h, which issues it (R180). -/
def issue (code : Byte) (judge : State → Verdict) (s : State) : State :=
  if fieldAt s.mgmt.index = some (.commandCode, 0) then writeData (judgeCommand code judge) s else s

/-! ### CUTOVER (R152) -/

/-- A CUTOVER refused for a staged table that is not valid: FAILED, the offending descriptors, CUTOVER_FAIL. -/
def failCutover (s : State) : State :=
  let s1 := setCutover .failed s
  latch .cutoverFail { s1 with region := { s1.region with offending := offendingOf s.region.staged } }

/-- A CUTOVER accepted: PENDING, the lock, no offending descriptors, held size bytes discarded, the job appended. -/
def acceptCutover (s : State) : State :=
  let s1 := setCutover .pending s
  { s1 with
    region := { s1.region with offending := 0 }
    mgmt := { s1.mgmt with heldSize := Vector.replicate 16 none }
    walker := { s1.walker with jobs := s1.walker.jobs ++ [.cutover] } }

/-- CUTOVER is judged (R152). -/
def judgeCutover (s : State) : Verdict :=
  if s.hub = .init then .refuse s
  else if locks s.region.status then .refuse s
  else if isValidTable s.region.staged = false then .refuse (failCutover s)
  else .finish (acceptCutover s)

/-! ### FENCE and RELEASE (R37, R38) -/

/-- The port that the port operand names; none above 3 (R181). -/
def operandPort (s : State) : Option HostNo :=
  if h : s.mgmt.portOperand.toNat < 4 then some ⟨s.mgmt.portOperand.toNat, h⟩ else none

/-- FENCE(h) is judged (R37). -/
def judgeFence (s : State) : Verdict :=
  match operandPort s with
  | none => .refuse s
  | some h => if isAdmitted s h then .finish (startFence h .command s) else .refuse s

/-- RELEASE(h) is judged (R38). -/
def judgeRelease (s : State) : Verdict :=
  match operandPort s with
  | none => .refuse s
  | some h =>
    if portState s h = .fenced ∧ s.hub ≠ .init then .finish (setPortState h .offline s) else .refuse s

/-! ### HUB_RESET (R182) -/

/-- Whether an entry's hold belongs to the pool read that holds the port (R142). -/
def holdStays (s : State) (e : WbEntry) : Bool :=
  match s.mem.port with
  | .read t => (match trackerOf s t with | some tr => tr.line = e.line | none => false)
  | _ => false

/-- The notice of a hub reset: an ONLINE port's outbound queue is emptied and NOTICE(HUB_RESET) placed (R23). -/
def noticeReset (s : State) (h : HostNo) : State :=
  if portState s h = .online then
    place h (.notice .hubReset 0 s.region.epoch) (updHli s h (fun x => { x with outbound := [] }))
  else s

/-- Steps 1 and 2 of a hub reset, and the beginning of step 3: intake stops, the notices are sent, the waiting
reads are dropped and the holds they had set removed (R142, R182). -/
def beginReset (s : State) : State :=
  let s1 : State := { s with resetPhase := .drain, hli := s.hli.map (fun x => { x with intakeStopped := true, linkFell := false }) }
  let s2 := hosts.foldl noticeReset s1
  { s2 with
    mem := { s2.mem with
      reads := []
      wbuf := s2.mem.wbuf.map (fun e => { e with held := e.held && holdStays s e }) } }

/-- HUB_RESET is judged (R181). -/
def judgeHubReset (s : State) : Verdict := if s.hub = .init then .refuse s else .start (beginReset s)

/-! ### CLEAR_LOST (R72) -/

/-- The way of an open set that CLEAR_LOST frees: matching, LOST, of good parity, unbound. -/
def clearableWay (s : State) (line : LineNo) : Option WayNo :=
  match matchingWay s line with
  | none => none
  | some w =>
    let x := wayOf s (lineSet line) w
    if checkWay x = .good ∧ x.code = 4 ∧ x.binding = none then some w else none

/-- CLEAR_LOST(line) is judged (R72). -/
def judgeClearLost (s : State) : Verdict :=
  if 4194303 < s.mgmt.lineOperand.toNat then .refuse s
  else
    let line : LineNo := s.mgmt.lineOperand.setWidth 22
    let k := lineSet line
    if isClosed s k then .refuse s
    else
      let s1 := handErrors k allWays .command s
      match clearableWay s line with
      | some w => .finish (makeFree k w s1)
      | none => .refuse s1

/-! ### DIAG_READ and DIAG_WRITE (R171, R172) -/

/-- The set and way that the diagnostic window names; none where either is out of range. -/
def diagPlace (s : State) : Option (SetNo × WayNo) :=
  let d := s.mgmt.diag
  if h : d.way.toNat < 8 then
    if d.set.toNat ≤ 2047 then some (d.set.setWidth 11, ⟨d.way.toNat, h⟩) else none
  else none

/-- The way read is copied into the window (R171). -/
def showWay (x : Way) (s : State) : State :=
  updDiag (fun d =>
    { d with
      code := x.code, tag := x.tag, holders := x.holders, binding := x.binding,
      tagParity := x.tagParity, stateParity := x.stateParity, outcome := checkWay x }) s

/-- DIAG_READ is judged (R171). -/
def judgeDiagRead (s : State) : Verdict :=
  if s.mgmt.diagEnable = false then .refuse s
  else
    match diagPlace s with
    | none => .refuse s
    | some (k, w) => .finish (handErrors k [w] .diag (showWay (wayOf s k w) s))

/-- The way that the window gives to be written, as given (R172). -/
def diagWay (d : DiagWindow) : Way := ⟨d.code, d.tag, d.holders, none, d.tagParity, d.stateParity⟩

/-- Whether holders break the rule of R56 for a stored code. -/
def breaksHolders (code : BitVec 3) (holders : HostSet) : Bool :=
  if code = 2 then holders = 0
  else if code = 3 then (members holders).length ≠ 1
  else if code = 4 then holders ≠ 0
  else false

/-- Whether a write of code 2 or 3 names, while the status is RECALLING, a holder that R154 would recall. -/
def breaksRecall (s : State) (k : SetNo) (x : Way) : Bool :=
  s.region.status = .recalling && (x.code = 2 || x.code = 3) &&
    (members x.holders).any (fun h => (recallUnder s.region.staged (lineOf x.tag k) (x.code = 3) h).isSome)

/-- The conditions of R172 on what is written, the code being other than 0. -/
def diagWriteBad (s : State) (k : SetNo) (w : WayNo) (x : Way) : Bool :=
  x.code = 1 || (trackerOn s (lineOf x.tag k)).isSome
    || allWays.any (fun v => v ≠ w ∧ (wayOf s k v).code ≠ 0 ∧ (wayOf s k v).tag = x.tag)
    || breaksHolders x.code x.holders
    || ((x.code = 2 || x.code = 3) && (members x.holders).any (fun h => portState s h ≠ .online))
    || breaksRecall s k x

/-- The write of code 0: the way is FREE; one that was VALID moves to least recent, and the change is reported (R172). -/
def diagFree (k : SetNo) (w : WayNo) (s : State) : State :=
  if 2 ≤ (wayOf s k w).code.toNat then makeFree k w s else putFree k w s

/-- DIAG_WRITE is judged (R172). -/
def judgeDiagWrite (s : State) : Verdict :=
  if s.mgmt.diagEnable = false then .refuse s
  else
    match diagPlace s with
    | none => .refuse s
    | some (k, w) =>
      let x := diagWay s.mgmt.diag
      if (wayOf s k w).binding.isSome ∨ (wayOf s k w).code = 1 ∨ isClosed s k then .refuse s
      else if x.code = 0 then .finish (diagFree k w s)
      else if diagWriteBad s k w x then .refuse s
      else .finish (putWay k w x s)

/-! ### Maintenance (R190, R191) -/

/-- MAINT_ENTER is judged (R190). -/
def judgeMaintEnter (s : State) : Verdict :=
  if s.hub = .run ∧ hosts.all (fun h => portState s h = .offline ∨ portState s h = .fenced) then
    .finish { s with hub := .maint }
  else .refuse s

/-- MAINT_EXIT is judged (R190). -/
def judgeMaintExit (s : State) : Verdict := if s.hub = .maint then .finish { s with hub := .run } else .refuse s

/-- POOL_CLEAR begins: the write buffer is discarded but for a draining entry, and the rewrite takes the port, now
or at the completion of the access that holds it (R191). -/
def beginClear (s : State) : State :=
  let s1 : State := { s with
    mem := { s.mem with clearing := true, wbuf := s.mem.wbuf.filter (fun e => e.draining) } }
  if s.mem.port = .idle then freePort s1 else s1

/-- POOL_CLEAR is judged (R191). -/
def judgePoolClear (s : State) : Verdict := if s.hub = .maint then .start (beginClear s) else .refuse s

/-- The last line of a POOL_CLEAR has been written: the port is free and the command done (R191). -/
def endClear (s : State) : State :=
  if s.mem.clearing ∧ s.mem.port = .rewrite then
    updMgmt (fun m => { m with status := .done }) { s with mem := { s.mem with clearing := false, port := .idle } }
  else s

/-! ### A code not listed (R181) -/

/-- A code not listed is refused. -/
def judgeInvalid (s : State) : Verdict := .refuse s

end Sys2Proof.Machine
end

