-- ==== Sys2Proof/Machine/DispatchOps.lean ====
section
/-! DEFINITION. The Request Dispatcher: the lane A heads, the park list, the fence slots (R15, R16, R84 to R92,
R127 to R130). -/

namespace Sys2Proof.Machine

/-! ### The lane A queue (R15, R16) -/

/-- STALL is sent when an accepted arrival brings the occupancy to 12 with the stalled mark clear (R16). -/
def stallCheck (h : HostNo) (s : State) : State :=
  if (hliOf s h).laneA.length = 12 ∧ (hliOf s h).stalled = false then
    place h .stall (updHli s h (fun x => { x with stalled := true }))
  else s

/-- RESUME is sent when a removal brings the occupancy to 6 with the stalled mark set (R16). -/
def resumeCheck (h : HostNo) (s : State) : State :=
  if (hliOf s h).laneA.length = 6 ∧ (hliOf s h).stalled = true then
    place h .resume (updHli s h (fun x => { x with stalled := false }))
  else s

/-- Removes the head of a host's lane A queue (R15). -/
def popLaneA (h : HostNo) (s : State) : State :=
  resumeCheck h (updHli s h (fun x => { x with laneA := x.laneA.tail }))

/-! ### Placing and refusing -/

/-- Sends the refusal of a request (R51). -/
def refuse (h : HostNo) (tag : HostTag) (reason : RefuseReason) (s : State) : State :=
  respond h tag (.refuseReq tag reason) s

/-- Places a request on a free host-pool tracker, in SETUP, with the mode the access check found (R51, R76). A
DIRECT_ONLY tracker makes no lookup and leaves SETUP at once (R77, R119). -/
def placeOn (t : TrackerNo) (h : HostNo) (r : Request) (mode : RegionMode) (s : State) : State :=
  match kindOf r.kind with
  | none => s
  | some kind =>
    let s1 := setTracker s t (some (newTracker kind r.line mode (some (h, r.tag)) r.operands))
    if mode = .directOnly then goOn t s1 else s1

/-- Parks a request at the tail of the park list (R88). -/
def parkTail (p : Parked) (s : State) : State :=
  { s with disp := { s.disp with park := s.disp.park ++ [p] } }

/-! ### The fence slot (R128, R130) -/

/-- Whether a tracker holds modified data absorbed from host `h` and not yet placed (R128). -/
def holdsAbsorbed (s : State) (h : HostNo) (t : TrackerNo) : Bool :=
  match trackerOf s t with
  | none => false
  | some tr =>
    match tr.buffer with
    | some b => b.source = .absorbed ∧ b.modified ∧ b.absorbedFrom = some h
    | none => false

/-- The marker of a FENCE that enters host `h`'s slot, from the state then standing (R128). -/
def markerOf (s : State) (h : HostNo) (tag : HostTag) : FenceSlot where
  tag := tag
  requests := (hliOf s h).tags.filter (fun x => x ≠ tag ∧ x ∉ (hliOf s h).laneA.map (fun r => r.tag))
  returns := (hliOf s h).returns
  absorptions := allTrackers.filter (holdsAbsorbed s h)
  drainLines := s.mem.wbuf.map (fun e => e.line)

/-- Whether all four parts of a marker are empty (R130). -/
def markerEmpty (x : FenceSlot) : Bool :=
  x.requests.isEmpty && x.returns.isEmpty && x.absorptions.isEmpty && x.drainLines.isEmpty

/-- Answers the FENCE of a host's slot once its marker is empty, and empties the slot (R130). -/
def dueSlot (h : HostNo) (s : State) : Option State :=
  match slotOf s h with
  | none => none
  | some x => if markerEmpty x then some (respond h x.tag (.doneReq x.tag .ok none) (setSlot s h none)) else none

/-! ### The park list (R89, R90) -/

/-- Whether a parked request is ready, given the requests parked ahead of it (R89). -/
def isReady (s : State) (ahead : List Parked) (p : Parked) : Bool :=
  ahead.all (fun q => q.req.line ≠ p.req.line) && (trackerOn s p.req.line).isNone
    && !((hliOf s p.host).returns.contains p.req.line) && !isClosed s (lineSet p.req.line)

/-- The oldest ready request of a list, given those ahead of it. -/
def firstReady (s : State) (ahead : List Parked) : List Parked → Option Parked
  | [] => none
  | p :: rest => if isReady s ahead p then some p else firstReady s (ahead ++ [p]) rest

/-- The oldest ready request in the park list (R89). -/
def oldestReady (s : State) : Option Parked := firstReady s [] s.disp.park

/-- Whether the dispatcher makes no decision: during a cutover's halt (R85) and a hub reset (R182). -/
def dispatcherStopped (s : State) : Bool := s.disp.halted || inReset s

/-- The request that the dispatcher would take from the park list now, and the tracker for it (R90). -/
def parkedChoice (s : State) : Option (TrackerNo × Parked) :=
  match freeHostTracker s, oldestReady s with
  | some t, some p => some (t, p)
  | _, _ => none

/-- Takes a parked request that is ready to tracker `t`, or refuses it (R90). -/
def takeParkedTo (t : TrackerNo) (p : Parked) (s : State) : State :=
  let s1 : State := { s with disp := { s.disp with park := s.disp.park.filter (· ≠ p) } }
  if portState s p.host = .departing then refuse p.host p.req.tag .notOnline s1
  else
    match accessCheck s.region.active p.host p.req.kind p.req.line with
    | .error reason => refuse p.host p.req.tag reason s1
    | .ok mode => placeOn t p.host p.req mode s1

/-- The dispatcher takes the oldest ready parked request, if it can (R84, R90). -/
def takeParked (s : State) : State :=
  if dispatcherStopped s then s
  else
    match parkedChoice s with
    | none => s
    | some (t, p) => takeParkedTo t p s

/-! ### The lane A heads (R84, R86) -/

/-- Whether a request must wait for its line (R86, steps 4 to 6). -/
def mustPark (s : State) (h : HostNo) (line : LineNo) : Bool :=
  (trackerOn s line).isSome || s.disp.park.any (fun p => p.req.line = line)
    || (hliOf s h).returns.contains line || isClosed s (lineSet line)

/-- Deals with a request at the head of host `h`'s queue (R86); none where it cannot be dealt with now (R84). -/
def dealWith (h : HostNo) (r : Request) (s : State) : Option State :=
  if portState s h = .departing then some (refuse h r.tag .notOnline (popLaneA h s))
  else if r.kind = .fence then
    match slotOf s h with
    | some _ => none
    | none =>
      let s1 := popLaneA h s
      some (setSlot s1 h (some (markerOf s1 h r.tag)))
  else
    match accessCheck s.region.active h r.kind r.line with
    | .error reason => some (refuse h r.tag reason (popLaneA h s))
    | .ok mode =>
      if mustPark s h r.line then
        if 48 ≤ s.disp.park.length then none else some (parkTail ⟨h, r⟩ (popLaneA h s))
      else
        match freeHostTracker s with
        | none => none
        | some t => some (placeOn t h r mode (popLaneA h s))

/-- The head of host `h`'s queue dealt with, if there is one and it can be. One that waits for a tracker of the host
pool is not judged again until one is freed (R92). -/
def dealHead (s : State) (h : HostNo) : Option State :=
  match (hliOf s h).laneA with
  | [] => none
  | r :: _ => if hasHost s.disp.passedOver h then none else dealWith h r s

/-- Whether a request at the head of host `h`'s queue, judged now, is to be placed on a tracker (R86, step 7). -/
def needsTracker (s : State) (h : HostNo) (r : Request) : Bool :=
  portState s h ≠ .departing && r.kind ≠ .fence &&
    (match accessCheck s.region.active h r.kind r.line with
     | .ok _ => !mustPark s h r.line
     | .error _ => false)

/-- Notes a head that a decision passes over for want of a tracker of the host pool (R92, assumption 44). -/
def passOver (h : HostNo) (s : State) : State :=
  match (hliOf s h).laneA with
  | [] => s
  | r :: _ =>
    if needsTracker s h r && (freeHostTracker s).isNone then
      { s with disp := { s.disp with passedOver := addHost s.disp.passedOver h } }
    else s

/-- The hosts in turn from the pointer (R84). -/
def turnFrom (p : HostNo) : List HostNo := [p, p + 1, p + 2, p + 3]

/-- Deals with the first head in turn that can be dealt with, and moves the pointer to the host after it; the heads
before it are passed over (R84, R92). -/
def takeHead (s : State) : List HostNo → State
  | [] => s
  | h :: rest =>
    match dealHead s h with
    | some s1 => { s1 with disp := { s1.disp with pointer := h + 1 } }
    | none => takeHead (passOver h s) rest

/-- One decision of the dispatcher on the lane A heads. While a parked request could be taken, that is the
dispatcher's decision and no head is (R84). -/
def dispatchHead (s : State) : State :=
  if dispatcherStopped s ∨ (parkedChoice s).isSome then s
  else takeHead s (turnFrom s.disp.pointer)

/-! ### Re-parking (R91) -/

/-- A place freed in the park list goes to the tracker that began to wait for one first (R91). -/
def dueRepark (s : State) : Option State :=
  match s.trk.reparkWait with
  | [] => none
  | t :: _ => if s.disp.park.length < 48 then some (reparkNow t s) else none

end Sys2Proof.Machine
end

