-- ==== Sys2Proof/Machine/LinkOps.lean ====
section
/-! DEFINITION. The Host Link Interface: arrivals and their checks, link-up, link-down and delivery, and JOIN and
DEPART at the head of lane B (R1, R3, R9 to R14, R27, R28, R32). -/

namespace Sys2Proof.Machine

/-! ### Arrivals -/

/-- Whether the HLI takes messages from its link: the link is up (R1), and no hub reset has stopped its intake (R23). -/
def takesMessages (s : State) (h : HostNo) : Bool := (hliOf s h).linkUp && !(hliOf s h).intakeStopped

/-- The kind code of a lane A request (R6). -/
def ReqKind.toCode : ReqKind → Byte
  | .readShared => 0x01
  | .readOwn => 0x02
  | .upgrade => 0x03
  | .directRead => 0x04
  | .directWrite => 0x05
  | .atomic => 0x06
  | .fence => 0x07

/-- The line that a request names; a FENCE names none (R6). -/
def lineNamed (r : Request) : Option LineNo :=
  match r.kind with
  | .fence => none
  | _ => some r.line

/-- A severe violation: recorded, and a fence of the port is asked with reason PROTOCOL (R10). -/
def severeViolation (h : HostNo) (kind : Byte) (cause : ProtocolCause) (tag : Option HostTag)
    (line : Option LineNo) (s : State) : State :=
  requestFence h .protocol (protocolError h kind cause tag line s)

/-- An accepted request joins the outstanding tags and the lane A queue, and the STALL check is made (R11, R16). -/
def acceptRequest (h : HostNo) (r : Request) (s : State) : State :=
  stallCheck h (updHli s h (fun x => { x with laneA := x.laneA ++ [r], tags := insertNew r.tag x.tags }))

/-- The checks of a lane A request from an admitted port (R11). -/
def checkRequest (h : HostNo) (r : Request) (s : State) : State :=
  if r.tag ∈ (hliOf s h).tags then
    protocolError h r.kind.toCode .dupTag (some r.tag) (lineNamed r) (place h (.refuseReq r.tag .dupTag) s)
  else if 16 ≤ (hliOf s h).laneA.length then
    protocolError h r.kind.toCode .overrun (some r.tag) (lineNamed r) (place h (.refuseReq r.tag .overrun) s)
  else acceptRequest h r s

/-- The arrival of a lane A request (R9). -/
def arriveRequest (h : HostNo) (r : Request) (s : State) : State :=
  if takesMessages s h = false then s
  else
    match portState s h with
    | .offline => place h (.refuseReq r.tag .notOnline) s
    | .online => checkRequest h r s
    | .departing => checkRequest h r s
    | .fencing => s
    | .fenced => s

/-- Puts a message at the tail of a host's lane B queue. -/
def queueLaneB (h : HostNo) (m : LaneBMsg) (s : State) : State :=
  updHli s h (fun x => { x with laneB := x.laneB ++ [m] })

/-- The checks of a WRITEBACK or RELEASE from an admitted port (R12). -/
def checkReturn (h : HostNo) (kind : Byte) (line : LineNo) (m : LaneBMsg) (s : State) : State :=
  if line ∈ (hliOf s h).returns then
    protocolError h kind .dupReturn none (some line) (place h (.doneRet line .stray) s)
  else if 16 ≤ (hliOf s h).returns.length then severeViolation h kind .returnLimit none (some line) s
  else queueLaneB h m (updHli s h (fun x => { x with returns := x.returns ++ [line] }))

/-- The arrival of a WRITEBACK or RELEASE (R9). -/
def arriveReturn (h : HostNo) (kind : Byte) (line : LineNo) (m : LaneBMsg) (s : State) : State :=
  if takesMessages s h = false then s
  else
    match portState s h with
    | .offline => protocolError h kind .notAdmitted none (some line) s
    | .online => checkReturn h kind line m s
    | .departing => checkReturn h kind line m s
    | .fencing => s
    | .fenced => s

/-- Whether an ANSWER of host `h` naming tracker `t` matches (R13). -/
def answerMatches (s : State) (h : HostNo) (t : TrackerNo) : Bool :=
  match trackerOf s t with
  | none => false
  | some tr => awaits tr h && !((hliOf s h).answered.contains t)

/-- The check of an ANSWER from an admitted port (R13). -/
def checkAnswer (h : HostNo) (t : TrackerNo) (line : LineNo) (m : LaneBMsg) (s : State) : State :=
  if answerMatches s h t then
    queueLaneB h m (updHli s h (fun x => { x with answered := x.answered ++ [t] }))
  else protocolError h 0x12 .unmatchedAnswer none (some line) s

/-- The arrival of an ANSWER (R9). -/
def arriveAnswer (h : HostNo) (t : TrackerNo) (line : LineNo) (m : LaneBMsg) (s : State) : State :=
  if takesMessages s h = false then s
  else
    match portState s h with
    | .offline => protocolError h 0x12 .notAdmitted none (some line) s
    | .online => checkAnswer h t line m s
    | .departing => checkAnswer h t line m s
    | .fencing => s
    | .fenced => s

/-- Whether a PURGE_DONE of host `h` naming a set matches (R13). -/
def purgeDoneMatches (s : State) (h : HostNo) (k : SetNo) : Bool :=
  s.integ.phase = .purging && s.integ.set = k && s.integ.awaited.contains h && !(hliOf s h).purgeAnswer

/-- The check of a PURGE_DONE from an admitted port (R13). -/
def checkPurgeDone (h : HostNo) (k : SetNo) (s : State) : State :=
  if purgeDoneMatches s h k then queueLaneB h (.purgeDone k) (updHli s h (fun x => { x with purgeAnswer := true }))
  else protocolError h 0x13 .unmatchedPurge none none s

/-- The arrival of a PURGE_DONE (R9). -/
def arrivePurgeDone (h : HostNo) (k : SetNo) (s : State) : State :=
  if takesMessages s h = false then s
  else
    match portState s h with
    | .offline => protocolError h 0x13 .notAdmitted none none s
    | .online => checkPurgeDone h k s
    | .departing => checkPurgeDone h k s
    | .fencing => s
    | .fenced => s

/-- Queues a control message unless one is pending (R14). -/
def queueControl (h : HostNo) (kind : Byte) (m : LaneBMsg) (s : State) : State :=
  if (hliOf s h).controlPending then protocolError h kind .controlRepeat none none s
  else queueLaneB h m (updHli s h (fun x => { x with controlPending := true }))

/-- The arrival of a JOIN (R9, R10, R14). -/
def arriveJoin (h : HostNo) (level : BitVec 4) (s : State) : State :=
  if takesMessages s h = false then s
  else
    match portState s h with
    | .offline => queueControl h 0x14 (.join level) s
    | .online => severeViolation h 0x14 .joinWhileAdmitted none none s
    | .departing => severeViolation h 0x14 .joinWhileAdmitted none none s
    | .fencing => place h (.refuseJoin .fenced) s
    | .fenced => place h (.refuseJoin .fenced) s

/-- The arrival of a DEPART (R9, R14). -/
def arriveDepart (h : HostNo) (s : State) : State :=
  if takesMessages s h = false then s
  else
    match portState s h with
    | .offline => protocolError h 0x15 .notAdmitted none none s
    | .online => queueControl h 0x15 .depart s
    | .departing => protocolError h 0x15 .controlRepeat none none s
    | .fencing => s
    | .fenced => s

/-- The arrival of a message of unknown kind: it is recorded, with the tag and line that a message of its kind
code carries, and from an admitted port it is a severe violation (R9, R10). -/
def arriveUnknown (h : HostNo) (f : HeaderFields) (s : State) : State :=
  if takesMessages s h = false then s
  else
    match portState s h with
    | .offline => protocolError h f.kind .unknownKind (carriedTag f) (carriedLine f) s
    | .online => severeViolation h f.kind .unknownKind (carriedTag f) (carriedLine f) s
    | .departing => severeViolation h f.kind .unknownKind (carriedTag f) (carriedLine f) s
    | .fencing => s
    | .fenced => s

/-! ### The link (R1, R3, R32) -/

/-- The link comes up: its queues and lists are left as they stand (R1). -/
def linkComesUp (h : HostNo) (s : State) : State := updHli s h (fun x => { x with linkUp := true })

/-- The link goes down: the outbound queue is emptied, and the port state decides the rest (R1, R32). A link
that goes down of itself during a hub reset has step 6 completed for its port (R182); that the drain step counts is
this model's reading (assumption 36). -/
def linkGoesDown (h : HostNo) (s : State) : State :=
  if (hliOf s h).linkUp = false then s
  else
    let s1 := updHli s h (fun x => { x with linkUp := false, linkFell := x.intakeStopped, outbound := [] })
    match portState s h with
    | .offline => updHli s1 h (fun x => { x with laneB := [], controlPending := false })
    | .online => requestFence h .linkDown s1
    | .departing => requestFence h .linkDown s1
    | .fencing => s1
    | .fenced => s1

/-- The link delivers the message at the head of the outbound queue (R3). -/
def deliver (h : HostNo) (s : State) : State :=
  if (hliOf s h).linkUp then updHli s h (fun x => { x with outbound := x.outbound.tail }) else s

/-! ### JOIN and DEPART at the head of lane B (R27, R28) -/

/-- The admission of a host (R27). -/
def admitHost (h : HostNo) (s : State) : State :=
  let s1 := setPortState h .online s
  noticeOnline .peerJoined h (· ≠ h) (place h (.welcome h s1.region.epoch) s1)

/-- A JOIN is judged (R27). -/
def judgeJoin (h : HostNo) (level : BitVec 4) (s : State) : State :=
  if s.hub ≠ .run then place h (.refuseJoin .notReady) s
  else if level ≠ 1 then protocolError h 0x14 .badLevel none none (place h (.refuseJoin .protocol) s)
  else if (portOf s h).admission = false then place h (.refuseJoin .admission) s
  else admitHost h s

/-- The control message at the head of lane B leaves it, and the mark is cleared (R17). -/
def popControl (h : HostNo) (s : State) : State :=
  updHli s h (fun x => { x with laneB := x.laneB.tail, controlPending := false })

/-- A JOIN at the head of an OFFLINE port's lane B is processed. -/
def processJoin (h : HostNo) (s : State) : State :=
  match (hliOf s h).laneB with
  | .join level :: _ => if portState s h = .offline then judgeJoin h level (popControl h s) else s
  | _ => s

/-- A DEPART at the head of an ONLINE port's lane B is processed: the port becomes DEPARTING, and a DEPART job is
appended to the walk list (R28). -/
def processDepart (h : HostNo) (s : State) : State :=
  match (hliOf s h).laneB with
  | .depart :: _ =>
    if portState s h = .online then
      let s1 := setPortState h .departing (popControl h s)
      { s1 with walker := { s1.walker with jobs := s1.walker.jobs ++ [.depart h] } }
    else s
  | _ => s

end Sys2Proof.Machine
end

