-- ==== Sys2Proof/Machine/Settle.lean ====
section
/-! DEFINITION. What follows of itself within one event: the grants of the write buffer and of the internal pool,
trackers going on, the purge slot, the walker, the ends of departures and forfeits, the steps of a hub reset, and
the arbiter. `nextDue` names the next of these that is due, and `settle` carries them out until none is. -/

namespace Sys2Proof.Machine

/-! ### Write-buffer grants (R136) -/

/-- The line of a claimant. -/
def claimLine (s : State) : WbClaim → Option LineNo
  | .tracker t => (trackerOf s t).map (fun tr => tr.line)
  | .ret h => (headReturn s h).map (fun r => r.line)

/-- Whether the buffer has an entry for a claim's line. -/
def claimMerges (s : State) (c : WbClaim) : Bool :=
  match claimLine s c with
  | some line => (entryFor s.mem line).isSome
  | none => false

/-- The claim to be granted: the first that is at the head with a slot free, or whose line the buffer has (R136).
None is granted during the drain of a hub reset (R142) or a rewrite of the pool (R191). -/
def grantableClaim (s : State) : Option WbClaim :=
  if s.resetPhase = .drain ∨ s.mem.clearing then none
  else
    match s.mem.claims with
    | [] => none
    | c :: rest => if s.mem.wbuf.length < 8 then some c else (c :: rest).find? (claimMerges s)

/-- A tracker's write is placed at its grant (R101, R123, R125, R137); it then ends its scrub or replies. -/
def grantTracker (t : TrackerNo) (s : State) : State :=
  match trackerOf s t with
  | none => s
  | some tr =>
    let s1 :=
      match trackerWrite tr with
      | none => s
      | some (data, mask, poisoned) =>
        markTrackerPlaced t tr (placeWrite ⟨tr.line, data, mask, poisoned, .tracker⟩ s)
    let s2 := updTracker s1 t (fun tr =>
      { tr with buffer := tr.buffer.map (fun b => { b with modified := false }) })
    if tr.scrubbing then endScrub t s2 else reply t none s2

/-- A claim is granted: it leaves the list, and its claimant places its write or gives the slot back (R136). -/
def grantClaim (c : WbClaim) (s : State) : State :=
  let s1 := dropClaim c s
  match c with
  | .tracker t => grantTracker t s1
  | .ret h =>
    match headReturn s1 h with
    | none => s1
    | some r => processingEvent h r s1

/-- The grant of a write-buffer claim that is due. -/
def dueClaim (s : State) : Option State := (grantableClaim s).map (fun c => grantClaim c s)

/-! ### Trackers that go on (R61, R77, R81) -/

/-- Whether a tracker's recall round has ended. -/
def roundEnded (s : State) (t : TrackerNo) : Bool :=
  match trackerOf s t with
  | some tr => tr.phase = .recall ∧ tr.awaited = []
  | none => false

/-- Whether a way has been handed to a tracker that waits in VICTIM_WAIT. -/
def wayHanded (s : State) (t : TrackerNo) : Bool :=
  match trackerOf s t with
  | some tr => tr.phase = .victimWait ∧ (boundWay s (lineSet tr.line) t).isSome
  | none => false

/-- The first tracker whose recall round has ended goes on (R77, R81). -/
def dueRound (s : State) : Option State := (allTrackers.find? (roundEnded s)).map (fun t => goOn t s)

/-- The first tracker to which a way has been handed goes on with it (R63, R77). -/
def dueHanded (s : State) : Option State :=
  (hostPool.find? (wayHanded s)).map (fun t => goOn t (leaveVictimWait t s))

/-- Whether a tracker that a change was reported to still asks: it waits in VICTIM_WAIT and its eviction, if any,
has not been granted (R61). -/
def stillAsks (s : State) (t : TrackerNo) : Bool :=
  match trackerOf s t with
  | some tr => tr.phase = .victimWait && !evictGranted s t
  | none => false

/-- The first tracker that a change was reported to asks again (R61). -/
def dueAsk (s : State) : Option State :=
  match s.trk.askAgain with
  | [] => none
  | t :: rest =>
    let s1 : State := { s with trk := { s.trk with askAgain := rest } }
    some (if stillAsks s1 t then askWay t s1 else s1)

/-- The claim at the head of the internal claim list is granted a free internal tracker (R79). -/
def dueInternal (s : State) : Option State :=
  match s.trk.claims, freeInternalTracker s with
  | c :: rest, some i =>
    let s1 : State := { s with trk := { s.trk with claims := rest } }
    some (match c with | .evict t => grantEviction t i s1 | .walker => grantWalker i s1)
  | _, _ => none

/-! ### Hub reset (R182) -/

/-- An HLI at step 5: everything is emptied, but an outbound queue keeps an undelivered NOTICE(HUB_RESET) (R23). -/
def emptyHli (x : Hli) : Hli :=
  { x with
    laneA := [], stalled := false, laneB := [], answered := [], purgeAnswer := false,
    controlPending := false, tags := [], returns := [],
    outbound := x.outbound.filter (fun m => match m with | .notice .hubReset _ _ => true | _ => false) }

/-- A set with every way made FREE, in the touch order after a reset (R74). -/
def freeSet (d : DirSet) : DirSet := ⟨d.ways.map freeWay, DirSet.reset.order⟩

/-- Steps 4 and 5 of a hub reset: trackers and claims are discarded, every queue, list and set emptied, a cutover
abandoned, every way freed, every port set OFFLINE (R39, R53, R74, R95, R142, R157, R173). -/
def resetBlocks (s : State) : State where
  hub := s.hub
  resetPhase := .links
  hli := s.hli.map emptyHli
  ports := s.ports.map (fun p => { p with state := .offline, sweepDone := false })
  region :=
    { s.region with
      status := if locks s.region.status then .abandoned else s.region.status
      lock := false }
  dir := { s.dir with sets := s.dir.sets.map freeSet, lostCount := 0, freed := [] }
  trk := TrackerTable.reset
  disp := Dispatcher.reset
  mem := { s.mem with wbuf := [], claims := [], reads := [], streak := 0 }
  walker := Walker.reset
  integ := { Integrity.reset with record := s.integ.record }
  mgmt := s.mgmt
  freeCount := s.freeCount
  pending := s.pending

/-- The drain step ends when the buffer is empty and the port idle (R142, R182). -/
def dueResetEnd (s : State) : Option State :=
  if s.mem.wbuf = [] ∧ s.mem.port = .idle then some (resetBlocks s) else none

/-- Whether step 6 is due for a port: its HLI is to take its link down, and no notice is left to be delivered, or the
link has gone down of itself since the reset began, the drain step included (assumption 36). -/
def linkDue (s : State) (h : HostNo) : Bool :=
  let x := hliOf s h
  x.intakeStopped && (x.linkFell || x.linkUp = false || x.outbound.isEmpty)

/-- Step 6 for one port: its HLI takes its link down, and takes messages again (R23, R182). The port is OFFLINE, and
the link-down falls under that row of R1. A link that has gone down of itself is left as it then stands. -/
def takeLinkDown (h : HostNo) (s : State) : State :=
  updHli s h (fun x =>
    if x.linkFell then { x with intakeStopped := false, linkFell := false }
    else { x with linkUp := false, intakeStopped := false, outbound := [], laneB := [], controlPending := false })

/-- Step 7: the alert latch is cleared, then RESET_DONE latched, and the command is done (R182). -/
def endReset (s : State) : State :=
  updMgmt (fun m => { m with status := .done })
    (setAlerts AlertEvent.resetDone.bit s.mgmt.mask { s with resetPhase := .noReset })

/-- Steps 6 and 7 of a hub reset. -/
def dueLinks (s : State) : Option State :=
  match hosts.find? (linkDue s) with
  | some h => some (takeLinkDown h s)
  | none => if hosts.all (fun h => (hliOf s h).intakeStopped = false) then some (endReset s) else none

/-! ### What is due -/

/-- The first answer of a list of candidates. -/
def firstDue (s : State) : List (State → Option State) → Option State
  | [] => none
  | f :: rest => match f s with | some s1 => some s1 | none => firstDue s rest

/-- What may be due during the drain of a hub reset: nothing else is acted on (R182). -/
def dueInDrain : List (State → Option State) :=
  [dueSlot 0, dueSlot 1, dueSlot 2, dueSlot 3, dueResetDrain, dueResetEnd]

/-- What may be due while no hub reset is in progress, in the order in which this model takes what falls together. -/
def dueInService : List (State → Option State) :=
  [dueClaim, dueRound, dueHanded, dueAsk, dueInternal, dueRepark,
   duePort 0, duePort 1, duePort 2, duePort 3, duePurge, dueWalker,
   dueSlot 0, dueSlot 1, dueSlot 2, dueSlot 3, dueArbiter]

/-- What may be due in step 6 of a hub reset: the links, and the memory controller, which its step 1 does not stop. -/
def dueInLinks : List (State → Option State) := [dueLinks, dueClaim, dueArbiter]

/-- The next thing that is due. -/
def nextDue (s : State) : Option State :=
  match s.resetPhase with
  | .noReset => firstDue s dueInService
  | .drain => firstDue s dueInDrain
  | .links => firstDue s dueInLinks

/-- Carries out what is due, at most `n` things. -/
def settleWithin : Nat → State → State
  | 0, s => s
  | n + 1, s => match nextDue s with | none => s | some s1 => settleWithin n s1

/-- How many things that are due one event carries out; what would be left is carried out at the next event. -/
def settleBound : Nat := 4096

/-- Carries out everything that is due, which ends the event: a way made FREE later is freed at another (R60). -/
def settle (s : State) : State := noteFreed [] (settleWithin settleBound s)

/-- Whether nothing is due. -/
def isSettled (s : State) : Bool := (nextDue s).isNone

end Sys2Proof.Machine
end

