-- ==== Sys2Proof/Machine/EventOps.lean ====
section
/-! DEFINITION. The events of time and of the storage: lookups falling due, deadlines, pool read and drain
completions, the end of INIT, storage faults, and power-on reset (R58, R62, R82, R132, R138, R139, R168, R188). -/

namespace Sys2Proof.Machine

/-- Whether a tracker's lookup is due: it is on a line of a TRACKED region (R52), in SETUP, and does not wait to re-park
its request (R62, R91). -/
def lookupDue (s : State) (t : TrackerNo) : Bool :=
  match trackerOf s t with
  | some tr => tr.mode = .tracked && tr.phase = .setup && !(s.trk.reparkWait.contains t)
  | none => false

/-- A tracker makes its lookup; during a hub reset none does (R182). -/
def trackerLookup (t : TrackerNo) (s : State) : State :=
  if inReset s = false ∧ lookupDue s t then lookup t s else s

/-- A tracker's deadline expires; during a hub reset no expiry is acted on (R182). -/
def deadlineExpires (t : TrackerNo) (s : State) : State := if inReset s then s else trackerDeadline t s

/-- The purge slot's deadline expires; during a hub reset no expiry is acted on (R182). -/
def purgeDeadlineExpires (s : State) : State := if inReset s then s else purgeDeadline s

/-! ### The pool port (R138, R139) -/

/-- What is delivered to a read, given what the pool read found: with the masked bytes of the entry that the buffer
holds for the line put in their places it is forwarded, else it is memory's; the poisoned flag is the pool read's
(R139). -/
def readContents (m : Memory) (n : LineNo) (found : PoolRead) : DataBuffer :=
  match entryFor m n with
  | some e => ⟨mergeUnder e.mask e.data found.data, false, found.poisoned, .forward, none⟩
  | none => ⟨found.data, false, found.poisoned, .memory, none⟩

/-- Removes the hold on a line's entry (R139). -/
def releaseHold (n : LineNo) (s : State) : State :=
  { s with
    mem := { s.mem with wbuf := s.mem.wbuf.map (fun x => if x.line = n then { x with held := false } else x) } }

/-- The pool read of tracker `t` completes (R133, R139): its data buffer is filled and it goes on, unless a hub
reset is in progress, in which the data is delivered and the tracker does nothing more (R142). -/
def completeReadFor (t : TrackerNo) (tr : Tracker) (s : State) : State :=
  let r := readPool tr.line .read none s
  let b := readContents r.2.mem tr.line r.1
  let s1 := fillBuffer t b.data b.poisoned b.source (freePort (releaseHold tr.line r.2))
  if inReset s1 then s1 else contentsReady t s1

/-- The pool read that holds the port completes. -/
def completeRead (s : State) : State :=
  match s.mem.port with
  | .read t =>
    match trackerOf s t with
    | some tr => completeReadFor t tr s
    | none => freePort s
  | _ => s

/-- The drain that holds the port completes (R138). -/
def drainCompletes (s : State) : State :=
  match s.mem.port with
  | .drain e => completeDrain e s
  | _ => s

/-! ### Storage faults (R58, R132) -/

/-- A line's disturbance after a further one: data bits disturbed twice stand as they were written. A disturbance of
the stored check code alone flips no data bit. -/
def addFault (old : Option PoolFault) (flips : LineData) (correctable : Bool) : PoolFault :=
  ⟨flips ^^^ (match old with | some f => f.flips | none => 0), correctable⟩

/-- A fault disturbs a stored line (R132). -/
def disturbLine (n : LineNo) (flips : LineData) (correctable : Bool) (s : State) : State :=
  let c := condOf s.mem n
  { s with
    mem := { s.mem with conds := putCond s.mem.conds n { c with fault := some (addFault c.fault flips correctable) } } }

/-- A fault in the pool storage. While the whole pool is being rewritten, whether the line has been rewritten yet
is a free value: a fault ahead of the rewrite is overwritten by it. A line already found disturbed during the
rewrite has been rewritten. -/
def poolFault (n : LineNo) (flips : LineData) (correctable : Bool) (s : State) : State :=
  if s.mem.port = .rewrite ∧ (condOf s.mem n).fault = none then
    let s1 : State := { s with freeCount := s.freeCount + 1 }
    if Config.faultAfterRewrite s.freeCount then disturbLine n flips correctable s1 else s1
  else disturbLine n flips correctable s

/-- The bits that a fault in the directory's storage disturbs (R58). -/
structure WayFlips where
  tag : DirTag
  code : BitVec 3
  holders : HostSet
  tagParity : Bool
  stateParity : Bool
deriving DecidableEq, Repr

/-- A way with some of its stored bits disturbed. -/
def disturbWay (f : WayFlips) (x : Way) : Way :=
  { x with
    tag := x.tag ^^^ f.tag
    code := x.code ^^^ f.code
    holders := x.holders ^^^ f.holders
    tagParity := x.tagParity ^^ f.tagParity
    stateParity := x.stateParity ^^ f.stateParity }

/-- A fault in the directory's storage, of the kind the table gives: a later read of the way finds a parity error. -/
def directoryFault (k : SetNo) (w : WayNo) (f : WayFlips) (s : State) : State :=
  let y := disturbWay f (wayOf s k w)
  match checkWay y with
  | .tagError => putWay k w y s
  | .stateError => putWay k w y s
  | _ => s

/-! ### Power-on and the end of INIT (R188) -/

/-- POR_N is released: every block takes its power-on value, and the I2C address pins are read (R176, R188). -/
def powerOn (maddr : BitVec 2) (s : State) : State :=
  { State.reset with
    mgmt := { Mgmt.reset with maddr := maddr }
    freeCount := s.freeCount
    pending := s.pending }

/-- INIT ends at the write of the pool's last line: RUN, RESET_DONE, and the port is free (R188). -/
def endInit (s : State) : State :=
  if s.hub = .init then
    latch .resetDone { s with hub := .run, mem := { s.mem with port := .idle } }
  else s

end Sys2Proof.Machine
end

