-- ==== Sys2Proof/Machine/Commands.lean ====
section
/-! DEFINITION. The meanings of the commands of the command register (R181), and of POOL_CLEAR_END. -/

namespace Sys2Proof.Machine

/-- CUTOVER, code 01h (R152). -/
def execCutover (s : State) : Host.Outcome State Fault Refusal := .next (settle (issue 0x01 judgeCutover s))

/-- FENCE, code 02h (R37). -/
def execFenceCommand (s : State) : Host.Outcome State Fault Refusal := .next (settle (issue 0x02 judgeFence s))

/-- RELEASE, code 03h (R38). -/
def execReleaseCommand (s : State) : Host.Outcome State Fault Refusal := .next (issue 0x03 judgeRelease s)

/-- HUB_RESET, code 04h (R182). -/
def execHubReset (s : State) : Host.Outcome State Fault Refusal := .next (settle (issue 0x04 judgeHubReset s))

/-- CLEAR_LOST, code 05h (R72). -/
def execClearLost (s : State) : Host.Outcome State Fault Refusal := .next (settle (issue 0x05 judgeClearLost s))

/-- DIAG_READ, code 06h (R171). -/
def execDiagRead (s : State) : Host.Outcome State Fault Refusal := .next (settle (issue 0x06 judgeDiagRead s))

/-- DIAG_WRITE, code 07h (R172). -/
def execDiagWrite (s : State) : Host.Outcome State Fault Refusal := .next (settle (issue 0x07 judgeDiagWrite s))

/-- MAINT_ENTER, code 08h (R190). -/
def execMaintEnter (s : State) : Host.Outcome State Fault Refusal := .next (issue 0x08 judgeMaintEnter s)

/-- MAINT_EXIT, code 09h (R190). -/
def execMaintExit (s : State) : Host.Outcome State Fault Refusal := .next (issue 0x09 judgeMaintExit s)

/-- POOL_CLEAR, code 0Ah (R191). -/
def execPoolClear (s : State) : Host.Outcome State Fault Refusal := .next (issue 0x0A judgePoolClear s)

/-- POOL_CLEAR_END (R191). -/
def execPoolClearEnd (s : State) : Host.Outcome State Fault Refusal := .next (settle (endClear s))

/-- INVALID_COMMAND: a code not listed (R181). A listed code is no event of this row. -/
def execInvalidCommand (code : Byte) (s : State) : Host.Outcome State Fault Refusal :=
  if isListedCommand code then .next s else .next (issue code judgeInvalid s)

end Sys2Proof.Machine
end

