-- ==== Sys2Proof/Machine/HostLinks.lean ====
section
/-! DEFINITION. The meanings of the events of a host link: link-up, link-down, delivery, and every arrival (01). -/

namespace Sys2Proof.Machine

/-- LINK_UP (R1). -/
def execLinkUp (h : HostNo) (s : State) : Host.Outcome State Fault Refusal := .next (linkComesUp h s)

/-- LINK_DOWN (R1, R32). -/
def execLinkDown (h : HostNo) (s : State) : Host.Outcome State Fault Refusal := .next (settle (linkGoesDown h s))

/-- MESSAGE_DELIVERY (R3, R182). -/
def execMessageDelivery (h : HostNo) (s : State) : Host.Outcome State Fault Refusal := .next (settle (deliver h s))

/-- READ_SHARED (R9, R11). -/
def execReadShared (h : HostNo) (tag : HostTag) (line : LineNo) (s : State) : Host.Outcome State Fault Refusal :=
  .next (arriveRequest h ⟨.readShared, tag, line, .absent⟩ s)

/-- READ_OWN (R9, R11). -/
def execReadOwn (h : HostNo) (tag : HostTag) (line : LineNo) (s : State) : Host.Outcome State Fault Refusal :=
  .next (arriveRequest h ⟨.readOwn, tag, line, .absent⟩ s)

/-- UPGRADE (R9, R11). -/
def execUpgrade (h : HostNo) (tag : HostTag) (line : LineNo) (s : State) : Host.Outcome State Fault Refusal :=
  .next (arriveRequest h ⟨.upgrade, tag, line, .absent⟩ s)

/-- DIRECT_READ (R9, R11). -/
def execDirectRead (h : HostNo) (tag : HostTag) (line : LineNo) (s : State) : Host.Outcome State Fault Refusal :=
  .next (arriveRequest h ⟨.directRead, tag, line, .absent⟩ s)

/-- DIRECT_WRITE (R9, R11). -/
def execDirectWrite (h : HostNo) (tag : HostTag) (line : LineNo) (mask : ByteMask) (data : LineData) (s : State) :
    Host.Outcome State Fault Refusal :=
  .next (arriveRequest h ⟨.directWrite, tag, line, .write mask data⟩ s)

/-- ATOMIC (R9, R11). -/
def execAtomic (h : HostNo) (tag : HostTag) (line : LineNo) (op : AtomicOp) (word : Fin 8) (first second : Word64)
    (s : State) : Host.Outcome State Fault Refusal :=
  .next (arriveRequest h ⟨.atomic, tag, line, .atomic op word first second⟩ s)

/-- FENCE_MESSAGE (R9, R11). -/
def execFenceMessage (h : HostNo) (tag : HostTag) (s : State) : Host.Outcome State Fault Refusal :=
  .next (arriveRequest h ⟨.fence, tag, 0, .absent⟩ s)

/-- WRITEBACK (R9, R12). -/
def execWriteback (h : HostNo) (line : LineNo) (modified poisoned : Bool) (data : LineData) (s : State) :
    Host.Outcome State Fault Refusal :=
  .next (settle (arriveReturn h 0x10 line (.writeback line modified poisoned data) s))

/-- RELEASE_MESSAGE (R9, R12). -/
def execReleaseMessage (h : HostNo) (line : LineNo) (s : State) : Host.Outcome State Fault Refusal :=
  .next (settle (arriveReturn h 0x11 line (.release line) s))

/-- ANSWER (R9, R13). -/
def execAnswer (h : HostNo) (line : LineNo) (tracker : TrackerNo) (held : Held) (modified poisoned : Bool)
    (data : LineData) (s : State) : Host.Outcome State Fault Refusal :=
  .next (arriveAnswer h tracker line (.answer line tracker held modified poisoned data) s)

/-- PURGE_DONE_MESSAGE (R9, R13). -/
def execPurgeDoneMessage (h : HostNo) (set : SetNo) (s : State) : Host.Outcome State Fault Refusal :=
  .next (arrivePurgeDone h set s)

/-- JOIN (R9, R10, R14). -/
def execJoin (h : HostNo) (level : BitVec 4) (s : State) : Host.Outcome State Fault Refusal :=
  .next (settle (arriveJoin h level s))

/-- DEPART (R9, R14). -/
def execDepart (h : HostNo) (s : State) : Host.Outcome State Fault Refusal := .next (arriveDepart h s)

/-- UNKNOWN_KIND (R9, R10). A message whose kind its lane allows is no event of this row. -/
def execUnknownKind (h : HostNo) (lane : Lane) (header : Header) (s : State) : Host.Outcome State Fault Refusal :=
  if isUnknownKind lane (unpackHeader header) then .next (settle (arriveUnknown h (unpackHeader header) s))
  else .next s

end Sys2Proof.Machine
end

