-- ==== Sys2Proof/Machine/LaneB.lean ====
section
/-! DEFINITION. The meanings of the events at the head of lane B (R17, R18). -/

namespace Sys2Proof.Machine

/-- PROCESS_JOIN (R27). -/
def execProcessJoin (h : HostNo) (s : State) : Host.Outcome State Fault Refusal := .next (settle (processJoin h s))

/-- PROCESS_DEPART (R28). -/
def execProcessDepart (h : HostNo) (s : State) : Host.Outcome State Fault Refusal :=
  .next (settle (processDepart h s))

/-- PROCESS_RETURN (R111). -/
def execProcessReturn (h : HostNo) (s : State) : Host.Outcome State Fault Refusal :=
  .next (settle (processReturn h s))

/-- PROCESS_ANSWER (R98). -/
def execProcessAnswer (h : HostNo) (s : State) : Host.Outcome State Fault Refusal :=
  .next (settle (processAnswer h s))

/-- PROCESS_PURGE_DONE (R168). -/
def execProcessPurgeDone (h : HostNo) (s : State) : Host.Outcome State Fault Refusal :=
  .next (settle (processPurgeDone h s))

end Sys2Proof.Machine
end

