-- ==== Sys2Proof/Machine/ManagementPort.lean ====
section
/-! DEFINITION. The meanings of the events of the management port that are not commands (R174 to R179, R183 to R186). -/

namespace Sys2Proof.Machine

/-- INTERFACE_LOCK (R174). -/
def execInterfaceLock (event : LockEvent) (s : State) : Host.Outcome State Fault Refusal :=
  .next (lockInterface event s)

/-- INDEX_LOAD (R177). -/
def execIndexLoad (index : IndexBytes) (s : State) : Host.Outcome State Fault Refusal := .next (loadIndex index s)

/-- REGISTER_WRITE (R177, R178). -/
def execRegisterWrite (data : Byte) (s : State) : Host.Outcome State Fault Refusal := .next (registerWrite data s)

/-- STAGED_TABLE_WRITE (R42). -/
def execStagedTableWrite (data : Byte) (s : State) : Host.Outcome State Fault Refusal :=
  .next (stagedTableWrite data s)

/-- ALERT_LATCH_CLEAR (R183). -/
def execAlertLatchClear (data : Byte) (s : State) : Host.Outcome State Fault Refusal :=
  .next (alertLatchClear data s)

/-- ALERT_MASK_WRITE (R184). -/
def execAlertMaskWrite (data : Byte) (s : State) : Host.Outcome State Fault Refusal :=
  .next (alertMaskWrite data s)

/-- RECORD_CLEAR (R186). -/
def execRecordClear (data : Byte) (s : State) : Host.Outcome State Fault Refusal := .next (recordClear data s)

/-- REGISTER_READ (R177). -/
def execRegisterRead (acknowledged : Bool) (s : State) : Host.Outcome State Fault Refusal :=
  .next (readData acknowledged s)

end Sys2Proof.Machine
end

