-- ==== Sys2Proof/Machine/Requests.lean ====
section
/-! DEFINITION. The meanings of the dispatcher's decisions, of lookups, of deadlines, of the pool port's completions
and of the walker's set visits. -/

namespace Sys2Proof.Machine

/-- DISPATCH (R84, R86). -/
def execDispatch (s : State) : Host.Outcome State Fault Refusal := .next (settle (dispatchHead s))

/-- TAKE_PARKED (R90). -/
def execTakeParked (s : State) : Host.Outcome State Fault Refusal := .next (settle (takeParked s))

/-- TRACKER_LOOKUP (R62). -/
def execTrackerLookup (t : TrackerNo) (s : State) : Host.Outcome State Fault Refusal :=
  .next (settle (trackerLookup t s))

/-- DEADLINE_EXPIRY (R82, R83). -/
def execDeadlineExpiry (t : TrackerNo) (s : State) : Host.Outcome State Fault Refusal :=
  .next (settle (deadlineExpires t s))

/-- PURGE_DEADLINE_EXPIRY (R168). -/
def execPurgeDeadlineExpiry (s : State) : Host.Outcome State Fault Refusal :=
  .next (settle (purgeDeadlineExpires s))

/-- POOL_READ_COMPLETION (R139). -/
def execPoolReadCompletion (s : State) : Host.Outcome State Fault Refusal := .next (settle (completeRead s))

/-- DRAIN_COMPLETION (R138). -/
def execDrainCompletion (s : State) : Host.Outcome State Fault Refusal := .next (settle (drainCompletes s))

/-- WALKER_SET_VISIT (R145). -/
def execWalkerSetVisit (s : State) : Host.Outcome State Fault Refusal := .next (settle (visitSet s))

end Sys2Proof.Machine
end

