-- ==== Sys2Proof/Machine/StartUp.lean ====
section
/-! DEFINITION. The meanings of POWER_ON_RESET, INIT_END and the storage faults. -/

namespace Sys2Proof.Machine

/-- POWER_ON_RESET (R188). -/
def execPowerOnReset (maddr : BitVec 2) (s : State) : Host.Outcome State Fault Refusal := .next (powerOn maddr s)

/-- INIT_END (R188). -/
def execInitEnd (s : State) : Host.Outcome State Fault Refusal := .next (endInit s)

/-- POOL_STORAGE_FAULT (R132). -/
def execPoolStorageFault (line : LineNo) (flips : LineData) (correctable : Bool) (s : State) :
    Host.Outcome State Fault Refusal :=
  .next (poolFault line flips correctable s)

/-- DIRECTORY_STORAGE_FAULT (R58). -/
def execDirectoryStorageFault (set : SetNo) (way : WayNo) (tagFlips : DirTag) (codeFlips : BitVec 3)
    (holderFlips : HostSet) (tagParityFlip stateParityFlip : Bool) (s : State) :
    Host.Outcome State Fault Refusal :=
  .next (directoryFault set way ⟨tagFlips, codeFlips, holderFlips, tagParityFlip, stateParityFlip⟩ s)

end Sys2Proof.Machine
end

