-- ==== Sys2Proof/Machine/Dispatch.lean ====
section
/-! DEFINITION. The dispatch of a command to its meaning: one arm for each row of spec/opcode_table.json. -/

namespace Sys2Proof.Machine

/-- The effect of a command on everything but the queue of waiting commands. -/
def exec (i : Instr) (s : State) : Host.Outcome State Fault Refusal :=
  match i with
  | .powerOnReset maddr => Sys2Proof.Machine.execPowerOnReset maddr s
  | .initEnd => Sys2Proof.Machine.execInitEnd s
  | .linkUp h => Sys2Proof.Machine.execLinkUp h s
  | .linkDown h => Sys2Proof.Machine.execLinkDown h s
  | .messageDelivery h => Sys2Proof.Machine.execMessageDelivery h s
  | .readShared h tag line => Sys2Proof.Machine.execReadShared h tag line s
  | .readOwn h tag line => Sys2Proof.Machine.execReadOwn h tag line s
  | .upgrade h tag line => Sys2Proof.Machine.execUpgrade h tag line s
  | .directRead h tag line => Sys2Proof.Machine.execDirectRead h tag line s
  | .directWrite h tag line mask data => Sys2Proof.Machine.execDirectWrite h tag line mask data s
  | .atomic h tag line op word first second => Sys2Proof.Machine.execAtomic h tag line op word first second s
  | .fenceMessage h tag => Sys2Proof.Machine.execFenceMessage h tag s
  | .writeback h line modified poisoned data => Sys2Proof.Machine.execWriteback h line modified poisoned data s
  | .releaseMessage h line => Sys2Proof.Machine.execReleaseMessage h line s
  | .answer h line tracker held modified poisoned data => Sys2Proof.Machine.execAnswer h line tracker held modified poisoned data s
  | .purgeDoneMessage h set => Sys2Proof.Machine.execPurgeDoneMessage h set s
  | .join h level => Sys2Proof.Machine.execJoin h level s
  | .depart h => Sys2Proof.Machine.execDepart h s
  | .unknownKind h lane header => Sys2Proof.Machine.execUnknownKind h lane header s
  | .processJoin h => Sys2Proof.Machine.execProcessJoin h s
  | .processDepart h => Sys2Proof.Machine.execProcessDepart h s
  | .processReturn h => Sys2Proof.Machine.execProcessReturn h s
  | .processAnswer h => Sys2Proof.Machine.execProcessAnswer h s
  | .processPurgeDone h => Sys2Proof.Machine.execProcessPurgeDone h s
  | .dispatch => Sys2Proof.Machine.execDispatch s
  | .takeParked => Sys2Proof.Machine.execTakeParked s
  | .trackerLookup t => Sys2Proof.Machine.execTrackerLookup t s
  | .deadlineExpiry t => Sys2Proof.Machine.execDeadlineExpiry t s
  | .purgeDeadlineExpiry => Sys2Proof.Machine.execPurgeDeadlineExpiry s
  | .poolReadCompletion => Sys2Proof.Machine.execPoolReadCompletion s
  | .drainCompletion => Sys2Proof.Machine.execDrainCompletion s
  | .walkerSetVisit => Sys2Proof.Machine.execWalkerSetVisit s
  | .interfaceLock event => Sys2Proof.Machine.execInterfaceLock event s
  | .indexLoad index => Sys2Proof.Machine.execIndexLoad index s
  | .registerWrite data => Sys2Proof.Machine.execRegisterWrite data s
  | .stagedTableWrite data => Sys2Proof.Machine.execStagedTableWrite data s
  | .alertLatchClear data => Sys2Proof.Machine.execAlertLatchClear data s
  | .alertMaskWrite data => Sys2Proof.Machine.execAlertMaskWrite data s
  | .recordClear data => Sys2Proof.Machine.execRecordClear data s
  | .cutover => Sys2Proof.Machine.execCutover s
  | .fenceCommand => Sys2Proof.Machine.execFenceCommand s
  | .releaseCommand => Sys2Proof.Machine.execReleaseCommand s
  | .hubReset => Sys2Proof.Machine.execHubReset s
  | .clearLost => Sys2Proof.Machine.execClearLost s
  | .diagRead => Sys2Proof.Machine.execDiagRead s
  | .diagWrite => Sys2Proof.Machine.execDiagWrite s
  | .maintEnter => Sys2Proof.Machine.execMaintEnter s
  | .maintExit => Sys2Proof.Machine.execMaintExit s
  | .poolClear => Sys2Proof.Machine.execPoolClear s
  | .poolClearEnd => Sys2Proof.Machine.execPoolClearEnd s
  | .invalidCommand code => Sys2Proof.Machine.execInvalidCommand code s
  | .registerRead acknowledged => Sys2Proof.Machine.execRegisterRead acknowledged s
  | .poolStorageFault line flips correctable => Sys2Proof.Machine.execPoolStorageFault line flips correctable s
  | .directoryStorageFault set way tagFlips codeFlips holderFlips tagParityFlip stateParityFlip => Sys2Proof.Machine.execDirectoryStorageFault set way tagFlips codeFlips holderFlips tagParityFlip stateParityFlip s

end Sys2Proof.Machine
end

