-- ==== Sys2Proof/Safety.lean ====
section
/-! DEFINITION. What counts as a sound state of the hub, in the terms in which the claims are made: the relations
between its parts that the rules keep at every event. -/

namespace Sys2Proof.Machine

/-- ALERT_N is low exactly while an event is both latched and not masked (R184). -/
def alertFollows (s : State) : Prop := s.mgmt.alertLow = alertLowOf s.mgmt.latch s.mgmt.mask

/-- The cutover lock is set exactly while the status is PENDING, DRAINING or RECALLING (R47). -/
def lockFollows (s : State) : Prop := s.region.lock = locks s.region.status

/-- How many ways of a set are stored LOST. -/
def lostIn (d : DirSet) : Nat := (d.ways.toList.map lostBit).sum

/-- How many ways of a directory are stored LOST. -/
def lostWays (d : Directory) : Nat := (d.sets.toList.map lostIn).sum

/-- The LOST count is the number of LOST entries of the directory (R69). -/
def lostCounted (s : State) : Prop := s.dir.lostCount = lostWays s.dir

/-- Every set's touch order holds each of its eight ways once (R60). -/
def ordersWhole (s : State) : Prop := ∀ k : SetNo, (setOf s k).order.Perm allWays

/-- The line of a tracker; none while it is free. -/
def lineHeld (s : State) (t : TrackerNo) : Option LineNo := (trackerOf s t).map (fun tr => tr.line)

/-- No two trackers are on one line (R75). -/
def linesUnique (s : State) : Prop :=
  ∀ (t u : TrackerNo) (line : LineNo), lineHeld s t = some line → lineHeld s u = some line → t = u

/-- The line of a lane B message that is a return. -/
def returnLine : LaneBMsg → Option LineNo
  | .writeback line _ _ _ => some line
  | .release line => some line
  | _ => none

/-- The tracker that a lane B message answers. -/
def answerTracker : LaneBMsg → Option TrackerNo
  | .answer _ t _ _ _ _ => some t
  | _ => none

/-- Whether a lane B message is a PURGE_DONE. -/
def isPurgeDone : LaneBMsg → Bool
  | .purgeDone _ => true
  | _ => false

/-- Whether a lane B message is a control message. -/
def isControl : LaneBMsg → Bool
  | .join _ => true
  | .depart => true
  | _ => false

/-- What R19 to R21 keep of one link interface: at most 16 requests in lane A; at most 16 returns outstanding, none
twice; no tag outstanding twice; and in lane B no more than the outstanding returns, one ANSWER for each member of
the answered set, one PURGE_DONE while the purge-answer mark stands and one control message while its mark does. -/
structure Hli.Bounded (x : Hli) : Prop where
  requests : x.laneA.length ≤ 16
  returns : x.returns.length ≤ 16
  returnsOnce : x.returns.Nodup
  tagsOnce : x.tags.Nodup
  queuedOnce : (x.laneB.filterMap returnLine).Nodup
  queuedOutstanding : ∀ n ∈ x.laneB.filterMap returnLine, n ∈ x.returns
  answersOnce : (x.laneB.filterMap answerTracker).Nodup
  answersMarked : ∀ t ∈ x.laneB.filterMap answerTracker, t ∈ x.answered
  purges : x.laneB.countP isPurgeDone ≤ x.purgeAnswer.toNat
  controls : x.laneB.countP isControl ≤ x.controlPending.toNat

/-- Every link interface keeps its bounds. -/
def linksBounded (s : State) : Prop := ∀ h, (hliOf s h).Bounded

/-- The park list holds at most 48 requests (R89). -/
def parkBounded (s : State) : Prop := s.disp.park.length ≤ 48

/-- The write buffer has at most eight entries, no two for one line (R135). -/
def bufferBounded (s : State) : Prop := s.mem.wbuf.length ≤ 8 ∧ (s.mem.wbuf.map (fun e => e.line)).Nodup

/-- The recall limit is a legal value (R179). -/
def limitLegal (s : State) : Prop := 10 ≤ s.mgmt.recallLimit.toNat

/-- The relations that every step keeps. -/
structure Sound (s : State) : Prop where
  alert : alertFollows s
  lock : lockFollows s
  limit : limitLegal s
  lost : lostCounted s
  orders : ordersWhole s
  pool : s.mem.wf
  buffer : bufferBounded s
  lines : linesUnique s
  park : parkBounded s
  links : linksBounded s

/-! ### The words of the claims -/

/-- A message placed at the tail of a host's outbound queue. -/
def sent (h : HostNo) (m : HubMsg) (s : State) : State :=
  updHli s h (fun x => { x with outbound := x.outbound ++ [m] })

/-- Whether a message handed to host `p` is placed: its link is up, and its port is not FENCING or FENCED or the message
is one of the two that such a port's queue takes. -/
def isPlaced (s : State) (p : HostNo) (m : HubMsg) : Bool :=
  (hliOf s p).linkUp && !((portState s p = .fencing || portState s p = .fenced) && !passesFence m)

/-- A request of host `h` ended by the message `m`: its tag leaves the outstanding tag set and the marker of the host's
FENCE, and the message joins the outbound queue where it is placed (R3, R20, R129). -/
def requestEnded (h : HostNo) (tag : HostTag) (m : HubMsg) (s : State) : State :=
  let x := updHli s h (fun x => { x with
    tags := x.tags.filter (· ≠ tag)
    outbound := x.outbound ++ (if isPlaced s h m then [m] else []) })
  { x with
    disp := { s.disp with
      slots := s.disp.slots.set h
        ((slotOf s h).map (fun f => { f with requests := f.requests.filter (· ≠ tag) })) } }

/-- The host and the request of a command that is the arrival of a lane A request (R2). -/
def arrivingRequest : Instr → Option (HostNo × Request)
  | .readShared h tag line => some (h, ⟨.readShared, tag, line, .absent⟩)
  | .readOwn h tag line => some (h, ⟨.readOwn, tag, line, .absent⟩)
  | .upgrade h tag line => some (h, ⟨.upgrade, tag, line, .absent⟩)
  | .directRead h tag line => some (h, ⟨.directRead, tag, line, .absent⟩)
  | .directWrite h tag line mask data => some (h, ⟨.directWrite, tag, line, .write mask data⟩)
  | .atomic h tag line op word first second => some (h, ⟨.atomic, tag, line, .atomic op word first second⟩)
  | .fenceMessage h tag => some (h, ⟨.fence, tag, 0, .absent⟩)
  | _ => none

/-- The host, the kind code, the line and the lane B message of a command that is the arrival of a return (R2). -/
def arrivingReturn : Instr → Option (HostNo × Byte × LineNo × LaneBMsg)
  | .writeback h line m p d => some (h, 0x10, line, .writeback line m p d)
  | .releaseMessage h line => some (h, 0x11, line, .release line)
  | _ => none

/-- Whether a host's link brings the hub messages: it is up, and no hub reset has stopped the intake (R1, R23). -/
def linkOpen (s : State) (h : HostNo) : Prop := (hliOf s h).linkUp = true ∧ (hliOf s h).intakeStopped = false

/-- What a way made FREE stores: code 0, tag 0, no holders, no binding (R55). Its parity bits are left open. -/
def isFreed (x : Way) : Prop := x.code = 0 ∧ x.tag = 0 ∧ x.holders = 0 ∧ x.binding = none

/-- Whether a port is FENCING or FENCED. -/
def isFenced (s : State) (h : HostNo) : Prop := portState s h = .fencing ∨ portState s h = .fenced

/-- The Management Port after a data byte written: the index is one on, no captured field stands, and the wire shows the
byte's former value or its acknowledgement (R175 to R177). -/
def wrote (old : Byte) (isRefused : Bool) (m : Mgmt) : Mgmt :=
  { m with
    index := m.index + 1
    capture := none
    mdo := if m.interface = .fourWire then some old else m.mdo
    sdaAck := if m.interface = .i2c then some (!isRefused) else m.sdaAck }

/-- MGMT_REFUSED latched, and ALERT_N as it then is (R183, R184). -/
def refusalLatched (m : Mgmt) : Mgmt :=
  { m with latch := m.latch ||| 0x0400, alertLow := alertLowOf (m.latch ||| 0x0400) m.mask }

/-- The interface is locked and the frame or transaction on it is a write whose index has been loaded: data bytes of it
are written (R175, R176). -/
def inWrite (s : State) : Prop := s.mgmt.interface ≠ .undetermined ∧ s.mgmt.transfer = .write

/-- A data byte is written at 0010h, where it is a command's code (R180). -/
def atCommand (s : State) : Prop := inWrite s ∧ s.mgmt.index = 0x0010

/-- `t` with a command issued in `s` taken: its code and its status stand, and the byte is written (R180). -/
def commandTaken (code : Byte) (status : CommandStatus) (s t : State) : State :=
  { t with mgmt := wrote s.mgmt.code false { t.mgmt with code := code, status := status } }

/-- `t` with a command issued in `s` refused on its own terms: its code and the status REFUSED stand, MGMT_REFUSED is
latched, and the byte is refused (R180). -/
def commandRefused (code : Byte) (s t : State) : State :=
  { t with mgmt := wrote s.mgmt.code true (refusalLatched { t.mgmt with code := code, status := .refused }) }

/-- The host whose message a command is the arrival of. -/
def hostOfArrival : Instr → Option HostNo
  | .atomic h _ _ _ _ _ _ => some h
  | .answer h _ _ _ _ _ _ => some h
  | .purgeDoneMessage h _ => some h
  | .join h _ => some h
  | .depart h => some h
  | c => ((arrivingRequest c).map (fun x => x.1)).or ((arrivingReturn c).map (fun x => x.1))

/-- The codes of the ten commands (R181). -/
def commandCode : Instr → Option Byte
  | .cutover => some 0x01
  | .fenceCommand => some 0x02
  | .releaseCommand => some 0x03
  | .hubReset => some 0x04
  | .clearLost => some 0x05
  | .diagRead => some 0x06
  | .diagWrite => some 0x07
  | .maintEnter => some 0x08
  | .maintExit => some 0x09
  | .poolClear => some 0x0A
  | _ => none

/-- Whether a descriptor covers a line (R41): it is enabled, and the line is at least base × 16,384 and less than
base plus size, times 16,384. -/
def Descriptor.Covers (d : Descriptor) (line : LineNo) : Prop :=
  d.enabled = true ∧ d.base.toNat * 16384 ≤ line.toNat ∧ line.toNat < (d.base.toNat + d.size.toNat) * 16384

end Sys2Proof.Machine
end

