-- ==== Sys2Proof/Certificates/Slice0/Obligations.lean ====
section
/-! DEFINITION. The statements for the provers. Each docstring names the rules of spec/ that a statement formalises; a
clause that rests on a choice of the model names the assumption. -/

open Sys2Proof Sys2Proof.Machine

/-! ### Sequence and start -/

/-- A step runs the command at the front of the queue on the state with the queue's rest, and on an empty queue the
hub idles (assumption 1). What an event makes due of itself is carried out by `settle`, one thing after another until
nothing is due, at most 4,096 of them (assumption 10), and then the event is over: no way counts as freed at it any
more (assumption 45). In service the first that is due of these is taken: a grant of
the write buffer, a tracker that goes on, asks again, is granted or re-parks, a port that changes, the purge slot, the
walker, a fence slot, the arbiter (assumption 9). In the drain step of a hub reset it is a fence slot, a drain, or the
step's end, and after that the links, a grant of the write buffer, or the arbiter (assumption 14). -/
def Obligations.StepRunsFrontCommand : Prop :=
  (∀ (c : Instr) (rest : List Instr) (s : State), s.pending = c :: rest → step s = exec c { s with pending := rest }) ∧
    (∀ s : State, s.pending = [] → step s = .next s) ∧
    (∀ s : State, settleWithin 0 s = s ∧ settle s =
      { settleWithin 4096 s with dir := { (settleWithin 4096 s).dir with freed := [] } }) ∧
    (∀ (n : Nat) (s : State), nextDue s = none → settleWithin n s = s) ∧
    (∀ (n : Nat) (s t : State), nextDue s = some t → settleWithin (n + 1) s = settleWithin n t) ∧
    ∀ s : State,
      let first := fun (due : List (State → Option State)) => due.findSome? (fun f => f s)
      (s.resetPhase = .noReset → nextDue s = first
        [dueClaim, dueRound, dueHanded, dueAsk, dueInternal, dueRepark, duePort 0, duePort 1, duePort 2, duePort 3,
          duePurge, dueWalker, dueSlot 0, dueSlot 1, dueSlot 2, dueSlot 3, dueArbiter]) ∧
      (s.resetPhase = .drain → nextDue s = first
        [dueSlot 0, dueSlot 1, dueSlot 2, dueSlot 3, dueResetDrain, dueResetEnd]) ∧
      (s.resetPhase = .links → nextDue s = first [dueLinks, dueClaim, dueArbiter])

/-- Every command answers a next state, and takes nothing from the queue of those that wait. That none faults and none
is refused is assumption 39, and that an event whose precondition does not hold leaves the hub as it is assumption 1;
what each command does is said by the statements about it. -/
def Obligations.EveryCommandCompletes : Prop :=
  ∀ (c : Instr) (s : State), ∃ t, exec c s = .next t ∧ t.pending = s.pending

/-- What the reset tables of every chapter give at power-on reset (R23, R24, R53, R74, R95, R142, R157, R173, R187). The
pool reads 0 and GOOD, with its port at the rewrite (assumptions 4 and 29); the levels of the address pins, what MDO and
SDA carry, the captured field and the parity bits of a FREE way are assumption 30, the alert mask's bits 12 to 15,
which belong to no event and are 0 here, assumption 31, the counter of free values assumption 3. The ways freed at the
present event and the sets that the walker was told of are the model's memory of an event (assumptions 45 and 40). -/
def Obligations.ResetValues : Prop :=
  let s := State.reset
  s.hub = .init ∧ s.resetPhase = .noReset ∧ s.freeCount = 0 ∧ s.pending = [] ∧
    (∀ h, hliOf s h = ⟨false, false, false, [], false, [], [], false, false, [], [], []⟩) ∧
    (∀ h, portOf s h = ⟨.offline, false, .noReason, false⟩) ∧
    (∀ d : Fin 16, s.region.staged[d] = ⟨false, 0, 0, .tracked, Vector.replicate 4 .noRight⟩ ∧
      s.region.active[d] = s.region.staged[d]) ∧
    s.region.epoch = 0 ∧ s.region.status = .idle ∧ s.region.offending = 0 ∧ s.region.lock = false ∧
    (∀ k w, wayOf s k w = ⟨0, 0, 0, none, false, false⟩) ∧ (∀ k, (setOf s k).order = [0, 1, 2, 3, 4, 5, 6, 7]) ∧
    s.dir.lostCount = 0 ∧ s.dir.lostRecord = none ∧ s.dir.freed = [] ∧
    (∀ t, trackerOf s t = none) ∧ s.trk.claims = [] ∧ s.trk.victimWait = [] ∧ s.trk.askAgain = [] ∧
    s.trk.reparkWait = [] ∧
    s.disp.park = [] ∧ (∀ h, slotOf s h = none) ∧ s.disp.pointer = 0 ∧ s.disp.halted = false ∧ s.disp.passedOver = 0 ∧
    s.mem = ⟨[], [], [], [], [], 0, .rewrite, false, none⟩ ∧
    (∀ n, poolLine s.mem n = 0 ∧ condOf s.mem n = ⟨false, none⟩) ∧
    s.walker = ⟨[], none, 0, 0, .visit, false, false, false, [], [], []⟩ ∧
    s.integ = ⟨[], .idle, 0, [], none, false, none⟩ ∧
    (∀ d : Fin 16, s.mgmt.heldSize[d] = none) ∧
    { s.mgmt with heldSize := Vector.replicate 16 none } = {
      interface := .undetermined, transfer := .noTransfer, maddr := 0, index := 0, capture := none, heldSize := Vector.replicate 16 none
      heldRecall := none, heldLine0 := none, heldLine1 := none, heldDiagSet := none, heldDiagTag := none
      code := 0, status := .idle, portOperand := 0, lineOperand := 0
      latch := 0, mask := 0x0FFF, alertLow := false, grace := ⟨0, 0, 0, 0⟩, recallLimit := 200, diagEnable := false
      diag := ⟨0, 0, 0, 0, 0, none, false, false, .notChecked⟩, proto := none
      mdo := none, sdaAck := none, sdaData := none }

/-- POWER_ON_RESET puts every block at its power-on value, whatever stood before, and takes the I2C address pins
(R176, R188); the counter of free values is the model's own and goes on. INIT_END sets RUN, latches RESET_DONE and
frees the pool port, and changes nothing else (R188); in another hub state there is no such event (assumption 1). What
the pins hold before is assumption 30, the counter assumption 3. -/
def Obligations.StartUpResults : Prop :=
  (∀ (maddr : BitVec 2) (s : State), exec (.powerOnReset maddr) s =
    .next { State.reset with
      mgmt := { Mgmt.reset with maddr := maddr }, freeCount := s.freeCount, pending := s.pending }) ∧
  ∀ s : State,
    (s.hub = .init → exec .initEnd s = .next { s with
      hub := .run
      mem := { s.mem with port := .idle }
      mgmt := { s.mgmt with
        latch := s.mgmt.latch ||| 0x0800
        alertLow := alertLowOf (s.mgmt.latch ||| 0x0800) s.mgmt.mask } }) ∧
    (s.hub ≠ .init → exec .initEnd s = .next s)

/-- A fault in the pool storage disturbs the one line it strikes (R132, R133): with the port not at the rewrite of the
pool and the line GOOD and undisturbed before, a read of the line then delivers what was written if the fault is
correctable, and else the disturbed bits, poisoned, as an UNCORRECTABLE error; a fault that flips no data bit is one
of the stored check code alone. The stored bytes of every line, the findings of every other line, and all else stand.
During the rewrite a fault may be overwritten (assumption 6). -/
def Obligations.PoolStorageFaultResult : Prop :=
  ∀ (n : LineNo) (flips : LineData) (ok : Bool) (s : State),
    s.mem.port ≠ .rewrite → condOf s.mem n = ⟨false, none⟩ →
    ∃ t, exec (.poolStorageFault n flips ok) s = .next t ∧
      (∀ d, judgeLine t.mem n d =
        if ok then ⟨poolLine s.mem n, false, none⟩ else ⟨poolLine s.mem n ^^^ flips, true, some .uncorrectable⟩) ∧
      (∀ m d, m ≠ n → judgeLine t.mem m d = judgeLine s.mem m d) ∧
      (∀ m, poolLine t.mem m = poolLine s.mem m) ∧
      { t with mem := { t.mem with conds := s.mem.conds } } = s

/-- A fault in the directory's storage changes the stored bits of one way and leaves all else, the LOST count apart,
which follows the stored code (R58, R69); the row's event is one after which a read finds a parity error, and other
flips are no event (assumption 16). Parity catches each single flip of a tag bit or of a holder of a way that reads
good. -/
def Obligations.DirectoryStorageFaultResult : Prop :=
  (∀ (k : SetNo) (w : WayNo) (tag : DirTag) (code : BitVec 3) (holders : HostSet) (tp sp : Bool) (s : State),
    let x := wayOf s k w
    let y : Way := ⟨x.code ^^^ code, x.tag ^^^ tag, x.holders ^^^ holders, x.binding, x.tagParity ^^ tp,
      x.stateParity ^^ sp⟩
    if checkWay y = .tagError ∨ checkWay y = .stateError then
      ∃ t, exec (.directoryStorageFault k w tag code holders tp sp) s = .next t ∧ wayOf t k w = y ∧
        (∀ j v, (j, v) ≠ (k, w) → wayOf t j v = wayOf s j v) ∧ (∀ j, (setOf t j).order = (setOf s j).order) ∧
        t.dir.lostCount = s.dir.lostCount + lostBit y - lostBit x ∧
        t.dir.lostRecord = s.dir.lostRecord ∧ t.dir.freed = s.dir.freed ∧ { t with dir := s.dir } = s
    else exec (.directoryStorageFault k w tag code holders tp sp) s = .next s) ∧
  ∀ x : Way, checkWay x = .good →
    (∀ i : Fin 11, checkWay { x with tag := x.tag ^^^ (1#11 <<< i.val) } = .tagError) ∧
    (∀ h : HostNo, checkWay { x with holders := x.holders ^^^ oneHost h } = .stateError)

/-! ### The host links -/

/-- LINK_DOWN, by port state (R1, R32): the outbound queue is emptied; an OFFLINE port's lane B queue is emptied and
its control-pending mark cleared; an ONLINE or DEPARTING port is fenced with reason LINK_DOWN, though not during a hub
reset (R182), where the interface notes that its link has gone down of itself (assumption 36); a FENCING or FENCED port
sees no more. What is due then follows. -/
def Obligations.LinkDownResult : Prop :=
  ∀ (h : HostNo) (s : State), (hliOf s h).linkUp = true →
    let down := fun (x : Hli) => { x with linkUp := false, linkFell := x.intakeStopped, outbound := [] }
    (portState s h = .offline → exec (.linkDown h) s = .next (settle (updHli s h (fun x =>
      { down x with laneB := [], controlPending := false })))) ∧
    (isAdmitted s h = true → s.resetPhase = .noReset →
      exec (.linkDown h) s = .next (settle (startFence h .linkDown (updHli s h down)))) ∧
    (isAdmitted s h = true → s.resetPhase ≠ .noReset → exec (.linkDown h) s = .next (settle (updHli s h down))) ∧
    (isFenced s h → exec (.linkDown h) s = .next (settle (updHli s h down)))

/-- LINK_UP: the link is up and nothing else changes; nothing is sent (R1). MESSAGE_DELIVERY: the head of the outbound
queue goes, and what is due then follows (R3, R182). -/
def Obligations.LinkUpAndDelivery : Prop :=
  ∀ (h : HostNo) (s : State),
    (∃ t, exec (.linkUp h) s = .next t ∧ hliOf t h = { hliOf s h with linkUp := true } ∧
      (∀ p, p ≠ h → hliOf t p = hliOf s p) ∧ { t with hli := s.hli } = s) ∧
    ∀ (m : HubMsg) (rest : List HubMsg), (hliOf s h).linkUp = true → (hliOf s h).outbound = m :: rest →
      exec (.messageDelivery h) s = .next (settle (updHli s h (fun x => { x with outbound := rest })))

/-- A READ_SHARED, READ_OWN, UPGRADE, DIRECT_READ, DIRECT_WRITE, ATOMIC or FENCE at its arrival. With the link open:
from an OFFLINE port it is refused NOT_ONLINE; from a FENCING or FENCED port it is discarded (R9); from an ONLINE or
DEPARTING port it is refused DUP_TAG and recorded while its tag is outstanding, else refused OVERRUN and recorded
while 16 requests are queued, else queued with its tag outstanding and STALL sent at occupancy 12 with the stalled
mark clear (R11, R16). -/
def Obligations.RequestArrivals : Prop :=
  ∀ (c : Instr) (h : HostNo) (r : Request) (s : State), arrivingRequest c = some (h, r) → linkOpen s h →
    let line := if r.kind = .fence then none else some r.line
    (portState s h = .offline → exec c s = .next (sent h (.refuseReq r.tag .notOnline) s)) ∧
    (isFenced s h → exec c s = .next s) ∧
    (isAdmitted s h = true →
      (r.tag ∈ (hliOf s h).tags → exec c s =
        .next (protocolError h r.kind.toCode .dupTag (some r.tag) line (sent h (.refuseReq r.tag .dupTag) s))) ∧
      (r.tag ∉ (hliOf s h).tags → 16 ≤ (hliOf s h).laneA.length → exec c s =
        .next (protocolError h r.kind.toCode .overrun (some r.tag) line (sent h (.refuseReq r.tag .overrun) s))) ∧
      (r.tag ∉ (hliOf s h).tags → (hliOf s h).laneA.length < 16 → exec c s =
        .next (updHli s h (fun x => { x with
          laneA := x.laneA ++ [r]
          tags := x.tags ++ [r.tag]
          stalled := x.stalled || x.laneA.length = 11
          outbound := x.outbound ++ (if x.laneA.length = 11 ∧ x.stalled = false then [.stall] else []) }))))

/-- A WRITEBACK or RELEASE at its arrival. With the link open: from an OFFLINE port it is recorded NOT_ADMITTED, from
a FENCING or FENCED port discarded (R9); from an ONLINE or DEPARTING port it is answered DONE(STRAY) and recorded
DUP_RETURN while its line is in the return list, is a severe violation RETURN_LIMIT with the list full, and is else
appended to the list and queued on lane B (R12). What is due then follows. -/
def Obligations.ReturnArrivals : Prop :=
  ∀ (c : Instr) (h : HostNo) (kind : Byte) (n : LineNo) (m : LaneBMsg) (s : State),
    arrivingReturn c = some (h, kind, n, m) → linkOpen s h →
    (portState s h = .offline →
      exec c s = .next (settle (protocolError h kind .notAdmitted none (some n) s))) ∧
    (isFenced s h → exec c s = .next (settle s)) ∧
    (isAdmitted s h = true →
      (n ∈ (hliOf s h).returns → exec c s =
        .next (settle (protocolError h kind .dupReturn none (some n) (sent h (.doneRet n .stray) s)))) ∧
      (n ∉ (hliOf s h).returns → 16 ≤ (hliOf s h).returns.length → exec c s =
        .next (settle (requestFence h .protocol (protocolError h kind .returnLimit none (some n) s)))) ∧
      (n ∉ (hliOf s h).returns → (hliOf s h).returns.length < 16 → exec c s =
        .next (settle (updHli s h (fun x => { x with returns := x.returns ++ [n], laneB := x.laneB ++ [m] })))))

/-- An ANSWER and a PURGE_DONE at their arrival, the link open. From an OFFLINE port each is recorded NOT_ADMITTED,
from a FENCING or FENCED port discarded (R9). From an ONLINE or DEPARTING port an ANSWER is queued, and its tracker
joins the answered set, when the tracker is in use, awaits the host and is not in the answered set; a PURGE_DONE is
queued and the purge-answer mark set when the slot is purging its set, awaits the host and the mark is clear.
Otherwise it is discarded and recorded UNMATCHED_ANSWER or UNMATCHED_PURGE (R13). -/
def Obligations.AnswerArrivals : Prop :=
  (∀ (h : HostNo) (n : LineNo) (t : TrackerNo) (held : Held) (m p : Bool) (d : LineData) (s : State), linkOpen s h →
    let c : Instr := .answer h n t held m p d
    let matched := (∃ tr, trackerOf s t = some tr ∧ awaits tr h = true) ∧ t ∉ (hliOf s h).answered
    (portState s h = .offline → exec c s = .next (protocolError h 0x12 .notAdmitted none (some n) s)) ∧
    (isFenced s h → exec c s = .next s) ∧
    (isAdmitted s h = true → matched → exec c s = .next (updHli s h (fun x =>
      { x with answered := x.answered ++ [t], laneB := x.laneB ++ [.answer n t held m p d] }))) ∧
    (isAdmitted s h = true → ¬matched →
      exec c s = .next (protocolError h 0x12 .unmatchedAnswer none (some n) s))) ∧
  ∀ (h : HostNo) (k : SetNo) (s : State), linkOpen s h →
    let c : Instr := .purgeDoneMessage h k
    let matched := s.integ.phase = .purging ∧ s.integ.set = k ∧ h ∈ s.integ.awaited ∧
      (hliOf s h).purgeAnswer = false
    (portState s h = .offline → exec c s = .next (protocolError h 0x13 .notAdmitted none none s)) ∧
    (isFenced s h → exec c s = .next s) ∧
    (isAdmitted s h = true → matched → exec c s =
      .next (updHli s h (fun x => { x with purgeAnswer := true, laneB := x.laneB ++ [.purgeDone k] }))) ∧
    (isAdmitted s h = true → ¬matched → exec c s = .next (protocolError h 0x13 .unmatchedPurge none none s))

/-- JOIN and DEPART at their arrival, the link open (R9, R10, R14): a JOIN from an OFFLINE port and a DEPART from an
ONLINE one are queued and set the control-pending mark, or with the mark set are recorded CONTROL_REPEAT; a JOIN from
an admitted port is a severe violation, and from a FENCING or FENCED port is refused FENCED. -/
def Obligations.ControlArrivals : Prop :=
  ∀ (h : HostNo) (level : BitVec 4) (s : State), linkOpen s h →
    (portState s h = .offline → (hliOf s h).controlPending = false → exec (.join h level) s =
      .next (settle (updHli s h (fun x =>
        { x with controlPending := true, laneB := x.laneB ++ [.join level] })))) ∧
    (portState s h = .offline → (hliOf s h).controlPending = true → exec (.join h level) s =
      .next (settle (protocolError h 0x14 .controlRepeat none none s))) ∧
    (isAdmitted s h = true → exec (.join h level) s =
      .next (settle (requestFence h .protocol (protocolError h 0x14 .joinWhileAdmitted none none s)))) ∧
    (isFenced s h → exec (.join h level) s = .next (settle (sent h (.refuseJoin .fenced) s))) ∧
    (portState s h = .online → (hliOf s h).controlPending = false → exec (.depart h) s =
      .next (updHli s h (fun x => { x with controlPending := true, laneB := x.laneB ++ [.depart] }))) ∧
    (portState s h = .online → (hliOf s h).controlPending = true → exec (.depart h) s =
      .next (protocolError h 0x15 .controlRepeat none none s)) ∧
    (portState s h = .departing → exec (.depart h) s = .next (protocolError h 0x15 .controlRepeat none none s)) ∧
    (portState s h = .offline → exec (.depart h) s = .next (protocolError h 0x15 .notAdmitted none none s)) ∧
    (isFenced s h → exec (.depart h) s = .next s)

/-- A message of unknown kind at its arrival, the link open: recorded UNKNOWN_KIND from an OFFLINE port, a severe
violation from an admitted one, discarded from a FENCING or FENCED one (R5, R9, R10). The tag and line recorded are
those its kind code would carry (assumption 23). -/
def Obligations.UnknownKindArrivals : Prop :=
  ∀ (h : HostNo) (lane : Lane) (w : Header) (s : State), linkOpen s h → isUnknownKind lane (unpackHeader w) = true →
    let f := unpackHeader w
    let recorded := protocolError h f.kind .unknownKind (carriedTag f) (carriedLine f) s
    (portState s h = .offline → exec (.unknownKind h lane w) s = .next (settle recorded)) ∧
    (isAdmitted s h = true → exec (.unknownKind h lane w) s = .next (settle (requestFence h .protocol recorded))) ∧
    (isFenced s h → exec (.unknownKind h lane w) s = .next (settle s))

/-- A message whose host's link is down, or whose interface a hub reset has stopped, has no effect of its own: while
the link is down none arrives (R1; the event is then none, assumption 1), and a stopped interface discards every
message without checks and without records (R23). -/
def Obligations.ClosedLinkBringsNothing : Prop :=
  ∀ (h : HostNo) (s : State), ¬linkOpen s h →
    (∀ c r, arrivingRequest c = some (h, r) → exec c s = .next s) ∧
    (∀ c kind n m, arrivingReturn c = some (h, kind, n, m) → exec c s = .next (settle s)) ∧
    (∀ n t held m p d, exec (.answer h n t held m p d) s = .next s) ∧
    (∀ k, exec (.purgeDoneMessage h k) s = .next s) ∧
    (∀ level, exec (.join h level) s = .next (settle s)) ∧ exec (.depart h) s = .next s ∧
    (∀ lane w, isUnknownKind lane (unpackHeader w) = true → exec (.unknownKind h lane w) s = .next (settle s))

/-- What a protocol error does (R9, R185): the record is filled if it is clear and only its more flag set if it is
not; PROTOCOL is latched and ALERT_N follows; nothing else changes. What a parity error does that a read has found
(R159): each, in ascending way number, is recorded in the same way and DIR_PARITY latched, and a tag parity error
closes a set that is not closed. What closing a set does (R165): it joins the purge list, an EVICT tracker on a line
of it loses its waiting requester, and the trackers that wait for a way in it are released in the order they began to
wait (assumption 34). -/
def Obligations.ProtocolErrorResult : Prop :=
  (∀ (p : HostNo) (kind : Byte) (cause : ProtocolCause) (tag : Option HostTag) (line : Option LineNo) (s : State),
    protocolError p kind cause tag line s = { s with
      mgmt := { s.mgmt with
        proto := some (match s.mgmt.proto with
          | none => ⟨p, kind, cause, tag, line, false⟩
          | some r => { r with more := true })
        latch := s.mgmt.latch ||| 0x0200
        alertLow := alertLowOf (s.mgmt.latch ||| 0x0200) s.mgmt.mask } }) ∧
  (∀ (k : SetNo) (reader : Reader) (s : State),
    handErrors k allWays reader s = (allWays.filterMap (fun w =>
      if checkWay (wayOf s k w) = .tagError then some (w, ParityKind.tag)
      else if checkWay (wayOf s k w) = .stateError then some (w, ParityKind.state)
      else none)).foldl (handError k reader) s) ∧
  (∀ (k : SetNo) (reader : Reader) (w : WayNo) (kind : ParityKind) (s : State),
    let recorded := { s with
      integ := { s.integ with
        record := some (match s.integ.record with
          | none => ⟨k, w, kind, reader, false⟩
          | some r => { r with more := true }) }
      mgmt := { s.mgmt with
        latch := s.mgmt.latch ||| 0x0010
        alertLow := alertLowOf (s.mgmt.latch ||| 0x0010) s.mgmt.mask } }
    (kind = .state ∨ isClosed s k = true → handError k reader s (w, kind) = recorded) ∧
    (kind = .tag → isClosed s k = false → handError k reader s (w, kind) = closeSet k recorded)) ∧
  ∀ (k : SetNo) (s : State), k ∉ s.integ.purgeList → ∃ x,
    closeSet k s = (s.trk.victimWait.filter (fun t => (trackerOf s t).any (fun tr => lineSet tr.line = k))).foldl
      (fun y t => release t y) x ∧
    x.integ = { s.integ with purgeList := s.integ.purgeList ++ [k] } ∧
    (∀ t, trackerOf x t = (trackerOf s t).map (fun tr =>
      if 56 ≤ t.val ∧ lineSet tr.line = k then { tr with waitingRequester := none } else tr)) ∧
    { x with integ := s.integ, trk := { x.trk with table := s.trk.table } } = s

/-- A message that would be handed to a link that is down, or to a FENCING or FENCED port, is discarded, but for
YOU_ARE_FENCED and REFUSE(FENCED), which such a port's queue still takes; another is placed at the tail (R1, R3). -/
def Obligations.PlacingRule : Prop :=
  ∀ (h : HostNo) (m : HubMsg) (s : State),
    ((hliOf s h).linkUp = false → place h m s = s) ∧
    ((hliOf s h).linkUp = true → isFenced s h → passesFence m = false → place h m s = s) ∧
    ((hliOf s h).linkUp = true → (¬isFenced s h ∨ passesFence m = true) → place h m s = sent h m s)

/-! ### Ports -/

/-- The start of a fence (R22, R34, R35, R94, R151): the port is FENCING with its reason, the HLI is cleared and
YOU_ARE_FENCED placed, the other ONLINE ports are noticed, the dispatcher drops what it has of the host, each tracker
and the purge slot let the host go, and FENCE and PORT_CHANGE are latched. The walker's running DEPART job of the port
goes on as its FORFEIT, its claim withdrawn and its wait at a way ended; a waiting one becomes the FORFEIT in its
place; else a FORFEIT is appended. A tracker of the host that waits to re-park is freed, with what its freeing brings,
a walker that waits for its line being told of it (R148). All else stands. Notices go to the hosts in ascending number
(assumption 35). -/
def Obligations.FenceStart : Prop :=
  ∀ (h : HostNo) (reason : FenceReason) (s : State), isAdmitted s h = true →
    let t := startFence h reason s
    let tell := fun (p : HostNo) (m : HubMsg) => if (hliOf s p).linkUp then [m] else []
    let gone := allTrackers.filter (fun u => s.trk.reparkWait.contains u && requestedBy s h u)
    let walker : Walker := { s.walker with
      trackers := s.walker.trackers.filter (· ∉ gone)
      wait := if gone.any (fun u => (trackerOf s u).any (fun tr => s.walker.wait = WalkWait.busy tr.line)) then .ready
        else s.walker.wait }
    portOf t h = ⟨.fencing, (portOf s h).admission, reason, false⟩ ∧ (∀ p, p ≠ h → portOf t p = portOf s p) ∧
    hliOf t h = { hliOf s h with
      laneA := [], stalled := false, laneB := [], answered := [], purgeAnswer := false, controlPending := false,
      tags := [], returns := [], outbound := tell h (.notice .youAreFenced h s.region.epoch) } ∧
    (∀ p, p ≠ h → hliOf t p = { hliOf s p with
      outbound := (hliOf s p).outbound ++
        (if portState s p = .online then tell p (.notice .peerFenced h s.region.epoch) else []) }) ∧
    t.mgmt = { s.mgmt with
      latch := s.mgmt.latch ||| 0x0005, alertLow := alertLowOf (s.mgmt.latch ||| 0x0005) s.mgmt.mask } ∧
    t.disp = { s.disp with
      park := s.disp.park.filter (fun p => p.host ≠ h)
      slots := s.disp.slots.set h none
      passedOver := if ∃ u ∈ gone, u.val < 56 then 0 else dropHost s.disp.passedOver h } ∧
    (∀ u, trackerOf t u =
      if u ∈ s.trk.reparkWait ∧ requestedBy s h u = true then none
      else (trackerOf s u).map (fun tr =>
        let left := tr.awaited.filter (fun a => a.host ≠ h)
        { tr with
          awaited := left
          deadline := if awaits tr h ∧ left = [] then none else tr.deadline
          ownerLost := tr.ownerLost || (awaits tr h && !tr.scrubbing && tr.stored = .owned h && tr.buffer.isNone) })) ∧
    t.trk.victimWait = s.trk.victimWait.filter (· ∉ gone) ∧ t.trk.reparkWait = s.trk.reparkWait.filter (· ∉ gone) ∧
    t.trk.askAgain = (gone.foldl (fun x u => freeTracker u x) s).trk.askAgain ∧
    t.integ = { s.integ with
      awaited := s.integ.awaited.filter (· ≠ h)
      deadline := if s.integ.awaited.filter (· ≠ h) = [] then none else s.integ.deadline } ∧
    (s.walker.current = some (.depart h) →
      t.walker = { walker with
        current := some (.forfeit h), wait := if s.walker.wait = .visit then .visit else .ready } ∧
      t.trk.claims = s.trk.claims.filter (fun c => c ≠ .walker ∧ ∀ u ∈ gone, c ≠ .evict u)) ∧
    (s.walker.current ≠ some (.depart h) → t.trk.claims = s.trk.claims.filter (fun c => ∀ u ∈ gone, c ≠ .evict u)) ∧
    (s.walker.current ≠ some (.depart h) → .depart h ∈ s.walker.jobs →
      t.walker = { walker with jobs := s.walker.jobs.map (fun j => if j = .depart h then .forfeit h else j) }) ∧
    (s.walker.current ≠ some (.depart h) → .depart h ∉ s.walker.jobs →
      t.walker = { walker with jobs := s.walker.jobs ++ [.forfeit h] }) ∧
    t.mem = { s.mem with claims := s.mem.claims.filter (· ≠ .ret h) } ∧
    { t with
      hli := s.hli, ports := s.ports, mgmt := s.mgmt, disp := s.disp, trk := s.trk, integ := s.integ,
      walker := s.walker, mem := s.mem } = s

/-- A JOIN at the head of an OFFLINE port's lane B is judged in the order of R27: REFUSE(NOT_READY) unless the hub is in
RUN, REFUSE(PROTOCOL) and BAD_LEVEL for a level other than 1, REFUSE(ADMISSION) with ADMIT 0; otherwise the port is
ONLINE, WELCOME is sent, PEER_JOINED goes to every other ONLINE port and PORT_CHANGE is latched. It leaves the queue and
clears the control-pending mark (R17). What is due then follows. A JOIN is judged in the drain step of a hub reset too
(assumption 14). -/
def Obligations.JoinProcessed : Prop :=
  ∀ (h : HostNo) (level : BitVec 4) (rest : List LaneBMsg) (s : State),
    (hliOf s h).laneB = .join level :: rest → portState s h = .offline →
    let s1 := updHli s h (fun x => { x with laneB := rest, controlPending := false })
    let tell := fun (p : HostNo) (m : HubMsg) => if (hliOf s p).linkUp then [m] else []
    (s.hub ≠ .run → exec (.processJoin h) s = .next (settle (place h (.refuseJoin .notReady) s1))) ∧
    (s.hub = .run → level ≠ 1 → exec (.processJoin h) s =
      .next (settle (protocolError h 0x14 .badLevel none none (place h (.refuseJoin .protocol) s1)))) ∧
    (s.hub = .run → level = 1 → (portOf s h).admission = false →
      exec (.processJoin h) s = .next (settle (place h (.refuseJoin .admission) s1))) ∧
    (s.hub = .run → level = 1 → (portOf s h).admission = true → ∃ t, exec (.processJoin h) s = .next (settle t) ∧
      portOf t h = { portOf s h with state := .online, sweepDone := false } ∧
      (∀ p, p ≠ h → portOf t p = portOf s p) ∧
      hliOf t h = { hliOf s h with
        laneB := rest, controlPending := false
        outbound := (hliOf s h).outbound ++ tell h (.welcome h s.region.epoch) } ∧
      (∀ p, p ≠ h → hliOf t p = { hliOf s p with
        outbound := (hliOf s p).outbound ++
          (if portState s p = .online then tell p (.notice .peerJoined h s.region.epoch) else []) }) ∧
      t.mgmt = { s.mgmt with
        latch := s.mgmt.latch ||| 0x0001, alertLow := alertLowOf (s.mgmt.latch ||| 0x0001) s.mgmt.mask } ∧
      { t with hli := s.hli, ports := s.ports, mgmt := s.mgmt } = s)

/-- A DEPART at the head of an ONLINE port's lane B makes the port DEPARTING, latches PORT_CHANGE and appends
DEPART(h) to the walk list; no message is sent (R28). It leaves the queue and clears the control-pending mark (R17).
It is processed in the drain step of a hub reset too (assumption 14). -/
def Obligations.DepartProcessed : Prop :=
  ∀ (h : HostNo) (rest : List LaneBMsg) (s : State),
    (hliOf s h).laneB = .depart :: rest → portState s h = .online →
    ∃ t, exec (.processDepart h) s = .next (settle t) ∧
      portOf t h = { portOf s h with state := .departing, sweepDone := false } ∧
      (∀ p, p ≠ h → portOf t p = portOf s p) ∧
      hliOf t h = { hliOf s h with laneB := rest, controlPending := false } ∧
      (∀ p, p ≠ h → hliOf t p = hliOf s p) ∧
      t.walker = { s.walker with jobs := s.walker.jobs ++ [.depart h] } ∧
      t.mgmt = { s.mgmt with
        latch := s.mgmt.latch ||| 0x0001, alertLow := alertLowOf (s.mgmt.latch ||| 0x0001) s.mgmt.mask } ∧
      { t with hli := s.hli, ports := s.ports, mgmt := s.mgmt, walker := s.walker } = s

/-- The ends of a departure and of a forfeit. A departure is complete exactly when the six conditions of R30 hold at
once; the port is then OFFLINE, the requests left in its lane A queue are refused NOT_ONLINE in order, DEPART_DONE
follows them, PEER_LEFT goes to every ONLINE port and PORT_CHANGE is latched (R31). A forfeit is complete exactly when
its walk has finished and no tracker names the host; the port is then FENCED, PORT_CHANGE is latched and nothing is
sent (R36). That a head of the host passed over is forgotten with its queue is assumption 44. -/
def Obligations.DepartureAndForfeitEnd : Prop :=
  ∀ (h : HostNo) (s : State),
    let noTracker := ∀ u tr, trackerOf s u = some tr →
      (∀ tag, tr.requester ≠ some (h, tag)) ∧ ∀ a ∈ tr.awaited, a.host ≠ h
    let complete := (portOf s h).sweepDone = true ∧ noTracker ∧ h ∉ s.integ.awaited ∧
      (∀ p ∈ s.disp.park, p.host ≠ h) ∧ slotOf s h = none ∧ (hliOf s h).returns = []
    let tell := fun (p : HostNo) (l : List HubMsg) => if (hliOf s p).linkUp then l else []
    let mgmt := { s.mgmt with
      latch := s.mgmt.latch ||| 0x0001, alertLow := alertLowOf (s.mgmt.latch ||| 0x0001) s.mgmt.mask }
    (portState s h = .departing → ¬complete → duePort h s = none) ∧
    (portState s h = .departing → complete → ∃ t, duePort h s = some t ∧
      portOf t h = { portOf s h with state := .offline, sweepDone := false } ∧
      (∀ p, p ≠ h → portOf t p = portOf s p) ∧
      hliOf t h = { hliOf s h with
        laneA := [], tags := [], stalled := false
        outbound := (hliOf s h).outbound ++ tell h
          ((hliOf s h).laneA.map (fun r => .refuseReq r.tag .notOnline) ++ [.notice .departDone h s.region.epoch]) } ∧
      (∀ p, p ≠ h → hliOf t p = { hliOf s p with
        outbound := (hliOf s p).outbound ++
          (if portState s p = .online then tell p [.notice .peerLeft h s.region.epoch] else []) }) ∧
      t.mgmt = mgmt ∧ t.disp = { s.disp with passedOver := dropHost s.disp.passedOver h } ∧
      { t with hli := s.hli, ports := s.ports, mgmt := s.mgmt, disp := s.disp } = s) ∧
    (portState s h = .fencing → ¬((portOf s h).sweepDone = true ∧ noTracker) → duePort h s = none) ∧
    (portState s h = .fencing → (portOf s h).sweepDone = true → noTracker → ∃ t, duePort h s = some t ∧
      portOf t h = { portOf s h with state := .fenced, sweepDone := false } ∧
      (∀ p, p ≠ h → portOf t p = portOf s p) ∧
      t.mgmt = mgmt ∧ { t with ports := s.ports, mgmt := s.mgmt } = s) ∧
    (portState s h ≠ .departing → portState s h ≠ .fencing → duePort h s = none)

/-! ### Lane B at its head -/

/-- A WRITEBACK or RELEASE at the head of an admitted port's lane B (R111). A modified WRITEBACK that finds no tracker
claims a write-buffer slot and waits at the head, its grant being its processing event; every other return leaves the
queue and is judged at once. A claim that stands goes on waiting. During a hub reset a WRITEBACK that a tracker would
absorb stays at the head (assumption 14). What is due then follows. The tracker on the line is found unless it is in
SETUP, its lookup not made (R64), or the set is closed, it is bound to no way and awaits no host (R166), its read is
not outstanding (R139), and it is no ATOMIC in MEM_WAIT (R124). That the outstanding read and the ATOMIC go
before the rule of closed sets here is assumption 11. -/
def Obligations.ReturnAtHead : Prop :=
  (∀ (n : LineNo) (s : State),
    ((∀ t tr, trackerOf s t = some tr → tr.line ≠ n) → metTracker s n = none) ∧
    ∀ (t : TrackerNo) (tr : Tracker), trackerOf s t = some tr → tr.line = n →
      (∀ u x, u < t → trackerOf s u = some x → x.line ≠ n) →
      metTracker s n = if tr.phase = .setup ∨ (isClosed s (lineSet n) = true ∧ tr.awaited = [] ∧
        (∀ w, (wayOf s (lineSet n) w).binding ≠ some t) ∧ t ∉ s.mem.reads ∧ s.mem.port ≠ .read t ∧
        ¬(tr.kind = .atomic ∧ tr.phase = .memWait)) then none else some t) ∧
  ∀ (h : HostNo) (m : LaneBMsg) (rest : List LaneBMsg) (r : Return) (s : State),
    (hliOf s h).laneB = m :: rest → returnOf m = some r → isAdmitted s h = true →
    let judged := judgeReturn h r (updHli s h (fun x => { x with laneB := rest }))
    let waits := r.isWriteback = true ∧ r.modified = true ∧ metTracker s r.line = none
    let stays := s.resetPhase ≠ .noReset ∧ ∃ t tr, metTracker s r.line = some t ∧ trackerOf s t = some tr ∧
      r.isWriteback = true ∧ absorbs tr h = true
    (¬stays → WbClaim.ret h ∉ s.mem.claims → waits → exec (.processReturn h) s =
      .next (settle { s with mem := { s.mem with claims := s.mem.claims ++ [.ret h] } })) ∧
    (¬stays → WbClaim.ret h ∉ s.mem.claims → ¬waits → exec (.processReturn h) s = .next (settle judged)) ∧
    (stays ∨ WbClaim.ret h ∈ s.mem.claims → exec (.processReturn h) s = .next (settle s)) ∧
    grantClaim (.ret h) s = judgeReturn h r
      (updHli { s with mem := { s.mem with claims := s.mem.claims.filter (· ≠ .ret h) } } h
        (fun x => { x with laneB := rest }))

/-- A return that finds no tracker on its line and the set open (R112, R115, R116), `read` being the state with the
parity errors of the read handed over, which a read in good parity leaves as it was. With no error in the way of the
update: a WRITEBACK from the recorded owner has its data placed if it is modified, and the entry is freed; a RELEASE
from a recorded holder takes the host out of the holders, and with it those that are fenced (R68), and an entry left
with none is freed; any other is stray. A freed way is reported to the trackers that wait (R61), one left VALID is not.
With such an error the entry stands and a modified WRITEBACK is placed. The answer is DONE(OK), and to a stray return
DONE(STRAY), with a record. Which trackers count as found is assumption 11, which errors stand in the way assumption 25,
the masking assumption 8. -/
def Obligations.OpenSetReturn : Prop :=
  ∀ (h : HostNo) (r : Return) (s : State), metTracker s r.line = none → isClosed s (lineSet r.line) = false →
    let k := lineSet r.line
    let read := handErrors k allWays .ret s
    let placed := if r.isWriteback ∧ r.modified then
      markReturnPlaced h r.line (placeWrite ⟨r.line, r.data, fullMask, r.poisoned, .ret⟩ read) else read
    let stray := protocolError h (returnKind r) .strayReturn none (some r.line) (doneReturn h r.line .stray read)
    ((∀ w, checkWay (wayOf s k w) = .notChecked ∨ checkWay (wayOf s k w) = .good) → read = s) ∧
    (returnBlocked s r.line = false → matchingWay s r.line = none → judgeReturn h r s = stray) ∧
    (∀ w, returnBlocked s r.line = false → matchingWay s r.line = some w →
      (∀ o, entryOf (wayOf s k w) = .owned o → judgeReturn h r s =
        if r.isWriteback = true ∧ o = h then
          doneReturn h r.line .ok (reportChange k (touchLeast k w (putFree k w placed)))
        else stray) ∧
      (∀ holders, entryOf (wayOf s k w) = .shared holders →
        let left := dropHost holders h &&& holding s
        judgeReturn h r s =
          if r.isWriteback = false ∧ hasHost holders h = true then
            doneReturn h r.line .ok
              (if left = 0 then reportChange k (touchLeast k w (putFree k w read))
               else touchMost k w (putWay k w
                ⟨2, lineTag r.line, left, none, tagParityOf (lineTag r.line), stateParityOf 2 left⟩ read))
          else stray) ∧
      (entryOf (wayOf s k w) = .lost → judgeReturn h r s = stray)) ∧
    (returnBlocked s r.line = true → judgeReturn h r s = doneReturn h r.line .ok placed)

/-- A return that meets a tracker on its line (R113, R114, R115, R161). A WRITEBACK of an awaited host without a mark
is absorbed where the tracker's stored entry names the host as owner, or where the tracker scrubs with an empty
buffer: its data fills the buffer, the host is marked and stays awaited, and DONE(OK) is sent. A RELEASE is answered
DONE(OK), and nothing else changes, where the stored entry names the host as a shared holder, or where the tracker
scrubs and awaits the host. Every other return is stray, and the tracker is not changed by it. Which trackers a return
meets is assumption 11. -/
def Obligations.ReturnMeetsTracker : Prop :=
  ∀ (h : HostNo) (r : Return) (t : TrackerNo) (tr : Tracker) (s : State),
    metTracker s r.line = some t → trackerOf s t = some tr →
    let unmarked := ∃ a ∈ tr.awaited, a.host = h ∧ a.returned = false
    let takenUp := unmarked ∧ (tr.scrubbing = true → tr.buffer = none) ∧ (tr.scrubbing = false → tr.stored = .owned h)
    let released := (tr.scrubbing = true ∧ ∃ a ∈ tr.awaited, a.host = h) ∨
      (tr.scrubbing = false ∧ ∃ holders, tr.stored = .shared holders ∧ hasHost holders h = true)
    let filled := setTracker s t (some { tr with
      buffer := some ⟨r.data, r.modified, r.poisoned, .absorbed, some h⟩
      awaited := tr.awaited.map (fun a => if a.host = h then { a with returned := true } else a) })
    let stray := protocolError h (returnKind r) .strayReturn none (some r.line) (doneReturn h r.line .stray s)
    (r.isWriteback = true → takenUp → judgeReturn h r s =
      doneReturn h r.line .ok (if r.modified then markAbsorbed h r.line t filled else filled)) ∧
    (r.isWriteback = true → ¬takenUp → judgeReturn h r s = stray) ∧
    (r.isWriteback = false → released → judgeReturn h r s = doneReturn h r.line .ok s) ∧
    (r.isWriteback = false → ¬released → judgeReturn h r s = stray)

/-- A return of a line of a closed set that meets no tracker (R166): its set's errors are recorded; a LOST entry of
the line makes it stray; otherwise a modified WRITEBACK is placed, a way that holds the line is made FREE, and
DONE(OK) is sent, whoever the entry names. A tracker bound to no way that awaits no host is not met in a closed set
but while its read is outstanding or it is an ATOMIC in MEM_WAIT (assumption 11). LOST is told by its stored code
(assumption 17). -/
def Obligations.ClosedSetReturn : Prop :=
  ∀ (h : HostNo) (r : Return) (s : State), metTracker s r.line = none → isClosed s (lineSet r.line) = true →
    let k := lineSet r.line
    let read := handErrors k allWays .ret s
    let placed := if r.isWriteback ∧ r.modified then
      markReturnPlaced h r.line (placeWrite ⟨r.line, r.data, fullMask, r.poisoned, .ret⟩ read) else read
    let holds := fun (x : Way) => 2 ≤ x.code.toNat ∧ x.tagParity = tagParityOf x.tag ∧ x.tag = lineTag r.line
    read.integ.purgeList = s.integ.purgeList ∧ read.dir = s.dir ∧
    ((∀ w, ¬holds (wayOf s k w)) → judgeReturn h r s = doneReturn h r.line .ok placed) ∧
    (∀ w, holds (wayOf s k w) → (∀ v, v < w → ¬holds (wayOf s k v)) →
      judgeReturn h r s =
        if (wayOf s k w).code = 4 then
          protocolError h (returnKind r) .strayReturn none (some r.line) (doneReturn h r.line .stray read)
        else doneReturn h r.line .ok (touchLeast k w (putFree k w placed)))

/-- An ANSWER at the head of lane B whose tracker awaits the host (R17, R81, R98, R99, R161). It leaves the queue and
the answered set, and the host leaves the awaited set, an emptied one clearing the deadline. A wrong line is recorded
ANSWER_LINE and taken as NONE. From the stored owner, OWNED fills an empty buffer and is ANSWER_EXTRA_DATA with a
filled one; NONE without an absorbed return, and SHARED (with an absorbed return, assumption 42), are ANSWER_NO_DATA.
From another host OWNED is ANSWER_EXTRA_DATA. A host sent RECALL_SHARE that answers OWNED or SHARED is noted as
keeping a copy. While the tracker scrubs, OWNED from any host fills an empty buffer and is else ANSWER_EXTRA_DATA, and
of SHARED and NONE nothing is taken. What is due then follows. One record stands for a wrong line (assumption 12), and
an answer is processed in the drain step of a hub reset too (assumption 14). -/
def Obligations.AnswerProcessed : Prop :=
  ∀ (h : HostNo) (n : LineNo) (t : TrackerNo) (held : Held) (m p : Bool) (d : LineData) (rest : List LaneBMsg)
    (tr : Tracker) (s : State),
    (hliOf s h).laneB = .answer n t held m p d :: rest → trackerOf s t = some tr → awaits tr h = true →
    let c : Instr := .processAnswer h
    let s1 := updHli s h (fun x => { x with laneB := rest, answered := x.answered.filter (· ≠ t) })
    let left := tr.awaited.filter (fun a => a.host ≠ h)
    let gone := { tr with awaited := left, deadline := if left = [] then none else tr.deadline }
    let noted := { gone with
      kept := tr.kept || (held ≠ .notHeld && tr.awaited.any (fun a => a.host = h ∧ a.kind = .share)) }
    let filled := fun (x : Tracker) => { x with buffer := some ⟨d, m, p, .answer, none⟩ }
    let now := fun (x : Tracker) => exec c s = .next (settle (setTracker s1 t (some x)))
    let recorded := fun (cause : ProtocolCause) (x : Tracker) =>
      exec c s = .next (settle (protocolError h 0x12 cause none (some n) (setTracker s1 t (some x))))
    let absorbed := ∃ a ∈ tr.awaited, a.host = h ∧ a.returned = true
    (n ≠ tr.line → recorded .answerLine gone) ∧
    (tr.scrubbing = false → n = tr.line → tr.stored = .owned h →
      (held = .owned → tr.buffer = none → now (filled noted)) ∧
      (held = .owned → tr.buffer ≠ none → recorded .answerExtraData noted) ∧
      (held = .notHeld → absorbed → now noted) ∧
      (held = .notHeld → ¬absorbed → recorded .answerNoData noted) ∧
      (held = .shared → recorded .answerNoData noted)) ∧
    (tr.scrubbing = false → n = tr.line → tr.stored ≠ .owned h →
      (held = .owned → recorded .answerExtraData noted) ∧ (held ≠ .owned → now noted)) ∧
    (tr.scrubbing = true → n = tr.line →
      (held = .owned → tr.buffer = none → now (filled gone)) ∧
      (held = .owned → tr.buffer ≠ none → recorded .answerExtraData gone) ∧
      (held ≠ .owned → now gone))

/-- The purge slot (R167, R168, R170, R17). Idle, it takes the set at the head of the purge list into CLOSING. There
it waits while a way of the set is bound; then it is PURGING, PURGE_SET goes to every ONLINE or DEPARTING host, these
are awaited, and a deadline is set if there are any. A PURGE_DONE at the head of lane B lets its host leave, and
clears the purge-answer mark, in the drain step of a hub reset too (assumption 14). Once none is awaited the set is
cleared: every way is FREE but a LOST one of good parity, the freed ways move to the least recent end in ascending
number, with any that this event has freed before (R60), the LOST count falls by those that stored LOST, PURGE_DONE is
latched, the slot is idle, which reopens the set, trackers that wait to re-park a request of it wait no more, the
walker is told of a set that it has skipped, and the change is reported to those that wait for a way (R61). The parity
bits of a FREE way are left open (assumption 41); what counts as one event is assumption 45. -/
def Obligations.PurgeDoneProcessed : Prop :=
  (∀ (h : HostNo) (k : SetNo) (rest : List LaneBMsg) (s : State), (hliOf s h).laneB = .purgeDone k :: rest →
    let s1 := updHli s h (fun x => { x with laneB := rest, purgeAnswer := false })
    let left := s.integ.awaited.filter (· ≠ h)
    (s.integ.phase = .purging → s.integ.set = k → exec (.processPurgeDone h) s = .next (settle { s1 with
      integ := { s.integ with awaited := left, deadline := if left = [] then none else s.integ.deadline } })) ∧
    (¬(s.integ.phase = .purging ∧ s.integ.set = k) → exec (.processPurgeDone h) s = .next (settle s1))) ∧
  (∀ s : State, s.integ.phase = .idle →
    (s.integ.purgeList = [] → duePurge s = none) ∧
    ∀ k rest, s.integ.purgeList = k :: rest → duePurge s = some { s with
      integ := { s.integ with purgeList := rest, phase := .closing, set := k } }) ∧
  (∀ s : State, s.integ.phase = .closing →
    ((∃ w, (wayOf s s.integ.set w).binding ≠ none) → duePurge s = none) ∧
    ((∀ w, (wayOf s s.integ.set w).binding = none) → ∃ t, duePurge s = some t ∧
      t.integ = { s.integ with
        phase := .purging
        awaited := hosts.filter (isAdmitted s)
        deadline := if ∃ h, isAdmitted s h = true then some s.mgmt.recallLimit.toNat else none
        graceUsed := false } ∧
      (∀ p, hliOf t p = { hliOf s p with
        outbound := (hliOf s p).outbound ++
          (if isAdmitted s p ∧ (hliOf s p).linkUp then [.purgeSet s.integ.set] else []) }) ∧
      { t with integ := s.integ, hli := s.hli } = s)) ∧
  (∀ s : State, s.integ.phase = .purging → s.integ.awaited ≠ [] → duePurge s = none) ∧
  ∀ s : State, s.integ.phase = .purging → s.integ.awaited = [] →
    let k := s.integ.set
    let stands := fun (w : WayNo) => (wayOf s k w).code = 0 ∨ ((wayOf s k w).code = 4 ∧ checkWay (wayOf s k w) = .good)
    ∃ (t : State) (cleared : List WayNo), duePurge s = some t ∧
      cleared.Sublist allWays ∧ (∀ w, w ∈ cleared ↔ ¬stands w) ∧
      (∀ w, if stands w then wayOf t k w = wayOf s k w else isFreed (wayOf t k w)) ∧
      (let together := allWays.filter (fun w => w ∈ cleared ∨ (k, w) ∈ s.dir.freed)
       (setOf t k).order = together ++ (setOf s k).order.filter (· ∉ together)) ∧
      (∀ j, j ≠ k → setOf t j = setOf s j) ∧ t.dir.freed = s.dir.freed ++ cleared.map (fun w => (k, w)) ∧
      t.dir.lostCount = s.dir.lostCount - cleared.countP (fun w => (wayOf s k w).code = 4) ∧
      t.dir.lostRecord = s.dir.lostRecord ∧
      t.integ = ⟨s.integ.purgeList, .idle, 0, [], none, false, s.integ.record⟩ ∧
      t.mgmt = { s.mgmt with
        latch := s.mgmt.latch ||| 0x0020, alertLow := alertLowOf (s.mgmt.latch ||| 0x0020) s.mgmt.mask } ∧
      t.trk = { s.trk with
        reparkWait := s.trk.reparkWait.filter (fun u => (trackerOf s u).all (fun tr => lineSet tr.line ≠ k))
        askAgain := s.trk.victimWait.filter (fun u => s.trk.askAgain.contains u || waitsOn s k u) } ∧
      t.walker = { s.walker with
        reopened := if k ∈ s.walker.skipped ∧ k ∉ s.walker.reopened then s.walker.reopened ++ [k]
          else s.walker.reopened } ∧
      { t with dir := s.dir, integ := s.integ, mgmt := s.mgmt, trk := s.trk, walker := s.walker } = s

/-! ### The dispatcher -/

/-- DISPATCH: with no halt, no hub reset and no parked request that could be taken, the first head in turn from the
pointer that can be dealt with is, and the pointer moves to the host after it (R84); a head passed over because it
needs a tracker while none of the host pool is free is noted, and is not judged again until one is freed (R92). What
dealing with a head does follows the steps of R86, the request leaving its queue with the RESUME check of R16, the
RESUME ahead of the refusal (assumption 35): a DEPARTING host's is refused NOT_ONLINE; a FENCE goes to an empty fence
slot with its marker (R127, R128) and waits for an occupied one (R87); one that fails the access check is refused; one
whose line has a tracker, a parked request, a return of the host pending or a closed set is parked at the tail and
waits where the list is full (R88); any other is placed in SETUP on the lowest free tracker of the host pool, a
DIRECT_ONLY one going on at once (R77, R119), and waits where none is free. A FENCE in the slot is answered once its
marker is empty (R130). That a head passed over is not judged even when its host departs is assumption 44. -/
def Obligations.DispatchDecisions : Prop :=
  let busy := fun (s : State) (h : HostNo) (line : LineNo) =>
    (∃ t tr, trackerOf s t = some tr ∧ tr.line = line) ∨ (∃ p ∈ s.disp.park, p.req.line = line) ∨
      line ∈ (hliOf s h).returns ∨ isClosed s (lineSet line) = true
  let noneFree := fun (s : State) => ∀ t : TrackerNo, t.val < 56 → trackerOf s t ≠ none
  (∀ s : State, s.disp.halted = false → s.resetPhase = .noReset → parkedChoice s = none →
    let wants := fun (h : HostNo) => noneFree s ∧ ∃ r rest mode, (hliOf s h).laneA = r :: rest ∧
      portState s h ≠ .departing ∧ r.kind ≠ .fence ∧ accessCheck s.region.active h r.kind r.line = .ok mode ∧
      ¬busy s h r.line
    let noted := fun (n : HostSet) => { s with disp := { s.disp with passedOver := n } }
    (∀ (i : Fin 4) (n : HostSet) (t : State), (∀ j, j < i → dealHead s (s.disp.pointer + j) = none) →
      (∀ h, hasHost n h = true ↔
        hasHost s.disp.passedOver h = true ∨ (wants h ∧ ∃ j, j < i ∧ h = s.disp.pointer + j)) →
      dealHead (noted n) (s.disp.pointer + i) = some t →
      exec .dispatch s = .next (settle { t with disp := { t.disp with pointer := s.disp.pointer + i + 1 } })) ∧
    (∀ n : HostSet, (∀ h, dealHead s h = none) →
      (∀ h, hasHost n h = true ↔ hasHost s.disp.passedOver h = true ∨ wants h) →
      exec .dispatch s = .next (settle (noted n)))) ∧
  (∀ s : State, s.disp.halted = true ∨ s.resetPhase ≠ .noReset ∨ parkedChoice s ≠ none →
    exec .dispatch s = .next (settle s)) ∧
  (∀ (h : HostNo) (r : Request) (rest : List Request) (s : State), (hliOf s h).laneA = r :: rest →
    hasHost s.disp.passedOver h = true → dealHead s h = none) ∧
  (∀ (h : HostNo) (r : Request) (rest : List Request) (s : State), (hliOf s h).laneA = r :: rest →
    hasHost s.disp.passedOver h = false →
    let left := if rest.length = 6 ∧ (hliOf s h).stalled = true then
        place h .resume (updHli s h (fun x => { x with laneA := rest, stalled := false }))
      else updHli s h (fun x => { x with laneA := rest })
    let refused := fun reason => respond h r.tag (.refuseReq r.tag reason) left
    (portState s h = .departing → dealHead s h = some (refused .notOnline)) ∧
    (portState s h ≠ .departing →
      (r.kind = .fence → slotOf s h = none → dealHead s h = some (setSlot left h (some (markerOf left h r.tag)))) ∧
      (r.kind = .fence → slotOf s h ≠ none → dealHead s h = none) ∧
      (r.kind ≠ .fence → ∀ reason, accessCheck s.region.active h r.kind r.line = .error reason →
        dealHead s h = some (refused reason)) ∧
      (r.kind ≠ .fence → ∀ mode, accessCheck s.region.active h r.kind r.line = .ok mode →
        (busy s h r.line → s.disp.park.length < 48 → dealHead s h =
          some { left with disp := { s.disp with park := s.disp.park ++ [⟨h, r⟩] } }) ∧
        (busy s h r.line → 48 ≤ s.disp.park.length → dealHead s h = none) ∧
        (¬busy s h r.line → ∀ (t : TrackerNo) (kind : TrackerKind), kindOf r.kind = some kind → t.val < 56 →
          trackerOf s t = none → (∀ u, u < t → trackerOf s u ≠ none) →
          let placed := setTracker left t (some (newTracker kind r.line mode (some (h, r.tag)) r.operands))
          dealHead s h = some (if mode = .directOnly then goOn t placed else placed)) ∧
        (¬busy s h r.line → noneFree s → dealHead s h = none)))) ∧
  ∀ (h : HostNo) (tag : HostTag) (s : State),
    let x := markerOf s h tag
    (x.tag = tag ∧ (∀ u, u ∈ x.requests ↔ u ∈ (hliOf s h).tags ∧ u ≠ tag ∧ ∀ r ∈ (hliOf s h).laneA, r.tag ≠ u) ∧
      x.returns = (hliOf s h).returns ∧
      (∀ t, t ∈ x.absorptions ↔ ∃ tr b, trackerOf s t = some tr ∧ tr.buffer = some b ∧ b.source = .absorbed ∧
        b.modified = true ∧ b.absorbedFrom = some h) ∧
      x.drainLines = s.mem.wbuf.map (fun e => e.line)) ∧
    (slotOf s h = none → dueSlot h s = none) ∧
    ∀ y, slotOf s h = some y →
      ((y.requests ≠ [] ∨ y.returns ≠ [] ∨ y.absorptions ≠ [] ∨ y.drainLines ≠ []) → dueSlot h s = none) ∧
      (y.requests = [] → y.returns = [] → y.absorptions = [] → y.drainLines = [] →
        dueSlot h s = some (respond h y.tag (.doneReq y.tag .ok none) (setSlot s h none)))

/-- TAKE_PARKED: with no halt, no hub reset and a host-pool tracker free, the oldest ready request leaves the park list
(R90): it is refused NOT_ONLINE for a DEPARTING host, refused where the access check against the table now standing
fails, and else placed in SETUP on the lowest free tracker of the host pool, a DIRECT_ONLY one going on at once. A
request is ready when it is the first parked for its line, no tracker is on the line, the line is not in its host's
return list and its set is not closed (R89). With no tracker free, or none ready, nothing is taken. Re-parking (R91):
a place free in the list goes to the tracker that began to wait for one first, whose request is parked ahead of the
first parked for its line, or at the tail; the tracker is freed. A freed tracker leaves every list that names it,
tells its set if a way holds its line (R61, R78) and the walker that waits for its line (R148), and lets the heads
passed over be judged again if it is of the host pool (R92). An UPGRADE served as a READ_OWN re-parks as that
(assumption 15). -/
def Obligations.ParkedTaken : Prop :=
  (∀ (before after : List Parked) (p : Parked) (t : TrackerNo) (s : State),
    s.disp.halted = false → s.resetPhase = .noReset → s.disp.park = before ++ p :: after →
    let ready := fun (ahead : List Parked) (q : Parked) =>
      (∀ x ∈ ahead, x.req.line ≠ q.req.line) ∧ (∀ u tr, trackerOf s u = some tr → tr.line ≠ q.req.line) ∧
        q.req.line ∉ (hliOf s q.host).returns ∧ isClosed s (lineSet q.req.line) = false
    let left := { s with disp := { s.disp with park := s.disp.park.filter (· ≠ p) } }
    let free := t.val < 56 ∧ trackerOf s t = none ∧ ∀ u, u < t → trackerOf s u ≠ none
    (∀ (ahead : List Parked) (q : Parked), isReady s ahead q = true ↔ ready ahead q) ∧
    (free → ready before p → (∀ ahead q behind, before = ahead ++ q :: behind → ¬ready ahead q) →
      (portState s p.host = .departing → exec .takeParked s =
        .next (settle (respond p.host p.req.tag (.refuseReq p.req.tag .notOnline) left))) ∧
      (portState s p.host ≠ .departing → ∀ reason,
        accessCheck s.region.active p.host p.req.kind p.req.line = .error reason → exec .takeParked s =
          .next (settle (respond p.host p.req.tag (.refuseReq p.req.tag reason) left))) ∧
      (portState s p.host ≠ .departing → ∀ mode kind,
        accessCheck s.region.active p.host p.req.kind p.req.line = .ok mode → kindOf p.req.kind = some kind →
        let placed := setTracker left t
          (some (newTracker kind p.req.line mode (some (p.host, p.req.tag)) p.req.operands))
        exec .takeParked s = .next (settle (if mode = .directOnly then goOn t placed else placed)))) ∧
    ((∀ u : TrackerNo, u.val < 56 → trackerOf s u ≠ none) → exec .takeParked s = .next (settle s)) ∧
    ((∀ ahead q behind, s.disp.park = ahead ++ q :: behind → ¬ready ahead q) → exec .takeParked s = .next (settle s))) ∧
  (∀ s : State, s.disp.halted = true ∨ s.resetPhase ≠ .noReset → exec .takeParked s = .next (settle s)) ∧
  (∀ s : State,
    (s.trk.reparkWait = [] ∨ 48 ≤ s.disp.park.length → dueRepark s = none) ∧
    ∀ (t : TrackerNo) (rest : List TrackerNo) (tr : Tracker) (h : HostNo) (tag : HostTag) (kind : ReqKind),
      s.trk.reparkWait = t :: rest → s.disp.park.length < 48 → trackerOf s t = some tr →
      tr.requester = some (h, tag) → reqKindOf tr.kind = some kind → dueRepark s = some (freeTracker t { s with
        disp := { s.disp with park := parkAhead ⟨h, ⟨kind, tag, tr.line, tr.operands⟩⟩ s.disp.park } })) ∧
  (∀ (p : Parked) (before after : List Parked) (q : Parked), (∀ x ∈ before, x.req.line ≠ p.req.line) →
    parkAhead p before = before ++ [p] ∧
    (q.req.line = p.req.line → parkAhead p (before ++ q :: after) = before ++ p :: q :: after)) ∧
  ∀ (t : TrackerNo) (tr : Tracker) (s : State), trackerOf s t = some tr →
    let k := lineSet tr.line
    let freed : State := { s with
      trk := {
        table := s.trk.table.set t none, claims := s.trk.claims.filter (· ≠ .evict t)
        victimWait := s.trk.victimWait.filter (· ≠ t), askAgain := s.trk.askAgain.filter (· ≠ t)
        reparkWait := s.trk.reparkWait.filter (· ≠ t) }
      walker := { s.walker with
        trackers := s.walker.trackers.filter (· ≠ t)
        wait := if s.walker.wait = .busy tr.line then .ready else s.walker.wait }
      disp := { s.disp with passedOver := if t.val < 56 then 0 else s.disp.passedOver } }
    let held := ∃ w, 2 ≤ (wayOf s k w).code.toNat ∧ (wayOf s k w).tag = lineTag tr.line
    (held → freeTracker t s = reportChange k freed) ∧ (¬held → freeTracker t s = freed)

/-! ### Trackers -/

/-- The recall rounds of the host-pool kinds by the entry reported (R96, R105, R121, R122, R124): READ_SHARED and
DIRECT_READ ask an owner to share; READ_OWN and UPGRADE have an owner, or each shared holder but the requester, drop
the line; DIRECT_WRITE and ATOMIC have every holder, the requester too, drop it; an UPGRADE from a host that is no
holder is served as a READ_OWN. Of the walker's jobs (R148, R154), DEPART has its host drop what it holds; CUTOVER has
every holder drop a line that the staged table unmaps or makes DIRECT_ONLY, and in a TRACKED region a holder with no
right drop it and an owner with READ share it; FORFEIT asks none. How a round is sent (R80): the recalls at one event,
the hosts awaited with the kind sent, the deadline at the recall limit, grace clear, RECALL; with nobody to recall the
tracker goes on. An internal tracker takes its entry as a lookup would report it, commits a LOST one as stored, and
else sends its round to those still admitted (R93, R147, assumption 33); a scrub has every admitted host drop the line
(R160). -/
def Obligations.RecallRounds : Prop :=
  (∀ (req o : HostNo) (holders : HostSet),
    let each := fun (kind : TrackerKind) (e : Entry) => roundOf kind req e
    let drops := fun (p : HostNo → Bool) => (hosts.filter p).map (fun h => (h, RecallKind.drop))
    each .readShared (.owned o) = [(o, .share)] ∧ each .directRead (.owned o) = [(o, .share)] ∧
    each .readShared (.shared holders) = [] ∧ each .directRead (.shared holders) = [] ∧
    each .readOwn (.owned o) = [(o, .drop)] ∧
    each .readOwn (.shared holders) = drops (fun h => holders.getLsbD h.val && h ≠ req) ∧
    each .upgrade (.shared holders) = drops (fun h => holders.getLsbD h.val && h ≠ req) ∧
    each .directWrite (.owned o) = [(o, .drop)] ∧ each .atomic (.owned o) = [(o, .drop)] ∧
    each .directWrite (.shared holders) = drops (fun h => holders.getLsbD h.val) ∧
    each .atomic (.shared holders) = drops (fun h => holders.getLsbD h.val) ∧ each .directWrite .lost = [] ∧
    (servedAs .upgrade req (.shared holders) = .upgrade ↔ holders.getLsbD req.val = true) ∧
    (servedAs .upgrade req (.shared holders) = .readOwn ↔ holders.getLsbD req.val = false) ∧
    servedAs .upgrade req (.owned o) = .readOwn ∧ servedAs .upgrade req .free = .readOwn) ∧
  (∀ (s : State) (line : LineNo) (h o : HostNo) (holders : HostSet) (d : Descriptor),
    (jobRound s (.depart h) line (.shared holders) = if holders.getLsbD h.val then [(h, .drop)] else []) ∧
    (jobRound s (.depart h) line (.owned o) = if o = h then [(h, .drop)] else []) ∧
    (∀ j e, e = .lost ∨ e = .free → jobRound s j line e = []) ∧ (∀ e, jobRound s (.forfeit h) line e = []) ∧
    (regionOf s.region.staged line = none → jobRound s .cutover line (.owned o) = [(o, .drop)] ∧
      jobRound s .cutover line (.shared holders) =
        (hosts.filter (fun h => holders.getLsbD h.val)).map (fun h => (h, RecallKind.drop))) ∧
    (regionOf s.region.staged line = some d → d.mode = .directOnly →
      jobRound s .cutover line (.owned o) = [(o, .drop)] ∧ jobRound s .cutover line (.shared holders) =
        (hosts.filter (fun h => holders.getLsbD h.val)).map (fun h => (h, RecallKind.drop))) ∧
    (regionOf s.region.staged line = some d → d.mode = .tracked →
      jobRound s .cutover line (.owned o) =
        (match d.rights[o] with | .write => [] | .read => [(o, .share)] | .noRight => [(o, .drop)]) ∧
      jobRound s .cutover line (.shared holders) =
        (hosts.filter (fun h => holders.getLsbD h.val && d.rights[h] = .noRight)).map
          (fun h => (h, RecallKind.drop)))) ∧
  ∀ (t : TrackerNo) (tr : Tracker) (s : State), trackerOf s t = some tr →
    startRound t [] s = goOn t s ∧
    (∀ (first : HostNo × RecallKind) (others : List (HostNo × RecallKind)),
      let round := first :: others
      let x := startRound t round s
      trackerOf x t = some { tr with
        phase := .recall, awaited := round.map (fun r => ⟨r.1, r.2, false⟩)
        deadline := some s.mgmt.recallLimit.toNat, graceUsed := false
        dropped := hostSetOf ((round.filter (fun r => r.2 = .drop)).map (fun r => r.1)) } ∧
      (∀ u, u ≠ t → trackerOf x u = trackerOf s u) ∧
      (∀ p, hliOf x p = { hliOf s p with
        outbound := (hliOf s p).outbound ++
          ((round.filter (fun r => r.1 = p ∧ isPlaced s p (recallMsg r.2 tr.line t) = true)).map
            (fun r => recallMsg r.2 tr.line t)) }) ∧
      { x with trk := { x.trk with table := s.trk.table }, hli := s.hli } = s) ∧
    (∀ (round : List (HostNo × RecallKind)) (e : Entry),
      let taken := setTracker s t (some { tr with stored := e, reported := reportEntry s e })
      (reportEntry s e = .lost → startInternal t round e s = reply t none taken) ∧
      (reportEntry s e ≠ .lost →
        startInternal t round e s = startRound t (round.filter (fun r => isAdmitted s r.1)) taken)) ∧
    startScrub t s = startRound t ((hosts.filter (isAdmitted s)).map (fun h => (h, RecallKind.drop)))
      (setTracker s t (some { tr with scrubbing := true, stored := .free, reported := .free }))

/-- TRACKER_LOOKUP that finds its line's way in an open TRACKED set, no tag parity error in the set, the way's entry
judged as reported (R62, R67, R80, R96, R160). The errors that the read finds are handed over first; a state parity
error of another line's way is so recorded and passed over (R159, R163). With the way in good parity and no refusal, the
way is bound, the tracker keeps the entry as stored and as reported, and an entry that needs a round has it sent at that
event; one that needs none, such as a READ_SHARED of a SHARED line, an UPGRADE of its only holder, a DIRECT_READ of a
SHARED line or a full-line DIRECT_WRITE of a LOST line, has the tracker go on at once. With a state parity error on that
way it is bound and the line scrubbed. The masking at the lookup is assumption 8, the first of several matching ways
assumption 18. -/
def Obligations.LookupRecalls : Prop :=
  (∀ (t : TrackerNo) (tr : Tracker) (h : HostNo) (tag : HostTag) (w : WayNo) (s : State),
    let k := lineSet tr.line
    let stored := entryOf (wayOf s k w)
    let kind := servedAs tr.kind h (reportEntry s stored)
    s.resetPhase = .noReset → trackerOf s t = some tr → tr.phase = .setup → t ∉ s.trk.reparkWait →
    tr.requester = some (h, tag) → tr.mode = .tracked → isClosed s k = false →
    (∀ v, checkWay (wayOf s k v) ≠ .tagError) →
    checkWay (wayOf s k w) = .good → (wayOf s k w).tag = lineTag tr.line →
    (∀ v, v < w → (checkWay (wayOf s k v) = .good ∨ checkWay (wayOf s k v) = .stateError) →
      (wayOf s k v).tag ≠ lineTag tr.line) →
    refusalAt tr h (reportEntry s stored) = none →
    let read := handErrors k allWays .lookup s
    let bound := { tr with kind := kind, stored := stored, reported := reportEntry s stored }
    (roundOf kind h (reportEntry s stored) = [] → exec (.trackerLookup t) s = .next (settle (goOn t
      (putWay k w { wayOf s k w with binding := some t } (setTracker read t (some bound)))))) ∧
    ∀ (first : HostNo × RecallKind) (others : List (HostNo × RecallKind)),
      let round := first :: others
      roundOf kind h (reportEntry s stored) = round →
      ∃ x, exec (.trackerLookup t) s = .next (settle x) ∧
        wayOf x k w = { wayOf s k w with binding := some t } ∧
        (∀ j v, (j, v) ≠ (k, w) → wayOf x j v = wayOf s j v) ∧
        trackerOf x t = some { bound with
          phase := .recall, awaited := round.map (fun r => ⟨r.1, r.2, false⟩)
          deadline := some s.mgmt.recallLimit.toNat, graceUsed := false
          dropped := hostSetOf ((round.filter (fun r => r.2 = .drop)).map (fun r => r.1)) } ∧
        (∀ u, u ≠ t → trackerOf x u = trackerOf s u) ∧
        (∀ p, hliOf x p = { hliOf s p with
          outbound := (hliOf s p).outbound ++
            ((round.filter (fun r => r.1 = p ∧ isPlaced s p (recallMsg r.2 tr.line t) = true)).map
              (fun r => recallMsg r.2 tr.line t)) }) ∧
        { x with dir := s.dir, trk := s.trk, hli := s.hli } = read ∧ x.dir.lostCount = s.dir.lostCount ∧
        x.dir.lostRecord = s.dir.lostRecord ∧ x.dir.freed = s.dir.freed) ∧
  ∀ (t : TrackerNo) (tr : Tracker) (w : WayNo) (s : State),
    let k := lineSet tr.line
    s.resetPhase = .noReset → trackerOf s t = some tr → tr.phase = .setup → t ∉ s.trk.reparkWait →
    tr.mode = .tracked → isClosed s k = false → (∀ v, checkWay (wayOf s k v) ≠ .tagError) →
    checkWay (wayOf s k w) = .stateError → (wayOf s k w).tag = lineTag tr.line →
    (∀ v, v < w → (checkWay (wayOf s k v) = .good ∨ checkWay (wayOf s k v) = .stateError) →
      (wayOf s k v).tag ≠ lineTag tr.line) →
    exec (.trackerLookup t) s = .next (settle (startScrub t
      (putWay k w { wayOf s k w with binding := some t } (handErrors k allWays .lookup s))))

/-- TRACKER_LOOKUP in an open TRACKED set read with no tag parity error that holds no way for the line, the state
parity errors of other lines' ways handed over and passed over (R159, R163), and the asking for a way. A direct kind
binds no way and goes on: a DIRECT_READ or ATOMIC asks memory, a DIRECT_WRITE writes (R119, R121, R122). A coherent
request, an UPGRADE then as a READ_OWN (R105), asks for a way (R61): the least recently touched FREE way is reserved
(R63) and it goes on; in a set without one whose read closes it it is released (R165); with a victim, or else a way to
scrub (R164), it claims an eviction and waits; with ways in use it waits; with eight unbound LOST ways it is refused
NO_ENTRY, its tag no longer outstanding and the tracker free (R106). A reported change lets the trackers that wait on
the set ask again, in the order they began to wait, but for one whose eviction has been granted. The claim at the head
is granted the lowest free internal tracker (R79, R93): for an eviction the victim is chosen again and bound to an
EVICT tracker, which recalls or scrubs; with none left the asking tracker asks again. That the errors of all eight
ways are handed over with reader RESERVE where the set has no FREE way, and at the grant, and none where it has one,
is assumption 19. -/
def Obligations.LookupMisses : Prop :=
  let victim := fun (s : State) (k : SetNo) (w : WayNo) =>
    checkWay (wayOf s k w) = .good ∧ (wayOf s k w).code ≠ 4 ∧ (wayOf s k w).binding = none ∧
      ∀ u x, trackerOf s u = some x → x.line ≠ lineOf (wayOf s k w).tag k
  let scrubbed := fun (s : State) (k : SetNo) (w : WayNo) =>
    checkWay (wayOf s k w) = .stateError ∧ (wayOf s k w).binding = none ∧
      ∀ u x, trackerOf s u = some x → x.line ≠ lineOf (wayOf s k w).tag k
  let reserved := fun (t : TrackerNo) (line : LineNo) =>
    (⟨1, lineTag line, 0, some t, tagParityOf (lineTag line), stateParityOf 1 0⟩ : Way)
  (∀ (t : TrackerNo) (tr : Tracker) (s : State),
    let k := lineSet tr.line
    s.resetPhase = .noReset → trackerOf s t = some tr → tr.phase = .setup → t ∉ s.trk.reparkWait →
    tr.mode = .tracked → isClosed s k = false →
    (∀ v, checkWay (wayOf s k v) ≠ .tagError) →
    (∀ v, checkWay (wayOf s k v) = .good ∨ checkWay (wayOf s k v) = .stateError →
      (wayOf s k v).tag ≠ lineTag tr.line) →
    let read := handErrors k allWays .lookup s
    (∀ kind : TrackerKind,
      ((tr.kind = .readShared ∧ kind = .readShared) ∨ (tr.kind = .readOwn ∧ kind = .readOwn) ∨
        (tr.kind = .upgrade ∧ kind = .readOwn)) →
      exec (.trackerLookup t) s = .next (settle (askWay t (setTracker read t (some { tr with kind := kind })))) ∧
      ∀ (w : WayNo) (before after : List WayNo), tr.scrubbing = false → tr.ownerLost = false → tr.buffer = none →
        (setOf s k).order = before ++ w :: after → (wayOf s k w).code = 0 → (∀ v ∈ before, (wayOf s k v).code ≠ 0) →
        exec (.trackerLookup t) s = .next (settle (requestRead t (leaveVictimWait t
          (putWay k w (reserved t tr.line) (setTracker read t (some { tr with kind := kind }))))))) ∧
    (tr.scrubbing = false → tr.ownerLost = false → tr.buffer = none → tr.kind = .directRead ∨ tr.kind = .atomic →
      exec (.trackerLookup t) s = .next (settle (requestRead t read))) ∧
    (tr.scrubbing = false → tr.ownerLost = false → tr.kind = .directWrite →
      exec (.trackerLookup t) s = .next (settle (writeOrReply t read)))) ∧
  (∀ (t : TrackerNo) (tr : Tracker) (s : State), trackerOf s t = some tr →
    let k := lineSet tr.line
    let read := handErrors k allWays .reserve s
    let withdrawn := fun (x : State) => { x with trk := { x.trk with
      claims := x.trk.claims.filter (· ≠ .evict t)
      victimWait := x.trk.victimWait.filter (· ≠ t)
      askAgain := x.trk.askAgain.filter (· ≠ t) } }
    let waiting := fun (claims : List InternalClaim) => { setTracker read t (some { tr with phase := .victimWait }) with
      trk := { s.trk with
        table := s.trk.table.set t (some { tr with phase := .victimWait })
        claims := claims
        victimWait := if t ∈ s.trk.victimWait then s.trk.victimWait else s.trk.victimWait ++ [t] } }
    let inUse := ∃ w, (wayOf s k w).binding ≠ none ∨ (wayOf s k w).code = 1 ∨
      (2 ≤ (wayOf s k w).code.toNat ∧ ∃ u x, trackerOf s u = some x ∧ x.line = lineOf (wayOf s k w).tag k)
    (isClosed s k = true → askWay t s = release t s) ∧
    (isClosed s k = false →
      (∀ w before after, (setOf s k).order = before ++ w :: after → (wayOf s k w).code = 0 →
        (∀ v ∈ before, (wayOf s k v).code ≠ 0) →
        askWay t s = goOn t (withdrawn (putWay k w (reserved t tr.line) s))) ∧
      ((∀ w ∈ (setOf s k).order, (wayOf s k w).code ≠ 0) →
        ((∃ w, checkWay (wayOf s k w) = .tagError) → askWay t s = release t read) ∧
        ((∀ w, checkWay (wayOf s k w) ≠ .tagError) →
          (victimOf s k ≠ none → askWay t s = waiting
            (if .evict t ∈ s.trk.claims then s.trk.claims else s.trk.claims ++ [.evict t])) ∧
          (victimOf s k = none → inUse → askWay t s = waiting s.trk.claims) ∧
          (victimOf s k = none → ¬inUse → (∀ w, (wayOf s k w).code = 4) →
            askWay t s = reply t (some .noEntry) (withdrawn read) ∧
            ∀ h tag, tr.requester = some (h, tag) →
              let m := HubMsg.refuseReq tag .noEntry
              let x := askWay t s
              x = freeTracker t (requestEnded h tag m (withdrawn read)) ∧
              trackerOf x t = none ∧ (∀ u, u ≠ t → trackerOf x u = trackerOf s u) ∧
              hliOf x h = { hliOf s h with
                tags := (hliOf s h).tags.filter (· ≠ tag)
                outbound := (hliOf s h).outbound ++ (if isPlaced s h m then [m] else []) } ∧
              (∀ p, p ≠ h → hliOf x p = hliOf s p) ∧ x.dir = s.dir ∧ x.mem = s.mem ∧ x.mgmt = read.mgmt))))) ∧
  (∀ (k : SetNo) (s : State) (w : WayNo) (before after : List WayNo), (setOf s k).order = before ++ w :: after →
    (victim s k w → (∀ v ∈ before, ¬victim s k v) → victimOf s k = some w) ∧
    ((∀ v ∈ (setOf s k).order, ¬victim s k v) → scrubbed s k w → (∀ v ∈ before, ¬scrubbed s k v) →
      victimOf s k = some w) ∧
    ((∀ v ∈ (setOf s k).order, ¬victim s k v ∧ ¬scrubbed s k v) → victimOf s k = none)) ∧
  (∀ (k : SetNo) (s : State),
    reportChange k s = { s with trk := { s.trk with
      askAgain := s.trk.victimWait.filter (fun t => s.trk.askAgain.contains t || waitsOn s k t) } } ∧
    (∀ t, waitsOn s k t = true ↔ (∃ tr, trackerOf s t = some tr ∧ lineSet tr.line = k) ∧
      ∀ u x, trackerOf s u = some x → x.waitingRequester ≠ some t) ∧
    (s.trk.askAgain = [] → dueAsk s = none) ∧
    ∀ t rest, s.trk.askAgain = t :: rest →
      let now : State := { s with trk := { s.trk with askAgain := rest } }
      let asks := (∃ tr, trackerOf s t = some tr ∧ tr.phase = .victimWait) ∧
        ∀ u x, trackerOf s u = some x → x.waitingRequester ≠ some t
      (asks → dueAsk s = some (askWay t now)) ∧ (¬asks → dueAsk s = some now)) ∧
  (∀ s : State,
    (s.trk.claims = [] ∨ (∀ i : TrackerNo, 56 ≤ i.val → trackerOf s i ≠ none) → dueInternal s = none) ∧
    ∀ (i : TrackerNo) (c : InternalClaim) (rest : List InternalClaim), s.trk.claims = c :: rest → 56 ≤ i.val →
      trackerOf s i = none → (∀ u : TrackerNo, 56 ≤ u.val → u < i → trackerOf s u ≠ none) →
      let now : State := { s with trk := { s.trk with claims := rest } }
      (∀ t, c = .evict t → dueInternal s = some (grantEviction t i now)) ∧
      (c = .walker → dueInternal s = some (grantWalker i now))) ∧
  ∀ (a i : TrackerNo) (tr : Tracker) (s : State), trackerOf s a = some tr →
    let k := lineSet tr.line
    let read := handErrors k allWays .reserve s
    (isClosed s k = true → grantEviction a i s = release a s) ∧
    (isClosed s k = false → (∃ w, checkWay (wayOf s k w) = .tagError) → grantEviction a i s = read) ∧
    (isClosed s k = false → (∀ w, checkWay (wayOf s k w) ≠ .tagError) →
      (victimOf s k = none → grantEviction a i s = { read with trk := { s.trk with
        askAgain := s.trk.victimWait.filter (fun t => s.trk.askAgain.contains t || decide (t = a)) } }) ∧
      ∀ w, victimOf s k = some w →
        let x := wayOf s k w
        let bound := putWay k w { x with binding := some i } (setTracker read i (some
          { newTracker .evict (lineOf x.tag k) .tracked none .absent with waitingRequester := some a }))
        (checkWay x = .good → grantEviction a i s = startInternal i
          ((hosts.filter (fun h => hasHost (holdersOf (entryOf x)) h)).map (fun h => (h, RecallKind.drop)))
          (entryOf x) bound) ∧
        (checkWay x = .stateError → grantEviction a i s = startScrub i bound))

/-- TRACKER_LOOKUP that ends or gives back its request. With no tag parity error in the set, the errors read handed
over, a request whose line is owned by its requester is refused PROTOCOL, and one whose line is LOST, a full-line
DIRECT_WRITE apart, is refused LOST: REFUSE is sent, the commit of the entry as it stands is made under the masking of
R68, with its touch, its LOST event (cause COMMIT) and its report, and the tracker is free (R65, R71, R106). A tracker
whose set is closed, or whose read finds a tag parity error, is released (R165): it gives up a way it has reserved (R66)
and its claim, its request is parked ahead of the first for its line and the tracker is free, or with 48 parked, or
others waiting for a place, it waits in SETUP to re-park (R91), whatever its requester's port state. A DIRECT_ONLY
tracker makes no lookup (R119), nor does any during a hub reset, in another phase or while it waits to re-park. The
masking is assumption 8, the kind under which an UPGRADE served as a READ_OWN is parked again assumption 15, the first
of several matching ways assumption 18. -/
def Obligations.LookupEnds : Prop :=
  (∀ (t : TrackerNo) (tr : Tracker) (h : HostNo) (tag : HostTag) (s : State),
    let k := lineSet tr.line
    s.resetPhase = .noReset → trackerOf s t = some tr → tr.phase = .setup → t ∉ s.trk.reparkWait →
    tr.requester = some (h, tag) → tr.mode = .tracked →
    (∀ (w : WayNo) (reason : RefuseReason), isClosed s k = false →
      (∀ v, checkWay (wayOf s k v) ≠ .tagError) →
      checkWay (wayOf s k w) = .good → (wayOf s k w).tag = lineTag tr.line →
      (∀ v, v < w → (checkWay (wayOf s k v) = .good ∨ checkWay (wayOf s k v) = .stateError) →
        (wayOf s k v).tag ≠ lineTag tr.line) →
      (∀ v, (wayOf s k v).binding ≠ some t) → tr.waitingRequester = none →
      let stored := entryOf (wayOf s k w)
      ((isCoherent tr.kind = true ∧ reportEntry s stored = .owned h ∧ reason = .protocol) ∨
        (reportEntry s stored = .lost ∧ isFullWrite tr = false ∧ reason = .lost)) →
      let read := handErrors k allWays .lookup s
      let m := HubMsg.refuseReq tag reason
      let taken := putWay k w { wayOf s k w with binding := some t } (setTracker read t (some { tr with
        kind := servedAs tr.kind h (reportEntry s stored), stored := stored, reported := reportEntry s stored }))
      ∃ x, exec (.trackerLookup t) s = .next (settle x) ∧
        x = freeTracker t (reportChange k (touchWritten k w (writeEntry k w (lineTag tr.line) stored .commit
          (requestEnded h tag m taken)))) ∧
        trackerOf x t = none ∧ (∀ u, u ≠ t → trackerOf x u = trackerOf s u) ∧
        wayOf x k w = wayFor (wayOf s k w) (lineTag tr.line) (maskEntry s stored) ∧
        (∀ j v, (j, v) ≠ (k, w) → wayOf x j v = wayOf s j v) ∧
        hliOf x h = { hliOf s h with
          tags := (hliOf s h).tags.filter (· ≠ tag)
          outbound := (hliOf s h).outbound ++ (if isPlaced s h m then [m] else []) } ∧
        (∀ p, p ≠ h → hliOf x p = hliOf s p) ∧ x.mem = s.mem ∧ x.integ = read.integ) ∧
    (isClosed s k = true → exec (.trackerLookup t) s = .next (settle (release t s))) ∧
    (isClosed s k = false → (∃ v, checkWay (wayOf s k v) = .tagError) →
      exec (.trackerLookup t) s = .next (settle (release t (handErrors k allWays .lookup s))))) ∧
  (∀ (t : TrackerNo) (tr : Tracker) (s : State), trackerOf s t = some tr →
    s.resetPhase ≠ .noReset ∨ tr.mode = .directOnly ∨ tr.phase ≠ .setup ∨ t ∈ s.trk.reparkWait →
    exec (.trackerLookup t) s = .next (settle s)) ∧
  ∀ (t : TrackerNo) (tr : Tracker) (h : HostNo) (tag : HostTag) (kind : ReqKind) (s : State),
    trackerOf s t = some tr → tr.requester = some (h, tag) → reqKindOf tr.kind = some kind →
    let k := lineSet tr.line
    let x := release t s
    (∀ w, (wayOf s k w).binding = some t → (wayOf s k w).code = 1 → (∀ v, v ≠ w → (wayOf s k v).binding ≠ some t) →
      release t s = release t (reportChange k (touchLeast k w (putFree k w s)))) ∧
    ((∀ v, (wayOf s k v).binding ≠ some t) →
      (s.trk.reparkWait = [] → s.disp.park.length < 48 →
        trackerOf x t = none ∧ (∀ u, u ≠ t → trackerOf x u = trackerOf s u) ∧
        x.trk.claims = s.trk.claims.filter (· ≠ .evict t) ∧ x.trk.victimWait = s.trk.victimWait.filter (· ≠ t) ∧
        x.trk.reparkWait = [] ∧ x.dir = s.dir ∧ x.hli = s.hli ∧ x.mem = s.mem ∧ x.disp = { s.disp with
          park := parkAhead ⟨h, ⟨kind, tag, tr.line, tr.operands⟩⟩ s.disp.park
          passedOver := if t.val < 56 then 0 else s.disp.passedOver }) ∧
      (s.trk.reparkWait ≠ [] ∨ 48 ≤ s.disp.park.length → x = { s with
        trk := {
          table := s.trk.table.set t (some { tr with phase := .setup })
          claims := s.trk.claims.filter (· ≠ .evict t)
          victimWait := s.trk.victimWait.filter (· ≠ t)
          askAgain := s.trk.askAgain.filter (· ≠ t)
          reparkWait := if t ∈ s.trk.reparkWait then s.trk.reparkWait else s.trk.reparkWait ++ [t] } }))

/-- How a tracker goes on, once its round has ended, or with the way handed to it, or at once with nothing to recall
(R77, R81, R100, R110, R120); of several that may go on, the lowest-numbered does first (assumption 9). An owner let
go without data refuses LOST, a full-line DIRECT_WRITE apart; a kind that needs the contents takes them from its
buffer or asks memory; an UPGRADE, an EVICT, a SWEEP_RECALL and a DIRECT_WRITE go to their write and reply. How it
asks for its line (R139): a full write-buffer entry is forwarded at once; a partial one is held while a pool read
waits; with no entry a pool read joins the read list. A tracker that must write, for its request (R123) or for
modified data (R101), claims the write buffer, and one with nothing to write replies (R136). The end of a scrub
(R162): modified data is written first; the way is then FREE, least recent and reported, and a host-pool tracker is
back in SETUP with its data, an internal one freed, and a waiting requester has the way RESERVED. -/
def Obligations.MemoryAsked : Prop :=
  (∀ s : State,
    let ended := fun (t : TrackerNo) => ∃ tr, trackerOf s t = some tr ∧ tr.phase = .recall ∧ tr.awaited = []
    let handed := fun (t : TrackerNo) => ∃ tr w, trackerOf s t = some tr ∧ tr.phase = .victimWait ∧
      (wayOf s (lineSet tr.line) w).binding = some t
    ((∀ t, ¬ended t) → dueRound s = none) ∧
    (∀ t, ended t → (∀ u, u < t → ¬ended u) → dueRound s = some (goOn t s)) ∧
    ((∀ t : TrackerNo, t.val < 56 → ¬handed t) → dueHanded s = none) ∧
    ∀ t : TrackerNo, t.val < 56 → handed t → (∀ u, u < t → ¬handed u) →
      dueHanded s = some (goOn t { s with trk := { s.trk with
        claims := s.trk.claims.filter (· ≠ .evict t)
        victimWait := s.trk.victimWait.filter (· ≠ t)
        askAgain := s.trk.askAgain.filter (· ≠ t) } })) ∧
  ∀ (t : TrackerNo) (tr : Tracker) (s : State), trackerOf s t = some tr →
    let waiting := setTracker s t (some { tr with phase := .memWait })
    let modified : Option (LineData × ByteMask × Bool) :=
      match tr.buffer with
      | some b => if b.modified then some (b.data, fullMask, b.poisoned) else none
      | none => none
    (tr.scrubbing = true → (modified = none → goOn t s = endScrub t s) ∧
      (modified ≠ none → WbClaim.tracker t ∉ s.mem.claims →
        goOn t s = { waiting with mem := { s.mem with claims := s.mem.claims ++ [.tracker t] } })) ∧
    (tr.scrubbing = false →
      (tr.kind = .evict ∨ tr.kind = .sweepRecall ∨ tr.kind = .upgrade → goOn t s = writeOrReply t s) ∧
      (tr.kind = .directWrite → goOn t s =
        if tr.ownerLost = true ∧ isFullWrite tr = false then reply t (some .lost) s else writeOrReply t s) ∧
      (tr.kind = .readShared ∨ tr.kind = .readOwn ∨ tr.kind = .directRead ∨ tr.kind = .atomic → goOn t s =
        if tr.ownerLost = true then reply t (some .lost) s
        else if tr.buffer ≠ none then contentsReady t s else requestRead t s)) ∧
    contentsReady t s = writeOrReply t
      (if tr.kind = .atomic then setTracker s t (some { tr with result := atomicOutcome tr }) else s) ∧
    (entryFor s.mem tr.line = none → t ∉ s.mem.reads → requestRead t s =
      { waiting with mem := { s.mem with reads := s.mem.reads ++ [t] } }) ∧
    (∀ e, entryFor s.mem tr.line = some e → e.mask ≠ fullMask → t ∉ s.mem.reads → requestRead t s =
      { waiting with mem := { s.mem with
        wbuf := s.mem.wbuf.map (fun x => if x.line = tr.line then { x with held := true } else x)
        reads := s.mem.reads ++ [t] } }) ∧
    (∀ e, entryFor s.mem tr.line = some e → e.mask = fullMask → requestRead t s = contentsReady t
      (setTracker s t (some { tr with
        phase := .memWait, buffer := some ⟨e.data, false, e.poisoned, .forward, none⟩ }))) ∧
    ((trackerWrite tr).isSome = true → WbClaim.tracker t ∉ s.mem.claims → writeOrReply t s =
      { waiting with mem := { s.mem with claims := s.mem.claims ++ [.tracker t] } }) ∧
    (trackerWrite tr = none → writeOrReply t s = reply t none s) ∧
    (tr.scrubbing = true ∨ (tr.kind ≠ .directWrite ∧ tr.kind ≠ .atomic) → trackerWrite tr = modified) ∧
    (tr.scrubbing = false → tr.kind = .directWrite → ∀ mask data, tr.operands = .write mask data →
      trackerWrite tr =
        match tr.buffer with
        | none => if mask = 0 then none else some (data, mask, false)
        | some b =>
          if mask = fullMask then some (data, fullMask, false)
          else if mask ≠ 0 then some (mergeUnder mask data b.data, fullMask, b.poisoned)
          else if b.modified then some (b.data, fullMask, b.poisoned) else none) ∧
    ∀ w, boundWay s (lineSet tr.line) t = some w →
      let k := lineSet tr.line
      let cleared := touchLeast k w (putFree k w s)
      (tr.kind ≠ .evict → tr.kind ≠ .sweepRecall → tr.waitingRequester = none →
        endScrub t s = setTracker (reportChange k cleared) t (some { tr with
          phase := .setup, awaited := [], deadline := none, graceUsed := false, ownerLost := false
          stored := .free, reported := .free, scrubbing := false, dropped := 0, kept := false })) ∧
      (tr.kind = .evict ∨ tr.kind = .sweepRecall →
        (tr.waitingRequester = none → endScrub t s = freeTracker t (reportChange k cleared)) ∧
        ∀ r rt, tr.waitingRequester = some r → trackerOf s r = some rt → endScrub t s = freeTracker t (reportChange k
          (putWay k w ⟨1, lineTag rt.line, 0, some r, tagParityOf (lineTag rt.line), stateParityOf 1 0⟩ cleared)))

/-- The deadlines. The first expiry with hosts awaited and grace not used sets grace used and a new deadline at the
recall limit, latches GRACE with its record, and sends nothing (R82, R168). The second clears the deadline and fences
each host still awaited and admitted, with reason RECALL_TIMEOUT for a tracker and PURGE_TIMEOUT for the purge slot;
those hosts leave the awaited set (R83, R168). Several are fenced one after another, as they stand in the awaited set
(assumption 9). During a hub reset no expiry is acted on (R182). A deadline holds the limit it was set from
(assumption 7), and a purge fills no tracker number (assumption 24). -/
def Obligations.DeadlinesExpire : Prop :=
  (∀ (t : TrackerNo) (tr : Tracker) (s : State), s.resetPhase = .noReset → trackerOf s t = some tr →
    tr.deadline ≠ none → tr.awaited ≠ [] →
    (tr.graceUsed = false → exec (.deadlineExpiry t) s = .next (settle
      { setTracker s t (some { tr with graceUsed := true, deadline := some s.mgmt.recallLimit.toNat }) with
        mgmt := { s.mgmt with
          grace := ⟨1, BitVec.ofNat 8 t.val, hostSetOf (tr.awaited.map (fun a => a.host)), tr.line.setWidth 24⟩
          latch := s.mgmt.latch ||| 0x0002
          alertLow := alertLowOf (s.mgmt.latch ||| 0x0002) s.mgmt.mask } })) ∧
    (tr.graceUsed = true → exec (.deadlineExpiry t) s = .next (settle
      ((tr.awaited.map (fun a => a.host)).foldl
        (fun x h => if isAdmitted x h = true then startFence h .recallTimeout x else x)
        (setTracker s t (some { tr with deadline := none }))))) ∧
    (tr.graceUsed = true → t ∉ s.trk.reparkWait → ∃ x y, exec (.deadlineExpiry t) s = .next (settle x) ∧
      (∀ h, portOf x h =
        if isAdmitted s h = true ∧ ∃ a ∈ tr.awaited, a.host = h then
          ⟨.fencing, (portOf s h).admission, .recallTimeout, false⟩
        else portOf s h) ∧
      trackerOf x t = some y ∧ y.awaited = tr.awaited.filter (fun a => isAdmitted s a.host = false) ∧
      y.deadline = none)) ∧
  (∀ s : State, s.resetPhase = .noReset → s.integ.phase = .purging → s.integ.deadline ≠ none → s.integ.awaited ≠ [] →
    (s.integ.graceUsed = false → exec .purgeDeadlineExpiry s = .next (settle { s with
      integ := { s.integ with graceUsed := true, deadline := some s.mgmt.recallLimit.toNat }
      mgmt := { s.mgmt with
        grace := ⟨2, Config.purgeGraceTracker, hostSetOf s.integ.awaited, s.integ.set.setWidth 24⟩
        latch := s.mgmt.latch ||| 0x0002
        alertLow := alertLowOf (s.mgmt.latch ||| 0x0002) s.mgmt.mask } })) ∧
    (s.integ.graceUsed = true → exec .purgeDeadlineExpiry s = .next (settle
      (s.integ.awaited.foldl (fun x h => if isAdmitted x h = true then startFence h .purgeTimeout x else x)
        { s with integ := { s.integ with deadline := none } }))) ∧
    (s.integ.graceUsed = true → ∃ x, exec .purgeDeadlineExpiry s = .next (settle x) ∧
      (∀ h, portOf x h =
        if isAdmitted s h = true ∧ h ∈ s.integ.awaited then
          ⟨.fencing, (portOf s h).admission, .purgeTimeout, false⟩
        else portOf s h) ∧
      x.integ.awaited = s.integ.awaited.filter (fun h => isAdmitted s h = false) ∧ x.integ.deadline = none)) ∧
  ∀ (t : TrackerNo) (s : State), s.resetPhase ≠ .noReset →
    exec (.deadlineExpiry t) s = .next (settle s) ∧ exec .purgeDeadlineExpiry s = .next (settle s)

/-- How an entry is written at a commit, a return update or a forfeit update (R65, R68, R69): a SHARED entry keeps the
holders that are ONLINE or DEPARTING and is FREE with none left; an OWNED entry whose owner is neither becomes LOST
with no holders, which, if the way did not store LOST before, latches LOST, moves ALERT_N with it, and names the line,
the owner and the cause in the lost-line record; parity is generated and the way unbound. The LOST count rises by one
where a code other than 4 becomes 4, falls by one where a stored 4 is overwritten with another, and is else unchanged.
That a host neither ONLINE nor DEPARTING counts as not holding is assumption 8; the parity bits of a FREE way are left
open (assumption 41). The touch of a way so written at a commit or a return update (R60): one left VALID moves to most
recent; one made FREE moves to the least recent end, where all the ways of its set made FREE at the present event and
not touched since stand in ascending number. What counts as one event is assumption 45. -/
def Obligations.EntriesAreMasked : Prop :=
  (∀ (k : SetNo) (w : WayNo) (s : State),
    let t := touchWritten k w s
    let together := allWays.filter (fun v => v = w ∨ (k, v) ∈ s.dir.freed)
    (∀ j v, wayOf t j v = wayOf s j v) ∧ (∀ j, j ≠ k → setOf t j = setOf s j) ∧
    ((wayOf s k w).code = 0 → (setOf t k).order = together ++ (setOf s k).order.filter (· ∉ together) ∧
      t.dir.freed = s.dir.freed ++ [(k, w)]) ∧
    ((wayOf s k w).code ≠ 0 → (setOf t k).order = (setOf s k).order.filter (· ≠ w) ++ [w] ∧
      t.dir.freed = s.dir.freed.filter (· ≠ (k, w))) ∧
    t.dir.lostCount = s.dir.lostCount ∧ t.dir.lostRecord = s.dir.lostRecord ∧ { t with dir := s.dir } = s) ∧
  ∀ (k : SetNo) (w : WayNo) (tag : DirTag) (e : Entry) (cause : LostCause) (s : State),
    let t := writeEntry k w tag e cause s
    let kept := fun (holders : HostSet) => holders &&& holding s
    (∀ h, hasHost (holding s) h = isAdmitted s h) ∧
    (∀ j v, (j, v) ≠ (k, w) → wayOf t j v = wayOf s j v) ∧
    (∀ holders, e = .shared holders → kept holders ≠ 0 → wayOf t k w =
      ⟨2, tag, kept holders, none, tagParityOf tag, stateParityOf 2 (kept holders)⟩) ∧
    (∀ holders, e = .shared holders → kept holders = 0 → isFreed (wayOf t k w)) ∧
    (e = .free → isFreed (wayOf t k w)) ∧
    (∀ o, e = .owned o → isAdmitted s o = true →
      wayOf t k w = ⟨3, tag, oneHost o, none, tagParityOf tag, stateParityOf 3 (oneHost o)⟩) ∧
    (∀ o, e = .owned o → isAdmitted s o = false →
      wayOf t k w = ⟨4, tag, 0, none, tagParityOf tag, stateParityOf 4 0⟩ ∧
      ((wayOf s k w).code ≠ 4 → t.dir.lostRecord = some ⟨lineOf tag k, o, cause⟩ ∧
        t.mgmt = { s.mgmt with
          latch := s.mgmt.latch ||| 0x0008, alertLow := alertLowOf (s.mgmt.latch ||| 0x0008) s.mgmt.mask }) ∧
      ((wayOf s k w).code = 4 → t.dir.lostRecord = s.dir.lostRecord ∧ t.mgmt = s.mgmt)) ∧
    (e = .lost → wayOf t k w = ⟨4, tag, 0, none, tagParityOf tag, stateParityOf 4 0⟩) ∧
    ((wayOf s k w).code ≠ 4 → (wayOf t k w).code = 4 → t.dir.lostCount = s.dir.lostCount + 1) ∧
    ((wayOf s k w).code = 4 → (wayOf t k w).code ≠ 4 → t.dir.lostCount = s.dir.lostCount - 1) ∧
    (((wayOf s k w).code = 4 ↔ (wayOf t k w).code = 4) → t.dir.lostCount = s.dir.lostCount) ∧
    ((∀ o, e = .owned o → isAdmitted s o = true) → t.mgmt = s.mgmt ∧ t.dir.lostRecord = s.dir.lostRecord) ∧
    (∀ j, (setOf t j).order = (setOf s j).order) ∧ t.dir.freed = s.dir.freed ∧
    { t with dir := s.dir, mgmt := s.mgmt } = s

/-- REPLY of a coherent request bound to a way (R103 to R105, R107, R108): READ_SHARED adds its ONLINE requester to the
shared holders, to none of them where SHARED with no holders was reported, or to a former owner that kept a copy;
READ_OWN and UPGRADE make it the owner; DATA_SHARED, DATA_OWNED or GRANT is sent, the tag is no longer outstanding, and
the tracker is free. A DEPARTING requester is refused NOT_ONLINE and is not added; for a FENCING one the entry is
presented in the same way and the masking takes it out, and its response is discarded at the outbound queue (R29, R109).
Each commit is the write of R65, with the touch of R60, the LOST event of R69 with cause COMMIT, and the report of R61.
The commit of an internal tracker (R93, R147): an EVICT presents free, a SWEEP_RECALL the entry without those it had
drop the line and with an owner that kept a copy as a sharer, and either the stored entry where it is LOST or its owner
was let go without data; no message is sent, and a way that an EVICT has freed is RESERVED at once for its waiting
requester (R63), which else asks again. The masking is assumption 8; a request parked after its host's fence, the one
way to a requester in another state than these, is assumption 15. -/
def Obligations.CoherentReplies : Prop :=
  (∀ (t : TrackerNo) (tr : Tracker) (h : HostNo) (tag : HostTag) (w : WayNo) (s : State),
    let k := lineSet tr.line
    trackerOf s t = some tr → tr.requester = some (h, tag) → boundWay s k t = some w → tr.waitingRequester = none →
    isCoherent tr.kind = true →
    let x := reply t none s
    let online := portState s h = .online
    let response : HubMsg :=
      if portState s h = .departing then .refuseReq tag .notOnline
      else match tr.kind with
        | .readShared => .dataShared tag tr.line (bufferData tr).2 (bufferData tr).1
        | .upgrade => .grant tag tr.line
        | _ => .dataOwned tag tr.line (bufferData tr).2 (bufferData tr).1
    let entry : Entry :=
      match tr.kind, tr.stored with
      | .readShared, .shared holders =>
        let base : HostSet := if tr.reported = .shared 0 then 0 else holders
        .shared (if online then addHost base h else base)
      | .readShared, .owned o =>
        let base : HostSet := if tr.kept then oneHost o else 0
        .shared (if online then addHost base h else base)
      | .readShared, _ => .shared (if online then oneHost h else 0)
      | _, .shared holders =>
        if online then .owned h else if hasHost holders h then .shared (oneHost h) else .free
      | _, _ => if online then .owned h else .free
    x = freeTracker t (reportChange k (touchWritten k w (writeEntry k w (lineTag tr.line) entry .commit
      (requestEnded h tag response s)))) ∧
    trackerOf x t = none ∧ (∀ u, u ≠ t → trackerOf x u = trackerOf s u) ∧
    wayOf x k w = wayFor (wayOf s k w) (lineTag tr.line) (maskEntry s entry) ∧
    (∀ j v, (j, v) ≠ (k, w) → wayOf x j v = wayOf s j v) ∧
    hliOf x h = { hliOf s h with
      tags := (hliOf s h).tags.filter (· ≠ tag)
      outbound := (hliOf s h).outbound ++ (if isPlaced s h response then [response] else []) } ∧
    (isFenced s h → hasHost (wayOf x k w).holders h = false ∧ (hliOf x h).outbound = (hliOf s h).outbound) ∧
    (∀ p, p ≠ h → hliOf x p = hliOf s p) ∧ x.mem = s.mem ∧ x.region = s.region ∧ x.integ = s.integ) ∧
  ∀ (t : TrackerNo) (tr : Tracker) (w : WayNo) (s : State),
    let k := lineSet tr.line
    trackerOf s t = some tr → tr.requester = none → boundWay s k t = some w →
    tr.kind = .evict ∨ tr.kind = .sweepRecall →
    let x := reply t none s
    let entry : Entry :=
      if tr.ownerLost = true ∨ tr.reported = .lost then tr.stored
      else if tr.kind = .evict then .free
      else match tr.stored with
        | .shared holders => .shared (holders &&& ~~~tr.dropped)
        | .owned o => if hasHost tr.dropped o then .free else if tr.kept then .shared (oneHost o) else .free
        | e => e
    let written := wayFor (wayOf s k w) (lineTag tr.line) (maskEntry s entry)
    let commit := touchWritten k w (writeEntry k w (lineTag tr.line) entry .commit s)
    trackerOf x t = none ∧ (∀ u, u ≠ t → trackerOf x u = trackerOf s u) ∧
    (∀ j v, (j, v) ≠ (k, w) → wayOf x j v = wayOf s j v) ∧
    x.hli = s.hli ∧ x.mem = s.mem ∧ x.region = s.region ∧ x.integ = s.integ ∧
    (tr.waitingRequester = none → wayOf x k w = written ∧ x = freeTracker t (reportChange k commit)) ∧
    ∀ r rt, tr.waitingRequester = some r → r ≠ t → trackerOf s r = some rt →
      (written.code = 0 →
        let reserved : Way := ⟨1, lineTag rt.line, 0, some r, tagParityOf (lineTag rt.line), stateParityOf 1 0⟩
        wayOf x k w = reserved ∧ x = freeTracker t (reportChange k (putWay k w reserved commit))) ∧
      (written.code ≠ 0 → wayOf x k w = written ∧ (r ∈ s.trk.victimWait → r ∈ x.trk.askAgain) ∧
        x = freeTracker t (reportChange k { commit with trk := { s.trk with
          askAgain := s.trk.victimWait.filter (fun u => s.trk.askAgain.contains u || decide (u = r)) } }))

/-! ### The pool and its write buffer -/

/-- What a pool read finds (R132, R133): a line written GOOD and undisturbed, or disturbed within the power of its
check code, is delivered as written, clear and unrecorded; one disturbed beyond it as it then stands, poisoned,
recorded as UNCORRECTABLE; one written with POISON_MARK poisoned and recorded, as POISON_MARK where it is not
disturbed (where it is, the cause recorded is open, assumption 5). -/
def Obligations.PoolReadFindings : Prop :=
  ∀ (m : Memory) (n : LineNo) (double : Bool) (flips : LineData) (ok : Bool),
    (condOf m n = ⟨false, none⟩ → judgeLine m n double = ⟨poolLine m n, false, none⟩) ∧
    (condOf m n = ⟨false, some ⟨flips, ok⟩⟩ → judgeLine m n double =
      if ok then ⟨poolLine m n, false, none⟩ else ⟨poolLine m n ^^^ flips, true, some .uncorrectable⟩) ∧
    (condOf m n = ⟨true, none⟩ → judgeLine m n double = ⟨poolLine m n, true, some .poisonMark⟩) ∧
    (condOf m n = ⟨true, some ⟨flips, ok⟩⟩ → (judgeLine m n double).data = poolLine m n ^^^ flips ∧
      (judgeLine m n double).poisoned = true ∧ (judgeLine m n double).cause ≠ none)

/-- POOL_READ_COMPLETION for the tracker whose read holds the port (R133, R134, R139): its buffer is filled with what
the read found, the masked bytes of the line's write-buffer entry in their places, unmodified, from memory or
forwarded, with the poisoned flag of the pool read; a finding that is recorded fills the memory error record or sets
its more flag and latches MEM_ERROR; the hold is removed and the port free, or, with a POOL_CLEAR waiting for it, at
the rewrite of the pool, which then reads 0 and GOOD (R191, assumption 4). The tracker then goes on with the contents,
or, during a hub reset, does no more (R142). -/
def Obligations.PoolReadCompletes : Prop :=
  ∀ (t : TrackerNo) (tr : Tracker) (s : State),
    s.mem.port = .read t → trackerOf s t = some tr →
    let found := judgeLine s.mem tr.line (Config.doubleFaultReadsUncorrectable s.freeCount)
    let contents : DataBuffer :=
      match s.mem.wbuf.find? (fun e => e.line = tr.line) with
      | some e => ⟨mergeUnder e.mask e.data found.data, false, found.poisoned, .forward, none⟩
      | none => ⟨found.data, false, found.poisoned, .memory, none⟩
    let recorded : State :=
      match found.cause with
      | none => s
      | some cause => { s with
          freeCount := s.freeCount + 1
          mem := { s.mem with
            record := some (match s.mem.record with
              | none => ⟨tr.line, .read, cause, none, false⟩
              | some r => { r with more := true }) }
          mgmt := { s.mgmt with
            latch := s.mgmt.latch ||| 0x0100
            alertLow := alertLowOf (s.mgmt.latch ||| 0x0100) s.mgmt.mask } }
    let wbuf := s.mem.wbuf.map (fun e => if e.line = tr.line then { e with held := false } else e)
    let done : State := { recorded with
      mem := if s.mem.clearing = true then { recorded.mem with port := .rewrite, pool := [], conds := [], wbuf := wbuf }
        else { recorded.mem with port := .idle, wbuf := wbuf } }
    let filled := setTracker done t (some { tr with buffer := some contents })
    (s.resetPhase = .noReset → exec .poolReadCompletion s = .next (settle (contentsReady t filled))) ∧
    (s.resetPhase ≠ .noReset → exec .poolReadCompletion s = .next (settle filled))

/-- DRAIN_COMPLETION (R129, R133, R134, R138): a full entry is written to its line as it stands, a partial one as the
bytes under its mask over what the pool read found, marked POISON_MARK where that read was poisoned, which is recorded
with access DRAIN and the entry's source. The entry leaves the buffer, or, rewritten or held, stays with both drain
marks clear; the line leaves every FENCE's drain lines unless the entry was rewritten; the port is free; no other line
changes. With a POOL_CLEAR waiting for the port the entry leaves, the port goes to the rewrite, and the pool then
reads 0 and GOOD (R191, assumption 4). Leaving the drain lines so is assumption 13, and writing the entry as it stood
at the grant assumption 28. -/
def Obligations.DrainCompletes : Prop :=
  ∀ (e : WbEntry) (s : State), s.mem.port = .drain e →
    let found := judgeLine s.mem e.line (Config.doubleFaultReadsUncorrectable s.freeCount)
    let overtaken := ∃ x ∈ s.mem.wbuf, x.line = e.line ∧ x.rewritten = true
    let cause := if e.mask = fullMask then none else found.cause
    ∃ t, exec .drainCompletion s = .next (settle t) ∧
      (s.mem.clearing = false →
        poolLine t.mem e.line = (if e.mask = fullMask then e.data else mergeUnder e.mask e.data found.data) ∧
        condOf t.mem e.line = ⟨if e.mask = fullMask then e.poisoned else found.poisoned, none⟩ ∧
        (∀ n, n ≠ e.line → poolLine t.mem n = poolLine s.mem n ∧ condOf t.mem n = condOf s.mem n) ∧
        t.mem.wbuf = (s.mem.wbuf.filter (fun x => x.line ≠ e.line ∨ x.rewritten ∨ x.held)).map
          (fun x => if x.line = e.line then { x with draining := false, rewritten := false } else x) ∧
        t.mem.port = .idle) ∧
      (s.mem.clearing = true →
        (∀ n, poolLine t.mem n = 0 ∧ condOf t.mem n = ⟨false, none⟩) ∧
        t.mem.wbuf = s.mem.wbuf.filter (fun x => x.line ≠ e.line) ∧ t.mem.port = .rewrite) ∧
      t.mem.clearing = s.mem.clearing ∧ t.mem.claims = s.mem.claims ∧ t.mem.reads = s.mem.reads ∧
      t.mem.record = (match cause, s.mem.record with
        | none, r => r
        | some c, none => some ⟨e.line, .drain, c, some e.source, false⟩
        | some _, some r => some { r with more := true }) ∧
      t.mgmt = (match cause with
        | none => s.mgmt
        | some _ => { s.mgmt with
            latch := s.mgmt.latch ||| 0x0100, alertLow := alertLowOf (s.mgmt.latch ||| 0x0100) s.mgmt.mask }) ∧
      (∀ h, overtaken → slotOf t h = slotOf s h) ∧
      (∀ h, ¬overtaken → slotOf t h =
        (slotOf s h).map (fun x => { x with drainLines := x.drainLines.filter (· ≠ e.line) })) ∧
      t.dir = s.dir ∧ t.trk = s.trk ∧ t.hli = s.hli ∧ t.ports = s.ports

/-- Grants and placements in the write buffer (R136, R137). The claim granted is the first, while the buffer has fewer
than eight entries, or else the first whose line it has; it leaves the list, and its claimant's write is placed: a
tracker's with its marker changes, its data then unmodified, and the tracker ends its scrub or replies (R101, R123,
R162). A write to a line the buffer has no entry for is its youngest entry; to one it has, it merges: the bytes under
its mask replace the entry's, the masks unite, a full mask brings its own poisoned flag, the source is its own, the
age stands, and an entry that is draining is marked rewritten. The marker changes (R129): at a tracker's placement the
line joins the drain lines of the FENCE that waits on its request or on what it absorbed, which it waits on no more;
at a return's placement, of one that waits on that return; at an absorption of modified data the tracker joins what
such a FENCE waits on. -/
def Obligations.WritesPlaced : Prop :=
  let joined := fun (line : LineNo) (l : List LineNo) => if line ∈ l then l else l ++ [line]
  (∀ (c : WbClaim) (before after : List WbClaim) (s : State), s.resetPhase ≠ .drain → s.mem.clearing = false →
    s.mem.claims = before ++ c :: after →
    (before = [] → s.mem.wbuf.length < 8 → dueClaim s = some (grantClaim c s)) ∧
    (8 ≤ s.mem.wbuf.length → (∃ n e, claimLine s c = some n ∧ entryFor s.mem n = some e) →
      (∀ d ∈ before, ∀ n, claimLine s d = some n → entryFor s.mem n = none) → dueClaim s = some (grantClaim c s)) ∧
    (8 ≤ s.mem.wbuf.length → (∀ d ∈ s.mem.claims, ∀ n, claimLine s d = some n → entryFor s.mem n = none) →
      dueClaim s = none)) ∧
  (∀ s : State, s.resetPhase = .drain ∨ s.mem.clearing = true ∨ s.mem.claims = [] → dueClaim s = none) ∧
  (∀ (t : TrackerNo) (tr : Tracker) (data : LineData) (mask : ByteMask) (poisoned : Bool) (s : State),
    trackerOf s t = some tr → trackerWrite tr = some (data, mask, poisoned) →
    let left := { s with mem := { s.mem with claims := s.mem.claims.filter (· ≠ .tracker t) } }
    let placed := setTracker (markTrackerPlaced t tr (placeWrite ⟨tr.line, data, mask, poisoned, .tracker⟩ left)) t
      (some { tr with buffer := tr.buffer.map (fun b => { b with modified := false }) })
    grantClaim (.tracker t) s = if tr.scrubbing = true then endScrub t placed else reply t none placed) ∧
  (∀ (w : Write) (s : State), placeWrite w s = { s with mem := { s.mem with wbuf := placeIn w s.mem.wbuf } }) ∧
  (∀ (w : Write) (b : List WbEntry), (∀ e ∈ b, e.line ≠ w.line) →
    placeIn w b = b ++ [⟨w.line, w.data, w.mask, w.poisoned, w.source, false, false, false⟩]) ∧
  (∀ (w : Write) (e : WbEntry) (before after : List WbEntry), e.line = w.line →
    (∀ x ∈ before ++ after, x.line ≠ w.line) →
    ∃ data, placeIn w (before ++ e :: after) = before ++ { e with
        data := data
        mask := e.mask ||| w.mask
        poisoned := if w.mask = fullMask then w.poisoned else e.poisoned || w.poisoned
        source := w.source
        rewritten := e.rewritten || e.draining } :: after ∧
      ∀ i, i < 64 → lineByte data i = if w.mask.getLsbD i then lineByte w.data i else lineByte e.data i) ∧
  ∀ (t : TrackerNo) (tr : Tracker) (h : HostNo) (line : LineNo) (s : State),
    (∀ p, slotOf (markTrackerPlaced t tr s) p = (slotOf s p).map (fun x =>
      let carried := ∃ tag, tr.requester = some (p, tag) ∧ tag ∈ x.requests
      { x with
        drainLines := if carried ∨ t ∈ x.absorptions then joined tr.line x.drainLines else x.drainLines
        absorptions := x.absorptions.filter (· ≠ t) })) ∧
    { markTrackerPlaced t tr s with disp := { (markTrackerPlaced t tr s).disp with slots := s.disp.slots } } = s ∧
    markReturnPlaced h line s = { s with disp := { s.disp with slots := s.disp.slots.set h ((slotOf s h).map (fun x =>
      if line ∈ x.returns then { x with drainLines := joined line x.drainLines } else x)) } } ∧
    markAbsorbed h line t s = { s with disp := { s.disp with slots := s.disp.slots.set h ((slotOf s h).map (fun x =>
      if line ∈ x.returns then
        { x with absorptions := if t ∈ x.absorptions then x.absorptions else x.absorptions ++ [t] }
      else x)) } }

/-- The arbiter's choice when the port is free, no POOL_CLEAR running (R140): with eight entries, or a streak of 4,
and one of them eligible, the oldest eligible entry drains; else the head read is granted, the streak rising by one if
an eligible entry stands and else being 0; else the oldest eligible entry drains. A drain grant sets the streak to 0.
While a hub reset drains, the entries drain in order of age whether or not they are held (R142). -/
def Obligations.ArbiterChooses : Prop :=
  ∀ s : State, s.mem.port = .idle → s.mem.clearing = false →
    let drained := fun (e : WbEntry) => { s with mem := { s.mem with
      wbuf := s.mem.wbuf.map (fun x => if x.line = e.line then { x with draining := true } else x)
      port := .drain e
      streak := 0 } }
    let granted := fun (t : TrackerNo) (rest : List TrackerNo) (streak : Nat) =>
      { s with mem := { s.mem with reads := rest, port := .read t, streak := streak } }
    let eligible := fun (x : WbEntry) => x.draining = false ∧ x.held = false
    (∀ (e : WbEntry) (before after : List WbEntry), s.mem.wbuf = before ++ e :: after → eligible e →
      (∀ x ∈ before, ¬eligible x) →
      (s.mem.reads = [] → dueArbiter s = some (drained e)) ∧
      (∀ t rest, s.mem.reads = t :: rest → (8 ≤ s.mem.wbuf.length ∨ 4 ≤ s.mem.streak) →
        dueArbiter s = some (drained e)) ∧
      (∀ t rest, s.mem.reads = t :: rest → s.mem.wbuf.length < 8 → s.mem.streak < 4 →
        dueArbiter s = some (granted t rest (s.mem.streak + 1)))) ∧
    ((∀ x ∈ s.mem.wbuf, ¬eligible x) →
      (s.mem.reads = [] → dueArbiter s = none) ∧
      ∀ t rest, s.mem.reads = t :: rest → dueArbiter s = some (granted t rest 0)) ∧
    ∀ (e : WbEntry) (before after : List WbEntry), s.mem.wbuf = before ++ e :: after → e.draining = false →
      (∀ x ∈ before, x.draining = true) → dueResetDrain s = some (drained e)

/-! ### Direct accesses -/

/-- What an ATOMIC does to a line's contents (R125, R126). Word `w` is bytes `8w` to `8w + 7`. With the contents not
poisoned, FETCH_ADD adds modulo 2^64, SWAP replaces, COMPARE_SWAP replaces where the old value equals the compare
value and is else MISMATCH; the other seven words stand; the line is written when the word changed or the contents
were modified, whole and not poisoned. With poisoned contents the op is not applied, and modified contents are written
as they came. The value answered is the old word. -/
def Obligations.AtomicResults : Prop :=
  ∀ (op : AtomicOp) (w : Fin 8) (first second : Word64) (b : DataBuffer) (tr : Tracker),
    tr.kind = .atomic → tr.operands = .atomic op w first second → tr.buffer = some b → tr.scrubbing = false →
    let old := lineWord b.data w
    let new : Word64 :=
      match op with
      | .fetchAdd => old + first
      | .swap => first
      | .compareSwap => if old = first then second else old
    let status : DoneStatus := if op = .compareSwap ∧ old ≠ first then .mismatch else .ok
    (∀ i, i < 64 → old.getLsbD i = b.data.getLsbD (64 * w.val + i)) ∧
    (b.poisoned = false → atomicOutcome tr = some (status, old) ∧
      (new = old → b.modified = false → trackerWrite tr = none) ∧
      (new ≠ old ∨ b.modified = true → ∃ d, trackerWrite tr = some (d, fullMask, false) ∧
        ∀ v, lineWord d v = if v = w then new else lineWord b.data v)) ∧
    (b.poisoned = true → atomicOutcome tr = some (.poisoned, old) ∧
      trackerWrite tr = if b.modified then some (b.data, fullMask, true) else none)

/-- REPLY of a direct kind (R121 to R126): DATA_DIRECT with the contents, DONE(OK), or DONE with the status and the
old value; the tag is no longer outstanding, the tracker is free, and the pool and the write buffer stand. A DEPARTING
requester is answered like an ONLINE one; a FENCING one's response is discarded at the outbound queue, and what is
committed does not depend on the requester's port state (R119). Bound to no way it makes no commit, and with its
contents in the buffer and nothing to write a DIRECT_READ replies at once. Bound to a way it commits, under the
masking of assumption 8 and with the touch, the LOST event (cause COMMIT) and the report of a commit (R65): a
DIRECT_WRITE and an ATOMIC free the entry; a DIRECT_READ leaves a SHARED entry as stored, one reported with no holders
free, and an owner that kept a copy as a sharer. A refusal LOST, of a coherent request too, presents the stored entry
(R110, R120). -/
def Obligations.DirectReplies : Prop :=
  (∀ (t : TrackerNo) (tr : Tracker) (h : HostNo) (tag : HostTag) (s : State),
    trackerOf s t = some tr → tr.requester = some (h, tag) → boundWay s (lineSet tr.line) t = none →
    let x := reply t none s
    let answered := fun (m : HubMsg) =>
      x = freeTracker t (requestEnded h tag m s) ∧
      trackerOf x t = none ∧ (∀ u, u ≠ t → trackerOf x u = trackerOf s u) ∧
      hliOf x h = { hliOf s h with
        tags := (hliOf s h).tags.filter (· ≠ tag)
        outbound := (hliOf s h).outbound ++ (if isPlaced s h m then [m] else []) } ∧
      (∀ p, p ≠ h → hliOf x p = hliOf s p) ∧ x.dir = s.dir ∧ x.mem = s.mem ∧ x.ports = s.ports
    (∀ b, tr.kind = .directRead → tr.buffer = some b →
      answered (.dataDirect tag tr.line b.poisoned b.data) ∧
        (tr.scrubbing = false → b.modified = false → contentsReady t s = x)) ∧
    (tr.kind = .directWrite → answered (.doneReq tag .ok none)) ∧
    (∀ status value, tr.kind = .atomic → tr.result = some (status, value) →
      answered (.doneReq tag status (some value)))) ∧
  ∀ (t : TrackerNo) (tr : Tracker) (h : HostNo) (tag : HostTag) (w : WayNo) (s : State),
    let k := lineSet tr.line
    trackerOf s t = some tr → tr.requester = some (h, tag) → boundWay s k t = some w → tr.waitingRequester = none →
    let committed := fun (x : State) (e : Entry) (m : HubMsg) =>
      x = freeTracker t (reportChange k (touchWritten k w (writeEntry k w (lineTag tr.line) e .commit
        (requestEnded h tag m s)))) ∧
      trackerOf x t = none ∧ (∀ u, u ≠ t → trackerOf x u = trackerOf s u) ∧
      wayOf x k w = wayFor (wayOf s k w) (lineTag tr.line) (maskEntry s e) ∧
      (∀ j v, (j, v) ≠ (k, w) → wayOf x j v = wayOf s j v) ∧
      hliOf x h = { hliOf s h with
        tags := (hliOf s h).tags.filter (· ≠ tag)
        outbound := (hliOf s h).outbound ++ (if isPlaced s h m then [m] else []) } ∧
      (∀ p, p ≠ h → hliOf x p = hliOf s p) ∧ x.mem = s.mem
    (∀ b, tr.kind = .directRead → tr.buffer = some b →
      let data := HubMsg.dataDirect tag tr.line b.poisoned b.data
      (∀ holders, tr.reported = .shared holders →
        committed (reply t none s) (if holders = 0 then .free else tr.stored) data) ∧
      (∀ o, tr.reported = .owned o →
        committed (reply t none s) (if tr.kept = true then .shared (oneHost o) else .free) data) ∧
      (tr.reported = .free → committed (reply t none s) .free data)) ∧
    (tr.kind = .directWrite → committed (reply t none s) .free (.doneReq tag .ok none)) ∧
    (∀ status value, tr.kind = .atomic → tr.result = some (status, value) →
      committed (reply t none s) .free (.doneReq tag status (some value))) ∧
    committed (reply t (some .lost) s) tr.stored (.refuseReq tag .lost)

/-! ### The walker and the cutover -/

/-- WALKER_SET_VISIT (R144 to R151, R154) with a job whose walk goes on; an idle walker takes the job at the head. Past
set 2,047 the skipped sets are taken in the order skipped: one that has not reopened is waited for, one that has
reopened and is closed again is appended to the list once more, and one that is open is walked. A closed set reached
for the first time is skipped. The ways of an open set are dealt with in order: a DEPART or CUTOVER job goes past
every way of good parity with nobody to recall, and at the first where it has it waits while the way is bound or a
tracker is on its line, and else claims an internal tracker; a tag parity error has the set skipped and handed over, a
state parity error, handed over, is passed over on a busy way and else brings a claim for its scrub; a FORFEIT job
strikes its host from every entry that is not busy, an owner's line becoming LOST, and the ways that it frees in a set
move to the least recent end together, in ascending number (R60). At the grant a way that still is what was claimed
has a SWEEP_RECALL tracker bound to it, which sends its round or scrubs, and the walker goes on; otherwise it deals
with the way as found. A busy wait ends when the tracker on the line commits or is freed, of which the walker is told,
or when no tracker is on the line or the way is no longer VALID, the way then being examined afresh. A walker that
resumes at a way of a set closed meanwhile, or is granted its claim in one, skips the set: that it does so when it
resumes is assumption 20. The end of a DEPART or FORFEIT sweep is reported to the Port Controller once the walk is
finished and its trackers are freed. The masking is assumption 8, what the walker stands at between its visits
assumption 43, what counts as one event assumption 45, and what the walker keeps of the sets it skipped assumption
40. -/
def Obligations.WalkerVisits : Prop :=
  let passed := fun (x : Walker) =>
    if x.revisiting = true ∨ x.set = 2047 then
      { x with way := 0, wait := .visit, revisiting := true, walked := x.skipped.isEmpty }
    else { x with set := x.set + 1, way := 0, wait := .visit, walked := false }
  let skipped := fun (x : Walker) => passed { x with skipped := x.skipped ++ [x.set] }
  let line := fun (s : State) (w : WayNo) => lineOf (wayOf s s.walker.set w).tag s.walker.set
  let asked := fun (j : Job) (s : State) (w : WayNo) => checkWay (wayOf s s.walker.set w) = .good ∧
    jobRound s j (line s w) (entryOf (wayOf s s.walker.set w)) ≠ []
  let busy := fun (s : State) (w : WayNo) => (wayOf s s.walker.set w).binding ≠ none ∨
    ∃ u tr, trackerOf s u = some tr ∧ tr.line = line s w
  let clean := fun (s : State) (w : WayNo) =>
    checkWay (wayOf s s.walker.set w) = .notChecked ∨ checkWay (wayOf s s.walker.set w) = .good
  (∀ (j : Job) (s : State), s.walker.current = some j → s.resetPhase = .noReset → s.walker.draining = false →
    s.walker.walked = false → s.walker.wait = .visit →
    (s.walker.revisiting = false → isClosed s s.walker.set = true →
      exec .walkerSetVisit s = .next (settle { s with walker := skipped s.walker })) ∧
    (s.walker.revisiting = false → isClosed s s.walker.set = false →
      exec .walkerSetVisit s = .next (settle (scanWays j allWays s))) ∧
    (∀ i rest, s.walker.revisiting = true → s.walker.skipped = i :: rest →
      let forgot := { s.walker with reopened := s.walker.reopened.filter (· ≠ i) }
      (isClosed s i = true → i ∉ s.walker.reopened → exec .walkerSetVisit s = .next (settle s)) ∧
      (isClosed s i = true → i ∈ s.walker.reopened → exec .walkerSetVisit s =
        .next (settle { s with walker := { forgot with skipped := rest ++ [i] } })) ∧
      (isClosed s i = false → exec .walkerSetVisit s = .next (settle (scanWays j allWays
        { s with walker := { forgot with skipped := rest, set := i, way := 0 } }))))) ∧
  (∀ s : State, s.walker.current = none ∨ s.resetPhase ≠ .noReset ∨ s.walker.draining = true ∨ s.walker.walked = true ∨
    s.walker.wait ≠ .visit → exec .walkerSetVisit s = .next (settle s)) ∧
  (∀ (j : Job) (ways : List WayNo) (s : State), (∀ h, j ≠ .forfeit h) →
    ((∀ w ∈ ways, clean s w ∧ ¬asked j s w) → scanWays j ways s = { s with walker := passed s.walker }) ∧
    ∀ before w after, ways = before ++ w :: after → (∀ v ∈ before, clean s v ∧ ¬asked j s v) →
      (asked j s w → busy s w →
        scanWays j ways s = { s with walker := { s.walker with way := w, wait := .busy (line s w) } }) ∧
      (asked j s w → ¬busy s w → InternalClaim.walker ∉ s.trk.claims → scanWays j ways s = { s with
        walker := { s.walker with way := w, wait := .claim (line s w) false }
        trk := { s.trk with claims := s.trk.claims ++ [.walker] } }) ∧
      (checkWay (wayOf s s.walker.set w) = .tagError →
        let x := handError s.walker.set .walker s (w, .tag)
        scanWays j ways s = { x with walker := skipped x.walker }) ∧
      (checkWay (wayOf s s.walker.set w) = .stateError → ¬busy s w → InternalClaim.walker ∉ s.trk.claims →
        scanWays j ways s = { handError s.walker.set .walker s (w, .state) with
          walker := { s.walker with way := w, wait := .claim (line s w) true }
          trk := { s.trk with claims := s.trk.claims ++ [.walker] } })) ∧
  (∀ (j : Job) (w : WayNo) (after : List WayNo) (s : State),
    let k := s.walker.set
    let x := wayOf s k w
    let scanned := scanWays j (w :: after) s
    (checkWay x = .stateError → busy s w → scanned = scanWays j after (handError k .walker s (w, .state))) ∧
    ∀ h, j = .forfeit h →
      (checkWay x = .tagError →
        let y := handError k .walker s (w, .tag)
        scanned = { y with walker := skipped y.walker }) ∧
      (checkWay x = .stateError → ¬busy s w → InternalClaim.walker ∉ s.trk.claims →
        scanned = { handError k .walker s (w, .state) with
          walker := { s.walker with way := w, wait := .claim (line s w) true }
          trk := { s.trk with claims := s.trk.claims ++ [.walker] } }) ∧
      (checkWay x = .notChecked ∨ (checkWay x = .good ∧ (busy s w ∨ entryOf x = .lost ∨ entryOf x = .free)) →
        scanned = scanWays j after s) ∧
      (∀ holders, checkWay x = .good → ¬busy s w → entryOf x = .shared holders →
        let left := dropHost holders h &&& holding s
        scanned = scanWays j after (
          if hasHost holders h = false then s
          else if left = 0 then reportChange k (touchLeast k w (putFree k w s))
          else putWay k w ⟨2, x.tag, left, none, tagParityOf x.tag, stateParityOf 2 left⟩ s)) ∧
      (∀ o, checkWay x = .good → ¬busy s w → entryOf x = .owned o → isAdmitted s h = false →
        scanned = scanWays j after (if o = h then writeEntry k w x.tag (.owned h) .forfeit s else s))) ∧
  (∀ (h : HostNo) (s : State), isAdmitted s h = false → (∀ w, clean s w) →
    ∃ t, scanWays (.forfeit h) allWays s = t ∧ t.walker = passed s.walker ∧
      (∀ i v, i ≠ s.walker.set → wayOf t i v = wayOf s i v) ∧ t.hli = s.hli ∧ t.mem = s.mem ∧
      t.trk.table = s.trk.table ∧
      ((∀ w, (s.walker.set, w) ∉ s.dir.freed) →
        let freed := allWays.filter
          (fun w => (wayOf s s.walker.set w).code ≠ 0 ∧ (wayOf t s.walker.set w).code = 0)
        (setOf t s.walker.set).order = freed ++ (setOf s s.walker.set).order.filter (· ∉ freed)) ∧
      ∀ w, let x := wayOf s s.walker.set w
        ((checkWay x = .notChecked ∨ busy s w) → wayOf t s.walker.set w = x) ∧
        (∀ holders, checkWay x = .good → ¬busy s w → entryOf x = .shared holders →
          wayOf t s.walker.set w = if hasHost holders h
            then wayFor x x.tag (maskEntry s (.shared (dropHost holders h))) else x) ∧
        (∀ o, checkWay x = .good → ¬busy s w → entryOf x = .owned o →
          wayOf t s.walker.set w = if o = h
            then ⟨4, x.tag, 0, none, tagParityOf x.tag, stateParityOf 4 0⟩ else x)) ∧
  (∀ (i : TrackerNo) (j : Job) (n : LineNo) (scrub : Bool) (s : State), s.walker.current = some j →
    s.walker.wait = .claim n scrub →
    let k := s.walker.set
    let w := s.walker.way
    let x := wayOf s k w
    let still := ¬busy s w ∧ line s w = n ∧
      (scrub = true → checkWay x = .stateError) ∧ (scrub = false → asked j s w)
    let bound := { putWay k w { x with binding := some i }
        (setTracker s i (some (newTracker .sweepRecall n .tracked none .absent))) with
      walker := { s.walker with
        trackers := if i ∈ s.walker.trackers then s.walker.trackers else s.walker.trackers ++ [i] } }
    (isClosed s k = true → grantWalker i s = { s with walker := skipped s.walker }) ∧
    (isClosed s k = false → still → scrub = false → grantWalker i s = scanWays j (allWays.filter (fun v => w < v))
      (startInternal i (jobRound s j n (entryOf x)) (entryOf x) bound)) ∧
    (isClosed s k = false → still → scrub = true → grantWalker i s = scanWays j (allWays.filter (fun v => w < v))
      (startScrub i (handError k .walker bound (w, .state)))) ∧
    (isClosed s k = false → ¬still → grantWalker i s = scanWays j (allWays.filter (fun v => w ≤ v)) s)) ∧
  (∀ s : State, s.walker.current = none → (s.walker.jobs = [] → dueWalker s = none) ∧
    ∀ j rest, s.walker.jobs = j :: rest → j ≠ .cutover → dueWalker s = some { s with
      walker := ⟨rest, some j, 0, 0, .visit, false, false, false, [], [], []⟩ }) ∧
  ∀ (j : Job) (s : State), s.walker.current = some j → s.walker.draining = false →
    let again := if isClosed s s.walker.set = true then { s with walker := skipped s.walker }
      else scanWays j (allWays.filter (fun v => s.walker.way ≤ v)) s
    let held := fun (n : LineNo) => 2 ≤ (wayOf s s.walker.set s.walker.way).code.toNat ∧
      ∃ u tr, trackerOf s u = some tr ∧ tr.line = n
    (s.walker.wait = .ready → dueWalker s = some again) ∧
    (∀ n, s.walker.wait = .busy n → held n → dueWalker s = none) ∧
    (∀ n, s.walker.wait = .busy n → ¬held n → dueWalker s = some again) ∧
    (∀ n scrub, s.walker.wait = .claim n scrub → dueWalker s = none) ∧
    (s.walker.wait = .visit → s.walker.walked = false ∨ s.walker.trackers ≠ [] → dueWalker s = none) ∧
    ∀ h, j = .depart h ∨ j = .forfeit h → s.walker.wait = .visit → s.walker.walked = true → s.walker.trackers = [] →
      dueWalker s = some { s with
        walker := { s.walker with current := none }
        ports := s.ports.set h { portOf s h with
          sweepDone := decide (portState s h = .departing ∨ portState s h = .fencing) } }

/-- The steps of a cutover that the walker takes of itself (R144, R153, R155). At the taking of its job the status is
DRAINING and the dispatcher halts; with no tracker of the host pool in use the drain ends and the status is RECALLING;
when its walk is finished and its trackers are freed, the active table is the staged one, the epoch one on (65,535
going to 0), the status DONE and the lock clear, CUTOVER_DONE is latched, every ONLINE port is noticed with the new
epoch, and the halt ends. That the walker's set and way stand as they are when the job has ended is assumption 21. -/
def Obligations.CutoverSteps : Prop :=
  ∀ s : State,
    (∀ rest, s.walker.current = none → s.walker.jobs = .cutover :: rest → dueWalker s = some { s with
      walker := ⟨rest, some .cutover, 0, 0, .visit, false, false, true, [], [], []⟩
      region := { s.region with status := .draining, lock := true }
      disp := { s.disp with halted := true } }) ∧
    (s.walker.current = some .cutover → s.walker.draining = true →
      ((∃ t : TrackerNo, t.val < 56 ∧ trackerOf s t ≠ none) → dueWalker s = none) ∧
      ((∀ t : TrackerNo, t.val < 56 → trackerOf s t = none) → dueWalker s = some { s with
        walker := { s.walker with draining := false }
        region := { s.region with status := .recalling, lock := true } })) ∧
    (s.walker.current = some .cutover → s.walker.draining = false → s.walker.wait = .visit →
      (s.walker.walked = false ∨ s.walker.trackers ≠ [] → dueWalker s = none) ∧
      (s.walker.walked = true → s.walker.trackers = [] → ∃ t, dueWalker s = some t ∧
        t.region = { s.region with
          active := s.region.staged, epoch := s.region.epoch + 1, status := .done, lock := false } ∧
        t.walker = { s.walker with current := none } ∧ t.disp = { s.disp with halted := false } ∧
        t.mgmt = { s.mgmt with
          latch := s.mgmt.latch ||| 0x0040, alertLow := alertLowOf (s.mgmt.latch ||| 0x0040) s.mgmt.mask } ∧
        (∀ p, hliOf t p = { hliOf s p with
          outbound := (hliOf s p).outbound ++
            (if portState s p = .online ∧ (hliOf s p).linkUp = true
             then [.notice .cutoverDone 0 (s.region.epoch + 1)] else []) }) ∧
        { t with region := s.region, walker := s.walker, disp := s.disp, mgmt := s.mgmt, hli := s.hli } = s))

/-! ### Regions -/

/-- The access check (R50), over a table in which no line lies in two enabled regions (R43): NO_REGION where no
descriptor covers the line; else DENIED where the host's right is less than the kind needs; else MODE for a coherent
kind in a DIRECT_ONLY region; else the request goes on with the region's mode. READ_SHARED and DIRECT_READ need READ
and the other kinds that name a line need WRITE. -/
def Obligations.AccessChecked : Prop :=
  ∀ (table : Vector Descriptor 16) (h : HostNo) (kind : ReqKind) (line : LineNo), kind ≠ .fence →
    let needs : Right := if kind = .readShared ∨ kind = .directRead then .read else .write
    let less := fun (a b : Right) => (a = .noRight ∧ b ≠ .noRight) ∨ (a = .read ∧ b = .write)
    let coherent := kind = .readShared ∨ kind = .readOwn ∨ kind = .upgrade
    ((∀ d ∈ table.toList, ¬d.Covers line) → accessCheck table h kind line = .error .noRegion) ∧
    ∀ d : Fin 16, table[d].Covers line → (∀ e : Fin 16, table[e].Covers line → e = d) →
      (less table[d].rights[h] needs → accessCheck table h kind line = .error .denied) ∧
      (¬less table[d].rights[h] needs → table[d].mode = .directOnly → coherent →
        accessCheck table h kind line = .error .mode) ∧
      (¬less table[d].rights[h] needs → ¬(table[d].mode = .directOnly ∧ coherent) →
        accessCheck table h kind line = .ok table[d].mode)

/-- A table is valid exactly when every enabled descriptor has a size of at least 1 and a base plus size of at most
256 and no two cover a common line, and the offending descriptors are then none; a descriptor is one of them exactly
when it is enabled and has size 0, runs past 256, or overlaps another enabled one, each base being less than the
other's base plus size. A CUTOVER that is judged outside INIT with none pending or running tests the staged table so,
and keeps the offending descriptors in the cutover status (R44). That a descriptor of size 0 makes another offend whose
range it lies within, though it covers no line, is assumption 27. -/
def Obligations.TableValidity : Prop :=
  (∀ table : Vector Descriptor 16,
    (isValidTable table = true ↔
      (∀ d : Fin 16, table[d].enabled = true →
        1 ≤ table[d].size.toNat ∧ table[d].base.toNat + table[d].size.toNat ≤ 256) ∧
      ∀ (d e : Fin 16) (line : LineNo), table[d].Covers line → table[e].Covers line → d = e) ∧
    (isValidTable table = true ↔ offendingOf table = 0) ∧
    ∀ d : Fin 16, (offendingOf table).getLsbD d.val = true ↔
      table[d].enabled = true ∧
        (table[d].size = 0 ∨ 256 < table[d].base.toNat + table[d].size.toNat ∨
          ∃ e : Fin 16, e ≠ d ∧ table[e].enabled = true ∧
            table[d].base.toNat < table[e].base.toNat + table[e].size.toNat ∧
            table[e].base.toNat < table[d].base.toNat + table[d].size.toNat)) ∧
  ∀ s : State, atCommand s → s.mgmt.status ≠ .busy → s.hub ≠ .init →
    ¬(s.region.status = .pending ∨ s.region.status = .draining ∨ s.region.status = .recalling) →
    ∃ t, exec .cutover s = .next (settle t) ∧
      (isValidTable s.region.staged = true → t.region.status = .pending ∧ t.region.offending = 0) ∧
      (isValidTable s.region.staged = false →
        t.region.status = .failed ∧ t.region.offending = offendingOf s.region.staged)

/-! ### The management port -/

/-- What each listed address of the window reads, least significant byte of a field at its lowest address, and that
every unlisted address reads 00h (R177, R179). A clear record's fields read 00h (R186). What the rules leave open
reads a free value: the source of a read's error, an absent tag or line, the port of no job, the set of an idle slot
(assumptions 21 and 24). -/
def Obligations.WindowReads : Prop :=
  ∀ s : State,
    let reads := fun (a width v : Nat) => ∀ i, i < width → regByte s (BitVec.ofNat 16 (a + i)) = BitVec.ofNat 8 (v / 256 ^ i)
    let gap := fun (first last : Nat) => ∀ a : BitVec 16, first ≤ a.toNat → a.toNat ≤ last → regByte s a = 0
    (reads 0x0000 2 7724 ∧ reads 0x0002 1 s.hub.toCode ∧ reads 0x0003 1 s.mgmt.interface.toCode ∧ gap 0x0004 0x000F ∧
      reads 0x0010 1 s.mgmt.code.toNat ∧ reads 0x0011 1 s.mgmt.status.toCode ∧
      reads 0x0012 1 s.mgmt.portOperand.toNat ∧ reads 0x0013 3 s.mgmt.lineOperand.toNat ∧ gap 0x0016 0x001F ∧
      reads 0x0020 2 s.mgmt.latch.toNat ∧ reads 0x0022 2 s.mgmt.mask.toNat ∧ reads 0x0024 1 s.mgmt.grace.kind.toNat ∧
      reads 0x0025 1 s.mgmt.grace.tracker.toNat ∧ reads 0x0026 1 s.mgmt.grace.hosts.toNat ∧
      reads 0x0027 3 s.mgmt.grace.value.toNat ∧ gap 0x002A 0x003F) ∧
    (∀ h : HostNo, reads (0x40 + 16 * h.val) 1 (portState s h).toCode ∧ reads (0x41 + 16 * h.val) 1 (portOf s h).admission.toNat ∧
      reads (0x42 + 16 * h.val) 1 (portOf s h).reason.toCode ∧ reads (0x43 + 16 * h.val) 2 (hliOf s h).tags.length ∧
      reads (0x45 + 16 * h.val) 1 (hliOf s h).returns.length ∧ reads (0x46 + 16 * h.val) 1 (hliOf s h).laneA.length ∧
      gap (0x47 + 16 * h.val) (0x4F + 16 * h.val)) ∧
    (gap 0x0080 0x00FF ∧ reads 0x0100 2 s.mgmt.recallLimit.toNat ∧ reads 0x0102 1 s.mgmt.diagEnable.toNat ∧
      gap 0x0103 0x01FF ∧ gap 0x0280 0x02FF ∧ gap 0x0380 0x03FF) ∧
    (∀ (d : Fin 16) (active : Bool),
      let x := if active then s.region.active[d] else s.region.staged[d]
      let a := (if active then 0x300 else 0x200) + 8 * d.val
      reads a 1 x.enabled.toNat ∧ reads (a + 1) 1 x.base.toNat ∧ reads (a + 2) 2 x.size.toNat ∧
        reads (a + 4) 1 x.mode.toCode ∧ reads (a + 5) 1 (rightsByte x.rights) ∧ gap (a + 6) (a + 7)) ∧
    (reads 0x0400 1 s.region.status.toCode ∧ reads 0x0401 2 s.region.epoch.toNat ∧
      reads 0x0403 2 s.region.offending.toNat ∧ gap 0x0405 0x04FF) ∧
    ((match s.integ.record with
      | none => gap 0x0500 0x050F
      | some r => reads 0x0500 1 (1 + 2 * r.more.toNat) ∧ reads 0x0501 2 r.set.toNat ∧ reads 0x0503 1 r.way.val ∧
        reads 0x0504 1 (if r.kind = .tag then 0 else 1) ∧ reads 0x0505 1 r.reader.toCode ∧ gap 0x0506 0x050F)) ∧
    ((match s.mem.record with
      | none => gap 0x0510 0x051F
      | some r => reads 0x0510 1 (1 + 2 * r.more.toNat) ∧ reads 0x0511 3 r.line.toNat ∧
        reads 0x0514 1 (if r.access = .read then 0 else 1) ∧ reads 0x0515 1 (if r.cause = .uncorrectable then 0 else 1) ∧
        reads 0x0516 1 (match r.source with | some .ret => 0 | some .tracker => 1 | none => Config.readErrorSource.toNat) ∧
        gap 0x0517 0x051F)) ∧
    ((match s.mgmt.proto with
      | none => gap 0x0520 0x052F
      | some r => reads 0x0520 1 (1 + 2 * r.more.toNat + 4 * r.tag.isSome.toNat + 8 * r.line.isSome.toNat) ∧
        reads 0x0521 1 r.port.val ∧ reads 0x0522 1 r.kind.toNat ∧ reads 0x0523 1 r.cause.toCode ∧
        reads 0x0524 1 (match r.tag with | some tag => tag.toNat | none => Config.absentTag.toNat) ∧
        reads 0x0525 3 (match r.line with | some n => n.toNat | none => Config.absentLine.toNat) ∧ gap 0x0528 0x052F)) ∧
    ((match s.dir.lostRecord with
      | none => gap 0x0530 0x0535
      | some r => reads 0x0530 1 1 ∧ reads 0x0531 3 r.line.toNat ∧ reads 0x0534 1 r.owner.val ∧
        reads 0x0535 1 (if r.cause = .commit then 0 else 1)) ∧
      reads 0x0536 2 s.dir.lostCount ∧ gap 0x0538 0x05FF) ∧
    (let d := s.mgmt.diag
     reads 0x0600 2 d.set.toNat ∧ reads 0x0602 1 d.way.toNat ∧ reads 0x0603 1 d.code.toNat ∧
      reads 0x0604 2 d.tag.toNat ∧ reads 0x0606 1 d.holders.toNat ∧
      reads 0x0607 1 (match d.binding with | some t => t.val | none => 0xFF) ∧ reads 0x0608 1 d.tagParity.toNat ∧
      reads 0x0609 1 d.stateParity.toNat ∧ reads 0x060A 1 d.outcome.toCode ∧ gap 0x060B 0x06FF) ∧
    (let used := fun (pool : List TrackerNo) => (pool.filter (fun t => (trackerOf s t).isSome)).length
     reads 0x0700 1 (used hostPool) ∧ reads 0x0701 1 (used internalPool) ∧ reads 0x0702 1 s.disp.park.length ∧
      reads 0x0703 1 s.trk.claims.length ∧ reads 0x0704 1 s.mem.wbuf.length ∧ reads 0x0705 1 s.mem.claims.length ∧
      reads 0x0706 1 (jobCode s.walker.current) ∧ reads 0x0707 1 (jobPort s.walker.current) ∧
      reads 0x0708 2 s.walker.set.toNat ∧ reads 0x070A 1 s.walker.jobs.length ∧
      reads 0x070B 2 s.walker.skipped.length ∧ reads 0x070D 1 s.integ.phase.toCode ∧
      reads 0x070E 2 (if s.integ.phase = .idle then Config.noPurgeSet.toNat else s.integ.set.toNat) ∧
      reads 0x0710 2 s.integ.purgeList.length ∧ gap 0x0712 0xFFFF)

/-- INTERFACE_LOCK, the first byte of a frame or transaction, INDEX_LOAD and REGISTER_READ. The first recognised event
locks the interface, a first byte of 3Ah or 3Bh or an address byte of 1011 0 A1 A0, and none after it does; it is also
carried out (R174). On the interface in use 3Ah begins a write, 3Bh a read, and a frame with any other first byte is
ignored to its end, MDO at 00h (R175); an address byte is acknowledged exactly if it names the hub, and then its low bit
selects read or write; another's transaction is ignored to its end (R176). The other interface is ignored (R174). Where
index bytes come next, the first is the high one. In a read the byte at the index is shown and the index goes one up,
and on I2C a byte that the master does not acknowledge is its last (R176); a field of two or three bytes, read from its
lowest on in one frame or transaction, is read whole, as it stood when its lowest was read (R177). A data byte or a
command counts only in a write whose index is loaded. A byte that no frame or transaction calls for is no event
(assumption 1); when a captured field is dropped is assumption 32. -/
def Obligations.ManagementReads : Prop :=
  ∀ s : State,
    let m := s.mgmt
    let names := fun (address : Byte) => address >>> 1 = 0x58 ||| m.maddr.setWidth 8
    let begun := fun (c : Instr) (x : Transfer) (n : Mgmt) =>
      exec c s = .next { s with mgmt := { n with transfer := x, capture := none } }
    let frame := fun (first : Byte) (n : Mgmt) =>
      (first = 0x3A → begun (.interfaceLock (.fourWire first)) (.index false) n) ∧
      (first = 0x3B → begun (.interfaceLock (.fourWire first)) (.index true) n)
    let transaction := fun (address : Byte) (n : Mgmt) => names address →
      begun (.interfaceLock (.i2c address)) (if address.getLsbD 0 then .read else .index false)
        { n with sdaAck := some true }
    let shown := fun (b : Byte) (t : State) =>
      (m.interface = .fourWire → t.mgmt.mdo = some b) ∧ (m.interface = .i2c → t.mgmt.sdaData = some b)
    let loaded := fun (x : Transfer) => ∀ b : IndexBytes, exec (.indexLoad b) s = .next { s with mgmt := { m with
      transfer := x
      index := b.first ++ b.second
      capture := none
      mdo := if m.interface = .fourWire then some 0 else m.mdo
      sdaAck := if m.interface = .i2c then some true else m.sdaAck } }
    (m.interface = .undetermined → ∀ byte,
      frame byte { m with interface := .fourWire } ∧ transaction byte { m with interface := .i2c } ∧
      (byte ≠ 0x3A → byte ≠ 0x3B → exec (.interfaceLock (.fourWire byte)) s = .next s) ∧
      (¬names byte → exec (.interfaceLock (.i2c byte)) s = .next s)) ∧
    (m.interface = .fourWire → ∀ byte,
      frame byte { m with mdo := some 0 } ∧ exec (.interfaceLock (.i2c byte)) s = .next s ∧
      (byte ≠ 0x3A → byte ≠ 0x3B → begun (.interfaceLock (.fourWire byte)) .ignored { m with mdo := some 0 })) ∧
    (m.interface = .i2c → ∀ byte,
      transaction byte m ∧ exec (.interfaceLock (.fourWire byte)) s = .next s ∧
      (¬names byte → begun (.interfaceLock (.i2c byte)) .ignored { m with sdaAck := some false })) ∧
    (m.interface ≠ .undetermined → m.transfer = .index false → loaded .write) ∧
    (m.interface ≠ .undetermined → m.transfer = .index true → loaded .read) ∧
    (¬(m.interface ≠ .undetermined ∧ ∃ reads, m.transfer = .index reads) →
      ∀ b, exec (.indexLoad b) s = .next s) ∧
    (¬(m.interface ≠ .undetermined ∧ m.transfer = .read) →
      ∀ acknowledged, exec (.registerRead acknowledged) s = .next s) ∧
    (¬inWrite s → (∀ b, exec (.registerWrite b) s = .next s ∧ exec (.stagedTableWrite b) s = .next s ∧
        exec (.alertLatchClear b) s = .next s ∧ exec (.alertMaskWrite b) s = .next s ∧
        exec (.recordClear b) s = .next s ∧ exec (.invalidCommand b) s = .next s) ∧
      ∀ c code, commandCode c = some code → exec c s =
        .next (if c ∈ [.releaseCommand, .maintEnter, .maintExit, .poolClear] then s else settle s)) ∧
    (m.interface ≠ .undetermined → m.transfer = .read → (∀ c, m.capture = some c → c.next ≠ m.index) →
      let last := fun (acknowledged : Bool) => m.interface = .i2c ∧ acknowledged = false
      ∀ i, ∃ t, exec (.registerRead i) s = .next t ∧ shown (regByte s m.index) t ∧
        t.mgmt.index = m.index + 1 ∧ t.mgmt.transfer = (if last i then .noTransfer else .read) ∧
        { t with mgmt := { t.mgmt with transfer := m.transfer
                                       index := m.index
                                       capture := m.capture
                                       mdo := m.mdo
                                       sdaData := m.sdaData } } = s ∧
        ∀ r, rowAt m.index = some r → r.start = m.index.toNat → (r.width = 2 ∨ r.width = 3) → ¬last i →
          ∀ j u, u.mgmt = t.mgmt → ∃ v, exec (.registerRead j) u = .next v ∧
            shown (BitVec.ofNat 8 (fieldValue s r.field / 256)) v ∧ v.mgmt.index = m.index + 2 ∧
            (r.width = 3 → ¬last j → ∀ k x, x.mgmt = v.mgmt → ∃ y, exec (.registerRead k) x = .next y ∧
              shown (BitVec.ofNat 8 (fieldValue s r.field / 65536)) y ∧ y.mgmt.index = m.index + 3))

/-- REGISTER_WRITE (R177, R178, R179), in a write whose index is loaded. A byte of the port operand, of ADMIT, of
DIAG_ENABLE and of the one-byte diagnostic fields is stored if it is one of the field's values; the lower bytes of the
line operand, the recall limit and the diagnostic set and tag are held, and the highest assembles the field from
itself and from the held or current lower bytes, which is stored if it is one of the field's values, the held bytes
going in either case; a value refused stores nothing and latches MGMT_REFUSED. A byte to a read-only or unlisted
address is ignored. -/
def Obligations.RegisterWrites : Prop :=
  ∀ (b : Byte) (s : State), inWrite s →
    let a := s.mgmt.index.toNat
    let m := s.mgmt
    let old := regByte s s.mgmt.index
    let stored := fun (x : Mgmt) => exec (.registerWrite b) s = .next { s with mgmt := wrote old false x }
    let turned := fun (x : Mgmt) => exec (.registerWrite b) s = .next { s with mgmt := wrote old true (refusalLatched x) }
    let judged := fun (good : Prop) (x y : Mgmt) => (good → stored x) ∧ (¬good → turned y)
    let two := fun (held : Option Byte) (v : BitVec 16) => b ++ (held.getD (v.setWidth 8))
    let d := m.diag
    ((a < 0x10 ∨ a = 0x11 ∨ (0x16 ≤ a ∧ a < 0x20) ∨ (0x24 ≤ a ∧ a < 0x100 ∧ ¬(0x40 ≤ a ∧ a < 0x80 ∧ a % 16 = 1)) ∨
      (0x103 ≤ a ∧ a < 0x200) ∨ (0x200 ≤ a ∧ a < 0x280 ∧ 6 ≤ a % 8) ∨ (0x280 ≤ a ∧ a < 0x50F) ∨
      (0x510 ≤ a ∧ a < 0x51F) ∨ (0x520 ≤ a ∧ a < 0x52F) ∨ (0x530 ≤ a ∧ a < 0x53F) ∨ (0x540 ≤ a ∧ a < 0x600) ∨
      a = 0x607 ∨ 0x60A ≤ a) → stored m) ∧
    (a = 0x12 → stored { m with portOperand := b }) ∧
    (∀ h : HostNo, a = 0x41 + 16 * h.val →
      ((b = 0 ∨ b = 1) → ∃ t, exec (.registerWrite b) s = .next t ∧
        portOf t h = { portOf s h with admission := decide (b = 1) } ∧ (∀ p, p ≠ h → portOf t p = portOf s p) ∧
        t.mgmt = wrote old false m ∧ { t with ports := s.ports, mgmt := m } = s) ∧
      (¬(b = 0 ∨ b = 1) → turned m)) ∧
    (a = 0x13 → stored { m with heldLine0 := some b }) ∧ (a = 0x14 → stored { m with heldLine1 := some b }) ∧
    (a = 0x15 → stored { m with
      heldLine0 := none
      heldLine1 := none
      lineOperand := b ++ (m.heldLine1.getD (m.lineOperand.extractLsb' 8 8) ++
        m.heldLine0.getD (m.lineOperand.extractLsb' 0 8)) }) ∧
    (a = 0x100 → stored { m with heldRecall := some b }) ∧
    (a = 0x101 → judged (10 ≤ (two m.heldRecall m.recallLimit).toNat)
      { m with heldRecall := none, recallLimit := two m.heldRecall m.recallLimit } { m with heldRecall := none }) ∧
    (a = 0x102 → judged (b = 0 ∨ b = 1) { m with diagEnable := decide (b = 1) } m) ∧
    (a = 0x600 → stored { m with heldDiagSet := some b }) ∧
    (a = 0x601 → stored { m with heldDiagSet := none, diag := { d with set := two m.heldDiagSet d.set } }) ∧
    (a = 0x602 → stored { m with diag := { d with way := b } }) ∧
    (a = 0x603 → judged (b.toNat ≤ 7) { m with diag := { d with code := b.setWidth 3 } } m) ∧
    (a = 0x604 → stored { m with heldDiagTag := some b }) ∧
    (a = 0x605 → judged ((two m.heldDiagTag (d.tag.setWidth 16)).toNat ≤ 2047)
      { m with heldDiagTag := none, diag := { d with tag := (two m.heldDiagTag (d.tag.setWidth 16)).setWidth 11 } }
      { m with heldDiagTag := none }) ∧
    (a = 0x606 → judged (b.toNat ≤ 15) { m with diag := { d with holders := b.setWidth 4 } } m) ∧
    (a = 0x608 → judged (b = 0 ∨ b = 1) { m with diag := { d with tagParity := decide (b = 1) } } m) ∧
    (a = 0x609 → judged (b = 0 ∨ b = 1) { m with diag := { d with stateParity := decide (b = 1) } } m)

/-- STAGED_TABLE_WRITE (R42, R47), in a write, the index at byte `i` of staged descriptor `d`. Under the
cutover lock every write is refused: nothing is stored and MGMT_REFUSED is latched. Otherwise a code of the field is
stored, any base, and any size once its higher byte is written; an enabled value or mode other than 0 and 1, and a
rights byte with 3 for any host, are refused. -/
def Obligations.StagedWrites : Prop :=
  ∀ (b : Byte) (d : Fin 16) (i : Nat) (s : State), inWrite s →
    s.mgmt.index.toNat = 0x200 + 8 * d.val + i →
    let m := s.mgmt
    let x := s.region.staged[d]
    let old := regByte s s.mgmt.index
    let c : Instr := .stagedTableWrite b
    let stored := fun (y : Descriptor) (n : Mgmt) => exec c s = .next { s with
      region := { s.region with staged := s.region.staged.set d y }, mgmt := wrote old false n }
    let refused := exec c s = .next { s with mgmt := wrote old true (refusalLatched m) }
    (s.region.lock = true → i < 6 → refused) ∧
    (s.region.lock = false →
      (i = 0 → (b = 0 ∨ b = 1) → stored { x with enabled := decide (b = 1) } m) ∧
      (i = 0 → ¬(b = 0 ∨ b = 1) → refused) ∧
      (i = 1 → stored { x with base := b } m) ∧
      (i = 2 → exec c s = .next { s with
        mgmt := wrote old false { m with heldSize := m.heldSize.set d (some b) } }) ∧
      (i = 3 → stored { x with size := b ++ (m.heldSize[d].getD (x.size.setWidth 8)) }
        { m with heldSize := m.heldSize.set d none }) ∧
      (i = 4 → b = 0 → stored { x with mode := .tracked } m) ∧
      (i = 4 → b = 1 → stored { x with mode := .directOnly } m) ∧
      (i = 4 → ¬(b = 0 ∨ b = 1) → refused) ∧
      (i = 5 → (∀ h : HostNo, b.toNat / 4 ^ h.val % 4 ≠ 3) →
        ∃ r, (∀ h : HostNo, (r[h] : Right).toCode = b.toNat / 4 ^ h.val % 4) ∧ stored { x with rights := r } m) ∧
      (i = 5 → (∃ h : HostNo, b.toNat / 4 ^ h.val % 4 = 3) → refused))

/-- ALERT_LATCH_CLEAR, ALERT_MASK_WRITE and RECORD_CLEAR (R183, R184, R186), in a write. A byte of the latch
loses the bits written as one; a byte of the mask is as written; ALERT_N is low exactly while an event is latched and
not masked. A clear byte written with bit 0 set clears its record and nothing else, and with bit 0 clear does nothing.
All sixteen bits of the mask are kept (assumption 31). -/
def Obligations.AlertAndRecordWrites : Prop :=
  (∀ l k : BitVec 16, alertLowOf l k = true ↔ ∃ i, i < 16 ∧ l.getLsbD i = true ∧ k.getLsbD i = false) ∧
  ∀ (b : Byte) (s : State), inWrite s →
    let m := s.mgmt
    let old := regByte s s.mgmt.index
    let high := m.latch.extractLsb' 8 8
    let low := m.latch.extractLsb' 0 8
    let alerts := fun (l k : BitVec 16) => wrote old false { m with latch := l, mask := k, alertLow := alertLowOf l k }
    (m.index = 0x0020 → exec (.alertLatchClear b) s = .next { s with mgmt := alerts (high ++ (low &&& ~~~b)) m.mask }) ∧
    (m.index = 0x0021 → exec (.alertLatchClear b) s = .next { s with mgmt := alerts ((high &&& ~~~b) ++ low) m.mask }) ∧
    (m.index = 0x0022 → exec (.alertMaskWrite b) s =
      .next { s with mgmt := alerts m.latch (m.mask.extractLsb' 8 8 ++ b) }) ∧
    (m.index = 0x0023 → exec (.alertMaskWrite b) s =
      .next { s with mgmt := alerts m.latch (b ++ m.mask.extractLsb' 0 8) }) ∧
    (m.index ∈ [0x050F, 0x051F, 0x052F, 0x053F] → b.getLsbD 0 = false → exec (.recordClear b) s =
      .next { s with mgmt := wrote 0 false m }) ∧
    (b.getLsbD 0 = true →
      (m.index = 0x050F → exec (.recordClear b) s =
        .next { s with integ := { s.integ with record := none }, mgmt := wrote 0 false m }) ∧
      (m.index = 0x051F → exec (.recordClear b) s =
        .next { s with mem := { s.mem with record := none }, mgmt := wrote 0 false m }) ∧
      (m.index = 0x052F → exec (.recordClear b) s = .next { s with mgmt := wrote 0 false { m with proto := none } }) ∧
      (m.index = 0x053F → exec (.recordClear b) s =
        .next { s with dir := { s.dir with lostRecord := none }, mgmt := wrote 0 false m }))

/-! ### Commands -/

/-- How commands are judged (R180, R181), and CUTOVER (R152), the index at 0010h. One issued while another is in
progress is refused without effect: MGMT_REFUSED is latched and the code and the status stand. A code not listed is
refused. CUTOVER is refused in INIT and while one is pending or running; refused with FAILED, the offending
descriptors and CUTOVER_FAIL for a staged table that is not valid; and else accepted: DONE, PENDING with the lock, no
offending descriptors, no held size bytes, and the job at the walk list's tail. -/
def Obligations.CommandsJudged : Prop :=
  ∀ s : State, atCommand s →
    let turned : State := { s with mgmt := wrote s.mgmt.code true (refusalLatched s.mgmt) }
    (s.mgmt.status = .busy → ∀ c code, commandCode c = some code → exec c s =
      .next (if c ∈ [.releaseCommand, .maintEnter, .maintExit, .poolClear] then turned else settle turned)) ∧
    (∀ code, isListedCommand code = false →
      (s.mgmt.status = .busy → exec (.invalidCommand code) s = .next turned) ∧
      (s.mgmt.status ≠ .busy → exec (.invalidCommand code) s = .next (commandRefused code s s))) ∧
    (s.mgmt.status ≠ .busy →
      let running := s.region.status = .pending ∨ s.region.status = .draining ∨ s.region.status = .recalling
      (s.hub = .init ∨ running → exec .cutover s = .next (settle (commandRefused 0x01 s s))) ∧
      (s.hub ≠ .init → ¬running → isValidTable s.region.staged = false →
        exec .cutover s = .next (settle (commandRefused 0x01 s { s with
          region := { s.region with status := .failed, lock := false, offending := offendingOf s.region.staged }
          mgmt := { s.mgmt with
            latch := s.mgmt.latch ||| 0x0080
            alertLow := alertLowOf (s.mgmt.latch ||| 0x0080) s.mgmt.mask } }))) ∧
      (s.hub ≠ .init → ¬running → isValidTable s.region.staged = true →
        exec .cutover s = .next (settle (commandTaken 0x01 .done s { s with
          region := { s.region with status := .pending, lock := true, offending := 0 }
          mgmt := { s.mgmt with heldSize := Vector.replicate 16 none }
          walker := { s.walker with jobs := s.walker.jobs ++ [.cutover] } }))))

/-- FENCE and RELEASE (R37, R38), MAINT_ENTER and MAINT_EXIT (R190), POOL_CLEAR and its end (R191), the index at 0010h
and no command in progress. FENCE fences the port named if it is ONLINE or DEPARTING, RELEASE makes a FENCED one
OFFLINE outside INIT, and either is refused otherwise, a port operand above 3 included. MAINT_ENTER takes RUN to MAINT
with every port OFFLINE or FENCED, MAINT_EXIT takes MAINT to RUN, POOL_CLEAR begins in MAINT: it discards the entries
that are not draining and rewrites the pool to GOOD zeros once the port is free; that the lines read so from the start
of the rewrite is assumption 4. At its end the port is free and the command DONE; with none writing there is no such
end (assumption 1). -/
def Obligations.PortAndMaintenanceCommands : Prop :=
  (∀ s : State, atCommand s → s.mgmt.status ≠ .busy →
    (∀ h : HostNo, s.mgmt.portOperand.toNat = h.val →
      (isAdmitted s h = true → exec .fenceCommand s =
        .next (settle (commandTaken 0x02 .done s (startFence h .command s)))) ∧
      (isAdmitted s h = false → exec .fenceCommand s = .next (settle (commandRefused 0x02 s s))) ∧
      (portState s h = .fenced → s.hub ≠ .init → exec .releaseCommand s =
        .next (commandTaken 0x03 .done s { s with
          ports := s.ports.set h { portOf s h with state := .offline, sweepDone := false }
          mgmt := { s.mgmt with
            latch := s.mgmt.latch ||| 0x0001, alertLow := alertLowOf (s.mgmt.latch ||| 0x0001) s.mgmt.mask } })) ∧
      (¬(portState s h = .fenced ∧ s.hub ≠ .init) → exec .releaseCommand s = .next (commandRefused 0x03 s s))) ∧
    (4 ≤ s.mgmt.portOperand.toNat → exec .fenceCommand s = .next (settle (commandRefused 0x02 s s)) ∧
      exec .releaseCommand s = .next (commandRefused 0x03 s s)) ∧
    (let quiet := s.hub = .run ∧ ∀ h, portState s h = .offline ∨ portState s h = .fenced
     (quiet → exec .maintEnter s = .next (commandTaken 0x08 .done s { s with hub := .maint })) ∧
      (¬quiet → exec .maintEnter s = .next (commandRefused 0x08 s s))) ∧
    (s.hub = .maint → exec .maintExit s = .next (commandTaken 0x09 .done s { s with hub := .run })) ∧
    (s.hub ≠ .maint → exec .maintExit s = .next (commandRefused 0x09 s s)) ∧
    (s.hub = .maint → ∃ t, exec .poolClear s = .next (commandTaken 0x0A .busy s t) ∧
      t.mem.clearing = true ∧ t.mem.wbuf = s.mem.wbuf.filter (fun e => e.draining) ∧ t.mem.claims = s.mem.claims ∧
      t.mem.reads = s.mem.reads ∧ t.mem.record = s.mem.record ∧ { t with mem := s.mem } = s ∧
      (s.mem.port = .idle → t.mem.port = .rewrite ∧
        ∀ n, poolLine t.mem n = 0 ∧ condOf t.mem n = ⟨false, none⟩) ∧
      (s.mem.port ≠ .idle → t.mem.port = s.mem.port ∧ t.mem.pool = s.mem.pool ∧ t.mem.conds = s.mem.conds)) ∧
    (s.hub ≠ .maint → exec .poolClear s = .next (commandRefused 0x0A s s))) ∧
  ∀ s : State,
    (s.mem.clearing = true → s.mem.port = .rewrite → exec .poolClearEnd s = .next (settle { s with
      mem := { s.mem with clearing := false, port := .idle }, mgmt := { s.mgmt with status := .done } })) ∧
    (¬(s.mem.clearing = true ∧ s.mem.port = .rewrite) → exec .poolClearEnd s = .next (settle s))

/-- HUB_RESET (R23, R39, R142, R182), the index at 0010h and no command in progress: refused in INIT. Otherwise it is
BUSY; every intake stops, each ONLINE port's outbound queue holds NOTICE(HUB_RESET) alone, the waiting reads are
dropped and the holds they had set removed, but for that of the read that holds the port. With the buffer empty and
the port idle the trackers, queues, lists and ways go, every port is OFFLINE, a cutover is abandoned, and settings,
tables, epoch, records and pool stand. Each link goes down once its notice is gone, and one that has gone down of itself
since the reset began is left as it stands. With the last one done the latch is RESET_DONE alone, and the command DONE.
What goes on while it drains is assumption 14, when a hold goes assumption 38, and when a link needs no taking down
assumption 36. -/
def Obligations.HubResetSteps : Prop :=
  (∀ s : State, atCommand s → s.mgmt.status ≠ .busy →
    (s.hub = .init → exec .hubReset s = .next (settle (commandRefused 0x04 s s))) ∧
    (s.hub ≠ .init → ∃ t, exec .hubReset s = .next (settle (commandTaken 0x04 .busy s t)) ∧ t.resetPhase = .drain ∧
      (∀ h, portState s h = .online → hliOf t h = { hliOf s h with
        intakeStopped := true
        linkFell := false
        outbound := if (hliOf s h).linkUp then [.notice .hubReset 0 s.region.epoch] else [] }) ∧
      (∀ h, portState s h ≠ .online → hliOf t h = { hliOf s h with intakeStopped := true, linkFell := false }) ∧
      t.mem.reads = [] ∧ (∀ u tr, s.mem.port = .read u → trackerOf s u = some tr → t.mem.wbuf =
        s.mem.wbuf.map (fun e => { e with held := e.held && decide (e.line = tr.line) })) ∧
      ((∀ u, s.mem.port ≠ .read u) → t.mem.wbuf = s.mem.wbuf.map (fun e => { e with held := false })) ∧
      { t with resetPhase := s.resetPhase, hli := s.hli, mem := { t.mem with reads := s.mem.reads, wbuf := s.mem.wbuf } } = s)) ∧
  (∀ s : State, (s.mem.wbuf ≠ [] ∨ s.mem.port ≠ .idle → dueResetEnd s = none) ∧
    (s.mem.wbuf = [] → s.mem.port = .idle → ∃ t, dueResetEnd s = some t ∧ t.resetPhase = .links ∧
      t.trk = ⟨Vector.replicate 64 none, [], [], [], []⟩ ∧ t.disp = ⟨[], Vector.replicate 4 none, 0, false, 0⟩ ∧
      t.mem = { s.mem with claims := [], reads := [], streak := 0 } ∧
      (∀ h, portOf t h = { portOf s h with state := .offline, sweepDone := false }) ∧
      (∀ h, hliOf t h = { hliOf s h with
        laneA := [], stalled := false, laneB := [], answered := [], purgeAnswer := false, controlPending := false,
        tags := [], returns := [],
        outbound := (hliOf s h).outbound.filter
          (fun m => match m with | .notice .hubReset _ _ => true | _ => false) }) ∧
      (∀ k w, isFreed (wayOf t k w)) ∧ (∀ k, (setOf t k).order = [0, 1, 2, 3, 4, 5, 6, 7]) ∧ t.dir.lostCount = 0 ∧
      t.dir.lostRecord = s.dir.lostRecord ∧ t.dir.freed = [] ∧
      t.walker = ⟨[], none, 0, 0, .visit, false, false, false, [], [], []⟩ ∧
      t.integ = ⟨[], .idle, 0, [], none, false, s.integ.record⟩ ∧
      t.region = { s.region with
        status := if s.region.status = .pending ∨ s.region.status = .draining ∨ s.region.status = .recalling
          then .abandoned else s.region.status
        lock := false } ∧ t.mgmt = s.mgmt ∧ t.hub = s.hub ∧ t.pending = s.pending)) ∧
  ∀ s : State,
    let gone := fun (h : HostNo) =>
      (hliOf s h).linkFell = true ∨ (hliOf s h).linkUp = false ∨ (hliOf s h).outbound = []
    (∀ h, (hliOf s h).intakeStopped = true → gone h →
      (∀ p, p < h → (hliOf s p).intakeStopped = true → ¬gone p) → ∃ t, dueLinks s = some t ∧
        ((hliOf s h).linkFell = true → hliOf t h = { hliOf s h with intakeStopped := false, linkFell := false }) ∧
        ((hliOf s h).linkFell = false → hliOf t h = { hliOf s h with
          linkUp := false, intakeStopped := false, outbound := [], laneB := [], controlPending := false }) ∧
        (∀ p, p ≠ h → hliOf t p = hliOf s p) ∧ { t with hli := s.hli } = s) ∧
    ((∀ h, (hliOf s h).intakeStopped = true → ¬gone h) → (∃ h, (hliOf s h).intakeStopped = true) →
      dueLinks s = none) ∧
    ((∀ h, (hliOf s h).intakeStopped = false) → dueLinks s = some { s with
      resetPhase := .noReset
      mgmt := { s.mgmt with latch := 0x0800, alertLow := alertLowOf 0x0800 s.mgmt.mask, status := .done } })

/-- CLEAR_LOST (R72), the index at 0010h and no command in progress: refused for a line number above 4,194,303 and in a
closed set. In an open set the errors of the read are handed over, a state parity error of another line's way being
recorded and passed over (R159, R163), and an unbound LOST way of the line in good parity becomes FREE and least recent,
with any that the event has freed before (R60), the LOST count falls by one, the change is reported and the status is
DONE; no matching way, and one not LOST, bound or with a state parity error, are refused, and no entry is changed then
but what a tag parity error's closing changes. The parity bits of a FREE way are left open (assumption 41), the first
of several matching ways is assumption 18, and what counts as one event assumption 45. -/
def Obligations.ClearLostJudged : Prop :=
  ∀ (line : LineNo) (s : State), atCommand s → s.mgmt.status ≠ .busy →
    let k := lineSet line
    let read := handErrors k allWays .command s
    let refused := fun (t : State) => exec .clearLost s = .next (settle (commandRefused 0x05 s t))
    let holds := fun (v : WayNo) => (checkWay (wayOf s k v) = .good ∨ checkWay (wayOf s k v) = .stateError) ∧
      (wayOf s k v).tag = lineTag line
    (4194303 < s.mgmt.lineOperand.toNat → refused s) ∧
    (s.mgmt.lineOperand.toNat = line.toNat →
      (isClosed s k = true → refused s) ∧
      (isClosed s k = false →
        ((∀ v, checkWay (wayOf s k v) ≠ .tagError) → read.dir = s.dir) ∧
        ((∀ v, ¬holds v) → refused read) ∧
        ∀ w, holds w → (∀ v, v < w → ¬holds v) →
          let x := wayOf s k w
          let t := touchLeast k w (putFree k w read)
          (checkWay x = .good → x.code = 4 → x.binding = none →
            exec .clearLost s = .next (settle (commandTaken 0x05 .done s (reportChange k t))) ∧
            ((∀ v, checkWay (wayOf s k v) ≠ .tagError) →
              isFreed (wayOf t k w) ∧ (∀ i v, (i, v) ≠ (k, w) → wayOf t i v = wayOf s i v) ∧
              (let together := allWays.filter (fun v => v = w ∨ (k, v) ∈ s.dir.freed)
               (setOf t k).order = together ++ (setOf s k).order.filter (· ∉ together)) ∧
              (∀ i, i ≠ k → (setOf t i).order = (setOf s i).order) ∧ t.dir.freed = s.dir.freed ++ [(k, w)] ∧
              t.dir.lostCount = s.dir.lostCount - 1 ∧ t.dir.lostRecord = s.dir.lostRecord ∧
              { t with dir := s.dir } = read)) ∧
          (checkWay x = .stateError ∨ x.code ≠ 4 ∨ x.binding ≠ none → refused read)))

/-- DIAG_READ and DIAG_WRITE (R171, R172), the index at 0010h and no command in progress. Both are refused with
DIAG_ENABLE clear or a set or way out of range. A read of a way in good parity copies it into the window with its
outcome, and an error it finds is handed over. A write is refused for a bound, RESERVED or closed-set way, and for
code 1, a line a tracker is on, a tag another way of the set stores, holders that break R56 or name a host not ONLINE,
or, while RECALLING, one the cutover would recall; code 0 frees the way; any other is stored exactly as given. Codes 5
to 7 always read as an error (assumption 26); the parity bits of a FREE way are left open (assumption 41). -/
def Obligations.DiagnosticCommands : Prop :=
  ∀ s : State, atCommand s → s.mgmt.status ≠ .busy →
    let d := s.mgmt.diag
    (s.mgmt.diagEnable = false ∨ 2047 < d.set.toNat ∨ 7 < d.way.toNat →
      exec .diagRead s = .next (settle (commandRefused 0x06 s s)) ∧
      exec .diagWrite s = .next (settle (commandRefused 0x07 s s))) ∧
    ∀ (k : SetNo) (w : WayNo), s.mgmt.diagEnable = true → d.set.toNat = k.toNat → d.way.toNat = w.val →
      let x := wayOf s k w
      let shown : State := { s with mgmt := { s.mgmt with diag := ⟨d.set, d.way, x.code, x.tag, x.holders, x.binding,
        x.tagParity, x.stateParity, checkWay x⟩ } }
      let read := fun (t : State) => exec .diagRead s = .next (settle (commandTaken 0x06 .done s t))
      let given : Way := ⟨d.code, d.tag, d.holders, none, d.tagParity, d.stateParity⟩
      let line := lineOf d.tag k
      let owned := x.binding ≠ none ∨ x.code = 1 ∨ isClosed s k = true
      let breaksR56 := (d.code = 2 ∧ d.holders = 0) ∨ (d.code = 3 ∧ ∀ h, d.holders ≠ oneHost h) ∨
        (d.code = 4 ∧ d.holders ≠ 0)
      let bad := d.code = 1 ∨ (∃ u tr, trackerOf s u = some tr ∧ tr.line = line) ∨
        (∃ v, v ≠ w ∧ (wayOf s k v).code ≠ 0 ∧ (wayOf s k v).tag = d.tag) ∨ breaksR56 ∨
        ((d.code = 2 ∨ d.code = 3) ∧ ∃ h, d.holders.getLsbD h.val = true ∧
          (portState s h ≠ .online ∨ (s.region.status = .recalling ∧
            recallUnder s.region.staged line (decide (d.code = 3)) h ≠ none)))
      (checkWay x = .notChecked ∨ checkWay x = .good → read shown) ∧
      (checkWay x = .tagError → read (handError k .diag shown (w, .tag))) ∧
      (checkWay x = .stateError → read (handError k .diag shown (w, .state))) ∧
      (owned → exec .diagWrite s = .next (settle (commandRefused 0x07 s s))) ∧
      (¬owned → d.code = 0 → exec .diagWrite s = .next (settle (commandTaken 0x07 .done s
        (if 2 ≤ x.code.toNat then reportChange k (touchLeast k w (putFree k w s))
         else putFree k w s)))) ∧
      (¬owned → d.code ≠ 0 → bad → exec .diagWrite s = .next (settle (commandRefused 0x07 s s))) ∧
      (¬owned → d.code ≠ 0 → ¬bad →
        exec .diagWrite s = .next (settle (commandTaken 0x07 .done s (putWay k w given s))))

/-! ### The wire and the invariants -/

/-- Every well-formed arrival is the command that the bytes it is sent as spell on its lane (R4, R5, R6): no field of a
message is lost on the wire. -/
def Obligations.WireRoundTrip : Prop :=
  ∀ (c : Instr) (h : HostNo) (lane : Lane) (bytes : List Byte), c.wf = true → hostOfArrival c = some h →
    encodeArrival c = some (lane, bytes) → arrivalOf h lane bytes = some c

/-- Every step keeps the hub sound: ALERT_N follows the latch and the mask (R184), the lock the cutover status (R47),
the recall limit is legal (R179); the LOST count counts the LOST ways (R69) and every touch order holds its eight ways
once (R60); the pool keeps its canonical form and the write buffer its bounds (R135); no two trackers are on one line
(R75), the park list holds at most 48 (R89), and every link interface keeps its bounds (R19 to R21). No way counts as
freed at the present event between two events (assumption 45). -/
def Obligations.StepsKeepSound : Prop :=
  ∀ s t : State, Sound s → step s = .next t → Sound t ∧ (s.dir.freed = [] → t.dir.freed = [])

/-- The hub is sound at reset, and no way counts as freed at the present event. -/
def Obligations.SoundAtReset : Prop := Sound State.reset ∧ State.reset.dir.freed = []
end

