-- ==== Sys2Proof/Laws/State.lean ====
section
/-! SUPPORT. The fields of State across the named updates of Machine/Ops.lean: one lemma for each field that an
update leaves as it is, and what each accessor reads after the update of its own home. -/

/- One theorem at a time: side by side, theorems that wait for one another hold a thread each. -/
set_option Elab.async false

namespace Sys2Proof.Machine

variable (s : State)

/-! ### updHli -/

@[simp] theorem updHli_hub (h : HostNo) (f : Hli → Hli) : (updHli s h f).hub = s.hub := rfl
@[simp] theorem updHli_resetPhase (h : HostNo) (f : Hli → Hli) : (updHli s h f).resetPhase = s.resetPhase := rfl
@[simp] theorem updHli_ports (h : HostNo) (f : Hli → Hli) : (updHli s h f).ports = s.ports := rfl
@[simp] theorem updHli_region (h : HostNo) (f : Hli → Hli) : (updHli s h f).region = s.region := rfl
@[simp] theorem updHli_dir (h : HostNo) (f : Hli → Hli) : (updHli s h f).dir = s.dir := rfl
@[simp] theorem updHli_trk (h : HostNo) (f : Hli → Hli) : (updHli s h f).trk = s.trk := rfl
@[simp] theorem updHli_disp (h : HostNo) (f : Hli → Hli) : (updHli s h f).disp = s.disp := rfl
@[simp] theorem updHli_mem (h : HostNo) (f : Hli → Hli) : (updHli s h f).mem = s.mem := rfl
@[simp] theorem updHli_walker (h : HostNo) (f : Hli → Hli) : (updHli s h f).walker = s.walker := rfl
@[simp] theorem updHli_integ (h : HostNo) (f : Hli → Hli) : (updHli s h f).integ = s.integ := rfl
@[simp] theorem updHli_mgmt (h : HostNo) (f : Hli → Hli) : (updHli s h f).mgmt = s.mgmt := rfl
@[simp] theorem updHli_freeCount (h : HostNo) (f : Hli → Hli) : (updHli s h f).freeCount = s.freeCount := rfl
@[simp] theorem updHli_pending (h : HostNo) (f : Hli → Hli) : (updHli s h f).pending = s.pending := rfl

/-! ### updPort -/

@[simp] theorem updPort_hub (h : HostNo) (f : Port → Port) : (updPort s h f).hub = s.hub := rfl
@[simp] theorem updPort_resetPhase (h : HostNo) (f : Port → Port) : (updPort s h f).resetPhase = s.resetPhase := rfl
@[simp] theorem updPort_hli (h : HostNo) (f : Port → Port) : (updPort s h f).hli = s.hli := rfl
@[simp] theorem updPort_region (h : HostNo) (f : Port → Port) : (updPort s h f).region = s.region := rfl
@[simp] theorem updPort_dir (h : HostNo) (f : Port → Port) : (updPort s h f).dir = s.dir := rfl
@[simp] theorem updPort_trk (h : HostNo) (f : Port → Port) : (updPort s h f).trk = s.trk := rfl
@[simp] theorem updPort_disp (h : HostNo) (f : Port → Port) : (updPort s h f).disp = s.disp := rfl
@[simp] theorem updPort_mem (h : HostNo) (f : Port → Port) : (updPort s h f).mem = s.mem := rfl
@[simp] theorem updPort_walker (h : HostNo) (f : Port → Port) : (updPort s h f).walker = s.walker := rfl
@[simp] theorem updPort_integ (h : HostNo) (f : Port → Port) : (updPort s h f).integ = s.integ := rfl
@[simp] theorem updPort_mgmt (h : HostNo) (f : Port → Port) : (updPort s h f).mgmt = s.mgmt := rfl
@[simp] theorem updPort_freeCount (h : HostNo) (f : Port → Port) : (updPort s h f).freeCount = s.freeCount := rfl
@[simp] theorem updPort_pending (h : HostNo) (f : Port → Port) : (updPort s h f).pending = s.pending := rfl

/-! ### setTracker -/

@[simp] theorem setTracker_hub (t : TrackerNo) (x : Option Tracker) : (setTracker s t x).hub = s.hub := rfl
@[simp] theorem setTracker_resetPhase (t : TrackerNo) (x : Option Tracker) : (setTracker s t x).resetPhase = s.resetPhase := rfl
@[simp] theorem setTracker_hli (t : TrackerNo) (x : Option Tracker) : (setTracker s t x).hli = s.hli := rfl
@[simp] theorem setTracker_ports (t : TrackerNo) (x : Option Tracker) : (setTracker s t x).ports = s.ports := rfl
@[simp] theorem setTracker_region (t : TrackerNo) (x : Option Tracker) : (setTracker s t x).region = s.region := rfl
@[simp] theorem setTracker_dir (t : TrackerNo) (x : Option Tracker) : (setTracker s t x).dir = s.dir := rfl
@[simp] theorem setTracker_disp (t : TrackerNo) (x : Option Tracker) : (setTracker s t x).disp = s.disp := rfl
@[simp] theorem setTracker_mem (t : TrackerNo) (x : Option Tracker) : (setTracker s t x).mem = s.mem := rfl
@[simp] theorem setTracker_walker (t : TrackerNo) (x : Option Tracker) : (setTracker s t x).walker = s.walker := rfl
@[simp] theorem setTracker_integ (t : TrackerNo) (x : Option Tracker) : (setTracker s t x).integ = s.integ := rfl
@[simp] theorem setTracker_mgmt (t : TrackerNo) (x : Option Tracker) : (setTracker s t x).mgmt = s.mgmt := rfl
@[simp] theorem setTracker_freeCount (t : TrackerNo) (x : Option Tracker) : (setTracker s t x).freeCount = s.freeCount := rfl
@[simp] theorem setTracker_pending (t : TrackerNo) (x : Option Tracker) : (setTracker s t x).pending = s.pending := rfl

/-! ### setSlot -/

@[simp] theorem setSlot_hub (h : HostNo) (x : Option FenceSlot) : (setSlot s h x).hub = s.hub := rfl
@[simp] theorem setSlot_resetPhase (h : HostNo) (x : Option FenceSlot) : (setSlot s h x).resetPhase = s.resetPhase := rfl
@[simp] theorem setSlot_hli (h : HostNo) (x : Option FenceSlot) : (setSlot s h x).hli = s.hli := rfl
@[simp] theorem setSlot_ports (h : HostNo) (x : Option FenceSlot) : (setSlot s h x).ports = s.ports := rfl
@[simp] theorem setSlot_region (h : HostNo) (x : Option FenceSlot) : (setSlot s h x).region = s.region := rfl
@[simp] theorem setSlot_dir (h : HostNo) (x : Option FenceSlot) : (setSlot s h x).dir = s.dir := rfl
@[simp] theorem setSlot_trk (h : HostNo) (x : Option FenceSlot) : (setSlot s h x).trk = s.trk := rfl
@[simp] theorem setSlot_mem (h : HostNo) (x : Option FenceSlot) : (setSlot s h x).mem = s.mem := rfl
@[simp] theorem setSlot_walker (h : HostNo) (x : Option FenceSlot) : (setSlot s h x).walker = s.walker := rfl
@[simp] theorem setSlot_integ (h : HostNo) (x : Option FenceSlot) : (setSlot s h x).integ = s.integ := rfl
@[simp] theorem setSlot_mgmt (h : HostNo) (x : Option FenceSlot) : (setSlot s h x).mgmt = s.mgmt := rfl
@[simp] theorem setSlot_freeCount (h : HostNo) (x : Option FenceSlot) : (setSlot s h x).freeCount = s.freeCount := rfl
@[simp] theorem setSlot_pending (h : HostNo) (x : Option FenceSlot) : (setSlot s h x).pending = s.pending := rfl

/-! ### putSet -/

@[simp] theorem putSet_hub (k : SetNo) (x : DirSet) : (putSet s k x).hub = s.hub := rfl
@[simp] theorem putSet_resetPhase (k : SetNo) (x : DirSet) : (putSet s k x).resetPhase = s.resetPhase := rfl
@[simp] theorem putSet_hli (k : SetNo) (x : DirSet) : (putSet s k x).hli = s.hli := rfl
@[simp] theorem putSet_ports (k : SetNo) (x : DirSet) : (putSet s k x).ports = s.ports := rfl
@[simp] theorem putSet_region (k : SetNo) (x : DirSet) : (putSet s k x).region = s.region := rfl
@[simp] theorem putSet_trk (k : SetNo) (x : DirSet) : (putSet s k x).trk = s.trk := rfl
@[simp] theorem putSet_disp (k : SetNo) (x : DirSet) : (putSet s k x).disp = s.disp := rfl
@[simp] theorem putSet_mem (k : SetNo) (x : DirSet) : (putSet s k x).mem = s.mem := rfl
@[simp] theorem putSet_walker (k : SetNo) (x : DirSet) : (putSet s k x).walker = s.walker := rfl
@[simp] theorem putSet_integ (k : SetNo) (x : DirSet) : (putSet s k x).integ = s.integ := rfl
@[simp] theorem putSet_mgmt (k : SetNo) (x : DirSet) : (putSet s k x).mgmt = s.mgmt := rfl
@[simp] theorem putSet_freeCount (k : SetNo) (x : DirSet) : (putSet s k x).freeCount = s.freeCount := rfl
@[simp] theorem putSet_pending (k : SetNo) (x : DirSet) : (putSet s k x).pending = s.pending := rfl

/-! ### putWay -/

@[simp] theorem putWay_hub (k : SetNo) (w : WayNo) (v : Way) : (putWay k w v s).hub = s.hub := rfl
@[simp] theorem putWay_resetPhase (k : SetNo) (w : WayNo) (v : Way) : (putWay k w v s).resetPhase = s.resetPhase := rfl
@[simp] theorem putWay_hli (k : SetNo) (w : WayNo) (v : Way) : (putWay k w v s).hli = s.hli := rfl
@[simp] theorem putWay_ports (k : SetNo) (w : WayNo) (v : Way) : (putWay k w v s).ports = s.ports := rfl
@[simp] theorem putWay_region (k : SetNo) (w : WayNo) (v : Way) : (putWay k w v s).region = s.region := rfl
@[simp] theorem putWay_trk (k : SetNo) (w : WayNo) (v : Way) : (putWay k w v s).trk = s.trk := rfl
@[simp] theorem putWay_disp (k : SetNo) (w : WayNo) (v : Way) : (putWay k w v s).disp = s.disp := rfl
@[simp] theorem putWay_mem (k : SetNo) (w : WayNo) (v : Way) : (putWay k w v s).mem = s.mem := rfl
@[simp] theorem putWay_walker (k : SetNo) (w : WayNo) (v : Way) : (putWay k w v s).walker = s.walker := rfl
@[simp] theorem putWay_integ (k : SetNo) (w : WayNo) (v : Way) : (putWay k w v s).integ = s.integ := rfl
@[simp] theorem putWay_mgmt (k : SetNo) (w : WayNo) (v : Way) : (putWay k w v s).mgmt = s.mgmt := rfl
@[simp] theorem putWay_freeCount (k : SetNo) (w : WayNo) (v : Way) : (putWay k w v s).freeCount = s.freeCount := rfl
@[simp] theorem putWay_pending (k : SetNo) (w : WayNo) (v : Way) : (putWay k w v s).pending = s.pending := rfl

/-! ### noteFreed -/

@[simp] theorem noteFreed_hub (l : List (SetNo × WayNo)) : (noteFreed l s).hub = s.hub := rfl
@[simp] theorem noteFreed_resetPhase (l : List (SetNo × WayNo)) : (noteFreed l s).resetPhase = s.resetPhase := rfl
@[simp] theorem noteFreed_hli (l : List (SetNo × WayNo)) : (noteFreed l s).hli = s.hli := rfl
@[simp] theorem noteFreed_ports (l : List (SetNo × WayNo)) : (noteFreed l s).ports = s.ports := rfl
@[simp] theorem noteFreed_region (l : List (SetNo × WayNo)) : (noteFreed l s).region = s.region := rfl
@[simp] theorem noteFreed_trk (l : List (SetNo × WayNo)) : (noteFreed l s).trk = s.trk := rfl
@[simp] theorem noteFreed_disp (l : List (SetNo × WayNo)) : (noteFreed l s).disp = s.disp := rfl
@[simp] theorem noteFreed_mem (l : List (SetNo × WayNo)) : (noteFreed l s).mem = s.mem := rfl
@[simp] theorem noteFreed_walker (l : List (SetNo × WayNo)) : (noteFreed l s).walker = s.walker := rfl
@[simp] theorem noteFreed_integ (l : List (SetNo × WayNo)) : (noteFreed l s).integ = s.integ := rfl
@[simp] theorem noteFreed_mgmt (l : List (SetNo × WayNo)) : (noteFreed l s).mgmt = s.mgmt := rfl
@[simp] theorem noteFreed_freeCount (l : List (SetNo × WayNo)) : (noteFreed l s).freeCount = s.freeCount := rfl
@[simp] theorem noteFreed_pending (l : List (SetNo × WayNo)) : (noteFreed l s).pending = s.pending := rfl

/-- Noting the ways freed leaves every set. -/
@[simp] theorem setOf_noteFreed (l : List (SetNo × WayNo)) (k : SetNo) : setOf (noteFreed l s) k = setOf s k := rfl

/-- Noting the ways freed leaves every way. -/
@[simp] theorem wayOf_noteFreed (l : List (SetNo × WayNo)) (k : SetNo) (w : WayNo) :
    wayOf (noteFreed l s) k w = wayOf s k w := rfl

/-! ### touchFreed -/

@[simp] theorem touchFreed_hub (k : SetNo) (l : List WayNo) : (touchFreed k l s).hub = s.hub := rfl
@[simp] theorem touchFreed_resetPhase (k : SetNo) (l : List WayNo) : (touchFreed k l s).resetPhase = s.resetPhase := rfl
@[simp] theorem touchFreed_hli (k : SetNo) (l : List WayNo) : (touchFreed k l s).hli = s.hli := rfl
@[simp] theorem touchFreed_ports (k : SetNo) (l : List WayNo) : (touchFreed k l s).ports = s.ports := rfl
@[simp] theorem touchFreed_region (k : SetNo) (l : List WayNo) : (touchFreed k l s).region = s.region := rfl
@[simp] theorem touchFreed_trk (k : SetNo) (l : List WayNo) : (touchFreed k l s).trk = s.trk := rfl
@[simp] theorem touchFreed_disp (k : SetNo) (l : List WayNo) : (touchFreed k l s).disp = s.disp := rfl
@[simp] theorem touchFreed_mem (k : SetNo) (l : List WayNo) : (touchFreed k l s).mem = s.mem := rfl
@[simp] theorem touchFreed_walker (k : SetNo) (l : List WayNo) : (touchFreed k l s).walker = s.walker := rfl
@[simp] theorem touchFreed_integ (k : SetNo) (l : List WayNo) : (touchFreed k l s).integ = s.integ := rfl
@[simp] theorem touchFreed_mgmt (k : SetNo) (l : List WayNo) : (touchFreed k l s).mgmt = s.mgmt := rfl
@[simp] theorem touchFreed_freeCount (k : SetNo) (l : List WayNo) : (touchFreed k l s).freeCount = s.freeCount := rfl
@[simp] theorem touchFreed_pending (k : SetNo) (l : List WayNo) : (touchFreed k l s).pending = s.pending := rfl

/-! ### touchMost -/

@[simp] theorem touchMost_hub (k : SetNo) (w : WayNo) : (touchMost k w s).hub = s.hub := rfl
@[simp] theorem touchMost_resetPhase (k : SetNo) (w : WayNo) : (touchMost k w s).resetPhase = s.resetPhase := rfl
@[simp] theorem touchMost_hli (k : SetNo) (w : WayNo) : (touchMost k w s).hli = s.hli := rfl
@[simp] theorem touchMost_ports (k : SetNo) (w : WayNo) : (touchMost k w s).ports = s.ports := rfl
@[simp] theorem touchMost_region (k : SetNo) (w : WayNo) : (touchMost k w s).region = s.region := rfl
@[simp] theorem touchMost_trk (k : SetNo) (w : WayNo) : (touchMost k w s).trk = s.trk := rfl
@[simp] theorem touchMost_disp (k : SetNo) (w : WayNo) : (touchMost k w s).disp = s.disp := rfl
@[simp] theorem touchMost_mem (k : SetNo) (w : WayNo) : (touchMost k w s).mem = s.mem := rfl
@[simp] theorem touchMost_walker (k : SetNo) (w : WayNo) : (touchMost k w s).walker = s.walker := rfl
@[simp] theorem touchMost_integ (k : SetNo) (w : WayNo) : (touchMost k w s).integ = s.integ := rfl
@[simp] theorem touchMost_mgmt (k : SetNo) (w : WayNo) : (touchMost k w s).mgmt = s.mgmt := rfl
@[simp] theorem touchMost_freeCount (k : SetNo) (w : WayNo) : (touchMost k w s).freeCount = s.freeCount := rfl
@[simp] theorem touchMost_pending (k : SetNo) (w : WayNo) : (touchMost k w s).pending = s.pending := rfl

/-! ### touchLeast -/

@[simp] theorem touchLeast_hub (k : SetNo) (w : WayNo) : (touchLeast k w s).hub = s.hub := rfl
@[simp] theorem touchLeast_resetPhase (k : SetNo) (w : WayNo) : (touchLeast k w s).resetPhase = s.resetPhase := rfl
@[simp] theorem touchLeast_hli (k : SetNo) (w : WayNo) : (touchLeast k w s).hli = s.hli := rfl
@[simp] theorem touchLeast_ports (k : SetNo) (w : WayNo) : (touchLeast k w s).ports = s.ports := rfl
@[simp] theorem touchLeast_region (k : SetNo) (w : WayNo) : (touchLeast k w s).region = s.region := rfl
@[simp] theorem touchLeast_trk (k : SetNo) (w : WayNo) : (touchLeast k w s).trk = s.trk := rfl
@[simp] theorem touchLeast_disp (k : SetNo) (w : WayNo) : (touchLeast k w s).disp = s.disp := rfl
@[simp] theorem touchLeast_mem (k : SetNo) (w : WayNo) : (touchLeast k w s).mem = s.mem := rfl
@[simp] theorem touchLeast_walker (k : SetNo) (w : WayNo) : (touchLeast k w s).walker = s.walker := rfl
@[simp] theorem touchLeast_integ (k : SetNo) (w : WayNo) : (touchLeast k w s).integ = s.integ := rfl
@[simp] theorem touchLeast_mgmt (k : SetNo) (w : WayNo) : (touchLeast k w s).mgmt = s.mgmt := rfl
@[simp] theorem touchLeast_freeCount (k : SetNo) (w : WayNo) : (touchLeast k w s).freeCount = s.freeCount := rfl
@[simp] theorem touchLeast_pending (k : SetNo) (w : WayNo) : (touchLeast k w s).pending = s.pending := rfl

/-! ### setAlerts -/

@[simp] theorem setAlerts_hub (a m : BitVec 16) : (setAlerts a m s).hub = s.hub := rfl
@[simp] theorem setAlerts_resetPhase (a m : BitVec 16) : (setAlerts a m s).resetPhase = s.resetPhase := rfl
@[simp] theorem setAlerts_hli (a m : BitVec 16) : (setAlerts a m s).hli = s.hli := rfl
@[simp] theorem setAlerts_ports (a m : BitVec 16) : (setAlerts a m s).ports = s.ports := rfl
@[simp] theorem setAlerts_region (a m : BitVec 16) : (setAlerts a m s).region = s.region := rfl
@[simp] theorem setAlerts_dir (a m : BitVec 16) : (setAlerts a m s).dir = s.dir := rfl
@[simp] theorem setAlerts_trk (a m : BitVec 16) : (setAlerts a m s).trk = s.trk := rfl
@[simp] theorem setAlerts_disp (a m : BitVec 16) : (setAlerts a m s).disp = s.disp := rfl
@[simp] theorem setAlerts_mem (a m : BitVec 16) : (setAlerts a m s).mem = s.mem := rfl
@[simp] theorem setAlerts_walker (a m : BitVec 16) : (setAlerts a m s).walker = s.walker := rfl
@[simp] theorem setAlerts_integ (a m : BitVec 16) : (setAlerts a m s).integ = s.integ := rfl
@[simp] theorem setAlerts_freeCount (a m : BitVec 16) : (setAlerts a m s).freeCount = s.freeCount := rfl
@[simp] theorem setAlerts_pending (a m : BitVec 16) : (setAlerts a m s).pending = s.pending := rfl

/-! ### latch -/

@[simp] theorem latch_hub (e : AlertEvent) : (latch e s).hub = s.hub := rfl
@[simp] theorem latch_resetPhase (e : AlertEvent) : (latch e s).resetPhase = s.resetPhase := rfl
@[simp] theorem latch_hli (e : AlertEvent) : (latch e s).hli = s.hli := rfl
@[simp] theorem latch_ports (e : AlertEvent) : (latch e s).ports = s.ports := rfl
@[simp] theorem latch_region (e : AlertEvent) : (latch e s).region = s.region := rfl
@[simp] theorem latch_dir (e : AlertEvent) : (latch e s).dir = s.dir := rfl
@[simp] theorem latch_trk (e : AlertEvent) : (latch e s).trk = s.trk := rfl
@[simp] theorem latch_disp (e : AlertEvent) : (latch e s).disp = s.disp := rfl
@[simp] theorem latch_mem (e : AlertEvent) : (latch e s).mem = s.mem := rfl
@[simp] theorem latch_walker (e : AlertEvent) : (latch e s).walker = s.walker := rfl
@[simp] theorem latch_integ (e : AlertEvent) : (latch e s).integ = s.integ := rfl
@[simp] theorem latch_freeCount (e : AlertEvent) : (latch e s).freeCount = s.freeCount := rfl
@[simp] theorem latch_pending (e : AlertEvent) : (latch e s).pending = s.pending := rfl

/-! ### setCutover -/

@[simp] theorem setCutover_hub (c : CutoverStatus) : (setCutover c s).hub = s.hub := rfl
@[simp] theorem setCutover_resetPhase (c : CutoverStatus) : (setCutover c s).resetPhase = s.resetPhase := rfl
@[simp] theorem setCutover_hli (c : CutoverStatus) : (setCutover c s).hli = s.hli := rfl
@[simp] theorem setCutover_ports (c : CutoverStatus) : (setCutover c s).ports = s.ports := rfl
@[simp] theorem setCutover_dir (c : CutoverStatus) : (setCutover c s).dir = s.dir := rfl
@[simp] theorem setCutover_trk (c : CutoverStatus) : (setCutover c s).trk = s.trk := rfl
@[simp] theorem setCutover_disp (c : CutoverStatus) : (setCutover c s).disp = s.disp := rfl
@[simp] theorem setCutover_mem (c : CutoverStatus) : (setCutover c s).mem = s.mem := rfl
@[simp] theorem setCutover_walker (c : CutoverStatus) : (setCutover c s).walker = s.walker := rfl
@[simp] theorem setCutover_integ (c : CutoverStatus) : (setCutover c s).integ = s.integ := rfl
@[simp] theorem setCutover_mgmt (c : CutoverStatus) : (setCutover c s).mgmt = s.mgmt := rfl
@[simp] theorem setCutover_freeCount (c : CutoverStatus) : (setCutover c s).freeCount = s.freeCount := rfl
@[simp] theorem setCutover_pending (c : CutoverStatus) : (setCutover c s).pending = s.pending := rfl

/-! ### letAsk -/

@[simp] theorem letAsk_hub (p : TrackerNo → Bool) : (letAsk p s).hub = s.hub := rfl
@[simp] theorem letAsk_resetPhase (p : TrackerNo → Bool) : (letAsk p s).resetPhase = s.resetPhase := rfl
@[simp] theorem letAsk_hli (p : TrackerNo → Bool) : (letAsk p s).hli = s.hli := rfl
@[simp] theorem letAsk_ports (p : TrackerNo → Bool) : (letAsk p s).ports = s.ports := rfl
@[simp] theorem letAsk_region (p : TrackerNo → Bool) : (letAsk p s).region = s.region := rfl
@[simp] theorem letAsk_dir (p : TrackerNo → Bool) : (letAsk p s).dir = s.dir := rfl
@[simp] theorem letAsk_disp (p : TrackerNo → Bool) : (letAsk p s).disp = s.disp := rfl
@[simp] theorem letAsk_mem (p : TrackerNo → Bool) : (letAsk p s).mem = s.mem := rfl
@[simp] theorem letAsk_walker (p : TrackerNo → Bool) : (letAsk p s).walker = s.walker := rfl
@[simp] theorem letAsk_integ (p : TrackerNo → Bool) : (letAsk p s).integ = s.integ := rfl
@[simp] theorem letAsk_mgmt (p : TrackerNo → Bool) : (letAsk p s).mgmt = s.mgmt := rfl
@[simp] theorem letAsk_freeCount (p : TrackerNo → Bool) : (letAsk p s).freeCount = s.freeCount := rfl
@[simp] theorem letAsk_pending (p : TrackerNo → Bool) : (letAsk p s).pending = s.pending := rfl
@[simp] theorem letAsk_trackerOf (p : TrackerNo → Bool) (t : TrackerNo) : trackerOf (letAsk p s) t = trackerOf s t := rfl

/-! ### reportChange -/

@[simp] theorem reportChange_hub (k : SetNo) : (reportChange k s).hub = s.hub := rfl
@[simp] theorem reportChange_resetPhase (k : SetNo) : (reportChange k s).resetPhase = s.resetPhase := rfl
@[simp] theorem reportChange_hli (k : SetNo) : (reportChange k s).hli = s.hli := rfl
@[simp] theorem reportChange_ports (k : SetNo) : (reportChange k s).ports = s.ports := rfl
@[simp] theorem reportChange_region (k : SetNo) : (reportChange k s).region = s.region := rfl
@[simp] theorem reportChange_dir (k : SetNo) : (reportChange k s).dir = s.dir := rfl
@[simp] theorem reportChange_disp (k : SetNo) : (reportChange k s).disp = s.disp := rfl
@[simp] theorem reportChange_mem (k : SetNo) : (reportChange k s).mem = s.mem := rfl
@[simp] theorem reportChange_walker (k : SetNo) : (reportChange k s).walker = s.walker := rfl
@[simp] theorem reportChange_integ (k : SetNo) : (reportChange k s).integ = s.integ := rfl
@[simp] theorem reportChange_mgmt (k : SetNo) : (reportChange k s).mgmt = s.mgmt := rfl
@[simp] theorem reportChange_freeCount (k : SetNo) : (reportChange k s).freeCount = s.freeCount := rfl
@[simp] theorem reportChange_pending (k : SetNo) : (reportChange k s).pending = s.pending := rfl

/-! ### writePool -/

@[simp] theorem writePool_hub (n : LineNo) (d : LineData) (p : Bool) : (writePool n d p s).hub = s.hub := rfl
@[simp] theorem writePool_resetPhase (n : LineNo) (d : LineData) (p : Bool) : (writePool n d p s).resetPhase = s.resetPhase := rfl
@[simp] theorem writePool_hli (n : LineNo) (d : LineData) (p : Bool) : (writePool n d p s).hli = s.hli := rfl
@[simp] theorem writePool_ports (n : LineNo) (d : LineData) (p : Bool) : (writePool n d p s).ports = s.ports := rfl
@[simp] theorem writePool_region (n : LineNo) (d : LineData) (p : Bool) : (writePool n d p s).region = s.region := rfl
@[simp] theorem writePool_dir (n : LineNo) (d : LineData) (p : Bool) : (writePool n d p s).dir = s.dir := rfl
@[simp] theorem writePool_trk (n : LineNo) (d : LineData) (p : Bool) : (writePool n d p s).trk = s.trk := rfl
@[simp] theorem writePool_disp (n : LineNo) (d : LineData) (p : Bool) : (writePool n d p s).disp = s.disp := rfl
@[simp] theorem writePool_walker (n : LineNo) (d : LineData) (p : Bool) : (writePool n d p s).walker = s.walker := rfl
@[simp] theorem writePool_integ (n : LineNo) (d : LineData) (p : Bool) : (writePool n d p s).integ = s.integ := rfl
@[simp] theorem writePool_mgmt (n : LineNo) (d : LineData) (p : Bool) : (writePool n d p s).mgmt = s.mgmt := rfl
@[simp] theorem writePool_freeCount (n : LineNo) (d : LineData) (p : Bool) : (writePool n d p s).freeCount = s.freeCount := rfl
@[simp] theorem writePool_pending (n : LineNo) (d : LineData) (p : Bool) : (writePool n d p s).pending = s.pending := rfl

/-! ### setPortState -/

@[simp] theorem setPortState_hub (h : HostNo) (p : PortState) : (setPortState h p s).hub = s.hub := rfl
@[simp] theorem setPortState_resetPhase (h : HostNo) (p : PortState) : (setPortState h p s).resetPhase = s.resetPhase := rfl
@[simp] theorem setPortState_hli (h : HostNo) (p : PortState) : (setPortState h p s).hli = s.hli := rfl
@[simp] theorem setPortState_region (h : HostNo) (p : PortState) : (setPortState h p s).region = s.region := rfl
@[simp] theorem setPortState_dir (h : HostNo) (p : PortState) : (setPortState h p s).dir = s.dir := rfl
@[simp] theorem setPortState_trk (h : HostNo) (p : PortState) : (setPortState h p s).trk = s.trk := rfl
@[simp] theorem setPortState_disp (h : HostNo) (p : PortState) : (setPortState h p s).disp = s.disp := rfl
@[simp] theorem setPortState_mem (h : HostNo) (p : PortState) : (setPortState h p s).mem = s.mem := rfl
@[simp] theorem setPortState_walker (h : HostNo) (p : PortState) : (setPortState h p s).walker = s.walker := rfl
@[simp] theorem setPortState_integ (h : HostNo) (p : PortState) : (setPortState h p s).integ = s.integ := rfl
@[simp] theorem setPortState_freeCount (h : HostNo) (p : PortState) : (setPortState h p s).freeCount = s.freeCount := rfl
@[simp] theorem setPortState_pending (h : HostNo) (p : PortState) : (setPortState h p s).pending = s.pending := rfl

/-! ### makeFree -/

@[simp] theorem makeFree_hub (k : SetNo) (w : WayNo) : (makeFree k w s).hub = s.hub := rfl
@[simp] theorem makeFree_resetPhase (k : SetNo) (w : WayNo) : (makeFree k w s).resetPhase = s.resetPhase := rfl
@[simp] theorem makeFree_hli (k : SetNo) (w : WayNo) : (makeFree k w s).hli = s.hli := rfl
@[simp] theorem makeFree_ports (k : SetNo) (w : WayNo) : (makeFree k w s).ports = s.ports := rfl
@[simp] theorem makeFree_region (k : SetNo) (w : WayNo) : (makeFree k w s).region = s.region := rfl
@[simp] theorem makeFree_disp (k : SetNo) (w : WayNo) : (makeFree k w s).disp = s.disp := rfl
@[simp] theorem makeFree_mem (k : SetNo) (w : WayNo) : (makeFree k w s).mem = s.mem := rfl
@[simp] theorem makeFree_walker (k : SetNo) (w : WayNo) : (makeFree k w s).walker = s.walker := rfl
@[simp] theorem makeFree_integ (k : SetNo) (w : WayNo) : (makeFree k w s).integ = s.integ := rfl
@[simp] theorem makeFree_mgmt (k : SetNo) (w : WayNo) : (makeFree k w s).mgmt = s.mgmt := rfl
@[simp] theorem makeFree_freeCount (k : SetNo) (w : WayNo) : (makeFree k w s).freeCount = s.freeCount := rfl
@[simp] theorem makeFree_pending (k : SetNo) (w : WayNo) : (makeFree k w s).pending = s.pending := rfl

/-! ### protocolError -/

@[simp] theorem protocolError_hub (p : HostNo) (k : Byte) (c : ProtocolCause) (t : Option HostTag) (n : Option LineNo) : (protocolError p k c t n s).hub = s.hub := rfl
@[simp] theorem protocolError_resetPhase (p : HostNo) (k : Byte) (c : ProtocolCause) (t : Option HostTag) (n : Option LineNo) : (protocolError p k c t n s).resetPhase = s.resetPhase := rfl
@[simp] theorem protocolError_hli (p : HostNo) (k : Byte) (c : ProtocolCause) (t : Option HostTag) (n : Option LineNo) : (protocolError p k c t n s).hli = s.hli := rfl
@[simp] theorem protocolError_ports (p : HostNo) (k : Byte) (c : ProtocolCause) (t : Option HostTag) (n : Option LineNo) : (protocolError p k c t n s).ports = s.ports := rfl
@[simp] theorem protocolError_region (p : HostNo) (k : Byte) (c : ProtocolCause) (t : Option HostTag) (n : Option LineNo) : (protocolError p k c t n s).region = s.region := rfl
@[simp] theorem protocolError_dir (p : HostNo) (k : Byte) (c : ProtocolCause) (t : Option HostTag) (n : Option LineNo) : (protocolError p k c t n s).dir = s.dir := rfl
@[simp] theorem protocolError_trk (p : HostNo) (k : Byte) (c : ProtocolCause) (t : Option HostTag) (n : Option LineNo) : (protocolError p k c t n s).trk = s.trk := rfl
@[simp] theorem protocolError_disp (p : HostNo) (k : Byte) (c : ProtocolCause) (t : Option HostTag) (n : Option LineNo) : (protocolError p k c t n s).disp = s.disp := rfl
@[simp] theorem protocolError_mem (p : HostNo) (k : Byte) (c : ProtocolCause) (t : Option HostTag) (n : Option LineNo) : (protocolError p k c t n s).mem = s.mem := rfl
@[simp] theorem protocolError_walker (p : HostNo) (k : Byte) (c : ProtocolCause) (t : Option HostTag) (n : Option LineNo) : (protocolError p k c t n s).walker = s.walker := rfl
@[simp] theorem protocolError_integ (p : HostNo) (k : Byte) (c : ProtocolCause) (t : Option HostTag) (n : Option LineNo) : (protocolError p k c t n s).integ = s.integ := rfl
@[simp] theorem protocolError_freeCount (p : HostNo) (k : Byte) (c : ProtocolCause) (t : Option HostTag) (n : Option LineNo) : (protocolError p k c t n s).freeCount = s.freeCount := rfl
@[simp] theorem protocolError_pending (p : HostNo) (k : Byte) (c : ProtocolCause) (t : Option HostTag) (n : Option LineNo) : (protocolError p k c t n s).pending = s.pending := rfl

/-! ### memError -/

@[simp] theorem memError_hub (n : LineNo) (a : MemAccess) (c : MemCause) (x : Option WriteSource) : (memError n a c x s).hub = s.hub := rfl
@[simp] theorem memError_resetPhase (n : LineNo) (a : MemAccess) (c : MemCause) (x : Option WriteSource) : (memError n a c x s).resetPhase = s.resetPhase := rfl
@[simp] theorem memError_hli (n : LineNo) (a : MemAccess) (c : MemCause) (x : Option WriteSource) : (memError n a c x s).hli = s.hli := rfl
@[simp] theorem memError_ports (n : LineNo) (a : MemAccess) (c : MemCause) (x : Option WriteSource) : (memError n a c x s).ports = s.ports := rfl
@[simp] theorem memError_region (n : LineNo) (a : MemAccess) (c : MemCause) (x : Option WriteSource) : (memError n a c x s).region = s.region := rfl
@[simp] theorem memError_dir (n : LineNo) (a : MemAccess) (c : MemCause) (x : Option WriteSource) : (memError n a c x s).dir = s.dir := rfl
@[simp] theorem memError_trk (n : LineNo) (a : MemAccess) (c : MemCause) (x : Option WriteSource) : (memError n a c x s).trk = s.trk := rfl
@[simp] theorem memError_disp (n : LineNo) (a : MemAccess) (c : MemCause) (x : Option WriteSource) : (memError n a c x s).disp = s.disp := rfl
@[simp] theorem memError_walker (n : LineNo) (a : MemAccess) (c : MemCause) (x : Option WriteSource) : (memError n a c x s).walker = s.walker := rfl
@[simp] theorem memError_integ (n : LineNo) (a : MemAccess) (c : MemCause) (x : Option WriteSource) : (memError n a c x s).integ = s.integ := rfl
@[simp] theorem memError_freeCount (n : LineNo) (a : MemAccess) (c : MemCause) (x : Option WriteSource) : (memError n a c x s).freeCount = s.freeCount := rfl
@[simp] theorem memError_pending (n : LineNo) (a : MemAccess) (c : MemCause) (x : Option WriteSource) : (memError n a c x s).pending = s.pending := rfl

/-! ### recordParity -/

@[simp] theorem recordParity_hub (k : SetNo) (w : WayNo) (e : ParityKind) (r : Reader) : (recordParity k w e r s).hub = s.hub := rfl
@[simp] theorem recordParity_resetPhase (k : SetNo) (w : WayNo) (e : ParityKind) (r : Reader) : (recordParity k w e r s).resetPhase = s.resetPhase := rfl
@[simp] theorem recordParity_hli (k : SetNo) (w : WayNo) (e : ParityKind) (r : Reader) : (recordParity k w e r s).hli = s.hli := rfl
@[simp] theorem recordParity_ports (k : SetNo) (w : WayNo) (e : ParityKind) (r : Reader) : (recordParity k w e r s).ports = s.ports := rfl
@[simp] theorem recordParity_region (k : SetNo) (w : WayNo) (e : ParityKind) (r : Reader) : (recordParity k w e r s).region = s.region := rfl
@[simp] theorem recordParity_dir (k : SetNo) (w : WayNo) (e : ParityKind) (r : Reader) : (recordParity k w e r s).dir = s.dir := rfl
@[simp] theorem recordParity_trk (k : SetNo) (w : WayNo) (e : ParityKind) (r : Reader) : (recordParity k w e r s).trk = s.trk := rfl
@[simp] theorem recordParity_disp (k : SetNo) (w : WayNo) (e : ParityKind) (r : Reader) : (recordParity k w e r s).disp = s.disp := rfl
@[simp] theorem recordParity_mem (k : SetNo) (w : WayNo) (e : ParityKind) (r : Reader) : (recordParity k w e r s).mem = s.mem := rfl
@[simp] theorem recordParity_walker (k : SetNo) (w : WayNo) (e : ParityKind) (r : Reader) : (recordParity k w e r s).walker = s.walker := rfl
@[simp] theorem recordParity_freeCount (k : SetNo) (w : WayNo) (e : ParityKind) (r : Reader) : (recordParity k w e r s).freeCount = s.freeCount := rfl
@[simp] theorem recordParity_pending (k : SetNo) (w : WayNo) (e : ParityKind) (r : Reader) : (recordParity k w e r s).pending = s.pending := rfl

/-! ### graceEvent -/

@[simp] theorem graceEvent_hub (r : GraceRecord) : (graceEvent r s).hub = s.hub := rfl
@[simp] theorem graceEvent_resetPhase (r : GraceRecord) : (graceEvent r s).resetPhase = s.resetPhase := rfl
@[simp] theorem graceEvent_hli (r : GraceRecord) : (graceEvent r s).hli = s.hli := rfl
@[simp] theorem graceEvent_ports (r : GraceRecord) : (graceEvent r s).ports = s.ports := rfl
@[simp] theorem graceEvent_region (r : GraceRecord) : (graceEvent r s).region = s.region := rfl
@[simp] theorem graceEvent_dir (r : GraceRecord) : (graceEvent r s).dir = s.dir := rfl
@[simp] theorem graceEvent_trk (r : GraceRecord) : (graceEvent r s).trk = s.trk := rfl
@[simp] theorem graceEvent_disp (r : GraceRecord) : (graceEvent r s).disp = s.disp := rfl
@[simp] theorem graceEvent_mem (r : GraceRecord) : (graceEvent r s).mem = s.mem := rfl
@[simp] theorem graceEvent_walker (r : GraceRecord) : (graceEvent r s).walker = s.walker := rfl
@[simp] theorem graceEvent_integ (r : GraceRecord) : (graceEvent r s).integ = s.integ := rfl
@[simp] theorem graceEvent_freeCount (r : GraceRecord) : (graceEvent r s).freeCount = s.freeCount := rfl
@[simp] theorem graceEvent_pending (r : GraceRecord) : (graceEvent r s).pending = s.pending := rfl

/-! ### Updates that may leave the state alone -/

/-- An update of a tracker changes the tracker table only. -/
theorem updTracker_cases (t : TrackerNo) (f : Tracker → Tracker) :
    (trackerOf s t = none ∧ updTracker s t f = s) ∨
      ∃ tr, trackerOf s t = some tr ∧ updTracker s t f = setTracker s t (some (f tr)) := by
  unfold updTracker
  cases h : trackerOf s t with
  | none => exact .inl ⟨rfl, rfl⟩
  | some tr => exact .inr ⟨tr, rfl, rfl⟩

/-- An update of a fence slot changes the fence slots only. -/
theorem updSlot_cases (h : HostNo) (f : FenceSlot → FenceSlot) :
    (slotOf s h = none ∧ updSlot s h f = s) ∨
      ∃ x, slotOf s h = some x ∧ updSlot s h f = setSlot s h (some (f x)) := by
  unfold updSlot
  cases e : slotOf s h with
  | none => exact .inl ⟨rfl, rfl⟩
  | some x => exact .inr ⟨x, rfl, rfl⟩

@[simp] theorem updTracker_hub (t : TrackerNo) (f : Tracker → Tracker) : (updTracker s t f).hub = s.hub := by
  unfold updTracker; split <;> rfl

@[simp] theorem updTracker_resetPhase (t : TrackerNo) (f : Tracker → Tracker) : (updTracker s t f).resetPhase = s.resetPhase := by
  unfold updTracker; split <;> rfl

@[simp] theorem updTracker_hli (t : TrackerNo) (f : Tracker → Tracker) : (updTracker s t f).hli = s.hli := by
  unfold updTracker; split <;> rfl

@[simp] theorem updTracker_ports (t : TrackerNo) (f : Tracker → Tracker) : (updTracker s t f).ports = s.ports := by
  unfold updTracker; split <;> rfl

@[simp] theorem updTracker_region (t : TrackerNo) (f : Tracker → Tracker) : (updTracker s t f).region = s.region := by
  unfold updTracker; split <;> rfl

@[simp] theorem updTracker_dir (t : TrackerNo) (f : Tracker → Tracker) : (updTracker s t f).dir = s.dir := by
  unfold updTracker; split <;> rfl

@[simp] theorem updTracker_disp (t : TrackerNo) (f : Tracker → Tracker) : (updTracker s t f).disp = s.disp := by
  unfold updTracker; split <;> rfl

@[simp] theorem updTracker_mem (t : TrackerNo) (f : Tracker → Tracker) : (updTracker s t f).mem = s.mem := by
  unfold updTracker; split <;> rfl

@[simp] theorem updTracker_walker (t : TrackerNo) (f : Tracker → Tracker) : (updTracker s t f).walker = s.walker := by
  unfold updTracker; split <;> rfl

@[simp] theorem updTracker_integ (t : TrackerNo) (f : Tracker → Tracker) : (updTracker s t f).integ = s.integ := by
  unfold updTracker; split <;> rfl

@[simp] theorem updTracker_mgmt (t : TrackerNo) (f : Tracker → Tracker) : (updTracker s t f).mgmt = s.mgmt := by
  unfold updTracker; split <;> rfl

@[simp] theorem updTracker_freeCount (t : TrackerNo) (f : Tracker → Tracker) : (updTracker s t f).freeCount = s.freeCount := by
  unfold updTracker; split <;> rfl

@[simp] theorem updTracker_pending (t : TrackerNo) (f : Tracker → Tracker) : (updTracker s t f).pending = s.pending := by
  unfold updTracker; split <;> rfl

@[simp] theorem updSlot_hub (h : HostNo) (f : FenceSlot → FenceSlot) : (updSlot s h f).hub = s.hub := by
  unfold updSlot; split <;> rfl

@[simp] theorem updSlot_resetPhase (h : HostNo) (f : FenceSlot → FenceSlot) : (updSlot s h f).resetPhase = s.resetPhase := by
  unfold updSlot; split <;> rfl

@[simp] theorem updSlot_hli (h : HostNo) (f : FenceSlot → FenceSlot) : (updSlot s h f).hli = s.hli := by
  unfold updSlot; split <;> rfl

@[simp] theorem updSlot_ports (h : HostNo) (f : FenceSlot → FenceSlot) : (updSlot s h f).ports = s.ports := by
  unfold updSlot; split <;> rfl

@[simp] theorem updSlot_region (h : HostNo) (f : FenceSlot → FenceSlot) : (updSlot s h f).region = s.region := by
  unfold updSlot; split <;> rfl

@[simp] theorem updSlot_dir (h : HostNo) (f : FenceSlot → FenceSlot) : (updSlot s h f).dir = s.dir := by
  unfold updSlot; split <;> rfl

@[simp] theorem updSlot_trk (h : HostNo) (f : FenceSlot → FenceSlot) : (updSlot s h f).trk = s.trk := by
  unfold updSlot; split <;> rfl

@[simp] theorem updSlot_mem (h : HostNo) (f : FenceSlot → FenceSlot) : (updSlot s h f).mem = s.mem := by
  unfold updSlot; split <;> rfl

@[simp] theorem updSlot_walker (h : HostNo) (f : FenceSlot → FenceSlot) : (updSlot s h f).walker = s.walker := by
  unfold updSlot; split <;> rfl

@[simp] theorem updSlot_integ (h : HostNo) (f : FenceSlot → FenceSlot) : (updSlot s h f).integ = s.integ := by
  unfold updSlot; split <;> rfl

@[simp] theorem updSlot_mgmt (h : HostNo) (f : FenceSlot → FenceSlot) : (updSlot s h f).mgmt = s.mgmt := by
  unfold updSlot; split <;> rfl

@[simp] theorem updSlot_freeCount (h : HostNo) (f : FenceSlot → FenceSlot) : (updSlot s h f).freeCount = s.freeCount := by
  unfold updSlot; split <;> rfl

@[simp] theorem updSlot_pending (h : HostNo) (f : FenceSlot → FenceSlot) : (updSlot s h f).pending = s.pending := by
  unfold updSlot; split <;> rfl

@[simp] theorem place_hub (h : HostNo) (m : HubMsg) : (place h m s).hub = s.hub := by
  unfold place; split; · rfl
  split <;> rfl

@[simp] theorem place_resetPhase (h : HostNo) (m : HubMsg) : (place h m s).resetPhase = s.resetPhase := by
  unfold place; split; · rfl
  split <;> rfl

@[simp] theorem place_ports (h : HostNo) (m : HubMsg) : (place h m s).ports = s.ports := by
  unfold place; split; · rfl
  split <;> rfl

@[simp] theorem place_region (h : HostNo) (m : HubMsg) : (place h m s).region = s.region := by
  unfold place; split; · rfl
  split <;> rfl

@[simp] theorem place_dir (h : HostNo) (m : HubMsg) : (place h m s).dir = s.dir := by
  unfold place; split; · rfl
  split <;> rfl

@[simp] theorem place_trk (h : HostNo) (m : HubMsg) : (place h m s).trk = s.trk := by
  unfold place; split; · rfl
  split <;> rfl

@[simp] theorem place_disp (h : HostNo) (m : HubMsg) : (place h m s).disp = s.disp := by
  unfold place; split; · rfl
  split <;> rfl

@[simp] theorem place_mem (h : HostNo) (m : HubMsg) : (place h m s).mem = s.mem := by
  unfold place; split; · rfl
  split <;> rfl

@[simp] theorem place_walker (h : HostNo) (m : HubMsg) : (place h m s).walker = s.walker := by
  unfold place; split; · rfl
  split <;> rfl

@[simp] theorem place_integ (h : HostNo) (m : HubMsg) : (place h m s).integ = s.integ := by
  unfold place; split; · rfl
  split <;> rfl

@[simp] theorem place_mgmt (h : HostNo) (m : HubMsg) : (place h m s).mgmt = s.mgmt := by
  unfold place; split; · rfl
  split <;> rfl

@[simp] theorem place_freeCount (h : HostNo) (m : HubMsg) : (place h m s).freeCount = s.freeCount := by
  unfold place; split; · rfl
  split <;> rfl

@[simp] theorem place_pending (h : HostNo) (m : HubMsg) : (place h m s).pending = s.pending := by
  unfold place; split; · rfl
  split <;> rfl

/-! ### Reading back -/

@[simp] theorem hliOf_updHli (h p : HostNo) (f : Hli → Hli) :
    hliOf (updHli s h f) p = if h = p then f (hliOf s h) else hliOf s p := by
  simp [hliOf, updHli, Vector.getElem_set, Fin.ext_iff]

@[simp] theorem portOf_updPort (h p : HostNo) (f : Port → Port) :
    portOf (updPort s h f) p = if h = p then f (portOf s h) else portOf s p := by
  simp [portOf, updPort, Vector.getElem_set, Fin.ext_iff]

@[simp] theorem trackerOf_setTracker (t u : TrackerNo) (x : Option Tracker) :
    trackerOf (setTracker s t x) u = if t = u then x else trackerOf s u := by
  simp [trackerOf, setTracker, Vector.getElem_set, Fin.ext_iff]

@[simp] theorem slotOf_setSlot (h p : HostNo) (x : Option FenceSlot) :
    slotOf (setSlot s h x) p = if h = p then x else slotOf s p := by
  simp [slotOf, setSlot, Vector.getElem_set, Fin.ext_iff]

@[simp] theorem setOf_putSet (k j : SetNo) (x : DirSet) :
    setOf (putSet s k x) j = if k = j then x else setOf s j := by
  simp [setOf, putSet, Vector.getElem_set, BitVec.toNat_inj]

/-- An unlisted host's link interface stands as it was. -/
theorem hliOf_updHli_ne {h p : HostNo} (f : Hli → Hli) (e : h ≠ p) : hliOf (updHli s h f) p = hliOf s p := by
  simp [e]

@[simp] theorem trackerOf_updTracker (t u : TrackerNo) (f : Tracker → Tracker) :
    trackerOf (updTracker s t f) u = if t = u then (trackerOf s t).map f else trackerOf s u := by
  unfold updTracker
  split
  · next h => split <;> simp_all
  · next h => simp [h]

@[simp] theorem wayOf_putWay (k j : SetNo) (w x : WayNo) (v : Way) :
    wayOf (putWay k w v s) j x = if k = j ∧ w = x then v else wayOf s j x := by
  have h : setOf (putWay k w v s) j = setOf (putSet s k { setOf s k with ways := (setOf s k).ways.set w v }) j := rfl
  simp only [wayOf, h, setOf_putSet]
  by_cases e : k = j
  · subst e; simp [Vector.getElem_set, Fin.ext_iff]
  · simp [e]

end Sys2Proof.Machine
end

