-- ==== Sys2Proof/Laws/Kept.lean ====
section
/-! SUPPORT. The relation `Kept s t`: `t` has the waiting commands of `s`, and every relation of Safety.lean that
holds of `s` holds of `t`. One lemma for each operation of Machine/Ops.lean says that it keeps them. -/

/- One theorem at a time: side by side, theorems that wait for one another hold a thread each. -/
set_option Elab.async false

namespace Sys2Proof.Machine

/-- What no operation of the hub breaks. -/
structure Kept (s t : State) : Prop where
  queue : t.pending = s.pending := by rfl
  alert : alertFollows s → alertFollows t := by exact fun h => h
  lock : lockFollows s → lockFollows t := by exact fun h => h
  lost : lostCounted s → lostCounted t := by exact fun h => h
  pool : s.mem.wf → t.mem.wf := by exact fun h => h
  orders : ordersWhole s → ordersWhole t := by exact fun h => h
  lines : linesUnique s → linesUnique t := by exact fun h => h
  links : linksBounded s → linksBounded t := by exact fun h => h
  park : parkBounded s → parkBounded t := by exact fun h => h
  buffer : bufferBounded s → bufferBounded t := by exact fun h => h
  limit : limitLegal s → limitLegal t := by exact fun h => h

theorem Kept.refl (s : State) : Kept s s := {}

theorem Kept.trans {s t u : State} (a : Kept s t) (b : Kept t u) : Kept s u where
  queue := b.queue.trans a.queue
  alert := b.alert ∘ a.alert
  lock := b.lock ∘ a.lock
  lost := b.lost ∘ a.lost
  pool := b.pool ∘ a.pool
  orders := b.orders ∘ a.orders
  lines := b.lines ∘ a.lines
  links := b.links ∘ a.links
  park := b.park ∘ a.park
  buffer := b.buffer ∘ a.buffer
  limit := b.limit ∘ a.limit

/-- `Kept.trans` read from the last operation inward. -/
theorem Kept.of {s t u : State} (b : Kept t u) (a : Kept s t) : Kept s u := a.trans b

/-- What every step of a fold keeps, the fold keeps. -/
theorem Kept.foldl {α : Type} {f : State → α → State} (hf : ∀ s a, Kept s (f s a)) (l : List α) (s : State) :
    Kept s (l.foldl f s) := by
  induction l generalizing s with
  | nil => exact .refl s
  | cons a l ih => exact (hf s a).trans (ih _)

/-- A choice between two kept states. -/
theorem Kept.ite {p : Prop} [Decidable p] {s t u : State} (a : p → Kept s t) (b : ¬p → Kept s u) :
    Kept s (if p then t else u) := by
  split
  · next h => exact a h
  · next h => exact b h

variable {s x : State}

/-! ### Alerts and records -/

theorem kept_setAlerts (a m : BitVec 16) (s : State) : Kept s (setAlerts a m s) :=
  { alert := fun _ => rfl }

theorem kept_latch (e : AlertEvent) (s : State) : Kept s (latch e s) := kept_setAlerts ..

theorem kept_protocolError (p : HostNo) (k : Byte) (c : ProtocolCause) (t : Option HostTag) (n : Option LineNo)
    (s : State) : Kept s (protocolError p k c t n s) := { alert := fun _ => rfl }

theorem kept_memError (n : LineNo) (a : MemAccess) (c : MemCause) (w : Option WriteSource) (s : State) :
    Kept s (memError n a c w s) := { alert := fun _ => rfl }

theorem kept_recordParity (k : SetNo) (w : WayNo) (e : ParityKind) (r : Reader) (s : State) :
    Kept s (recordParity k w e r s) := { alert := fun _ => rfl }

theorem kept_graceEvent (r : GraceRecord) (s : State) : Kept s (graceEvent r s) := { alert := fun _ => rfl }

/-! ### Link interfaces -/

/-- An update of a link interface that keeps its bounds. -/
theorem kept_updHli {f : Hli → Hli} (h : HostNo) (s : State)
    (hf : (hliOf s h).Bounded → (f (hliOf s h)).Bounded) : Kept s (updHli s h f) :=
  { links := fun hs p => by
      rw [hliOf_updHli]
      split
      · exact hf (hs h)
      · exact hs p }

theorem kept_updSlot (h : HostNo) (f : FenceSlot → FenceSlot) (s : State) : Kept s (updSlot s h f) := by
  rcases updSlot_cases s h f with ⟨_, e⟩ | ⟨_, _, e⟩ <;> rw [e]
  · exact .refl s
  · exact {}

theorem kept_setSlot (h : HostNo) (y : Option FenceSlot) (s : State) : Kept s (setSlot s h y) := {}

/-- Changing what is to be delivered keeps the bounds. -/
theorem Hli.Bounded.outbound {x : Hli} (b : x.Bounded) (l : List HubMsg) : { x with outbound := l }.Bounded :=
  { b with }

theorem kept_place (h : HostNo) (m : HubMsg) (s : State) : Kept s (place h m s) :=
  .ite (fun _ => .refl s) fun _ => .ite (fun _ => .refl s) fun _ => kept_updHli h s fun b => b.outbound _

theorem kept_dropTag (h : HostNo) (tag : HostTag) (s : State) : Kept s (dropTag h tag s) :=
  (kept_updHli h s fun b => { b with tagsOnce := b.tagsOnce.filter _ }).trans (kept_updSlot ..)

theorem kept_respond (h : HostNo) (tag : HostTag) (m : HubMsg) (s : State) : Kept s (respond h tag m s) :=
  (kept_dropTag h tag s).trans (kept_place ..)

/-- Taking a line that no queued return names out of a return list keeps the bounds. -/
theorem Hli.Bounded.dropReturn {x : Hli} (b : x.Bounded) (n : LineNo)
    (hn : n ∉ x.laneB.filterMap returnLine) : { x with returns := x.returns.filter (· ≠ n) }.Bounded :=
  { b with
    returns := (List.length_filter_le ..).trans b.returns
    returnsOnce := b.returnsOnce.filter _
    queuedOutstanding := fun m hm => by
      simp only [List.mem_filter, decide_eq_true_eq]
      exact ⟨b.queuedOutstanding m hm, fun e => hn (e ▸ hm)⟩ }

/-- The DONE of a return that, the bounds having held before, no longer waits in its host's lane B. -/
theorem Kept.doneReturn {s x : State} (a : Kept s x) (h : HostNo) (n : LineNo) (d : DoneStatus)
    (hn : linksBounded s → n ∉ (hliOf x h).laneB.filterMap returnLine) : Kept s (doneReturn h n d x) := by
  have b : Kept s (updHli x h fun y => { y with returns := y.returns.filter (· ≠ n) }) :=
    { a with
      links := fun hs p => by
        rw [hliOf_updHli]
        split
        · exact (a.links hs h).dropReturn n (hn hs)
        · exact a.links hs p }
  exact (b.trans (kept_updSlot ..)).trans (kept_place ..)

theorem kept_noticeOnline (k : NoticeKind) (h : HostNo) (w : HostNo → Bool) (s : State) :
    Kept s (noticeOnline k h w s) :=
  .foldl (fun s _ => .ite (fun _ => kept_place ..) fun _ => .refl s) _ s

/-! ### Ports and the cutover status -/

theorem kept_updPort (h : HostNo) (f : Port → Port) (s : State) : Kept s (updPort s h f) := {}

theorem kept_setPortState (h : HostNo) (p : PortState) (s : State) : Kept s (setPortState h p s) :=
  { alert := fun _ => rfl }

theorem kept_setCutover (c : CutoverStatus) (s : State) : Kept s (setCutover c s) := { lock := fun _ => rfl }

/-! ### Directory ways -/

/-- A replaced element changes a list's sum by what it adds and takes away. -/
theorem sum_set (l : List Nat) (i : Nat) (v : Nat) (h : i < l.length) : (l.set i v).sum + l[i] = l.sum + v := by
  induction l generalizing i with
  | nil => simp at h
  | cons a l ih =>
    cases i with
    | zero => simp; omega
    | succ i =>
      have := ih i (by simpa using h)
      simp only [List.set_cons_succ, List.sum_cons, List.getElem_cons_succ]
      omega

/-- An element is at most its list's sum. -/
theorem getElem_le_sum (l : List Nat) (i : Nat) (h : i < l.length) : l[i] ≤ l.sum := by
  have := sum_set l i 0 h
  omega

theorem lostIn_set (d : DirSet) (w : WayNo) (v : Way) :
    lostIn { d with ways := d.ways.set w v } + lostBit d.ways[w] = lostIn d + lostBit v := by
  have h := sum_set (d.ways.toList.map lostBit) w.val (lostBit v) (by simp)
  simpa [lostIn, List.map_set, Vector.toList_set] using h

theorem lostWays_putSet (s : State) (k : SetNo) (d : DirSet) :
    lostWays (putSet s k d).dir + lostIn (setOf s k) = lostWays s.dir + lostIn d := by
  have hk : k.toNat < 2048 := k.isLt
  have h := sum_set (s.dir.sets.toList.map lostIn) k.toNat (lostIn d) (by simpa using hk)
  simpa [lostWays, putSet, setOf, List.map_set, Vector.toList_set] using h

theorem lostIn_le (s : State) (k : SetNo) : lostIn (setOf s k) ≤ lostWays s.dir := by
  have hk : k.toNat < 2048 := k.isLt
  have h := getElem_le_sum (s.dir.sets.toList.map lostIn) k.toNat (by simpa using hk)
  simpa [lostWays, setOf] using h

theorem lostBit_le (d : DirSet) (w : WayNo) : lostBit d.ways[w] ≤ lostIn d := by
  have h := getElem_le_sum (d.ways.toList.map lostBit) w.val (by simp)
  simpa [lostIn] using h

/-- A change of one set that leaves its ways and re-orders its touch order. -/
theorem kept_putSet_order (k : SetNo) (l : List WayNo) (s : State)
    (hl : (setOf s k).order.Perm allWays → l.Perm allWays) :
    Kept s (putSet s k { setOf s k with order := l }) :=
  { lost := fun h => by
      have := lostWays_putSet s k { setOf s k with order := l }
      have e : lostIn { setOf s k with order := l } = lostIn (setOf s k) := rfl
      unfold lostCounted at h ⊢
      have c : (putSet s k { setOf s k with order := l }).dir.lostCount = s.dir.lostCount := rfl
      omega
    orders := fun h j => by
      rw [setOf_putSet]
      split
      · next e => subst e; exact hl (h k)
      · exact h j }

/-- The LOST count of a directory with one way replaced. -/
theorem lostWays_putWay (k : SetNo) (w : WayNo) (v : Way) (s : State) :
    lostWays (putWay k w v s).dir + lostBit (wayOf s k w) = lostWays s.dir + lostBit v := by
  have b := lostIn_set (setOf s k) w v
  have a : lostWays (putWay k w v s).dir + _ = _ :=
    lostWays_putSet s k { setOf s k with ways := (setOf s k).ways.set w v }
  change _ + lostBit (setOf s k).ways[w] = _
  dsimp only at a b ⊢
  omega

theorem kept_putWay (k : SetNo) (w : WayNo) (v : Way) (s : State) : Kept s (putWay k w v s) :=
  { lost := fun h => by
      have a := lostWays_putWay k w v s
      have c := lostIn_le s k
      have d : lostBit (wayOf s k w) ≤ _ := lostBit_le (setOf s k) w
      unfold lostCounted at h ⊢
      have e : (putWay k w v s).dir.lostCount = s.dir.lostCount + lostBit v - lostBit (wayOf s k w) := rfl
      omega
    orders := fun h j => by
      have e : setOf (putWay k w v s) j =
        setOf (putSet s k { setOf s k with ways := (setOf s k).ways.set w v }) j := rfl
      rw [e, setOf_putSet]
      split
      · next e => subst e; exact h k
      · exact h j }

/-- A way moved to an end of a whole touch order leaves it whole. -/
theorem perm_move (l : List WayNo) (w : WayNo) (h : l.Perm allWays) : (w :: l.filter (· ≠ w)).Perm allWays := by
  have hw : w ∈ l := h.symm.subset (by revert w; decide)
  have hd : l.Nodup := h.symm.nodup (by decide)
  refine List.Perm.trans ?_ h
  have e : l.filter (· ≠ w) = l.erase w := by
    rw [hd.erase_eq_filter]; exact List.filter_congr fun x _ => by by_cases e : x = w <;> simp [e]
  rw [e]
  exact (List.perm_cons_erase hw).symm

/-- The ways taken out of a whole touch order and put back ahead leave it whole. -/
theorem perm_together (l ways : List WayNo) (h : l.Perm allWays) (hw : ways.Nodup) :
    (ways ++ l.filter (· ∉ ways)).Perm allWays := by
  refine List.Perm.trans ?_ h
  have hd : l.Nodup := h.symm.nodup (by decide)
  have hs : ∀ w : WayNo, w ∈ l := fun w => h.symm.subset (by revert w; decide)
  refine (List.perm_ext_iff_of_nodup ?_ hd).mpr fun w => ?_
  · rw [List.nodup_append]
    refine ⟨hw, hd.filter _, ?_⟩
    rintro a ha b hb rfl
    simpa [ha] using List.of_mem_filter hb
  · by_cases e : w ∈ ways
    · simp [e, hs w]
    · simp [e]

theorem kept_noteFreed (l : List (SetNo × WayNo)) (s : State) : Kept s (noteFreed l s) := {}

theorem nodup_freedNow (s : State) (k : SetNo) : (freedNow s k).Nodup := List.Nodup.filter _ (by decide)

theorem kept_touchFreed (k : SetNo) (ways : List WayNo) (s : State) : Kept s (touchFreed k ways s) :=
  .of (kept_putSet_order k _ _ fun h => perm_together _ _ h (nodup_freedNow ..)) (kept_noteFreed ..)

theorem kept_touchLeast (k : SetNo) (w : WayNo) (s : State) : Kept s (touchLeast k w s) := kept_touchFreed ..

theorem kept_touchMost (k : SetNo) (w : WayNo) (s : State) : Kept s (touchMost k w s) :=
  .of (kept_noteFreed ..) (kept_putSet_order k _ s fun h => (List.perm_append_singleton ..).trans (perm_move _ w h))

theorem kept_reportChange (k : SetNo) (s : State) : Kept s (reportChange k s) := {}

theorem kept_makeFree (k : SetNo) (w : WayNo) (s : State) : Kept s (makeFree k w s) :=
  ((kept_putWay ..).trans (kept_touchLeast ..)).trans (kept_reportChange ..)

theorem kept_lostEvent (n : LineNo) (o : HostNo) (c : LostCause) (s : State) : Kept s (lostEvent n o c s) :=
  { alert := fun _ => rfl }

theorem kept_writeEntry (k : SetNo) (w : WayNo) (tag : DirTag) (e : Entry) (c : LostCause) (s : State) :
    Kept s (writeEntry k w tag e c s) := by
  unfold writeEntry
  refine (kept_putWay k w (wayFor (wayOf s k w) tag (maskEntry s e)) s).trans ?_
  cases e with
  | owned o => exact .ite (fun _ => kept_lostEvent ..) fun _ => .refl _
  | _ => exact .refl _

/-! ### Trackers -/

@[simp] theorem lineHeld_setTracker (t u : TrackerNo) (y : Option Tracker) (s : State) :
    lineHeld (setTracker s t y) u = if t = u then y.map (fun tr => tr.line) else lineHeld s u := by
  unfold lineHeld
  rw [trackerOf_setTracker]
  split <;> rfl

theorem kept_freeSlot (t : TrackerNo) (s : State) : Kept s (setTracker s t none) :=
  { lines := fun h a b n ha hb => by
      rw [lineHeld_setTracker] at ha hb
      split at ha
      · simp at ha
      split at hb
      · simp at hb
      exact h a b n ha hb }

/-- An update of a tracker that leaves its line alone. -/
theorem kept_updTracker {f : Tracker → Tracker} (t : TrackerNo) (s : State) (hf : ∀ tr, (f tr).line = tr.line) :
    Kept s (updTracker s t f) := by
  rcases updTracker_cases s t f with ⟨_, e⟩ | ⟨tr, ht, e⟩ <;> rw [e]
  · exact .refl s
  · have hl : ∀ u, lineHeld (setTracker s t (some (f tr))) u = lineHeld s u := fun u => by
      rw [lineHeld_setTracker]
      split
      · next e => subst e; simp [lineHeld, ht, hf]
      · rfl
    exact { lines := fun h a b n ha hb => h a b n (hl a ▸ ha) (hl b ▸ hb) }

/-- No tracker holds a line on which none is found. -/
theorem lineHeld_of_trackerOn_none {s : State} {n : LineNo} (h : trackerOn s n = none) (t : TrackerNo) :
    lineHeld s t ≠ some n := by
  unfold trackerOn at h
  rw [List.find?_eq_none] at h
  have := h t (by simp [allTrackers])
  unfold lineHeld
  cases e : trackerOf s t with
  | none => simp
  | some tr => simpa [e] using this

/-- A tracker taken for a line on which none stands. -/
theorem kept_alloc (t : TrackerNo) (tr : Tracker) (s : State) (h : trackerOn s tr.line = none) :
    Kept s (setTracker s t (some tr)) :=
  { lines := fun hs a b n ha hb => by
      rw [lineHeld_setTracker] at ha hb
      have hn := lineHeld_of_trackerOn_none h
      split at ha <;> split at hb
      · next e f => exact e.symm.trans f
      · next e f => simp only [Option.map_some, Option.some.injEq] at ha; exact absurd (ha ▸ hb) (hn b)
      · next e f => simp only [Option.map_some, Option.some.injEq] at hb; exact absurd (hb ▸ ha) (hn a)
      · exact hs a b n ha hb }

/-! ### The pool -/

theorem lineCells_wf (n : LineNo) (d : LineData) :
    (lineCells n d).Pairwise (fun a b => a.1 < b.1) ∧
      ∀ c ∈ lineCells n d, c.2 ≠ 0 ∧ 64 * n.toNat ≤ c.1 ∧ c.1 < 64 * n.toNat + 64 := by
  constructor
  · unfold lineCells
    rw [List.pairwise_filterMap]
    refine List.pairwise_lt_range.imp ?_
    intro i j hij b hb c hc
    split at hb <;> split at hc <;> simp_all
    obtain rfl := hb; obtain rfl := hc
    simpa using hij
  · intro c hc
    unfold lineCells at hc
    rw [List.mem_filterMap] at hc
    obtain ⟨i, hi, e⟩ := hc
    rw [List.mem_range] at hi
    split at e
    · simp at e
    · next hne =>
      simp only [Option.some.injEq] at e
      subst e
      exact ⟨hne, by simp, by simp; omega⟩

theorem putLine_wf (l : List Host.Cell) (n : LineNo) (d : LineData)
    (h : l.Pairwise (fun a b => a.1 < b.1)) (hb : ∀ c ∈ l, c.2 ≠ 0 ∧ c.1 < 268435456) :
    (putLine l n d).Pairwise (fun a b => a.1 < b.1) ∧ ∀ c ∈ putLine l n d, c.2 ≠ 0 ∧ c.1 < 268435456 := by
  have hc := lineCells_wf n d
  have hn : n.toNat < 4194304 := n.isLt
  constructor
  · unfold putLine
    rw [List.pairwise_append, List.pairwise_append]
    refine ⟨h.filter _, ⟨hc.1, h.filter _, ?_⟩, ?_⟩
    · intro a ha b hb'
      have := (hc.2 a ha).2.2
      have := List.of_mem_filter hb'
      simp at this
      omega
    · intro a ha b hb'
      have h1 := List.of_mem_filter ha
      simp at h1
      rw [List.mem_append] at hb'
      rcases hb' with hb' | hb'
      · have := (hc.2 b hb').2.1; omega
      · have := List.of_mem_filter hb'; simp at this; omega
  · intro c hm
    unfold putLine at hm
    rw [List.mem_append, List.mem_append] at hm
    rcases hm with hm | hm | hm
    · exact hb c (List.mem_of_mem_filter hm)
    · have := hc.2 c hm; exact ⟨this.1, by omega⟩
    · exact hb c (List.mem_of_mem_filter hm)

theorem putCond_wf (l : List (LineNo × LineCond)) (n : LineNo) (c : LineCond)
    (h : l.Pairwise (fun a b => a.1.toNat < b.1.toNat)) (hg : ∀ x ∈ l, x.2 ≠ goodCond) :
    (putCond l n c).Pairwise (fun a b => a.1.toNat < b.1.toNat) ∧ ∀ x ∈ putCond l n c, x.2 ≠ goodCond := by
  unfold putCond
  constructor
  · rw [List.pairwise_append, List.pairwise_append]
    refine ⟨h.filter _, ⟨?_, h.filter _, ?_⟩, ?_⟩
    · split <;> simp
    · intro a ha b hb
      have := List.of_mem_filter hb
      split at ha <;> simp_all
    · intro a ha b hb
      have h1 := List.of_mem_filter ha
      simp at h1
      rw [List.mem_append] at hb
      rcases hb with hb | hb
      · split at hb <;> simp_all
      · have := List.of_mem_filter hb; simp at this; omega
  · intro x hx
    rw [List.mem_append, List.mem_append] at hx
    rcases hx with hx | hx | hx
    · exact hg x (List.mem_of_mem_filter hx)
    · split at hx
      · simp at hx
      · simp at hx; subst hx; assumption
    · exact hg x (List.mem_of_mem_filter hx)

theorem kept_writePool (n : LineNo) (d : LineData) (p : Bool) (s : State) : Kept s (writePool n d p s) :=
  { pool := fun h =>
      have a := putLine_wf s.mem.pool n d h.1 h.2.1
      have b := putCond_wf s.mem.conds n ⟨p, none⟩ h.2.2.1 h.2.2.2
      ⟨a.1, a.2, b.1, b.2⟩ }

end Sys2Proof.Machine
end

