-- ==== Sys2Proof/Laws/KeptPool.lean ====
section
/-! SUPPORT. The operations of Machine/PoolOps.lean keep the relations of Safety.lean. -/

/- One theorem at a time: side by side, theorems that wait for one another hold a thread each. -/
set_option Elab.async false

namespace Sys2Proof.Machine

/-- A read of the pool records at most an error. -/
theorem kept_readPool (n : LineNo) (a : MemAccess) (w : Option WriteSource) (s : State) :
    Kept s (readPool n a w s).2 := by
  unfold readPool
  dsimp only
  split
  · exact .refl s
  · exact Kept.trans (t := { s with freeCount := s.freeCount + 1 }) {} (kept_memError ..)

/-! ### The write buffer -/

/-- Whether a write of a line may be placed: a slot is free, or the buffer has an entry for the line (R136). -/
def roomFor (m : Memory) (n : LineNo) : Prop := m.wbuf.length < 8 ∨ m.wbuf.any (fun e => e.line = n)

/-- A change of entries that leaves their lines keeps the bounds of the buffer. -/
theorem bounded_map {b : List WbEntry} (f : WbEntry → WbEntry) (hf : ∀ e, (f e).line = e.line)
    (h : b.length ≤ 8 ∧ (b.map (fun e => e.line)).Nodup) :
    (b.map f).length ≤ 8 ∧ ((b.map f).map (fun e => e.line)).Nodup := by
  have e : (b.map f).map (fun e => e.line) = b.map (fun e => e.line) := by simp [hf]
  exact ⟨by simpa using h.1, e ▸ h.2⟩

/-- Leaving entries out keeps the bounds of the buffer. -/
theorem bounded_filter {b : List WbEntry} (p : WbEntry → Bool)
    (h : b.length ≤ 8 ∧ (b.map (fun e => e.line)).Nodup) :
    (b.filter p).length ≤ 8 ∧ ((b.filter p).map (fun e => e.line)).Nodup :=
  ⟨(List.length_filter_le ..).trans h.1, h.2.sublist (List.filter_sublist.map _)⟩

theorem bounded_placeIn (w : Write) {b : List WbEntry} (h : b.length ≤ 8 ∧ (b.map (fun e => e.line)).Nodup)
    (room : b.length < 8 ∨ b.any (fun e => e.line = w.line)) :
    (placeIn w b).length ≤ 8 ∧ ((placeIn w b).map (fun e => e.line)).Nodup := by
  unfold placeIn
  split
  · exact bounded_map _ (fun e => by split <;> rfl) h
  · next hn =>
    refine ⟨by simp; rcases room with r | r <;> [omega; exact absurd r hn], ?_⟩
    rw [List.map_append, List.nodup_append]
    refine ⟨h.2, by simp, ?_⟩
    intro a ha c hc
    simp only [List.map_cons, List.map_nil, List.mem_singleton] at hc
    subst hc
    rintro rfl
    obtain ⟨e, he, hl⟩ := List.mem_map.mp ha
    exact hn (List.any_eq_true.mpr ⟨e, he, by simpa using hl⟩)

theorem kept_placeWrite (w : Write) (s : State) (room : roomFor s.mem w.line) : Kept s (placeWrite w s) :=
  { buffer := fun h => bounded_placeIn w h room }

theorem kept_addClaim (c : WbClaim) (s : State) : Kept s (addClaim c s) := {}

theorem kept_dropClaim (c : WbClaim) (s : State) : Kept s (dropClaim c s) := {}

theorem kept_markTrackerPlaced (t : TrackerNo) (tr : Tracker) (s : State) : Kept s (markTrackerPlaced t tr s) :=
  .foldl (fun _ _ => kept_updSlot ..) _ s

theorem kept_markReturnPlaced (h : HostNo) (n : LineNo) (s : State) : Kept s (markReturnPlaced h n s) :=
  kept_updSlot ..

theorem kept_markAbsorbed (h : HostNo) (n : LineNo) (t : TrackerNo) (s : State) : Kept s (markAbsorbed h n t s) :=
  kept_updSlot ..

theorem kept_markDrained (n : LineNo) (s : State) : Kept s (markDrained n s) :=
  .foldl (fun _ _ => kept_updSlot ..) _ s

/-! ### Drains and the arbiter -/

theorem kept_grantDrain (e : WbEntry) (s : State) : Kept s (grantDrain e s) :=
  { buffer := fun h => bounded_map _ (fun e => by split <;> rfl) h }

theorem kept_drainToPool (e : WbEntry) (s : State) : Kept s (drainToPool e s) :=
  .ite (fun _ => kept_writePool ..) fun _ => (kept_readPool ..).trans (kept_writePool ..)

theorem bounded_afterDrain (c : Bool) (n : LineNo) {b : List WbEntry}
    (h : b.length ≤ 8 ∧ (b.map (fun e => e.line)).Nodup) :
    (afterDrain c n b).length ≤ 8 ∧ ((afterDrain c n b).map (fun e => e.line)).Nodup := by
  have key : ((afterDrain c n b).map (fun e => e.line)).Sublist (b.map (fun e => e.line)) := by
    unfold afterDrain
    induction b with
    | nil => simp
    | cons e b ih =>
      have hb := ih ⟨by have := h.1; simp at this; omega, (List.nodup_cons.mp h.2).2⟩
      rw [List.filterMap_cons]
      split
      · exact hb.trans (List.sublist_cons_self ..)
      · next y hy =>
        have hl : y.line = e.line := by
          split at hy
          · simp_all
          · split at hy
            · simp only [Option.some.injEq] at hy; rw [← hy]
            · simp at hy
        simp only [List.map_cons, hl]
        exact hb.cons_cons _
  exact ⟨by simpa using key.length_le.trans (by simpa using h.1), h.2.sublist key⟩

theorem kept_freePort (s : State) : Kept s (freePort s) :=
  .ite (fun _ => { pool := fun _ => by simp [Memory.wf] }) fun _ => {}

theorem kept_completeDrain (e : WbEntry) (s : State) : Kept s (completeDrain e s) := by
  unfold completeDrain
  dsimp only
  refine (kept_drainToPool e s).trans ?_
  generalize drainToPool e s = x
  have a : Kept x { x with mem := { x.mem with wbuf := afterDrain x.mem.clearing e.line x.mem.wbuf } } :=
    { buffer := fun h => bounded_afterDrain _ _ h }
  exact a.trans ((kept_freePort _).trans (.ite (fun _ => .refl _) fun _ => kept_markDrained ..))

theorem kept_grantRead (t : TrackerNo) (l : List TrackerNo) (s : State) : Kept s (grantRead t l s) := {}

theorem kept_arbiterChoice {s t : State} (h : arbiterChoice s = some t) : Kept s t := by
  unfold arbiterChoice at h
  split at h
  · cases h; exact kept_grantDrain ..
  · split at h <;> cases h
    · exact kept_grantDrain ..
    · exact kept_grantRead ..
  · cases h; exact kept_grantRead ..
  · cases h

theorem kept_dueArbiter {s t : State} (h : dueArbiter s = some t) : Kept s t := by
  unfold dueArbiter at h
  split at h
  · exact kept_arbiterChoice h
  · cases h

theorem kept_dueResetDrain {s t : State} (h : dueResetDrain s = some t) : Kept s t := by
  unfold dueResetDrain at h
  split at h
  · obtain ⟨e, _, rfl⟩ := Option.map_eq_some_iff.mp h
    exact kept_grantDrain ..
  · cases h

end Sys2Proof.Machine
end

