-- ==== Sys2Proof/Laws/KeptTracker.lean ====
section
/-! SUPPORT. The operations of Machine/TrackerOps.lean keep the relations of Safety.lean. -/

/- One theorem at a time: side by side, theorems that wait for one another hold a thread each. -/
set_option Elab.async false

namespace Sys2Proof.Machine

/-! ### Freeing, replying -/

theorem kept_freeTracker (t : TrackerNo) (s : State) : Kept s (freeTracker t s) := by
  unfold freeTracker
  split
  · exact .refl s
  · exact (kept_freeSlot t s).trans (Kept.ite (fun _ => Kept.trans (Kept.mk) (kept_reportChange ..)) fun _ => {})

theorem kept_leaveVictimWait (t : TrackerNo) (s : State) : Kept s (leaveVictimWait t s) := {}

theorem kept_sendResponse (tr : Tracker) (r : Option RefuseReason) (s : State) : Kept s (sendResponse tr r s) := by
  unfold sendResponse
  split
  · exact .refl s
  · split
    · exact kept_respond ..
    · exact .ite (fun _ => kept_respond ..) fun _ => kept_respond ..

theorem kept_handOver (k : SetNo) (w : WayNo) (y : Option TrackerNo) (s : State) : Kept s (handOver k w y s) := by
  unfold handOver
  split
  · exact .refl s
  · split
    · exact .refl s
    · exact .ite (fun _ => kept_putWay ..) fun _ => {}

theorem kept_touchWritten (k : SetNo) (w : WayNo) (s : State) : Kept s (touchWritten k w s) :=
  .ite (fun _ => kept_touchLeast ..) fun _ => kept_touchMost ..

theorem kept_commit (t : TrackerNo) (tr : Tracker) (e : Entry) (s : State) : Kept s (commit t tr e s) := by
  unfold commit
  dsimp only
  split
  · exact .refl s
  · exact (((kept_writeEntry ..).trans (kept_touchWritten ..)).trans (kept_handOver ..)).trans (kept_reportChange ..)

theorem kept_reply (t : TrackerNo) (r : Option RefuseReason) (s : State) : Kept s (reply t r s) := by
  unfold reply
  split
  · exact .refl s
  · exact ((kept_sendResponse ..).trans (kept_commit ..)).trans (kept_freeTracker ..)

/-! ### Writing and reading -/

theorem kept_claimWrite (t : TrackerNo) (s : State) : Kept s (claimWrite t s) :=
  .of (kept_addClaim ..) (kept_updTracker _ _ fun _ => rfl)

theorem kept_writeOrReply (t : TrackerNo) (s : State) : Kept s (writeOrReply t s) := by
  unfold writeOrReply
  split
  · exact .refl s
  · exact .ite (fun _ => kept_claimWrite ..) fun _ => kept_reply ..

theorem kept_contentsReady (t : TrackerNo) (s : State) : Kept s (contentsReady t s) :=
  .of (kept_writeOrReply ..) (kept_updTracker _ _ fun tr => by split <;> rfl)

theorem kept_fillBuffer (t : TrackerNo) (d : LineData) (p : Bool) (y : DataSource) (s : State) :
    Kept s (fillBuffer t d p y s) := kept_updTracker t s fun _ => rfl

theorem kept_requestRead (t : TrackerNo) (s : State) : Kept s (requestRead t s) := by
  unfold requestRead
  split
  · exact .refl s
  · next tr _ =>
    dsimp only
    refine Kept.trans (t := updTracker s t fun tr => { tr with phase := .memWait })
      (kept_updTracker t s fun _ => rfl) ?_
    generalize updTracker s t _ = x
    split
    · exact .ite (fun _ => (kept_fillBuffer ..).trans (kept_contentsReady ..)) fun _ =>
        { buffer := fun h => bounded_map _ (fun e => by split <;> rfl) h }
    · exact {}

/-- The way that a scrub ends with is made FREE and handed over. -/
theorem kept_scrubWay (t : TrackerNo) (tr : Tracker) (s : State) :
    Kept s (match boundWay s (lineSet tr.line) t with
      | none => s
      | some w => reportChange (lineSet tr.line)
          (handOver (lineSet tr.line) w tr.waitingRequester
            (touchLeast (lineSet tr.line) w (putFree (lineSet tr.line) w s)))) := by
  split
  · exact .refl s
  · exact .of (kept_reportChange ..) (.of (kept_handOver ..) (.of (kept_touchLeast ..) (kept_putWay ..)))

theorem kept_endScrub (t : TrackerNo) (s : State) : Kept s (endScrub t s) := by
  unfold endScrub
  split
  · exact .refl s
  · next tr _ =>
    dsimp only
    have a := kept_scrubWay t tr s
    split
    · exact .of (kept_freeTracker ..) a
    · exact .of (kept_freeTracker ..) a
    · exact .of (kept_updTracker _ _ fun _ => rfl) a

/-! ### The recall round -/

theorem kept_goOn (t : TrackerNo) (s : State) : Kept s (goOn t s) := by
  unfold goOn
  split
  · exact .refl s
  · refine .ite (fun _ => .ite (fun _ => kept_claimWrite ..) fun _ => kept_endScrub ..) fun _ => ?_
    split
    · exact kept_writeOrReply ..
    · exact kept_writeOrReply ..
    · exact .ite (fun _ => kept_reply ..) fun _ => kept_writeOrReply ..
    · exact kept_writeOrReply ..
    · exact .ite (fun _ => kept_reply ..) fun _ =>
        .ite (fun _ => kept_contentsReady ..) fun _ => kept_requestRead ..

theorem kept_startRound (t : TrackerNo) (l : List (HostNo × RecallKind)) (s : State) : Kept s (startRound t l s) := by
  unfold startRound
  split
  · exact .refl s
  · split
    · exact kept_goOn ..
    · exact (Kept.foldl (fun _ _ => kept_place ..) _ s).trans (kept_updTracker _ _ fun _ => rfl)

theorem kept_startScrub (t : TrackerNo) (s : State) : Kept s (startScrub t s) :=
  .of (kept_startRound ..) (kept_updTracker _ _ fun _ => rfl)

theorem kept_bindWay (k : SetNo) (w : WayNo) (t : TrackerNo) (s : State) : Kept s (bindWay k w t s) :=
  kept_putWay ..

theorem kept_startInternal (t : TrackerNo) (l : List (HostNo × RecallKind)) (e : Entry) (s : State) :
    Kept s (startInternal t l e s) :=
  .ite (fun _ => .of (kept_reply ..) (kept_updTracker _ _ fun _ => rfl)) fun _ =>
    .of (kept_startRound ..) (kept_updTracker _ _ fun _ => rfl)

/-! ### Release to re-park -/

theorem length_parkAhead (p : Parked) (l : List Parked) : (parkAhead p l).length = l.length + 1 := by
  induction l with
  | nil => rfl
  | cons q l ih => unfold parkAhead; split <;> simp [ih]

theorem kept_reparkNow (t : TrackerNo) (s : State) (room : s.disp.park.length < 48) : Kept s (reparkNow t s) := by
  unfold reparkNow
  split
  · exact .refl s
  · split
    · exact kept_freeTracker ..
    · next p _ =>
      have a : Kept s { s with disp := { s.disp with park := parkAhead p s.disp.park } } :=
        { park := fun _ => by
            change (parkAhead p s.disp.park).length ≤ 48
            rw [length_parkAhead]; omega }
      exact a.trans (kept_freeTracker ..)

theorem kept_giveUpReservation (t : TrackerNo) (s : State) : Kept s (giveUpReservation t s) := by
  unfold giveUpReservation
  split
  · exact .refl s
  · split
    · exact .refl s
    · exact .ite (fun _ => kept_makeFree ..) fun _ => .refl s

theorem kept_release (t : TrackerNo) (s : State) : Kept s (release t s) := by
  unfold release
  split
  · exact .refl s
  · refine ((kept_giveUpReservation t s).trans (kept_leaveVictimWait t _)).trans ?_
    dsimp only
    generalize leaveVictimWait t (giveUpReservation t s) = x
    refine .ite (fun c => kept_reparkNow t x c.2) fun _ => ?_
    exact Kept.trans (t := updTracker x t fun tr => { tr with phase := .setup })
      (kept_updTracker t x fun _ => rfl) {}

/-! ### Parity errors and the closing of a set -/

theorem kept_closeSet (k : SetNo) (s : State) : Kept s (closeSet k s) := by
  unfold closeSet
  dsimp only
  have a : Kept s { s with integ := { s.integ with purgeList := insertNew k s.integ.purgeList } } := {}
  refine a.trans ?_
  refine Kept.trans (Kept.foldl (fun s i => ?_) internalPool _) (Kept.foldl (fun _ _ => kept_release ..) _ _)
  split
  · exact .ite (fun _ => kept_updTracker _ _ fun _ => rfl) fun _ => .refl s
  · exact .refl s

theorem kept_handError (k : SetNo) (r : Reader) (s : State) (e : WayNo × ParityKind) : Kept s (handError k r s e) :=
  (kept_recordParity ..).trans (.ite (fun _ => kept_closeSet ..) fun _ => .refl _)

theorem kept_handErrors (k : SetNo) (l : List WayNo) (r : Reader) (s : State) : Kept s (handErrors k l r s) :=
  .foldl (kept_handError k r) _ s

/-! ### Asking for a way -/

theorem kept_waitForWay (t : TrackerNo) (s : State) : Kept s (waitForWay t s) :=
  Kept.trans (t := updTracker s t fun tr => { tr with phase := .victimWait }) (kept_updTracker t s fun _ => rfl) {}

theorem kept_claimEviction (t : TrackerNo) (s : State) : Kept s (claimEviction t s) := {}

theorem kept_askWay (t : TrackerNo) (s : State) : Kept s (askWay t s) := by
  unfold askWay
  split
  · exact .refl s
  · refine .ite (fun _ => kept_release ..) fun _ => ?_
    split
    · exact ((kept_putWay ..).trans (kept_leaveVictimWait ..)).trans (kept_goOn ..)
    · next tr _ _ _ _ =>
      refine (kept_handErrors (lineSet tr.line) allWays .reserve s).trans ?_
      dsimp only
      generalize handErrors _ _ _ s = x
      exact .ite (fun _ => kept_release ..) fun _ =>
        .ite (fun _ => (kept_waitForWay ..).trans (kept_claimEviction ..)) fun _ =>
        .ite (fun _ => kept_waitForWay ..) fun _ =>
        .ite (fun _ => (kept_leaveVictimWait ..).trans (kept_reply ..)) fun _ => kept_waitForWay ..

/-- The way that an eviction is given has no tracker on its line (R61, R164). -/
theorem trackerOn_victimOf {s : State} {k : SetNo} {w : WayNo} (h : victimOf s k = some w) :
    trackerOn s (lineOf (wayOf s k w).tag k) = none := by
  unfold victimOf at h
  split at h
  · next w' hw =>
    cases h
    have := List.find?_some hw
    simp only [isVictim, decide_eq_true_eq] at this
    exact this.2.2.2
  · have := List.find?_some h
    simp only [isScrubVictim, decide_eq_true_eq] at this
    exact this.2.2

theorem kept_grantEviction (a i : TrackerNo) (s : State) : Kept s (grantEviction a i s) := by
  unfold grantEviction
  split
  · exact .refl s
  · next tr _ =>
    refine .ite (fun _ => kept_release ..) fun _ => ?_
    refine (kept_handErrors (lineSet tr.line) allWays .reserve s).trans ?_
    dsimp only
    generalize handErrors _ _ _ s = x
    refine .ite (fun _ => .refl x) fun _ => ?_
    split
    · exact {}
    · next w hw =>
      have c := kept_alloc i
        { newTracker .evict (lineOf (wayOf x _ w).tag _) .tracked none .absent with waitingRequester := some a } x
        (trackerOn_victimOf hw)
      exact (c.trans (kept_bindWay ..)).trans (.ite (fun _ => kept_startScrub ..) fun _ => kept_startInternal ..)

/-! ### The lookup -/

theorem kept_lookupMiss (t : TrackerNo) (tr : Tracker) (s : State) : Kept s (lookupMiss t tr s) :=
  .ite (fun _ => .of (kept_askWay ..) (kept_updTracker _ _ fun _ => rfl)) fun _ =>
    .of (kept_goOn ..) (kept_updTracker _ _ fun _ => rfl)

theorem kept_lookupHit (t : TrackerNo) (tr : Tracker) (w : WayNo) (s : State) : Kept s (lookupHit t tr w s) := by
  unfold lookupHit
  split
  · exact .refl s
  · dsimp only
    split
    · exact .of (kept_reply ..) (.of (kept_updTracker _ _ fun _ => rfl) (kept_bindWay ..))
    · exact .of (kept_startRound ..) (.of (kept_updTracker _ _ fun _ => rfl) (kept_bindWay ..))

theorem kept_lookup (t : TrackerNo) (s : State) : Kept s (lookup t s) := by
  unfold lookup
  split
  · exact .refl s
  · next tr _ =>
    refine .ite (fun _ => kept_release ..) fun _ => ?_
    refine (kept_handErrors (lineSet tr.line) allWays .lookup s).trans ?_
    refine .ite (fun _ => kept_release ..) fun _ => ?_
    split
    · exact kept_lookupMiss ..
    · exact .ite (fun _ => (kept_bindWay ..).trans (kept_startScrub ..)) fun _ => kept_lookupHit ..

end Sys2Proof.Machine
end

