-- ==== Sys2Proof/Laws/KeptPort.lean ====
section
/-! SUPPORT. The operations of Machine/PortOps.lean and Machine/ReturnOps.lean keep the relations of Safety.lean. -/

/- One theorem at a time: side by side, theorems that wait for one another hold a thread each. -/
set_option Elab.async false

namespace Sys2Proof.Machine

/-! ### The start of a fence -/

/-- An interface with nothing queued or outstanding keeps its bounds. -/
theorem bounded_empty {x : Hli} (a : x.laneA = []) (b : x.laneB = []) (r : x.returns = []) (t : x.tags = []) :
    x.Bounded := by
  constructor <;> simp [a, b, r, t]

theorem kept_clearHli (h : HostNo) (s : State) : Kept s (updHli s h clearHli) :=
  kept_updHli h s fun _ => bounded_empty rfl rfl rfl rfl

theorem kept_walkerForfeit (h : HostNo) (s : State) : Kept s (walkerForfeit h s) :=
  .ite (fun _ => {}) fun _ => .ite (fun _ => {}) fun _ => {}

theorem line_letGo (h : HostNo) (tr : Tracker) : (letGo h tr).line = tr.line := by
  unfold letGo; split <;> rfl

theorem kept_trackersLetGo (h : HostNo) (s : State) : Kept s (trackersLetGo h s) :=
  .foldl (fun _ _ => kept_updTracker _ _ (line_letGo h)) _ s

theorem kept_purgeLetGo (h : HostNo) (s : State) : Kept s (purgeLetGo h s) := {}

/-- Leaving parked requests out keeps the park list's bound. -/
theorem kept_parkFilter (p : Parked → Bool) (passed : HostSet) (s : State) :
    Kept s { s with disp := { s.disp with park := s.disp.park.filter p, passedOver := passed } } :=
  { park := fun h => (List.length_filter_le ..).trans h }

theorem kept_dispatcherDrop (h : HostNo) (s : State) : Kept s (dispatcherDrop h s) := by
  unfold dispatcherDrop
  exact .of (.foldl (fun _ _ => kept_freeTracker ..) _ _) (.of (kept_parkFilter ..) (kept_setSlot ..))

theorem kept_startFence (h : HostNo) (r : FenceReason) (s : State) : Kept s (startFence h r s) := by
  unfold startFence
  exact .of (kept_purgeLetGo ..) (.of (kept_trackersLetGo ..) (.of (kept_walkerForfeit ..)
    (.of (kept_noticeOnline ..) (.of (kept_dispatcherDrop ..) (.of (kept_place ..)
      (.of (kept_dropClaim ..) (.of (kept_clearHli ..) (.of (kept_updPort ..)
        (.of (kept_latch ..) (kept_setPortState ..))))))))))

theorem kept_requestFence (h : HostNo) (r : FenceReason) (s : State) : Kept s (requestFence h r s) :=
  .ite (fun _ => .refl s) fun _ => .ite (fun _ => kept_startFence ..) fun _ => .refl s

/-! ### Deadlines -/

theorem kept_trackerDeadline (t : TrackerNo) (s : State) : Kept s (trackerDeadline t s) := by
  unfold trackerDeadline
  split
  · exact .refl s
  · exact .ite (fun _ => .refl s) fun _ =>
      .ite (fun _ => .of (kept_graceEvent ..) (kept_updTracker _ _ fun _ => rfl)) fun _ =>
        .of (.foldl (fun _ _ => kept_requestFence ..) _ _) (kept_updTracker _ _ fun _ => rfl)

theorem kept_purgeDeadline (s : State) : Kept s (purgeDeadline s) :=
  .ite (fun _ => .refl s) fun _ => .ite (fun _ => .of (kept_graceEvent ..) {}) fun _ =>
    .of (.foldl (fun _ _ => kept_requestFence ..) _ _) {}

/-! ### The ends of a departure and of a forfeit -/

/-- The refusal, one after another, of a list of requests. -/
theorem kept_refuseAll (h : HostNo) (l : List Request) (s : State) :
    Kept s (l.foldl (fun s r => respond h r.tag (.refuseReq r.tag .notOnline) s) s) := by
  apply Kept.foldl
  intro s r
  exact kept_respond h r.tag (.refuseReq r.tag .notOnline) s

/-- The lane A queue, the tags and the stalled mark cleared. -/
theorem kept_clearRequests (h : HostNo) (s : State) :
    Kept s (updHli s h (fun x => { x with laneA := [], tags := [], stalled := false })) := by
  apply kept_updHli
  intro b
  exact { b with requests := Nat.zero_le _, tagsOnce := List.nodup_nil }

theorem kept_endDeparture (h : HostNo) (s : State) : Kept s (endDeparture h s) := by
  unfold endDeparture
  exact .of (kept_noticeOnline ..) (.of (kept_place ..) (Kept.of (t := updHli _ h fun x =>
    { x with laneA := [], tags := [], stalled := false }) {} (.of (kept_clearRequests ..)
      (.of (kept_refuseAll ..) (kept_setPortState ..)))))

theorem kept_duePort {h : HostNo} {s t : State} (e : duePort h s = some t) : Kept s t := by
  unfold duePort at e
  split at e
  · split at e
    · exact Option.some.inj e ▸ kept_endDeparture h s
    · cases e
  · split at e
    · exact Option.some.inj e ▸ kept_setPortState ..
    · cases e
  · cases e

/-! ### Operations that leave every link interface alone -/

/-- A fold of operations that leave the link interfaces alone leaves them alone. -/
theorem hli_foldl {α : Type} {f : State → α → State} (hf : ∀ s a, (f s a).hli = s.hli) (l : List α) (s : State) :
    (l.foldl f s).hli = s.hli := by
  induction l generalizing s with
  | nil => rfl
  | cons a l ih => exact (ih _).trans (hf s a)

@[simp] theorem hli_freeTracker (t : TrackerNo) (s : State) : (freeTracker t s).hli = s.hli := by
  unfold freeTracker
  split
  · rfl
  · dsimp only; split <;> rfl

@[simp] theorem hli_reparkNow (t : TrackerNo) (s : State) : (reparkNow t s).hli = s.hli := by
  unfold reparkNow
  split
  · rfl
  · split <;> simp

@[simp] theorem hli_release (t : TrackerNo) (s : State) : (release t s).hli = s.hli := by
  have g : (giveUpReservation t s).hli = s.hli := by
    unfold giveUpReservation
    split
    · rfl
    · split
      · rfl
      · split <;> rfl
  unfold release
  split
  · rfl
  · dsimp only
    split
    · rw [hli_reparkNow]; exact g
    · exact (updTracker_hli ..).trans g

@[simp] theorem hli_closeSet (k : SetNo) (s : State) : (closeSet k s).hli = s.hli := by
  unfold closeSet
  dsimp only
  rw [hli_foldl fun s t => hli_release t s, hli_foldl]
  intro s i
  split
  · split <;> simp
  · rfl

@[simp] theorem hli_handErrors (k : SetNo) (l : List WayNo) (r : Reader) (s : State) :
    (handErrors k l r s).hli = s.hli := by
  unfold handErrors
  refine hli_foldl (fun s e => ?_) _ s
  unfold handError
  dsimp only
  split <;> simp

@[simp] theorem hli_placeReturn (h : HostNo) (r : Return) (s : State) : (placeReturn h r s).hli = s.hli := by
  unfold placeReturn
  split
  · exact updSlot_hli ..
  · rfl

@[simp] theorem hli_writeEntry (k : SetNo) (w : WayNo) (tag : DirTag) (e : Entry) (c : LostCause) (s : State) :
    (writeEntry k w tag e c s).hli = s.hli := by
  unfold writeEntry
  cases e with
  | owned o => dsimp only; split <;> rfl
  | _ => rfl

@[simp] theorem hli_returnUpdate (k : SetNo) (w : WayNo) (tag : DirTag) (e : Entry) (s : State) :
    (returnUpdate k w tag e s).hli = s.hli := by
  unfold returnUpdate touchWritten
  dsimp only
  repeat' split
  all_goals simp

/-- The link interface of a host depends on the state's interfaces alone. -/
theorem hliOf_congr {s t : State} (h : t.hli = s.hli) (p : HostNo) : hliOf t p = hliOf s p := by
  unfold hliOf; rw [h]

/-! ### Returns -/

/-- The bounds having held at `s`, a line is named by no return that waits in a host's lane B at `x`. -/
def notQueued (s x : State) (h : HostNo) (n : LineNo) : Prop :=
  linksBounded s → n ∉ (hliOf x h).laneB.filterMap returnLine

theorem notQueued_congr {s x y : State} (e : y.hli = x.hli) {h : HostNo} {n : LineNo} (a : notQueued s x h n) :
    notQueued s y h n := by
  unfold notQueued; rw [hliOf_congr e]; exact a

variable {s x : State}

theorem Kept.strayReturn (a : Kept s x) (h : HostNo) (r : Return) (n : notQueued s x h r.line) :
    Kept s (strayReturn h r x) := .of (kept_protocolError ..) (a.doneReturn _ _ _ n)

theorem Kept.absorb (a : Kept s x) (h : HostNo) (r : Return) (t : TrackerNo) (n : notQueued s x h r.line) :
    Kept s (absorb h r t x) := by
  unfold Machine.absorb
  extract_lets s1
  have a1 : Kept s s1 := a.trans (kept_updTracker _ _ fun _ => rfl)
  have n1 : notQueued s s1 h r.line := notQueued_congr (updTracker_hli ..) n
  have a2 : Kept s (if r.modified then markAbsorbed h r.line t s1 else s1) :=
    a1.trans (.ite (fun _ => kept_markAbsorbed ..) fun _ => .refl s1)
  refine a2.doneReturn _ _ _ (notQueued_congr ?_ n1)
  split
  · exact updSlot_hli ..
  · rfl

theorem Kept.meetTracker (a : Kept s x) (h : HostNo) (r : Return) (t : TrackerNo) (n : notQueued s x h r.line) :
    Kept s (meetTracker h r t x) := by
  unfold Machine.meetTracker
  split
  · exact a
  · exact .ite (fun _ => .ite (fun _ => a.absorb _ _ _ n) fun _ => a.strayReturn _ _ n) fun _ =>
      .ite (fun _ => a.doneReturn _ _ _ n) fun _ => a.strayReturn _ _ n

theorem kept_placeReturn (h : HostNo) (r : Return) (s : State)
    (room : r.isWriteback → r.modified → roomFor s.mem r.line) : Kept s (placeReturn h r s) :=
  .ite (fun e => .of (kept_markReturnPlaced ..) (kept_placeWrite _ _ (room e.1 e.2))) fun _ => .refl s

/-- Handing parity errors over leaves the write buffer alone. -/
theorem mem_foldl {α : Type} {f : State → α → State} (hf : ∀ s a, (f s a).mem = s.mem) (l : List α) (s : State) :
    (l.foldl f s).mem = s.mem := by
  induction l generalizing s with
  | nil => rfl
  | cons a l ih => exact (ih _).trans (hf s a)

@[simp] theorem mem_freeTracker (t : TrackerNo) (s : State) : (freeTracker t s).mem = s.mem := by
  unfold freeTracker
  split
  · rfl
  · dsimp only; split <;> rfl

@[simp] theorem mem_reparkNow (t : TrackerNo) (s : State) : (reparkNow t s).mem = s.mem := by
  unfold reparkNow
  split
  · rfl
  · split <;> simp

@[simp] theorem mem_release (t : TrackerNo) (s : State) : (release t s).mem = s.mem := by
  have g : (giveUpReservation t s).mem = s.mem := by
    unfold giveUpReservation
    split
    · rfl
    · split
      · rfl
      · split <;> rfl
  unfold release
  split
  · rfl
  · dsimp only
    split
    · rw [mem_reparkNow]; exact g
    · exact (updTracker_mem ..).trans g

@[simp] theorem mem_closeSet (k : SetNo) (s : State) : (closeSet k s).mem = s.mem := by
  unfold closeSet
  dsimp only
  rw [mem_foldl fun s t => mem_release t s, mem_foldl]
  intro s i
  split
  · split <;> simp
  · rfl

@[simp] theorem mem_handErrors (k : SetNo) (l : List WayNo) (r : Reader) (s : State) :
    (handErrors k l r s).mem = s.mem := by
  unfold handErrors
  refine mem_foldl (fun s e => ?_) _ s
  unfold handError
  dsimp only
  split <;> simp

/-- Whether a return may be judged: a modified WRITEBACK that finds no tracker has room in the buffer. -/
def mayJudge (s : State) (r : Return) : Prop :=
  r.isWriteback → r.modified → metTracker s r.line = none → roomFor s.mem r.line

theorem Kept.closedSetReturn (a : Kept s x) (h : HostNo) (r : Return) (n : notQueued s x h r.line)
    (room : r.isWriteback → r.modified → roomFor x.mem r.line) : Kept s (closedSetReturn h r x) := by
  unfold Machine.closedSetReturn
  dsimp only
  replace a := a.trans (kept_handErrors (lineSet r.line) allWays .ret x)
  have e : (handErrors (lineSet r.line) allWays .ret x).hli = x.hli := hli_handErrors ..
  have m : (handErrors (lineSet r.line) allWays .ret x).mem = x.mem := mem_handErrors ..
  generalize handErrors (lineSet r.line) allWays .ret x = y at a e m
  replace n := notQueued_congr e n
  replace room : r.isWriteback → r.modified → roomFor y.mem r.line := m ▸ room
  have placed := a.trans (kept_placeReturn h r y room)
  split
  · exact placed.doneReturn _ _ _ (notQueued_congr (hli_placeReturn ..) n)
  · exact .ite (fun _ => a.strayReturn _ _ n) fun _ =>
      Kept.doneReturn (.of (kept_touchLeast ..) (.of (kept_putWay ..) placed)) _ _ _ (notQueued_congr
        (((touchLeast_hli ..).trans (putWay_hli ..)).trans (hli_placeReturn ..)) n)

theorem kept_returnUpdate (k : SetNo) (w : WayNo) (tag : DirTag) (e : Entry) (s : State) :
    Kept s (returnUpdate k w tag e s) := by
  have a : Kept s (touchWritten k w (writeEntry k w tag e .commit s)) :=
    .of (kept_touchWritten ..) (kept_writeEntry ..)
  unfold returnUpdate
  generalize touchWritten k w (writeEntry k w tag e .commit s) = x at a
  exact .ite (fun _ => .of (kept_reportChange ..) a) fun _ => a

theorem Kept.openSetReturn (a : Kept s x) (h : HostNo) (r : Return) (n : notQueued s x h r.line)
    (room : r.isWriteback → r.modified → roomFor x.mem r.line) : Kept s (openSetReturn h r x) := by
  unfold Machine.openSetReturn
  dsimp only
  replace a := a.trans (kept_handErrors (lineSet r.line) allWays .ret x)
  have e : (handErrors (lineSet r.line) allWays .ret x).hli = x.hli := hli_handErrors ..
  have m : (handErrors (lineSet r.line) allWays .ret x).mem = x.mem := mem_handErrors ..
  generalize handErrors (lineSet r.line) allWays .ret x = y at a e m
  replace n := notQueued_congr e n
  replace room : r.isWriteback → r.modified → roomFor y.mem r.line := m ▸ room
  have placed := a.trans (kept_placeReturn h r y room)
  have stray := a.strayReturn h r n
  refine .ite (fun _ => placed.doneReturn _ _ _ (notQueued_congr (hli_placeReturn ..) n)) fun _ => ?_
  split
  · exact stray
  · split
    · exact .ite (fun _ => Kept.doneReturn (.of (kept_returnUpdate ..) placed) _ _ _ (notQueued_congr
        ((hli_returnUpdate ..).trans (hli_placeReturn ..)) n)) fun _ => stray
    · exact .ite (fun _ => Kept.doneReturn (.of (kept_returnUpdate ..) a) _ _ _
        (notQueued_congr (hli_returnUpdate ..) n)) fun _ => stray
    · exact stray

theorem Kept.judgeReturn (a : Kept s x) (h : HostNo) (r : Return) (n : notQueued s x h r.line)
    (room : mayJudge x r) : Kept s (judgeReturn h r x) := by
  unfold Machine.judgeReturn
  split
  · exact a.meetTracker _ _ _ n
  · next hm =>
    exact .ite (fun _ => a.closedSetReturn _ _ n fun p q => room p q hm) fun _ =>
      a.openSetReturn _ _ n fun p q => room p q hm

/-- Taking the head of lane B off keeps the bounds. -/
theorem Hli.Bounded.popLaneB {x : Hli} (b : x.Bounded) : { x with laneB := x.laneB.tail }.Bounded := by
  have sub : x.laneB.tail.Sublist x.laneB := List.tail_sublist _
  exact { b with
    queuedOnce := b.queuedOnce.sublist (sub.filterMap _)
    queuedOutstanding := fun n hn => b.queuedOutstanding n ((sub.filterMap _).subset hn)
    answersOnce := b.answersOnce.sublist (sub.filterMap _)
    answersMarked := fun t ht => b.answersMarked t ((sub.filterMap _).subset ht)
    purges := (sub.countP_le).trans b.purges
    controls := (sub.countP_le).trans b.controls }

theorem kept_popLaneB (h : HostNo) (s : State) : Kept s (popLaneB h s) := kept_updHli h s fun b => b.popLaneB

/-- The line of the return at the head is named by no other return in the queue. -/
theorem notQueued_popLaneB {h : HostNo} {r : Return} {s : State} (e : headReturn s h = some r) :
    notQueued s (popLaneB h s) h r.line := by
  intro hb hn
  have hq := (hb h).queuedOnce
  unfold headReturn at e
  simp only [popLaneB, hliOf_updHli, if_true] at hn
  cases hl : (hliOf s h).laneB with
  | nil => simp [hl] at e
  | cons m rest =>
    rw [hl] at hq hn e
    simp only [List.head?_cons, Option.bind_some] at e
    have hm : returnLine m = some r.line := by
      cases m <;> simp_all [returnOf, returnLine] <;> subst e <;> rfl
    rw [List.filterMap_cons_some hm] at hq
    exact (List.nodup_cons.mp hq).1 hn

theorem kept_processingEvent (h : HostNo) (r : Return) (s : State) (e : headReturn s h = some r)
    (room : mayJudge s r) : Kept s (processingEvent h r s) :=
  (kept_popLaneB h s).judgeReturn h r (notQueued_popLaneB e) room

theorem kept_processReturn (h : HostNo) (s : State) : Kept s (processReturn h s) := by
  unfold processReturn
  split
  · exact .refl s
  · next r e =>
    refine .ite (fun _ => .refl s) fun _ => .ite (fun _ => kept_addClaim ..) fun hm =>
      kept_processingEvent h r s e fun p q m => absurd ?_ hm
    simp [mustClaim, p, q, m]

/-! ### Answers -/

theorem kept_judgeAnswer (h : HostNo) (t : TrackerNo) (tr : Tracker) (n : LineNo) (d : Held) (m p : Bool)
    (l : LineData) (s : State) : Kept s (judgeAnswer h t tr n d m p l s) := by
  have err (c : ProtocolCause) (x : State) : Kept x (protocolError h 0x12 c none (some n) x) := kept_protocolError ..
  have data (b : DataBuffer) (x : State) : Kept x (updTracker x t fun tr => { tr with buffer := some b }) :=
    kept_updTracker _ _ fun _ => rfl
  unfold judgeAnswer
  refine .ite (fun _ => err ..) fun _ => .ite (fun _ => ?_) fun _ => ?_
  · cases d with
    | owned => exact .ite (fun _ => data ..) fun _ => err ..
    | _ => exact .refl s
  · dsimp only
    refine Kept.trans (t := updTracker s t fun x => { x with kept := x.kept ||
      (tr.awaited.any (fun a => a.host = h ∧ a.kind = .share) && d ≠ .notHeld) })
      (kept_updTracker _ _ fun _ => rfl) ?_
    generalize updTracker s t _ = x
    refine .ite (fun _ => ?_) fun _ => ?_
    · cases d with
      | owned => exact .ite (fun _ => err ..) fun _ => data ..
      | notHeld => exact .ite (fun _ => .refl x) fun _ => err ..
      | shared => exact err ..
    · cases d with
      | owned => exact err ..
      | _ => exact .refl x

/-- The ANSWER at the head leaves lane B, and its tracker the answered set. -/
theorem Hli.Bounded.popAnswer {x : Hli} (b : x.Bounded) {m : LaneBMsg} {rest : List LaneBMsg} {t : TrackerNo}
    (e : x.laneB = m :: rest) (ht : answerTracker m = some t) :
    { x with laneB := rest, answered := x.answered.filter (· ≠ t) }.Bounded := by
  have p := b.popLaneB
  rw [e, List.tail_cons] at p
  have once := b.answersOnce
  rw [e, List.filterMap_cons_some ht] at once
  exact { p with
    answersMarked := fun u hu => by
      simp only [List.mem_filter, decide_eq_true_eq]
      exact ⟨p.answersMarked u hu, fun e => (List.nodup_cons.mp once).1 (e ▸ hu)⟩ }

theorem kept_processAnswer (h : HostNo) (s : State) : Kept s (processAnswer h s) := by
  unfold processAnswer
  split
  · next e =>
    dsimp only
    have a := kept_updHli h s (f := fun x => { x with laneB := _, answered := x.answered.filter (· ≠ _) })
      fun b => b.popAnswer e rfl
    split
    · exact a
    · exact .ite (fun _ => .of (kept_updTracker _ _ fun _ => rfl) (.of (kept_judgeAnswer ..) a)) fun _ => a
  · exact .refl s

/-- The PURGE_DONE at the head leaves lane B, and the mark is cleared. -/
theorem Hli.Bounded.popPurge {x : Hli} (b : x.Bounded) {k : SetNo} {rest : List LaneBMsg}
    (e : x.laneB = .purgeDone k :: rest) : { x with laneB := rest, purgeAnswer := false }.Bounded := by
  have p := b.popLaneB
  rw [e, List.tail_cons] at p
  have c := b.purges
  have h : x.purgeAnswer.toNat ≤ 1 := Bool.toNat_le _
  rw [e, List.countP_cons] at c
  exact { p with purges := by simp only [isPurgeDone, if_true] at c; simp only [Bool.toNat_false]; omega }

theorem kept_processPurgeDone (h : HostNo) (s : State) : Kept s (processPurgeDone h s) := by
  unfold processPurgeDone
  split
  · next e =>
    dsimp only
    have a := kept_updHli h s (f := fun x => { x with laneB := _, purgeAnswer := false }) fun b => b.popPurge e
    exact .ite (fun _ => .of (kept_purgeLetGo ..) a) fun _ => a
  · exact .refl s

end Sys2Proof.Machine
end

