-- ==== Sys2Proof/Laws/KeptWalker.lean ====
section
/-! SUPPORT. The operations of Machine/WalkerOps.lean and Machine/IntegrityOps.lean keep the relations of Safety.lean. -/

/- One theorem at a time: side by side, theorems that wait for one another hold a thread each. -/
set_option Elab.async false

namespace Sys2Proof.Machine

/-! ### The walker -/

theorem kept_forfeitUpdate (k : SetNo) (w : WayNo) (h : HostNo) (s : State) : Kept s (forfeitUpdate k w h s) := by
  unfold forfeitUpdate
  extract_lets x s1
  have a : Kept s s1 := kept_writeEntry ..
  exact .ite (fun _ => .of (kept_reportChange ..) (.of (kept_touchLeast ..) a)) fun _ => a

theorem kept_finishSet (s : State) : Kept s (finishSet s) := {}

theorem kept_skipSet (s : State) : Kept s (skipSet s) := {}

theorem kept_standAt (w : WayNo) (y : WalkWait) (s : State) : Kept s (standAt w y s) := {}

theorem kept_claimWalker (w : WayNo) (b : Bool) (s : State) : Kept s (claimWalker w b s) := {}

/-- The state an answer of `visitWay` carries. -/
def AfterWay.state : AfterWay → State
  | .goOn s => s
  | .stop s => s

theorem kept_visitWay (j : Job) (w : WayNo) (s : State) : Kept s (visitWay j w s).state := by
  unfold visitWay
  extract_lets k x s1 e
  split
  · exact .refl s
  · exact .of (kept_skipSet ..) (kept_handError ..)
  · have a : Kept s s1 := kept_handError ..
    split
    · exact a
    · exact .of (kept_claimWalker ..) a
  · split
    · split
      · exact .refl s
      · exact kept_forfeitUpdate ..
    · split
      · exact .refl s
      · split
        · exact kept_standAt ..
        · exact kept_claimWalker ..

theorem kept_scanWays (j : Job) (l : List WayNo) (s : State) : Kept s (scanWays j l s) := by
  induction l generalizing s with
  | nil => exact kept_finishSet s
  | cons w l ih =>
    have a := kept_visitWay j w s
    unfold scanWays
    split
    · next e => rw [e] at a; exact a.trans (ih _)
    · next e => rw [e] at a; exact a

theorem kept_resumeWalk (j : Job) (s : State) : Kept s (resumeWalk j s) :=
  .ite (fun _ => kept_skipSet s) fun _ => kept_scanWays ..

theorem kept_revisitSet (j : Job) (k : SetNo) (l : List SetNo) (s : State) : Kept s (revisitSet j k l s) :=
  .ite (fun _ => .of (kept_scanWays ..) {}) fun _ => .ite (fun _ => {}) fun _ => .refl s

theorem kept_visitSet (s : State) : Kept s (visitSet s) := by
  unfold visitSet
  split
  · exact .refl s
  · refine .ite (fun _ => .refl s) fun _ => .ite (fun _ => ?_) fun _ =>
      .ite (fun _ => kept_skipSet s) fun _ => kept_scanWays ..
    split
    · exact .refl s
    · exact kept_revisitSet ..

/-- A way that is not busy has no tracker on its line. -/
theorem trackerOn_of_not_busy {s : State} {k : SetNo} {w : WayNo} (h : isBusy s k w = false) :
    trackerOn s (lineOf (wayOf s k w).tag k) = none := by
  simp only [isBusy, Bool.or_eq_false_iff] at h
  simpa using h.2

theorem kept_startSweep (i : TrackerNo) (j : Job) (n : LineNo) (b : Bool) (s : State) (h : trackerOn s n = none) :
    Kept s (startSweep i j n b s) := by
  unfold startSweep
  extract_lets k w e round s1
  have a1 : Kept s s1 := .of (kept_bindWay ..) (kept_alloc i (newTracker .sweepRecall n .tracked none .absent) s h)
  exact .ite (fun _ => .of (kept_startScrub ..) (.of (kept_recordParity ..) (a1.trans {}))) fun _ =>
    .of (kept_startInternal ..) (a1.trans {})

theorem kept_grantWalker (i : TrackerNo) (s : State) : Kept s (grantWalker i s) := by
  unfold grantWalker
  split
  · refine .ite (fun _ => kept_skipSet s) fun _ => .ite (fun c => ?_) fun _ => kept_scanWays ..
    refine .of (kept_scanWays ..) (kept_startSweep _ _ _ _ _ ?_)
    simp only [claimHolds, Bool.and_eq_true, Bool.not_eq_true', decide_eq_true_eq] at c
    exact c.1.2 ▸ trackerOn_of_not_busy c.1.1
  · exact .refl s

theorem kept_takeJob (j : Job) (l : List Job) (s : State) : Kept s (takeJob j l s) :=
  .ite (fun _ => .of (kept_setCutover ..) {}) fun _ => {}

theorem kept_endCutoverDrain (s : State) : Kept s (endCutoverDrain s) := .of (kept_setCutover ..) {}

theorem kept_halted (b : Bool) (s : State) : Kept s { s with disp := { s.disp with halted := b } } := {}

theorem kept_swapTables (s : State) : Kept s (swapTables s) := by
  unfold swapTables
  exact .of (kept_halted ..) (.of (kept_noticeOnline ..) (.of (kept_latch ..) (.of (kept_setCutover ..) {})))

theorem kept_reportSweep (h : HostNo) (s : State) : Kept s (reportSweep h s) := kept_updPort ..

theorem kept_endJob (j : Job) (s : State) : Kept s (endJob j s) := by
  have a : Kept s { s with walker := { s.walker with current := none } } := {}
  cases j with
  | depart h => exact a.trans (kept_reportSweep ..)
  | forfeit h => exact a.trans (kept_reportSweep ..)
  | cutover => exact a.trans (kept_swapTables _)

/-- What is kept of the state that an answer may carry. -/
def KeptSome (s : State) (o : Option State) : Prop := ∀ t, o = some t → Kept s t

theorem KeptSome.none (s : State) : KeptSome s none := fun _ h => nomatch h

theorem KeptSome.some {s t : State} (a : Kept s t) : KeptSome s (some t) := fun _ h => Option.some.inj h ▸ a

theorem KeptSome.ite {p : Prop} [Decidable p] {s : State} {a b : Option State} (ha : p → KeptSome s a)
    (hb : ¬p → KeptSome s b) : KeptSome s (if p then a else b) := by
  split
  · next h => exact ha h
  · next h => exact hb h

theorem keptSome_dueWalker (s : State) : KeptSome s (dueWalker s) := by
  unfold dueWalker
  split
  · split
    · exact .none s
    · exact .some (kept_takeJob ..)
  · refine .ite (fun _ => .ite (fun _ => .none s) fun _ => .some (kept_endCutoverDrain s)) fun _ => ?_
    split
    · exact .some (kept_resumeWalk ..)
    · exact .ite (fun _ => .none s) fun _ => .some (kept_resumeWalk ..)
    · exact .none s
    · exact .ite (fun _ => .some (kept_endJob ..)) fun _ => .none s

/-! ### The purge slot -/

theorem kept_takePurge (k : SetNo) (l : List SetNo) (s : State) : Kept s (takePurge k l s) := {}

theorem kept_startPurging (s : State) : Kept s (startPurging s) := by
  unfold startPurging
  extract_lets asked s1
  have a : Kept s s1 := by
    apply Kept.foldl
    intro s h
    exact kept_place ..
  exact a.trans {}

theorem kept_freeTogether (k : SetNo) (ways : List WayNo) (s : State) : Kept s (freeTogether k ways s) :=
  .of (kept_touchFreed ..) (.foldl (fun _ _ => kept_putWay ..) ..)

/-- The purge slot, the trackers that wait to re-park and what the walker has been told may change. -/
theorem kept_slotIdle (y : Integrity) (l : List TrackerNo) (x : Walker) (s : State) :
    Kept s { s with integ := y, trk := { s.trk with reparkWait := l }, walker := x } := {}

theorem kept_clearSet (s : State) : Kept s (clearSet s) := by
  unfold clearSet
  exact .of (kept_reportChange ..) (.of (kept_latch ..) (.of (kept_slotIdle ..)
    (kept_freeTogether ..)))

theorem keptSome_duePurge (s : State) : KeptSome s (duePurge s) := by
  unfold duePurge
  split
  · split
    · exact .none s
    · exact .some (kept_takePurge ..)
  · exact .ite (fun _ => .none s) fun _ => .some (kept_startPurging s)
  · exact .ite (fun _ => .some (kept_clearSet s)) fun _ => .none s

end Sys2Proof.Machine
end

