-- ==== Sys2Proof/Laws/KeptLink.lean ====
section
/-! SUPPORT. The operations of Machine/DispatchOps.lean and Machine/LinkOps.lean keep the relations of Safety.lean. -/

/- One theorem at a time: side by side, theorems that wait for one another hold a thread each. -/
set_option Elab.async false

namespace Sys2Proof.Machine

/-! ### The dispatcher -/

/-- Marks and queues that the bounds of an interface do not name may change. -/
theorem kept_stalled (h : HostNo) (b : Bool) (s : State) : Kept s (updHli s h (fun x => { x with stalled := b })) := by
  apply kept_updHli
  intro b
  exact { b with }

theorem kept_stallCheck (h : HostNo) (s : State) : Kept s (stallCheck h s) :=
  .ite (fun _ => .of (kept_place ..) (kept_stalled ..)) fun _ => .refl s

theorem kept_resumeCheck (h : HostNo) (s : State) : Kept s (resumeCheck h s) :=
  .ite (fun _ => .of (kept_place ..) (kept_stalled ..)) fun _ => .refl s

theorem kept_popLaneA (h : HostNo) (s : State) : Kept s (popLaneA h s) := by
  refine .of (kept_resumeCheck ..) ?_
  apply kept_updHli
  intro b
  exact { b with requests := by have := b.requests; simp; omega }

theorem kept_refuse (h : HostNo) (tag : HostTag) (r : RefuseReason) (s : State) : Kept s (refuse h tag r s) :=
  kept_respond ..

theorem kept_placeOn (t : TrackerNo) (h : HostNo) (r : Request) (m : RegionMode) (s : State)
    (n : trackerOn s r.line = none) : Kept s (placeOn t h r m s) := by
  unfold placeOn
  split
  · exact .refl s
  · next kind _ =>
    have a : Kept s (setTracker s t (some (newTracker kind r.line m (some (h, r.tag)) r.operands))) :=
      kept_alloc _ (newTracker kind r.line m (some (h, r.tag)) r.operands) _ n
    exact .ite (fun _ => .of (kept_goOn ..) a) fun _ => a

theorem kept_parkTail (p : Parked) (s : State) (room : s.disp.park.length < 48) : Kept s (parkTail p s) :=
  { park := fun _ => by
      change (s.disp.park ++ [p]).length ≤ 48
      simp; omega }

theorem keptSome_dueSlot (h : HostNo) (s : State) : KeptSome s (dueSlot h s) := by
  unfold dueSlot
  split
  · exact .none s
  · exact .ite (fun _ => .some (.of (kept_respond ..) (kept_setSlot ..))) fun _ => .none s

/-- A request found ready has no tracker on its line. -/
theorem trackerOn_of_ready {s : State} {a : List Parked} {p : Parked} (h : isReady s a p = true) :
    trackerOn s p.req.line = none := by
  simp only [isReady, Bool.and_eq_true] at h
  simpa using h.1.1.2

theorem trackerOn_of_firstReady {s : State} {l a : List Parked} {p : Parked} (h : firstReady s a l = some p) :
    trackerOn s p.req.line = none := by
  induction l generalizing a with
  | nil => simp [firstReady] at h
  | cons q l ih =>
    unfold firstReady at h
    split at h
    · next e => exact Option.some.inj h ▸ trackerOn_of_ready e
    · exact ih h

/-- Which tracker stands on a line depends on the tracker table alone. -/
theorem trackerOn_congr {s t : State} (h : t.trk.table = s.trk.table) (n : LineNo) : trackerOn t n = trackerOn s n := by
  unfold trackerOn trackerOf; rw [h]

theorem kept_takeParkedTo (t : TrackerNo) (p : Parked) (s : State) (n : trackerOn s p.req.line = none) :
    Kept s (takeParkedTo t p s) := by
  unfold takeParkedTo
  have left := kept_parkFilter (· ≠ p) s.disp.passedOver s
  refine .ite (fun _ => .of (kept_refuse ..) left) fun _ => ?_
  split
  · exact .of (kept_refuse ..) left
  · exact .of (kept_placeOn _ _ _ _ _ n) left

theorem kept_takeParked (s : State) : Kept s (takeParked s) := by
  unfold takeParked
  refine .ite (fun _ => .refl s) fun _ => ?_
  split
  · exact .refl s
  · next t p e =>
    refine kept_takeParkedTo t p s ?_
    unfold parkedChoice at e
    split at e
    · next h => cases e; exact trackerOn_of_firstReady h
    · cases e

@[simp] theorem popLaneA_trk (h : HostNo) (s : State) : (popLaneA h s).trk = s.trk := by
  unfold popLaneA resumeCheck
  split
  · exact (place_trk ..).trans rfl
  · rfl

@[simp] theorem popLaneA_disp (h : HostNo) (s : State) : (popLaneA h s).disp = s.disp := by
  unfold popLaneA resumeCheck
  split
  · exact (place_disp ..).trans rfl
  · rfl

theorem keptSome_dealWith (h : HostNo) (r : Request) (s : State) : KeptSome s (dealWith h r s) := by
  have pop := kept_popLaneA h s
  unfold dealWith
  refine .ite (fun _ => .some (.of (kept_refuse ..) pop)) fun _ => .ite (fun _ => ?_) fun _ => ?_
  · split
    · exact .none s
    · exact .some (.of (kept_setSlot ..) pop)
  · split
    · exact .some (.of (kept_refuse ..) pop)
    · refine .ite (fun _ => .ite (fun _ => .none s) fun room => .some (.of (kept_parkTail _ _ ?_) pop)) fun m => ?_
      · rw [popLaneA_disp]; omega
      · split
        · exact .none s
        · refine .some (.of (kept_placeOn _ _ _ _ _ ?_) pop)
          refine (trackerOn_congr (by rw [popLaneA_trk]) _ : trackerOn _ _ = trackerOn s _).trans ?_
          simp only [mustPark, Bool.not_eq_true, Bool.or_eq_false_iff] at m
          simpa using m.1.1.1

theorem keptSome_dealHead (s : State) (h : HostNo) : KeptSome s (dealHead s h) := by
  unfold dealHead
  split
  · exact .none s
  · exact .ite (fun _ => .none s) fun _ => keptSome_dealWith _ _ _

theorem kept_passOver (h : HostNo) (s : State) : Kept s (passOver h s) := by
  unfold passOver
  split
  · exact .refl s
  · exact .ite (fun _ => {}) fun _ => .refl s

theorem kept_takeHead (s : State) (l : List HostNo) : Kept s (takeHead s l) := by
  induction l generalizing s with
  | nil => exact .refl s
  | cons h l ih =>
    unfold takeHead
    split
    · next e => exact (keptSome_dealHead s h _ e).trans {}
    · exact (kept_passOver h s).trans (ih _)

theorem kept_dispatchHead (s : State) : Kept s (dispatchHead s) := by
  unfold dispatchHead
  exact .ite (fun _ => .refl s) fun _ => kept_takeHead ..

theorem keptSome_dueRepark (s : State) : KeptSome s (dueRepark s) := by
  unfold dueRepark
  split
  · exact .none s
  · exact .ite (fun h => .some (kept_reparkNow _ _ h)) fun _ => .none s

/-! ### Arrivals -/

theorem kept_severeViolation (h : HostNo) (k : Byte) (c : ProtocolCause) (t : Option HostTag) (n : Option LineNo)
    (s : State) : Kept s (severeViolation h k c t n s) := .of (kept_requestFence ..) (kept_protocolError ..)

theorem nodup_insertNew {α : Type} [DecidableEq α] (a : α) {l : List α} (h : l.Nodup) : (insertNew a l).Nodup := by
  unfold insertNew
  split
  · exact h
  · next n => exact List.nodup_append.mpr ⟨h, by simp, fun x hx y hy e => n (by simp_all)⟩

theorem kept_acceptRequest (h : HostNo) (r : Request) (s : State) (room : (hliOf s h).laneA.length < 16) :
    Kept s (acceptRequest h r s) := by
  refine .of (kept_stallCheck ..) (kept_updHli _ _ fun b => ?_)
  exact { b with requests := by simp; omega, tagsOnce := nodup_insertNew _ b.tagsOnce }

theorem kept_checkRequest (h : HostNo) (r : Request) (s : State) : Kept s (checkRequest h r s) :=
  .ite (fun _ => .of (kept_protocolError ..) (kept_place ..)) fun _ =>
    .ite (fun _ => .of (kept_protocolError ..) (kept_place ..)) fun room =>
      kept_acceptRequest _ _ _ (by omega)

theorem kept_arriveRequest (h : HostNo) (r : Request) (s : State) : Kept s (arriveRequest h r s) := by
  unfold arriveRequest
  refine .ite (fun _ => .refl s) fun _ => ?_
  split
  · exact kept_place ..
  · exact kept_checkRequest ..
  · exact kept_checkRequest ..
  · exact .refl s
  · exact .refl s

/-- A return accepted joins the return list and lane B. -/
theorem Hli.Bounded.acceptReturn {x : Hli} (b : x.Bounded) {m : LaneBMsg} {n : LineNo} (e : returnLine m = some n)
    (new : n ∉ x.returns) (room : x.returns.length < 16) :
    { x with returns := x.returns ++ [n], laneB := x.laneB ++ [m] }.Bounded := by
  have q : (x.laneB ++ [m]).filterMap returnLine = x.laneB.filterMap returnLine ++ [n] := by simp [e]
  have a : answerTracker m = none ∧ isPurgeDone m = false ∧ isControl m = false := by
    cases m <;> simp_all [returnLine, answerTracker, isPurgeDone, isControl]
  exact { b with
    returns := by simp; omega
    returnsOnce := List.nodup_append.mpr ⟨b.returnsOnce, by simp, fun y hy z hz e => new (by simp_all)⟩
    queuedOnce := by
      rw [q]
      exact List.nodup_append.mpr ⟨b.queuedOnce, by simp, fun y hy z hz e => by
        rw [List.mem_singleton] at hz
        exact new (b.queuedOutstanding n (hz ▸ e ▸ hy))⟩
    queuedOutstanding := fun y hy => by
      rw [q] at hy
      simp only [List.mem_append, List.mem_singleton] at hy ⊢
      exact hy.imp (b.queuedOutstanding y) id
    answersOnce := by simpa [a.1] using b.answersOnce
    answersMarked := fun t ht => b.answersMarked t (by simpa [a.1] using ht)
    purges := by simpa [a.2.1] using b.purges
    controls := by simpa [a.2.2] using b.controls }

theorem updHli_updHli (s : State) (h : HostNo) (f g : Hli → Hli) :
    updHli (updHli s h f) h g = updHli s h (fun x => g (f x)) := by
  simp [updHli, hliOf]

theorem kept_checkReturn (h : HostNo) (k : Byte) (n : LineNo) (m : LaneBMsg) (s : State)
    (e : returnLine m = some n) : Kept s (checkReturn h k n m s) := by
  unfold checkReturn queueLaneB
  refine .ite (fun _ => .of (kept_protocolError ..) (kept_place ..)) fun new =>
    .ite (fun _ => kept_severeViolation ..) fun room => ?_
  rw [updHli_updHli]
  exact kept_updHli _ _ fun b => b.acceptReturn e new (by omega)

theorem kept_arriveReturn (h : HostNo) (k : Byte) (n : LineNo) (m : LaneBMsg) (s : State)
    (e : returnLine m = some n) : Kept s (arriveReturn h k n m s) := by
  unfold arriveReturn
  refine .ite (fun _ => .refl s) fun _ => ?_
  split
  · exact kept_protocolError ..
  · exact kept_checkReturn _ _ _ _ _ e
  · exact kept_checkReturn _ _ _ _ _ e
  · exact .refl s
  · exact .refl s

/-- An ANSWER accepted joins lane B, and its tracker the answered set. -/
theorem Hli.Bounded.acceptAnswer {x : Hli} (b : x.Bounded) {m : LaneBMsg} {t : TrackerNo}
    (e : answerTracker m = some t) (new : t ∉ x.answered) :
    { x with answered := x.answered ++ [t], laneB := x.laneB ++ [m] }.Bounded := by
  have q : (x.laneB ++ [m]).filterMap answerTracker = x.laneB.filterMap answerTracker ++ [t] := by simp [e]
  have a : returnLine m = none ∧ isPurgeDone m = false ∧ isControl m = false := by
    cases m <;> simp_all [returnLine, answerTracker, isPurgeDone, isControl]
  exact { b with
    queuedOnce := by simpa [a.1] using b.queuedOnce
    queuedOutstanding := fun n hn => b.queuedOutstanding n (by simpa [a.1] using hn)
    answersOnce := by
      rw [q]
      exact List.nodup_append.mpr ⟨b.answersOnce, by simp, fun y hy z hz e => by
        rw [List.mem_singleton] at hz
        exact new (b.answersMarked t (hz ▸ e ▸ hy))⟩
    answersMarked := fun u hu => by
      rw [q] at hu
      simp only [List.mem_append, List.mem_singleton] at hu ⊢
      exact hu.imp (b.answersMarked u) id
    purges := by simpa [a.2.1] using b.purges
    controls := by simpa [a.2.2] using b.controls }

theorem kept_checkAnswer (h : HostNo) (t : TrackerNo) (n : LineNo) (m : LaneBMsg) (s : State)
    (e : answerTracker m = some t) : Kept s (checkAnswer h t n m s) := by
  unfold checkAnswer queueLaneB
  refine .ite (fun c => ?_) fun _ => kept_protocolError ..
  rw [updHli_updHli]
  refine kept_updHli _ _ fun b => b.acceptAnswer e ?_
  unfold answerMatches at c
  split at c <;> simp_all

theorem kept_arriveAnswer (h : HostNo) (t : TrackerNo) (n : LineNo) (m : LaneBMsg) (s : State)
    (e : answerTracker m = some t) : Kept s (arriveAnswer h t n m s) := by
  unfold arriveAnswer
  refine .ite (fun _ => .refl s) fun _ => ?_
  split
  · exact kept_protocolError ..
  · exact kept_checkAnswer _ _ _ _ _ e
  · exact kept_checkAnswer _ _ _ _ _ e
  · exact .refl s
  · exact .refl s

/-- A PURGE_DONE accepted joins lane B, and the purge-answer mark is set. -/
theorem Hli.Bounded.acceptPurge {x : Hli} (b : x.Bounded) (k : SetNo) (new : x.purgeAnswer = false) :
    { x with purgeAnswer := true, laneB := x.laneB ++ [LaneBMsg.purgeDone k] }.Bounded := by
  have c := b.purges
  rw [new] at c
  have a : returnLine (.purgeDone k) = none ∧ answerTracker (.purgeDone k) = none := ⟨rfl, rfl⟩
  exact { b with
    queuedOnce := by rw [List.filterMap_append]; simpa [a.1] using b.queuedOnce
    queuedOutstanding := fun n hn => b.queuedOutstanding n (by simpa [a.1] using hn)
    answersOnce := by rw [List.filterMap_append]; simpa [a.2] using b.answersOnce
    answersMarked := fun t ht => b.answersMarked t (by simpa [a.2] using ht)
    purges := by rw [List.countP_append]; simp [isPurgeDone] at c ⊢; exact c
    controls := by simpa [isControl] using b.controls }

theorem kept_checkPurgeDone (h : HostNo) (k : SetNo) (s : State) : Kept s (checkPurgeDone h k s) := by
  unfold checkPurgeDone queueLaneB
  refine .ite (fun c => ?_) fun _ => kept_protocolError ..
  rw [updHli_updHli]
  refine kept_updHli _ _ fun b => b.acceptPurge k ?_
  simp only [purgeDoneMatches, Bool.and_eq_true, Bool.not_eq_true'] at c
  exact c.2

theorem kept_arrivePurgeDone (h : HostNo) (k : SetNo) (s : State) : Kept s (arrivePurgeDone h k s) := by
  unfold arrivePurgeDone
  refine .ite (fun _ => .refl s) fun _ => ?_
  split
  · exact kept_protocolError ..
  · exact kept_checkPurgeDone ..
  · exact kept_checkPurgeDone ..
  · exact .refl s
  · exact .refl s

/-- A control message accepted joins lane B, and the control-pending mark is set. -/
theorem Hli.Bounded.acceptControl {x : Hli} (b : x.Bounded) {m : LaneBMsg} (e : isControl m = true)
    (new : x.controlPending = false) :
    { x with controlPending := true, laneB := x.laneB ++ [m] }.Bounded := by
  have c := b.controls
  rw [new] at c
  have a : returnLine m = none ∧ answerTracker m = none ∧ isPurgeDone m = false := by
    cases m <;> simp_all [returnLine, answerTracker, isPurgeDone, isControl]
  exact { b with
    queuedOnce := by simpa [a.1] using b.queuedOnce
    queuedOutstanding := fun n hn => b.queuedOutstanding n (by simpa [a.1] using hn)
    answersOnce := by simpa [a.2.1] using b.answersOnce
    answersMarked := fun t ht => b.answersMarked t (by simpa [a.2.1] using ht)
    purges := by simpa [a.2.2] using b.purges
    controls := by rw [List.countP_append]; simp [e] at c ⊢; exact c }

theorem kept_queueControl (h : HostNo) (k : Byte) (m : LaneBMsg) (s : State) (e : isControl m = true) :
    Kept s (queueControl h k m s) := by
  unfold queueControl queueLaneB
  refine .ite (fun _ => kept_protocolError ..) fun c => ?_
  rw [updHli_updHli]
  exact kept_updHli _ _ fun b => b.acceptControl e (by simpa using c)

theorem kept_arriveJoin (h : HostNo) (v : BitVec 4) (s : State) : Kept s (arriveJoin h v s) := by
  unfold arriveJoin
  refine .ite (fun _ => .refl s) fun _ => ?_
  split
  · exact kept_queueControl _ _ _ _ rfl
  · exact kept_severeViolation ..
  · exact kept_severeViolation ..
  · exact kept_place ..
  · exact kept_place ..

theorem kept_arriveDepart (h : HostNo) (s : State) : Kept s (arriveDepart h s) := by
  unfold arriveDepart
  refine .ite (fun _ => .refl s) fun _ => ?_
  split
  · exact kept_protocolError ..
  · exact kept_queueControl _ _ _ _ rfl
  · exact kept_protocolError ..
  · exact .refl s
  · exact .refl s

theorem kept_arriveUnknown (h : HostNo) (f : HeaderFields) (s : State) : Kept s (arriveUnknown h f s) := by
  unfold arriveUnknown
  refine .ite (fun _ => .refl s) fun _ => ?_
  split
  · exact kept_protocolError ..
  · exact kept_severeViolation ..
  · exact kept_severeViolation ..
  · exact .refl s
  · exact .refl s

/-! ### The link -/

theorem kept_linkComesUp (h : HostNo) (s : State) : Kept s (linkComesUp h s) := by
  apply kept_updHli
  intro b
  exact { b with }

/-- Lane B emptied, and the control-pending mark cleared. -/
theorem Hli.Bounded.clearLaneB {x : Hli} (b : x.Bounded) : { x with laneB := [], controlPending := false }.Bounded :=
  { b with
    queuedOnce := List.nodup_nil
    queuedOutstanding := fun _ h => nomatch h
    answersOnce := List.nodup_nil
    answersMarked := fun _ h => nomatch h
    purges := Nat.zero_le _
    controls := Nat.zero_le _ }

theorem kept_linkGoesDown (h : HostNo) (s : State) : Kept s (linkGoesDown h s) := by
  unfold linkGoesDown
  refine .ite (fun _ => .refl s) fun _ => ?_
  extract_lets s1
  have a : Kept s s1 := kept_updHli _ _ fun b => { b with }
  clear_value s1
  split
  · exact .of (kept_updHli _ _ fun b => b.clearLaneB) a
  · exact .of (kept_requestFence ..) a
  · exact .of (kept_requestFence ..) a
  · exact a
  · exact a

theorem kept_deliver (h : HostNo) (s : State) : Kept s (deliver h s) :=
  .ite (fun _ => kept_updHli _ _ fun b => b.outbound _) fun _ => .refl s

/-! ### JOIN and DEPART at the head -/

theorem kept_admitHost (h : HostNo) (s : State) : Kept s (admitHost h s) :=
  .of (kept_noticeOnline ..) (.of (kept_place ..) (kept_setPortState ..))

theorem kept_judgeJoin (h : HostNo) (v : BitVec 4) (s : State) : Kept s (judgeJoin h v s) :=
  .ite (fun _ => kept_place ..) fun _ => .ite (fun _ => .of (kept_protocolError ..) (kept_place ..)) fun _ =>
    .ite (fun _ => kept_place ..) fun _ => kept_admitHost ..

/-- The control message at the head leaves lane B, and the mark is cleared. -/
theorem Hli.Bounded.popControl {x : Hli} (b : x.Bounded) {m : LaneBMsg} {rest : List LaneBMsg}
    (e : x.laneB = m :: rest) (hm : isControl m = true) :
    { x with laneB := x.laneB.tail, controlPending := false }.Bounded := by
  have p := b.popLaneB
  have c := b.controls
  have h : x.controlPending.toNat ≤ 1 := Bool.toNat_le _
  rw [e, List.countP_cons] at c
  exact { p with controls := by rw [e]; simp only [hm, if_true] at c; simp only [List.tail_cons]; omega }

theorem kept_popControl {h : HostNo} {s : State} {m : LaneBMsg} {rest : List LaneBMsg}
    (e : (hliOf s h).laneB = m :: rest) (hm : isControl m = true) : Kept s (popControl h s) :=
  kept_updHli _ _ fun b => b.popControl e hm

theorem kept_processJoin (h : HostNo) (s : State) : Kept s (processJoin h s) := by
  unfold processJoin
  split
  · next e => exact .ite (fun _ => .of (kept_judgeJoin ..) (kept_popControl e rfl)) fun _ => .refl s
  · exact .refl s

theorem kept_processDepart (h : HostNo) (s : State) : Kept s (processDepart h s) := by
  unfold processDepart
  split
  · next e =>
    refine .ite (fun _ => ?_) fun _ => .refl s
    exact Kept.trans (.of (kept_setPortState ..) (kept_popControl e rfl)) {}
  · exact .refl s

end Sys2Proof.Machine
end

