-- ==== Sys2Proof/Laws/KeptWindow.lean ====
section
/-! SUPPORT. The operations of Machine/Registers.lean, Machine/WindowOps.lean and Machine/CommandOps.lean keep the
relations of Safety.lean. -/

/- One theorem at a time: side by side, theorems that wait for one another hold a thread each. -/
set_option Elab.async false

namespace Sys2Proof.Machine

/-- A change of the Management Port that leaves its alerts and its recall limit alone. -/
theorem kept_mgmt {s : State} {m : Mgmt} (l : m.latch = s.mgmt.latch) (k : m.mask = s.mgmt.mask)
    (a : m.alertLow = s.mgmt.alertLow) (r : m.recallLimit = s.mgmt.recallLimit) : Kept s { s with mgmt := m } :=
  { alert := fun h => by unfold alertFollows at h ⊢; dsimp only; rw [l, k, a]; exact h
    limit := fun h => by unfold limitLegal at h ⊢; dsimp only; rw [r]; exact h }

theorem kept_updMgmt {f : Mgmt → Mgmt} (s : State) (l : (f s.mgmt).latch = s.mgmt.latch)
    (k : (f s.mgmt).mask = s.mgmt.mask) (a : (f s.mgmt).alertLow = s.mgmt.alertLow)
    (r : (f s.mgmt).recallLimit = s.mgmt.recallLimit) : Kept s (updMgmt f s) := kept_mgmt l k a r

theorem driveWrite_same (b : Byte) (r : Bool) (m : Mgmt) :
    (driveWrite b r m).latch = m.latch ∧ (driveWrite b r m).mask = m.mask ∧
      (driveWrite b r m).alertLow = m.alertLow ∧ (driveWrite b r m).recallLimit = m.recallLimit := by
  unfold driveWrite; split <;> simp

theorem driveRead_same (b : Byte) (m : Mgmt) :
    (driveRead b m).latch = m.latch ∧ (driveRead b m).mask = m.mask ∧
      (driveRead b m).alertLow = m.alertLow ∧ (driveRead b m).recallLimit = m.recallLimit := by
  unfold driveRead; split <;> simp

/-- A data byte written keeps what its effect keeps. -/
theorem kept_writeData {f : WriteEffect} (s : State) (hf : Kept s (f s).1) : Kept s (writeData f s) := by
  unfold writeData
  refine .ite (fun _ => .refl s) fun _ => ?_
  have a : Kept s (if (f s).2 then latch .mgmtRefused (f s).1 else (f s).1) :=
    .ite (fun _ => .of (kept_latch ..) hf) fun _ => hf
  refine a.trans ?_
  have d := driveWrite_same (regByte s s.mgmt.index) (f s).2
    (if (f s).2 then latch .mgmtRefused (f s).1 else (f s).1).mgmt
  exact kept_mgmt d.1 d.2.1 d.2.2.1 d.2.2.2

theorem kept_readData (a : Bool) (s : State) : Kept s (readData a s) := by
  unfold readData
  refine .ite (fun _ => .refl s) fun _ => ?_
  have d := driveRead_same (readByte s).1 s.mgmt
  exact kept_mgmt d.1 d.2.1 d.2.2.1 d.2.2.2

/-! ### The writes of the window -/

/-- A byte taken keeps what its store keeps. -/
theorem kept_taken {s x : State} (a : Kept s x) : Kept s (taken x).1 := a

theorem kept_storeSome {α : Type} (x : Option α) (f : α → State → State) (s : State) (hf : ∀ v, Kept s (f v s)) :
    Kept s (storeSome x f s).1 := by
  cases x with
  | none => exact .refl s
  | some v => exact hf v

/-- A field assembled keeps what its dropping of the held bytes keeps and its store does when it is accepted. -/
theorem kept_assemble {w : Nat} (v : BitVec w) (ok : Bool) (d : Mgmt → Mgmt) (f : BitVec w → State → State)
    (s : State) (hd : Kept s (updMgmt d s)) (hf : ok = true → Kept (updMgmt d s) (f v (updMgmt d s))) :
    Kept s (assemble v ok d f s).1 := by
  unfold assemble
  split
  · next h => exact .of (hf h) hd
  · exact hd

theorem kept_updDiag (f : DiagWindow → DiagWindow) (s : State) : Kept s (updDiag f s) := kept_updMgmt s rfl rfl rfl rfl

theorem kept_writeLineOperand (i : Nat) (b : Byte) (s : State) : Kept s (writeLineOperand i b s).1 := by
  unfold writeLineOperand
  split
  · exact kept_taken (kept_updMgmt s rfl rfl rfl rfl)
  · split
    · exact kept_taken (kept_updMgmt s rfl rfl rfl rfl)
    · exact kept_assemble _ _ _ _ s (kept_updMgmt s rfl rfl rfl rfl) fun _ => kept_updMgmt _ rfl rfl rfl rfl

theorem kept_writeRecallLimit (i : Nat) (b : Byte) (s : State) : Kept s (writeRecallLimit i b s).1 := by
  unfold writeRecallLimit
  split
  · exact kept_taken (kept_updMgmt s rfl rfl rfl rfl)
  · exact kept_assemble _ _ _ _ s (kept_updMgmt s rfl rfl rfl rfl) fun h =>
      { limit := fun _ => by simpa [limitLegal, updMgmt] using h }

theorem kept_writeDiagSet (i : Nat) (b : Byte) (s : State) : Kept s (writeDiagSet i b s).1 := by
  unfold writeDiagSet
  split
  · exact kept_taken (kept_updMgmt s rfl rfl rfl rfl)
  · exact kept_assemble _ _ _ _ s (kept_updMgmt s rfl rfl rfl rfl) fun _ => kept_updDiag ..

theorem kept_writeDiagTag (i : Nat) (b : Byte) (s : State) : Kept s (writeDiagTag i b s).1 := by
  unfold writeDiagTag
  split
  · exact kept_taken (kept_updMgmt s rfl rfl rfl rfl)
  · exact kept_assemble _ _ _ _ s (kept_updMgmt s rfl rfl rfl rfl) fun _ => kept_updDiag ..

theorem kept_writePlain (f : Field) (i : Nat) (b : Byte) (s : State) : Kept s (writePlain f i b s).1 := by
  unfold writePlain
  split
  · exact kept_taken (kept_updMgmt s rfl rfl rfl rfl)
  · exact kept_writeLineOperand ..
  · exact kept_storeSome _ _ s fun _ => kept_updPort ..
  · exact kept_writeRecallLimit ..
  · exact kept_storeSome _ _ s fun _ => kept_updMgmt s rfl rfl rfl rfl
  · exact kept_writeDiagSet ..
  · exact kept_taken (kept_updDiag ..)
  · split
    · exact kept_taken (kept_updDiag ..)
    · exact .refl s
  · exact kept_writeDiagTag ..
  · split
    · exact kept_taken (kept_updDiag ..)
    · exact .refl s
  · exact kept_storeSome _ _ s fun _ => kept_updDiag ..
  · exact kept_storeSome _ _ s fun _ => kept_updDiag ..
  · exact .refl s

theorem kept_registerWrite (b : Byte) (s : State) : Kept s (registerWrite b s) := by
  unfold registerWrite
  split
  · exact kept_writeData s (.refl s)
  · exact .ite (fun _ => .refl s) fun _ => kept_writeData s (kept_writePlain ..)

theorem kept_updStaged (d : Fin 16) (f : Descriptor → Descriptor) (s : State) : Kept s (updStaged d f s) := {}

theorem kept_writeStaged (d : Fin 16) (f : DescField) (i : Nat) (b : Byte) (s : State) :
    Kept s (writeStaged d f i b s).1 := by
  unfold writeStaged
  split
  · exact .refl s
  · split
    · exact kept_storeSome _ _ s fun _ => kept_updStaged ..
    · exact kept_taken (kept_updStaged ..)
    · unfold writeStagedSize
      split
      · exact kept_taken (kept_updMgmt s rfl rfl rfl rfl)
      · exact kept_assemble _ _ _ _ s (kept_updMgmt s rfl rfl rfl rfl) fun _ => kept_updStaged ..
    · exact kept_storeSome _ _ s fun _ => kept_updStaged ..
    · exact kept_storeSome _ _ s fun _ => kept_updStaged ..

theorem kept_stagedTableWrite (b : Byte) (s : State) : Kept s (stagedTableWrite b s) := by
  unfold stagedTableWrite
  split
  · exact kept_writeData s (kept_writeStaged ..)
  · exact .refl s

theorem kept_alertLatchClear (b : Byte) (s : State) : Kept s (alertLatchClear b s) := by
  unfold alertLatchClear
  split
  · exact kept_writeData s (kept_setAlerts ..)
  · exact .refl s

theorem kept_alertMaskWrite (b : Byte) (s : State) : Kept s (alertMaskWrite b s) := by
  unfold alertMaskWrite
  split
  · exact kept_writeData s (kept_setAlerts ..)
  · exact .refl s

theorem kept_clearRecord (f : Field) (s : State) : Kept s (clearRecord f s) := by
  unfold clearRecord
  split
  · exact {}
  · exact {}
  · exact kept_mgmt rfl rfl rfl rfl
  · exact {}
  · exact .refl s

theorem kept_recordClear (b : Byte) (s : State) : Kept s (recordClear b s) := by
  unfold recordClear
  split
  · exact .ite (fun _ => kept_writeData s (.ite (fun _ => kept_clearRecord ..) fun _ => .refl s)) fun _ => .refl s
  · exact .refl s

theorem kept_lockInterface (e : LockEvent) (s : State) : Kept s (lockInterface e s) := by
  unfold lockInterface
  split
  · exact .ite (fun _ => kept_updMgmt s rfl rfl rfl rfl) fun _ => .refl s
  · exact .ite (fun _ => kept_updMgmt s rfl rfl rfl rfl) fun _ => .refl s
  · exact kept_updMgmt s rfl rfl rfl rfl
  · exact kept_updMgmt s rfl rfl rfl rfl
  · exact .refl s
  · exact .refl s

theorem kept_loadIndex (i : IndexBytes) (s : State) : Kept s (loadIndex i s) := by
  have d := driveWrite_same 0 false s.mgmt
  have load : ∀ x : Transfer, Kept s
      (updMgmt (fun m => { driveWrite 0 false m with index := i.first ++ i.second, capture := none, transfer := x }) s) :=
    fun _ => kept_mgmt d.1 d.2.1 d.2.2.1 d.2.2.2
  unfold loadIndex
  exact .ite (fun _ => load _) fun _ => .ite (fun _ => load _) fun _ => .refl s

/-! ### Commands -/

/-- The state that a verdict carries. -/
def Verdict.state : Verdict → State
  | .refuse s => s
  | .finish s => s
  | .start s => s

theorem kept_setCommand (c : Byte) (y : CommandStatus) (s : State) : Kept s (setCommand c y s) :=
  kept_updMgmt s rfl rfl rfl rfl

theorem kept_judgeCommand (c : Byte) (j : State → Verdict) (s : State) (hj : Kept s (j s).state) :
    Kept s (judgeCommand c j s).1 := by
  unfold judgeCommand
  split
  · exact .refl s
  · split <;> next e => rw [e] at hj; exact .of (kept_setCommand ..) hj

theorem kept_issue (c : Byte) (j : State → Verdict) (s : State) (hj : Kept s (j s).state) : Kept s (issue c j s) :=
  .ite (fun _ => kept_writeData s (kept_judgeCommand c j s hj)) fun _ => .refl s

/-- A choice between two kept verdicts. -/
theorem Kept.iteVerdict {p : Prop} [Decidable p] {s : State} {a b : Verdict} (ha : p → Kept s a.state)
    (hb : ¬p → Kept s b.state) : Kept s (if p then a else b).state := by
  split
  · next h => exact ha h
  · next h => exact hb h

theorem kept_judgeCutover (s : State) : Kept s (judgeCutover s).state := by
  refine .iteVerdict (fun _ => .refl s) fun _ => .iteVerdict (fun _ => .refl s) fun _ =>
    .iteVerdict (fun _ => ?_) fun _ => ?_
  · exact Kept.of (kept_latch ..) { lock := fun _ => rfl }
  · exact { lock := fun _ => rfl }

theorem kept_judgeFence (s : State) : Kept s (judgeFence s).state := by
  unfold judgeFence
  split
  · exact .refl s
  · exact .iteVerdict (fun _ => kept_startFence ..) fun _ => .refl s

theorem kept_judgeRelease (s : State) : Kept s (judgeRelease s).state := by
  unfold judgeRelease
  split
  · exact .refl s
  · exact .iteVerdict (fun _ => kept_setPortState ..) fun _ => .refl s

/-- Every interface changed at once, its bounds kept. -/
theorem kept_mapHli (f : Hli → Hli) (s : State) (hf : ∀ x : Hli, x.Bounded → (f x).Bounded) :
    Kept s { s with hli := s.hli.map f } :=
  { links := fun h p => by
      have e : hliOf { s with hli := s.hli.map f } p = f (hliOf s p) := by simp [hliOf]
      rw [e]
      exact hf _ (h p) }

theorem kept_noticeReset (s : State) (h : HostNo) : Kept s (noticeReset s h) :=
  .ite (fun _ => .of (kept_place ..) (kept_updHli _ _ fun b => b.outbound _)) fun _ => .refl s

theorem kept_beginReset (s : State) : Kept s (beginReset s) := by
  unfold beginReset
  extract_lets s1 s2
  have a1 : Kept s s1 := Kept.trans (t := { s with resetPhase := .drain }) {}
    (kept_mapHli (fun x => { x with intakeStopped := true, linkFell := false }) _ fun _ b => { b with })
  have a2 : Kept s1 s2 := by
    apply Kept.foldl
    intro s h
    exact kept_noticeReset ..
  clear_value s1 s2
  exact (a1.trans a2).trans { buffer := fun h => bounded_map _ (fun _ => rfl) h }

theorem kept_judgeHubReset (s : State) : Kept s (judgeHubReset s).state :=
  .iteVerdict (fun _ => .refl s) fun _ => kept_beginReset s

theorem kept_judgeClearLost (s : State) : Kept s (judgeClearLost s).state := by
  refine .iteVerdict (fun _ => .refl s) fun _ => .iteVerdict (fun _ => .refl s) fun _ => ?_
  extract_lets s1
  have a : Kept s s1 := kept_handErrors ..
  split
  · exact .of (kept_makeFree ..) a
  · exact a

theorem kept_judgeDiagRead (s : State) : Kept s (judgeDiagRead s).state := by
  refine .iteVerdict (fun _ => .refl s) fun _ => ?_
  split
  · exact .refl s
  · exact .of (kept_handErrors ..) (kept_updDiag ..)

theorem kept_judgeDiagWrite (s : State) : Kept s (judgeDiagWrite s).state := by
  refine .iteVerdict (fun _ => .refl s) fun _ => ?_
  split
  · exact .refl s
  · refine .iteVerdict (fun _ => .refl s) fun _ => .iteVerdict (fun _ => ?_) fun _ =>
      .iteVerdict (fun _ => .refl s) fun _ => kept_putWay ..
    exact .ite (fun _ => kept_makeFree ..) fun _ => kept_putWay ..

theorem kept_judgeMaintEnter (s : State) : Kept s (judgeMaintEnter s).state :=
  .iteVerdict (fun _ => {}) fun _ => .refl s

theorem kept_judgeMaintExit (s : State) : Kept s (judgeMaintExit s).state :=
  .iteVerdict (fun _ => {}) fun _ => .refl s

theorem kept_beginClear (s : State) : Kept s (beginClear s) := by
  unfold beginClear
  extract_lets s1
  have a : Kept s { s with mem := { s.mem with clearing := true, wbuf := s.mem.wbuf.filter (fun e => e.draining) } } :=
    { buffer := fun h => bounded_filter _ h }
  exact .ite (fun _ => .of (kept_freePort ..) a) fun _ => a

theorem kept_judgePoolClear (s : State) : Kept s (judgePoolClear s).state :=
  .iteVerdict (fun _ => kept_beginClear s) fun _ => .refl s

theorem kept_endClear (s : State) : Kept s (endClear s) :=
  .ite (fun _ => .of (kept_updMgmt _ rfl rfl rfl rfl) {}) fun _ => .refl s

end Sys2Proof.Machine
end

