-- ==== Sys2Proof/Laws/KeptSettle.lean ====
section
/-! SUPPORT. Settling, and the events of time and of the storage, keep the relations of Safety.lean. -/

/- One theorem at a time: side by side, theorems that wait for one another hold a thread each. -/
set_option Elab.async false

namespace Sys2Proof.Machine

/-! ### Grants of the write buffer -/

/-- A claim that may be granted has room for its line (R136). -/
theorem roomFor_of_grantable {s : State} {c : WbClaim} (h : grantableClaim s = some c) {n : LineNo}
    (hn : claimLine s c = some n) : roomFor s.mem n := by
  unfold grantableClaim at h
  split at h
  · cases h
  · split at h
    · cases h
    · split at h
      · next l => exact .inl l
      · have m := List.find?_some h
        simp only [claimMerges, hn, entryFor] at m
        exact .inr (by simpa [List.find?_isSome] using m)

@[simp] theorem dropClaim_trk (c : WbClaim) (s : State) : (dropClaim c s).trk = s.trk := rfl

theorem kept_grantTracker (t : TrackerNo) (s : State)
    (room : ∀ tr, trackerOf s t = some tr → roomFor s.mem tr.line) : Kept s (grantTracker t s) := by
  unfold grantTracker
  split
  · exact .refl s
  · next tr ht =>
    extract_lets s1 s2
    have a1 : Kept s s1 := by
      unfold s1
      split
      · exact .refl s
      · exact .of (kept_markTrackerPlaced ..) (kept_placeWrite _ _ (room tr ht))
    have a2 : Kept s1 s2 := kept_updTracker _ _ fun _ => rfl
    exact .ite (fun _ => .of (kept_endScrub ..) (a1.trans a2)) fun _ => .of (kept_reply ..) (a1.trans a2)

theorem kept_grantClaim (c : WbClaim) (s : State) (h : grantableClaim s = some c) : Kept s (grantClaim c s) := by
  unfold grantClaim
  cases c with
  | tracker t =>
    refine .of (kept_grantTracker _ _ fun tr ht => ?_) (kept_dropClaim ..)
    exact roomFor_of_grantable (s := s) h (show Option.map _ (trackerOf s t) = _ by
      rw [show trackerOf s t = some tr from ht]; rfl)
  | ret p =>
    dsimp only
    split
    · exact kept_dropClaim ..
    · next r e =>
      refine .of (kept_processingEvent _ _ _ e fun _ _ _ => ?_) (kept_dropClaim ..)
      exact roomFor_of_grantable (s := s) h (show Option.map _ (headReturn s p) = _ by
        rw [show headReturn s p = some r from e]; rfl)

theorem keptSome_dueClaim (s : State) : KeptSome s (dueClaim s) := by
  intro t h
  obtain ⟨c, hc, rfl⟩ := Option.map_eq_some_iff.mp h
  exact kept_grantClaim c s hc

/-! ### Trackers that go on -/

theorem keptSome_dueRound (s : State) : KeptSome s (dueRound s) := by
  intro t h
  obtain ⟨u, _, rfl⟩ := Option.map_eq_some_iff.mp h
  exact kept_goOn ..

theorem keptSome_dueHanded (s : State) : KeptSome s (dueHanded s) := by
  intro t h
  obtain ⟨u, _, rfl⟩ := Option.map_eq_some_iff.mp h
  exact .of (kept_goOn ..) (kept_leaveVictimWait ..)

/-- The lists of the tracker table that hold what waits may change. -/
theorem kept_askAgain (l : List TrackerNo) (s : State) : Kept s { s with trk := { s.trk with askAgain := l } } := {}

theorem kept_internalClaims (l : List InternalClaim) (s : State) :
    Kept s { s with trk := { s.trk with claims := l } } := {}

theorem keptSome_dueAsk (s : State) : KeptSome s (dueAsk s) := by
  unfold dueAsk
  split
  · exact .none s
  · exact .some (.ite (fun _ => .of (kept_askWay ..) (kept_askAgain ..)) fun _ => kept_askAgain ..)

theorem keptSome_dueInternal (s : State) : KeptSome s (dueInternal s) := by
  unfold dueInternal
  split
  · next c rest i _ _ =>
    cases c with
    | evict t => exact .some (.of (kept_grantEviction ..) (kept_internalClaims ..))
    | walker => exact .some (.of (kept_grantWalker ..) (kept_internalClaims ..))
  · exact .none s

/-! ### Hub reset -/

theorem lostIn_reset : lostIn DirSet.reset = 0 := by decide

theorem lostWays_reset : lostWays Directory.reset = 0 := by
  unfold lostWays Directory.reset
  dsimp only
  rw [Vector.toList_replicate, List.map_replicate, lostIn_reset, List.sum_replicate, smul_zero]

theorem setOf_reset {s : State} (h : s.dir.sets = Directory.reset.sets) (k : SetNo) : setOf s k = DirSet.reset := by
  unfold setOf; simp [h, Directory.reset]

theorem ordersWhole_reset {s : State} (h : s.dir.sets = Directory.reset.sets) : ordersWhole s := fun k => by
  rw [setOf_reset h k]; exact List.Perm.refl _

theorem linesUnique_reset {s : State} (h : s.trk = TrackerTable.reset) : linesUnique s := by
  intro t u n ht _
  simp [lineHeld, trackerOf, h, TrackerTable.reset] at ht

/-- A set with every way made FREE holds no LOST way. -/
theorem lostIn_freeSet (d : DirSet) : lostIn (freeSet d) = 0 := by
  simp only [lostIn, freeSet, Vector.toList_map, List.map_map]
  refine List.sum_eq_zero fun n h => ?_
  obtain ⟨x, -, rfl⟩ := List.mem_map.1 h
  rfl

theorem lostWays_resetBlocks (s : State) : lostWays (resetBlocks s).dir = 0 := by
  simp only [lostWays, resetBlocks, Vector.toList_map, List.map_map]
  refine List.sum_eq_zero fun n h => ?_
  obtain ⟨d, -, rfl⟩ := List.mem_map.1 h
  exact lostIn_freeSet d

theorem setOf_resetBlocks (s : State) (k : SetNo) : setOf (resetBlocks s) k = freeSet (setOf s k) :=
  Vector.getElem_map ..

theorem kept_resetBlocks (s : State) : Kept s (resetBlocks s) :=
  { lock := fun _ => by unfold lockFollows resetBlocks; dsimp only; cases s.region.status <;> rfl
    lost := fun _ => (lostWays_resetBlocks s).symm
    orders := fun _ k => by rw [setOf_resetBlocks]; exact List.Perm.refl _
    lines := fun _ => linesUnique_reset rfl
    links := fun _ h => by
      have e : hliOf (resetBlocks s) h = emptyHli (hliOf s h) := by simp [hliOf, resetBlocks]
      rw [e]
      exact bounded_empty rfl rfl rfl rfl
    park := fun _ => Nat.zero_le _
    buffer := fun _ => ⟨Nat.zero_le _, List.nodup_nil⟩ }

theorem keptSome_dueResetEnd (s : State) : KeptSome s (dueResetEnd s) :=
  .ite (fun _ => .some (kept_resetBlocks s)) fun _ => .none s

theorem kept_takeLinkDown (h : HostNo) (s : State) : Kept s (takeLinkDown h s) := by
  apply kept_updHli
  intro b
  split
  · exact { b with }
  · exact { b.clearLaneB with }

theorem kept_endReset (s : State) : Kept s (endReset s) :=
  .of (kept_updMgmt _ rfl rfl rfl rfl) (.of (kept_setAlerts ..) {})

theorem keptSome_dueLinks (s : State) : KeptSome s (dueLinks s) := by
  unfold dueLinks
  split
  · exact .some (kept_takeLinkDown ..)
  · exact .ite (fun _ => .some (kept_endReset s)) fun _ => .none s

/-! ### Settling -/

/-- What every candidate keeps, the first answer keeps. -/
theorem keptSome_firstDue (l : List (State → Option State)) (s : State) (h : ∀ f ∈ l, KeptSome s (f s)) :
    KeptSome s (firstDue s l) := by
  induction l with
  | nil => exact .none s
  | cons f l ih =>
    unfold firstDue
    split
    · next e => exact .some (h f (by simp) _ e)
    · exact ih fun g hg => h g (by simp [hg])

theorem keptSome_inService (s : State) : ∀ f ∈ dueInService, KeptSome s (f s) := by
  have port : ∀ h, KeptSome s (duePort h s) := fun h _ e => kept_duePort e
  have slot : ∀ h, KeptSome s (dueSlot h s) := fun h => keptSome_dueSlot h s
  have arb : KeptSome s (dueArbiter s) := fun _ e => kept_dueArbiter e
  simp only [dueInService, List.forall_mem_cons]
  exact ⟨keptSome_dueClaim s, keptSome_dueRound s, keptSome_dueHanded s, keptSome_dueAsk s,
    keptSome_dueInternal s, keptSome_dueRepark s, port 0, port 1, port 2, port 3, keptSome_duePurge s,
    keptSome_dueWalker s, slot 0, slot 1, slot 2, slot 3, arb, fun _ h => nomatch h⟩

theorem keptSome_nextDue (s : State) : KeptSome s (nextDue s) := by
  unfold nextDue
  split
  · exact keptSome_firstDue _ _ (keptSome_inService s)
  · have slot : ∀ h, KeptSome s (dueSlot h s) := fun h => keptSome_dueSlot h s
    have drain : KeptSome s (dueResetDrain s) := fun _ e => kept_dueResetDrain e
    refine keptSome_firstDue _ _ ?_
    simp only [dueInDrain, List.forall_mem_cons]
    exact ⟨slot 0, slot 1, slot 2, slot 3, drain, keptSome_dueResetEnd s, fun _ h => nomatch h⟩
  · refine keptSome_firstDue _ _ ?_
    simp only [dueInLinks, List.forall_mem_cons]
    exact ⟨keptSome_dueLinks s, keptSome_dueClaim s, fun _ e => kept_dueArbiter e, fun _ h => nomatch h⟩

theorem kept_settleWithin (n : Nat) (s : State) : Kept s (settleWithin n s) := by
  induction n generalizing s with
  | zero => exact .refl s
  | succ n ih =>
    unfold settleWithin
    split
    · exact .refl s
    · next e => exact (keptSome_nextDue s _ e).trans (ih _)

theorem kept_settle (s : State) : Kept s (settle s) := .of (kept_noteFreed ..) (kept_settleWithin ..)

/-- Settling carries out nothing where nothing is due. -/
theorem settleWithin_of_settled (n : Nat) {s : State} (h : nextDue s = none) : settleWithin n s = s := by
  cases n with
  | zero => rfl
  | succ n => unfold settleWithin; rw [h]

/-! ### Events of time and of the storage -/

theorem kept_trackerLookup (t : TrackerNo) (s : State) : Kept s (trackerLookup t s) :=
  .ite (fun _ => kept_lookup ..) fun _ => .refl s

theorem kept_deadlineExpires (t : TrackerNo) (s : State) : Kept s (deadlineExpires t s) :=
  .ite (fun _ => .refl s) fun _ => kept_trackerDeadline ..

theorem kept_purgeDeadlineExpires (s : State) : Kept s (purgeDeadlineExpires s) :=
  .ite (fun _ => .refl s) fun _ => kept_purgeDeadline s

theorem kept_releaseHold (n : LineNo) (s : State) : Kept s (releaseHold n s) :=
  { buffer := fun h => bounded_map _ (fun e => by split <;> rfl) h }

theorem kept_completeReadFor (t : TrackerNo) (tr : Tracker) (s : State) : Kept s (completeReadFor t tr s) := by
  unfold completeReadFor
  extract_lets r c s1
  have a : Kept s s1 := .of (kept_fillBuffer ..) (.of (kept_freePort ..) (.of (kept_releaseHold ..) (kept_readPool ..)))
  exact .ite (fun _ => a) fun _ => .of (kept_contentsReady ..) a

theorem kept_completeRead (s : State) : Kept s (completeRead s) := by
  unfold completeRead
  split
  · split
    · exact kept_completeReadFor ..
    · exact kept_freePort ..
  · exact .refl s

theorem kept_drainCompletes (s : State) : Kept s (drainCompletes s) := by
  unfold drainCompletes
  split
  · exact kept_completeDrain ..
  · exact .refl s

theorem kept_disturbLine (n : LineNo) (f : LineData) (c : Bool) (s : State) : Kept s (disturbLine n f c s) :=
  { pool := fun h =>
      have b := putCond_wf s.mem.conds n { condOf s.mem n with fault := some (addFault (condOf s.mem n).fault f c) }
        h.2.2.1 h.2.2.2
      ⟨h.1, h.2.1, b.1, b.2⟩ }

theorem kept_poolFault (n : LineNo) (f : LineData) (c : Bool) (s : State) : Kept s (poolFault n f c s) := by
  have a : Kept s { s with freeCount := s.freeCount + 1 } := {}
  exact .ite (fun _ => .ite (fun _ => .of (kept_disturbLine ..) a) fun _ => a) fun _ => kept_disturbLine ..

theorem kept_directoryFault (k : SetNo) (w : WayNo) (f : WayFlips) (s : State) : Kept s (directoryFault k w f s) := by
  unfold directoryFault
  extract_lets y
  split
  · exact kept_putWay ..
  · exact kept_putWay ..
  · exact .refl s

theorem kept_powerOn (m : BitVec 2) (s : State) : Kept s (powerOn m s) :=
  { alert := fun _ => show false = alertLowOf 0 0x0FFF by decide
    lock := fun _ => rfl
    lost := fun _ => lostWays_reset.symm
    pool := fun _ => by simp [Memory.wf, powerOn, State.reset, Memory.reset]
    orders := fun _ => ordersWhole_reset rfl
    lines := fun _ => linesUnique_reset rfl
    links := fun _ h => by
      have e : hliOf (powerOn m s) h = Hli.reset := by simp [hliOf, powerOn, State.reset]
      rw [e]
      exact bounded_empty rfl rfl rfl rfl
    park := fun _ => Nat.zero_le _
    buffer := fun _ => ⟨Nat.zero_le _, List.nodup_nil⟩
    limit := fun _ => by simp [limitLegal, powerOn, Mgmt.reset] }

theorem kept_endInit (s : State) : Kept s (endInit s) :=
  .ite (fun _ => .of (kept_latch ..) {}) fun _ => .refl s

end Sys2Proof.Machine
end

