-- ==== Sys2Proof/Laws/Messages.lean ====
section
/-! SUPPORT. What placing messages can do: the outbound queue of one host grows by the message, or nothing changes. -/

/- One theorem at a time: side by side, theorems that wait for one another hold a thread each. -/
set_option Elab.async false

namespace Sys2Proof.Machine

variable {s : State}

/-- States are equal when their link interfaces are equal host by host and the rest is equal. -/
theorem state_ext_hli {s t : State} (a : ∀ p, hliOf s p = hliOf t p) (b : { s with hli := t.hli } = t) : s = t := by
  have e : s.hli = t.hli := Vector.ext fun i hi => a ⟨i, hi⟩
  cases s
  subst e
  exact b

@[simp] theorem portState_updHli (h p : HostNo) (f : Hli → Hli) : portState (updHli s h f) p = portState s p := rfl

/-- What placing a message can do. -/
theorem hliOf_place (h p : HostNo) (m : HubMsg) :
    hliOf (place h m s) p = if h = p ∧ isPlaced s p m = true
      then { hliOf s p with outbound := (hliOf s p).outbound ++ [m] } else hliOf s p := by
  unfold place isPlaced
  by_cases e : h = p
  · subst e
    by_cases u : (hliOf s h).linkUp = false
    · simp [u]
    · by_cases f : (portState s h = .fencing ∨ portState s h = .fenced) ∧ passesFence m = false
      · obtain ⟨f1, f2⟩ := f
        rcases f1 with f1 | f1 <;> simp [u, f1, f2]
      · rw [if_neg u, if_neg f]
        have g : (!((decide (portState s h = .fencing) || decide (portState s h = .fenced)) && !passesFence m)) = true := by
          simp only [not_and_or, not_or] at f; rcases f with f | f <;> simp_all
        rw [Bool.not_eq_false] at u
        simp [u, g]
  · split
    · simp [e]
    · split <;> simp [e]

/-- Placing a message changes no more than outbound queues. -/
theorem place_hli_eq (h : HostNo) (m : HubMsg) : { place h m s with hli := s.hli } = s := by
  unfold place
  split
  · rfl
  · split <;> rfl

@[simp] theorem portState_place (h p : HostNo) (m : HubMsg) : portState (place h m s) p = portState s p := by
  simp [portState, portOf]

@[simp] theorem portOf_place (h p : HostNo) (m : HubMsg) : portOf (place h m s) p = portOf s p := by
  simp [portOf]

@[simp] theorem linkUp_place (h p : HostNo) (m : HubMsg) : (hliOf (place h m s) p).linkUp = (hliOf s p).linkUp := by
  rw [hliOf_place]
  split <;> rfl

/-- The notices of a fold over hosts, each at most once. -/
theorem noticeFold_spec (kind : NoticeKind) (h : HostNo) (wanted : HostNo → Bool) (l : List HostNo) (nd : l.Nodup) :
    ∀ s : State,
    let t := l.foldl
      (fun s p => if portState s p = .online ∧ wanted p then place p (.notice kind h s.region.epoch) s else s) s
    (∀ p, hliOf t p = { hliOf s p with
      outbound := (hliOf s p).outbound ++
        (if p ∈ l ∧ portState s p = .online ∧ wanted p ∧ (hliOf s p).linkUp then [.notice kind h s.region.epoch] else []) }) ∧
      { t with hli := s.hli } = s := by
  induction l with
  | nil => intro s; simp
  | cons q l ih =>
    intro s
    simp only [List.nodup_cons] at nd
    rw [List.foldl_cons]
    obtain ⟨i1, i2⟩ := ih nd.2
      (if portState s q = .online ∧ wanted q then place q (.notice kind h s.region.epoch) s else s)
    refine ⟨fun p => ?_, ?_⟩
    · rw [i1 p]
      split
      · next c =>
        rw [hliOf_place]
        by_cases e : q = p
        · subst e
          by_cases u : (hliOf s q).linkUp = true
          · simp [isPlaced, c.1, c.2, u, nd.1]
          · simp [isPlaced, u, nd.1]
        · have e' : p ≠ q := fun x => e x.symm
          simp [e, e']
      · next c =>
        by_cases e : q = p
        · subst e
          have c' : ¬ (portState s q = .online ∧ wanted q = true ∧ (hliOf s q).linkUp = true) := fun x => c ⟨x.1, x.2.1⟩
          simp [nd.1, c']
        · have e' : p ≠ q := fun x => e x.symm
          simp [e']
    · generalize hx : (if portState s q = .online ∧ wanted q then place q (.notice kind h s.region.epoch) s else s) = x at i2 ⊢
      have g : { x with hli := s.hli } = s := by
        subst hx
        split
        · exact place_hli_eq q _
        · rfl
      generalize List.foldl _ x l = y at i2 ⊢
      rw [← i2] at g
      exact g

/-- Every host is one of the four. -/
theorem mem_hosts (p : HostNo) : p ∈ hosts := by revert p; decide

/-- What the notices to ONLINE ports can do. -/
theorem hliOf_noticeOnline (kind : NoticeKind) (h : HostNo) (wanted : HostNo → Bool) (p : HostNo) :
    hliOf (noticeOnline kind h wanted s) p = { hliOf s p with
      outbound := (hliOf s p).outbound ++
        (if portState s p = .online ∧ wanted p ∧ (hliOf s p).linkUp then [.notice kind h s.region.epoch] else []) } := by
  have a := (noticeFold_spec kind h wanted hosts (by decide) s).1 p
  rw [noticeOnline, a]
  simp [mem_hosts p]

/-- The notices change no more than outbound queues. -/
theorem noticeOnline_hli_eq (kind : NoticeKind) (h : HostNo) (wanted : HostNo → Bool) :
    { noticeOnline kind h wanted s with hli := s.hli } = s :=
  (noticeFold_spec kind h wanted hosts (by decide) s).2

/-- States that differ in their link interfaces alone agree in every other field. -/
structure SameButHli (t s : State) : Prop where
  hub : t.hub = s.hub
  resetPhase : t.resetPhase = s.resetPhase
  ports : t.ports = s.ports
  region : t.region = s.region
  dir : t.dir = s.dir
  trk : t.trk = s.trk
  disp : t.disp = s.disp
  mem : t.mem = s.mem
  walker : t.walker = s.walker
  integ : t.integ = s.integ
  mgmt : t.mgmt = s.mgmt
  freeCount : t.freeCount = s.freeCount
  pending : t.pending = s.pending

theorem sameButHli_of {t : State} (e : { t with hli := s.hli } = s) : SameButHli t s := by
  cases t
  cases s
  cases e
  exact ⟨rfl, rfl, rfl, rfl, rfl, rfl, rfl, rfl, rfl, rfl, rfl, rfl, rfl⟩

variable (kind : NoticeKind) (h : HostNo) (wanted : HostNo → Bool)

/-- What the notices leave as it was. -/
theorem noticeOnline_same : SameButHli (noticeOnline kind h wanted s) s := sameButHli_of (noticeOnline_hli_eq kind h wanted)

@[simp] theorem noticeOnline_hub : (noticeOnline kind h wanted s).hub = s.hub := (noticeOnline_same kind h wanted).hub
@[simp] theorem noticeOnline_resetPhase : (noticeOnline kind h wanted s).resetPhase = s.resetPhase := (noticeOnline_same kind h wanted).resetPhase
@[simp] theorem noticeOnline_ports : (noticeOnline kind h wanted s).ports = s.ports := (noticeOnline_same kind h wanted).ports
@[simp] theorem noticeOnline_region : (noticeOnline kind h wanted s).region = s.region := (noticeOnline_same kind h wanted).region
@[simp] theorem noticeOnline_dir : (noticeOnline kind h wanted s).dir = s.dir := (noticeOnline_same kind h wanted).dir
@[simp] theorem noticeOnline_trk : (noticeOnline kind h wanted s).trk = s.trk := (noticeOnline_same kind h wanted).trk
@[simp] theorem noticeOnline_disp : (noticeOnline kind h wanted s).disp = s.disp := (noticeOnline_same kind h wanted).disp
@[simp] theorem noticeOnline_mem : (noticeOnline kind h wanted s).mem = s.mem := (noticeOnline_same kind h wanted).mem
@[simp] theorem noticeOnline_walker : (noticeOnline kind h wanted s).walker = s.walker := (noticeOnline_same kind h wanted).walker
@[simp] theorem noticeOnline_integ : (noticeOnline kind h wanted s).integ = s.integ := (noticeOnline_same kind h wanted).integ
@[simp] theorem noticeOnline_mgmt : (noticeOnline kind h wanted s).mgmt = s.mgmt := (noticeOnline_same kind h wanted).mgmt
@[simp] theorem noticeOnline_freeCount : (noticeOnline kind h wanted s).freeCount = s.freeCount := (noticeOnline_same kind h wanted).freeCount
@[simp] theorem noticeOnline_pending : (noticeOnline kind h wanted s).pending = s.pending := (noticeOnline_same kind h wanted).pending

@[simp] theorem portState_noticeOnline (p : HostNo) : portState (noticeOnline kind h wanted s) p = portState s p := by
  simp [portState, portOf]

@[simp] theorem portOf_noticeOnline (p : HostNo) : portOf (noticeOnline kind h wanted s) p = portOf s p := by
  simp [portOf]

end Sys2Proof.Machine
end

