-- ==== Sys2Proof/Laws/Lookup.lean ====
section
/-! SUPPORT. What the operations of a lookup do: the ways found and bound, the errors handed over, the round sent. -/

/- One theorem at a time: side by side, theorems that wait for one another hold a thread each. -/
set_option Elab.async false

namespace Sys2Proof.Machine

@[simp] theorem hliOf_latch (e s p) : hliOf (latch e s) p = hliOf s p := rfl

@[simp] theorem hliOf_updPort (s h f p) : hliOf (updPort s h f) p = hliOf s p := rfl

@[simp] theorem portOf_latch (e s p) : portOf (latch e s) p = portOf s p := rfl

@[simp] theorem portState_latch (e s p) : portState (latch e s) p = portState s p := rfl

@[simp] theorem portOf_updHli (s h f p) : portOf (updHli s h f) p = portOf s p := rfl

@[simp] theorem portState_updPort (s h f p) : portState (updPort s h f) p = if h = p then (f (portOf s p)).state else portState s p := by
  unfold portState; rw [portOf_updPort]; split <;> simp_all

/-- A change of a tracker in use is the write of its record changed. -/
theorem updTracker_of_some {s t tr} (f : Tracker → Tracker) (e : trackerOf s t = some tr) : updTracker s t f = setTracker s t (some (f tr)) := by
  simp [updTracker, e]

/-- Every way is one of the eight. -/
theorem mem_allWays (w : WayNo) : w ∈ allWays := by revert w; decide

/-- The eight ways around one of them. -/
theorem split_allWays (w : WayNo) : allWays = List.filter (fun v => decide (v < w)) allWays ++ w :: List.filter (fun v => decide (w < v)) allWays := by revert w; decide

/-- The first of the eight ways that satisfies a test. -/
theorem find_allWays {P : WayNo → Bool} {w : WayNo} (a : P w = true) (b : ∀ v, v < w → P v = false) : allWays.find? P = some w := by
  rw [List.find?_eq_some_iff_append]
  refine ⟨a, ?_⟩
  refine ⟨allWays.filter (fun v => v < w), allWays.filter (fun v => w < v), split_allWays w, fun v hv => ?_⟩
  simp at hv; simp [b v hv.2]

/-- Without a tag parity error every error that a read finds is one of the state. -/
theorem errorsIn_state {s k ws} (a : ∀ w, checkWay (wayOf s k w) ≠ .tagError) :
    ∀ e ∈ errorsIn s k ws, e.2 = .state := by
  intro e he
  unfold errorsIn at he
  rw [List.mem_filterMap] at he
  obtain ⟨w, -, q⟩ := he
  have := a w
  cases z : checkWay (wayOf s k w) <;> simp_all
  rw [← q]

/-- A state after parity errors of kind STATE have been handed over (R159): the directory error record, the latch and
ALERT_N. -/
def afterErrors (record : Option DirRecord) (latch : BitVec 16) (alertLow : Bool) (s : State) : State :=
  { s with
    integ := { s.integ with record := record }
    mgmt := { s.mgmt with latch := latch, alertLow := alertLow } }

/-- Everything that the handing over of errors of kind STATE does (R159). -/
theorem handErrorFold_of_state (k r) (l : List (WayNo × ParityKind)) : ∀ s, (∀ e ∈ l, e.2 = .state) →
    ∃ record latch alertLow, l.foldl (handError k r) s = afterErrors record latch alertLow s := by
  induction l with
  | nil => intro s _; exact ⟨s.integ.record, s.mgmt.latch, s.mgmt.alertLow, rfl⟩
  | cons e l ih =>
    intro s a
    have e1 : handError k r s e = recordParity k e.1 e.2 r s := by
      have := a e (by simp); simp [handError, this]
    obtain ⟨x, y, z, q⟩ := ih (handError k r s e) (fun x hx => a x (by simp [hx]))
    exact ⟨x, y, z, by rw [List.foldl_cons, q, e1]; rfl⟩

/-- Everything a read without a tag parity error does: its errors are recorded and alerted, and no set is closed. -/
theorem handErrors_of_no_tag {s : State} {k} (a : ∀ w, checkWay (wayOf s k w) ≠ .tagError) (r) :
    ∃ record latch alertLow, handErrors k allWays r s = afterErrors record latch alertLow s :=
  handErrorFold_of_state k r _ s (errorsIn_state (ws := allWays) a)

/-- A set read with no tag parity error shows none. -/
theorem hasTagError_of_no_tag {s : State} {k} (a : ∀ w, checkWay (wayOf s k w) ≠ .tagError) : hasTagError s k = false := by
  unfold hasTagError; rw [List.any_eq_false]; intro w _; simpa using a w

/-- A set with a tag parity error shows it. -/
theorem hasTagError_of_tag {s : State} {k} (a : ∃ w, checkWay (wayOf s k w) = .tagError) : hasTagError s k = true := by
  obtain ⟨w, a⟩ := a
  unfold hasTagError; rw [List.any_eq_true]; exact ⟨w, mem_allWays w, by simpa using a⟩

/-- The way found is the first of good tag parity with the line's tag (R62). -/
theorem matchingWay_of_first {s : State} {line : LineNo} {w : WayNo}
    (b : checkWay (wayOf s (lineSet line) w) = .good ∨ checkWay (wayOf s (lineSet line) w) = .stateError)
    (c : (wayOf s (lineSet line) w).tag = lineTag line)
    (d : ∀ v, v < w → (checkWay (wayOf s (lineSet line) v) = .good ∨ checkWay (wayOf s (lineSet line) v) = .stateError) →
      (wayOf s (lineSet line) v).tag ≠ lineTag line) : matchingWay s line = some w := by
  unfold matchingWay
  refine find_allWays (decide_eq_true ⟨b, c⟩) fun v hv => decide_eq_false ?_
  rintro ⟨x, y⟩
  exact d v hv x y

/-- A set in which no way of good tag parity has the line's tag has no match. -/
theorem matchingWay_of_no_way {s : State} {line : LineNo}
    (d : ∀ v, checkWay (wayOf s (lineSet line) v) = .good ∨ checkWay (wayOf s (lineSet line) v) = .stateError →
      (wayOf s (lineSet line) v).tag ≠ lineTag line) : matchingWay s line = none := by
  unfold matchingWay
  rw [List.find?_eq_none]
  intro v _ q
  have q := of_decide_eq_true q
  exact d v q.1 q.2

/-- The later write of a tracker stands. -/
theorem setTracker_setTracker (s t x y) : setTracker (setTracker s t x) t y = setTracker s t y := by
  simp [setTracker]

/-- Everything a round of recalls does: each host is sent its recalls, where they are placed. -/
theorem recallFold_spec (n : LineNo) (t : TrackerNo) (l : List (HostNo × RecallKind)) : ∀ s,
   let x := l.foldl (fun s r => place r.1 (recallMsg r.2 n t) s) s
   (∀ p, hliOf x p = { hliOf s p with outbound := (hliOf s p).outbound ++
          ((l.filter (fun r => r.1 = p ∧ isPlaced s p (recallMsg r.2 n t) = true)).map (fun r => recallMsg r.2 n t)) }) ∧ SameButHli x s := by
  induction l with
  | nil => intro s; exact ⟨fun p => by simp, by constructor <;> rfl⟩
  | cons r l ih =>
    intro s
    obtain ⟨a, b⟩ := ih (place r.1 (recallMsg r.2 n t) s)
    have ip : ∀ p m, isPlaced (place r.1 (recallMsg r.2 n t) s) p m = isPlaced s p m := by intro p m; simp [isPlaced]
    have c := sameButHli_of (place_hli_eq (s := s) r.1 (recallMsg r.2 n t))
    refine ⟨fun p => ?_, ?_⟩
    · rw [List.foldl_cons, a]; simp only [ip, hliOf_place, List.filter_cons]
      by_cases z : r.1 = p ∧ isPlaced s p (recallMsg r.2 n t) = true
      · simp [z]
      · simp [z]
    · constructor <;> simp [b.1, b.2, b.3, b.4, b.5, b.6, b.7, b.8, b.9, b.10, b.11, b.12, b.13]

/-- Everything a binding does: the one way names the tracker (R62). -/
theorem bindWay_spec (k w t s) : let x := bindWay k w t s
   wayOf x k w = { wayOf s k w with binding := some t } ∧ (∀ j v, (j, v) ≠ (k, w) → wayOf x j v = wayOf s j v) ∧ { x with dir := s.dir } = s ∧ x.dir.lostCount = s.dir.lostCount ∧
      x.dir.lostRecord = s.dir.lostRecord := by
  refine ⟨by simp [bindWay], fun j v h => ?_, rfl, ?_, rfl⟩
  · have : ¬ (k = j ∧ w = v) := by rintro ⟨rfl, rfl⟩; exact h rfl
    simp [bindWay, this]
  · show s.dir.lostCount + lostBit _ - lostBit _ = _
    simp [lostBit]

/-- A lookup that is due is made, and what is due then follows. -/
theorem trackerLookup_due {s t tr} (hr : s.resetPhase = .noReset) (ht : trackerOf s t = some tr) (hm : tr.mode = .tracked) (hp : tr.phase = .setup)
   (hn : t ∉ s.trk.reparkWait) :
   exec (.trackerLookup t) s = .next (settle (lookup t s)) := by
    show Host.Outcome.next (settle (trackerLookup t s)) = _
    have : lookupDue s t = true := by simp [lookupDue, ht, hm, hp, hn]
    simp [trackerLookup, this, inReset, hr]

/-- The lookup of a request in an open set read with no tag parity error (R62, R159). -/
theorem lookup_open {s t} {tr : Tracker} (ht : trackerOf s t = some tr) (hc : isClosed s (lineSet tr.line) = false)
   (hg : ∀ v, checkWay (wayOf s (lineSet tr.line) v) ≠ .tagError) :
   lookup t s = match matchingWay s tr.line with
        | none => lookupMiss t tr (handErrors (lineSet tr.line) allWays .lookup s)
        | some w =>
          if checkWay (wayOf s (lineSet tr.line) w) = .stateError
          then startScrub t (bindWay (lineSet tr.line) w t (handErrors (lineSet tr.line) allWays .lookup s))
          else lookupHit t tr w (handErrors (lineSet tr.line) allWays .lookup s) := by
  unfold lookup
  rw [ht]
  dsimp only
  rw [hc, if_neg Bool.false_ne_true, hasTagError_of_no_tag hg, if_neg Bool.false_ne_true]
  all_goals (cases matchingWay s tr.line <;> rfl)

/-- Everything the start of a round with a recall to send does (R80). -/
theorem startRound_cons (t r l s) {tr : Tracker} (ht : trackerOf s t = some tr) : startRound t (r :: l) s =
   setTracker ((r :: l).foldl (fun s r => place r.1 (recallMsg r.2 tr.line t) s) s) t (some { tr with
          phase := .recall
          awaited := (r :: l).map (fun r => ⟨r.1, r.2, false⟩)
          deadline := some s.mgmt.recallLimit.toNat
          graceUsed := false
          dropped := hostSetOf (((r :: l).filter (fun r => r.2 = .drop)).map (fun r => r.1)) }) := by
  unfold startRound
  rw [ht]
  dsimp only
  obtain ⟨-, q⟩ := recallFold_spec tr.line t (r :: l) s
  rw [updTracker_of_some]
  rw [← ht]; simp only [trackerOf]; rw [q.trk]

/-- The write of one tracker leaves the others. -/
theorem trackerOf_setTracker_other (s : State) (t u x) (h : u ≠ t) : trackerOf (setTracker s t x) u = trackerOf s u := by
  simp [h.symm]

/-- Equal directories have equal ways. -/
theorem wayOf_of_dir {a b : State} (h : a.dir = b.dir) (j v) : wayOf a j v = wayOf b j v := by simp only [wayOf, Machine.setOf, h]

/-- The write of a tracker as it stands changes nothing. -/
theorem setTracker_same {s t tr} (h : trackerOf s t = some tr) : setTracker s t (some tr) = s := by
  have : s.trk.table.set t (some tr) = s.trk.table := by
    rw [← h]; exact Vector.set_getElem_self _
  simp [setTracker, this]

/-- A new member joins at the end. -/
theorem insertNew_of_not_mem {α} [DecidableEq α] {x : α} {l : List α} (h : x ∉ l) : insertNew x l = l ++ [x] := by simp [insertNew, h]

end Sys2Proof.Machine
end

