-- ==== Sys2Proof/Laws/Replies.lean ====
section
/-! SUPPORT. What the operations of a reply and of a fence do: trackers freed and let go, entries written, responses
sent. -/

/- One theorem at a time: side by side, theorems that wait for one another hold a thread each. -/
set_option Elab.async false

namespace Sys2Proof.Machine

/-- What the walker waits for once trackers have been freed: no more for a line that one of them was on (R148). -/
def waitAfter (gone : List TrackerNo) (s : State) : WalkWait :=
  if gone.any (fun u => (trackerOf s u).any (fun tr => s.walker.wait = .busy tr.line)) then .ready else s.walker.wait

/-- A state after trackers have been freed (R78, R91, R92): `gone` are they, `ask` the trackers then let ask again. -/
def afterFree (gone : List TrackerNo) (table : Vector (Option Tracker) 64) (ask : List TrackerNo) (s : State) : State :=
  { s with
    trk := ⟨table, s.trk.claims.filter (fun c => ∀ u ∈ gone, c ≠ .evict u), s.trk.victimWait.filter (· ∉ gone), ask,
      s.trk.reparkWait.filter (· ∉ gone)⟩
    walker := { s.walker with trackers := s.walker.trackers.filter (· ∉ gone), wait := waitAfter gone s }
    disp := { s.disp with passedOver := if ∃ u ∈ gone, u.val < 56 then 0 else s.disp.passedOver } }

/-- Everything the freeing of a tracker in use does (R78). -/
theorem freeTracker_spec {t s tr} (e : trackerOf s t = some tr) :
    ∃ ask, freeTracker t s = afterFree [t] (s.trk.table.set t none) ask s := by
  have w : toldFree tr.line s.walker.wait = waitAfter [t] s := by
    simp [toldFree, waitAfter, e]
  unfold freeTracker
  rw [e]
  dsimp only
  split
  · exact ⟨_, by simp [reportChange, letAsk, afterFree, setTracker, headsAfterFree, w]; rfl⟩
  · exact ⟨_, by simp [afterFree, setTracker, headsAfterFree, w]; rfl⟩

/-- The freeing of a tracker that is free changes nothing. -/
theorem freeTracker_of_none {t s} (e : trackerOf s t = none) : freeTracker t s = s := by simp [freeTracker, e]

/-- Which trackers stand after one has been freed. -/
theorem trackerOf_freeTracker (t s u) : trackerOf (freeTracker t s) u = if t = u then none else trackerOf s u := by
  cases e : trackerOf s t with
  | none =>
    rw [freeTracker_of_none e]
    by_cases z : t = u
    · subst z; simp [e]
    · simp [z]
  | some tr =>
    obtain ⟨ask, h⟩ := freeTracker_spec e
    rw [h, ← trackerOf_setTracker]
    rfl

/-- Everything the freeing of several trackers in use does. -/
theorem freeTrackers_spec (l : List TrackerNo) : ∀ s, l.Nodup → (∀ t ∈ l, (trackerOf s t).isSome) →
    ∃ table ask, l.foldl (fun s t => freeTracker t s) s = afterFree l table ask s ∧
      ∀ u : TrackerNo, table[u] = if u ∈ l then none else trackerOf s u := by
  induction l with
  | nil =>
    intro s _ _
    have w : waitAfter [] s = s.walker.wait := rfl
    exact ⟨s.trk.table, s.trk.askAgain, by simp [afterFree, w], fun u => by simp [trackerOf]⟩
  | cons t l ih =>
    intro s nd all
    obtain ⟨tr, e⟩ := Option.isSome_iff_exists.1 (all t (by simp))
    obtain ⟨ask, h⟩ := freeTracker_spec e
    have o := trackerOf_freeTracker t s
    simp only [List.nodup_cons] at nd
    obtain ⟨table, ask1, f, g⟩ := ih (freeTracker t s) nd.2 fun u hu => by
      rw [o, if_neg (by rintro rfl; exact nd.1 hu)]; exact all u (by simp [hu])
    refine ⟨table, ask1, ?_, fun u => ?_⟩
    · rw [List.foldl_cons, f, h]
      have p : (if ∃ u ∈ l, u.val < 56 then 0 else if ∃ u ∈ [t], u.val < 56 then 0 else s.disp.passedOver) =
          if ∃ u ∈ t :: l, u.val < 56 then 0 else s.disp.passedOver := by
        by_cases a : ∃ u ∈ l, u.val < 56 <;> by_cases b : t.val < 56 <;> simp [a, b]
      have c : (s.trk.claims.filter (fun c => ∀ u ∈ [t], c ≠ .evict u)).filter (fun c => ∀ u ∈ l, c ≠ .evict u) =
          s.trk.claims.filter (fun c => ∀ u ∈ t :: l, c ≠ .evict u) := by
        rw [List.filter_filter]; congr 1; funext c; simp [Bool.and_comm]
      have k : ∀ x : List TrackerNo, (x.filter (· ∉ [t])).filter (· ∉ l) = x.filter (· ∉ t :: l) := fun x => by
        rw [List.filter_filter]; congr 1; funext c; simp [Bool.and_comm]
      have v : waitAfter l (afterFree [t] (s.trk.table.set t none) ask s) = waitAfter (t :: l) s := by
        have w : (freeTracker t s).walker.wait = waitAfter [t] s := by rw [h]; rfl
        have q : ∀ x : WalkWait, l.any (fun u => (trackerOf (freeTracker t s) u).any (fun tr => x = .busy tr.line)) =
            l.any (fun u => (trackerOf s u).any (fun tr => x = .busy tr.line)) := fun x => by
          rw [Bool.eq_iff_iff, List.any_eq_true, List.any_eq_true]
          refine exists_congr fun u => and_congr_right fun hu => ?_
          rw [o, if_neg (by rintro rfl; exact nd.1 hu)]
        rw [← h]
        simp only [waitAfter, w, q, List.any_cons, List.any_nil, Bool.or_false]
        by_cases z : (trackerOf s t).any (fun tr => s.walker.wait = .busy tr.line) = true
        · simp [z]
        · simp [z]
      rw [show afterFree l table ask1 (afterFree [t] (s.trk.table.set t none) ask s) =
        { afterFree l table ask1 (afterFree [t] (s.trk.table.set t none) ask s) with
          walker := { (afterFree l table ask1 (afterFree [t] (s.trk.table.set t none) ask s)).walker with
            wait := waitAfter l (afterFree [t] (s.trk.table.set t none) ask s) } } from rfl, v]
      simp only [afterFree, p, c, k]
    · rw [g, o]
      by_cases x : u = t <;> by_cases y : u ∈ l <;> simp [x, y]
      all_goals (intro z; exact absurd z.symm x)

/-- Trackers that let a host go, one after another. -/
theorem letGoFold_spec (h : HostNo) (l : List TrackerNo) (nd : l.Nodup) : ∀ s, let t := l.foldl (fun s t => updTracker s t (letGo h)) s
   { t with trk := s.trk } = s ∧ (∀ u, trackerOf t u = if u ∈ l then (trackerOf s u).map (letGo h) else trackerOf s u) ∧ t.trk.reparkWait = s.trk.reparkWait := by
  induction l with
  | nil => intro s; simp
  | cons v l ih =>
    intro s
    simp only [List.nodup_cons] at nd
    obtain ⟨a, b, c⟩ := ih nd.2 (updTracker s v (letGo h))
    rw [List.foldl_cons]
    refine ⟨?_, fun u => ?_, ?_⟩
    · generalize List.foldl _ _ l = y at *
      have : { updTracker s v (letGo h) with trk := s.trk } = s := by unfold updTracker; split <;> rfl
      rw [← a] at this
      exact this
    · rw [b, trackerOf_updTracker]
      by_cases x : u = v
      · subst x; simp [nd.1]
      · have : ¬ v = u := fun z => x z.symm
        simp [x, this]
    · rw [c]; unfold updTracker; split <;> rfl

/-- The two states differ at most in the tracker table and the free values. -/
structure SameButTrackers (t s : State) : Prop where
  hub : t.hub = s.hub
  resetPhase : t.resetPhase = s.resetPhase
  hli : t.hli = s.hli
  ports : t.ports = s.ports
  region : t.region = s.region
  dir : t.dir = s.dir
  disp : t.disp = s.disp
  mem : t.mem = s.mem
  walker : t.walker = s.walker
  integ : t.integ = s.integ
  mgmt : t.mgmt = s.mgmt
  pending : t.pending = s.pending

/-- What an equation up to the tracker table says field by field. -/
theorem sameButTrackers_of {t s : State} (e : {t with trk := s.trk} = s) : SameButTrackers t s := by
  cases t; cases s; cases e; constructor <;> rfl

/-- The trackers of a host that wait in SETUP to re-park its requests (R94). -/
def reparkingFor (s : State) (h : HostNo) : List TrackerNo :=
  allTrackers.filter (fun t => s.trk.reparkWait.contains t && requestedBy s h t)

/-- Everything the dispatcher's part of a fence does (R94). -/
theorem dispatcherDrop_spec (h s) : ∃ table ask, dispatcherDrop h s = afterFree (reparkingFor s h) table ask
      { s with disp := { s.disp with
        park := s.disp.park.filter (fun p => p.host ≠ h)
        slots := s.disp.slots.set h none
        passedOver := dropHost s.disp.passedOver h } } ∧
    ∀ u : TrackerNo, table[u] = if u ∈ reparkingFor s h then none else trackerOf s u := by
  refine freeTrackers_spec (reparkingFor s h) _ ((List.nodup_finRange 64).filter _) fun t ht => ?_
  have : requestedBy s h t = true := by
    simp only [reparkingFor, List.mem_filter, Bool.and_eq_true] at ht; exact ht.2.2
  unfold requestedBy at this
  show (trackerOf s t).isSome
  cases e : trackerOf s t <;> simp_all

/-- Everything the trackers' part of a fence does (R35). -/
theorem trackersLetGo_spec (h s) : SameButTrackers (trackersLetGo h s) s ∧ (∀ u, trackerOf (trackersLetGo h s) u = (trackerOf s u).map (letGo h)) := by
  obtain ⟨l1, l2, l3⟩ := letGoFold_spec h allTrackers (by unfold allTrackers; exact List.nodup_finRange 64) s
  refine ⟨sameButTrackers_of l1, fun u => ?_⟩
  have : u ∈ allTrackers := by simp [allTrackers]
  rw [trackersLetGo, l2, if_pos this]

/-- An entry written is the one way's, as masked (R65, R68). -/
theorem wayOf_writeEntry (k w tag e cause) (s : State) : ∀ j v, wayOf (writeEntry k w tag e cause s) j v = if k = j ∧ w = v then wayFor (wayOf s k w) tag (maskEntry s e) else wayOf s j v := by
    intro j v
    rw [← wayOf_putWay]
    unfold writeEntry
    split
    · dsimp only; split <;> rfl
    · rfl

/-- The two states differ at most in the directory, the alerts and the trackers that wait. -/
structure SameButDirectory (t s : State) : Prop where
  hub : t.hub = s.hub
  resetPhase : t.resetPhase = s.resetPhase
  hli : t.hli = s.hli
  ports : t.ports = s.ports
  region : t.region = s.region
  disp : t.disp = s.disp
  mem : t.mem = s.mem
  integ : t.integ = s.integ
  pending : t.pending = s.pending
  table : t.trk.table = s.trk.table

/-- An entry written leaves all but the directory, its alert and its record. -/
theorem writeEntry_same (k w tag e cause) (s : State) : SameButDirectory (writeEntry k w tag e cause s) s := by
    unfold writeEntry
    split
    · dsimp only; split <;> (constructor <;> rfl)
    · constructor <;> rfl

/-- A touch order written leaves the ways. -/
theorem wayOf_putOrder (k : SetNo) (o : List WayNo) (s : State) (j v) : wayOf (putSet s k { Machine.setOf s k with order := o }) j v = wayOf s j v := by
  simp only [wayOf, Machine.setOf, putSet]
  by_cases z : k = j
  · subst z; simp
  · have : k.toNat ≠ j.toNat := fun q => z (BitVec.eq_of_toNat_eq q)
    simp [this]

/-- A touch leaves the ways. -/
theorem wayOf_touchLeast (k w) (s : State) (j v) : wayOf (touchLeast k w s) j v = wayOf s j v := wayOf_putOrder ..

/-- A touch leaves the ways. -/
theorem wayOf_touchMost (k w) (s : State) (j v) : wayOf (touchMost k w s) j v = wayOf s j v := wayOf_putOrder ..

/-- A touch leaves the ways. -/
theorem wayOf_touchWritten (k w) (s : State) (j v) : wayOf (touchWritten k w s) j v = wayOf s j v := by
  unfold touchWritten; split
  · exact wayOf_touchLeast ..
  · exact wayOf_touchMost ..

/-- A touch leaves all but the directory. -/
theorem touchWritten_same (k w) (s : State) : SameButDirectory (touchWritten k w s) s := by
  unfold touchWritten; split <;> (constructor <;> rfl)

/-- Everything a response does: its tag is no longer outstanding, and it is placed (R3, R20, R129). -/
theorem respond_spec (h tag m) (s : State) : let x := respond h tag m s
    hliOf x h = { hliOf s h with
      tags := (hliOf s h).tags.filter (· ≠ tag)
      outbound := (hliOf s h).outbound ++ (if isPlaced s h m = true then [m] else []) } ∧
    (∀ p, p ≠ h → hliOf x p = hliOf s p) ∧ { x with hli := s.hli, disp := s.disp } = s ∧ x.disp.park = s.disp.park := by
  have a : ∀ p, hliOf (dropTag h tag s) p = if h = p then { hliOf s p with tags := (hliOf s p).tags.filter (· ≠ tag) } else hliOf s p := by
    intro p; unfold dropTag updSlot; split <;> (refine Eq.trans (b := hliOf (updHli s h (fun x => { x with tags := x.tags.filter (· ≠ tag) })) p) rfl ?_; rw [hliOf_updHli]; by_cases z : h = p <;> simp [z])
  have b : { dropTag h tag s with hli := s.hli, disp := s.disp } = s ∧ (dropTag h tag s).disp.park = s.disp.park := by
    unfold dropTag updSlot; split <;> exact ⟨rfl, rfl⟩
  have c : (dropTag h tag s).ports = s.ports := by
    unfold dropTag updSlot; split <;> rfl
  unfold respond
  generalize dropTag h tag s = d at *
  have e : isPlaced d h m = isPlaced s h m := by
    have : portState d h = portState s h := by simp only [portState, portOf, c]
    simp only [isPlaced, a, if_true, this]
  have f := place_hli_eq (s := d) h m
  refine ⟨?_, ?_, ?_, ?_⟩
  · rw [hliOf_place, e, a, if_pos rfl]
    by_cases z : isPlaced s h m = true <;> simp [z]
  · intro p q
    rw [hliOf_place, if_neg (by simp [q.symm]), a, if_neg q.symm]
  · dsimp only at f ⊢
    generalize place h m d = x at *
    rw [← f] at b; exact b.1
  · generalize place h m d = x at *
    rw [← f] at b; exact b.2

/-- A response is the end of its request, in the words of the claims. -/
theorem respond_eq (h tag m) (s : State) : respond h tag m s = requestEnded h tag m s := by
  have d : dropTag h tag s = { updHli s h (fun x => { x with tags := x.tags.filter (· ≠ tag) }) with
      disp := { s.disp with
        slots := s.disp.slots.set h
          ((slotOf s h).map (fun f => { f with requests := f.requests.filter (· ≠ tag) })) } } := by
    unfold dropTag updSlot
    have e : slotOf (updHli s h (fun x => { x with tags := x.tags.filter (· ≠ tag) })) h = slotOf s h := rfl
    rw [e]
    cases z : slotOf s h with
    | none =>
      have : s.disp.slots.set h none = s.disp.slots := by
        rw [← z]; exact Vector.set_getElem_self _
      simp only [Option.map_none, this]
      rfl
    | some f => rfl
  have p : isPlaced (dropTag h tag s) h m = isPlaced s h m := by
    rw [d]
    have l : (hliOf (updHli s h (fun x => { x with tags := x.tags.filter (· ≠ tag) })) h).linkUp = (hliOf s h).linkUp := by
      rw [hliOf_updHli, if_pos rfl]
    unfold isPlaced
    exact congrArg (· && _) l
  have q : ∀ y : State, place h m y =
      if isPlaced y h m then updHli y h (fun x => { x with outbound := x.outbound ++ [m] }) else y := by
    intro y
    unfold place isPlaced
    by_cases a : (hliOf y h).linkUp = true
    · by_cases b : portState y h = .fencing
      · cases passesFence m <;> simp [a, b]
      · by_cases c : portState y h = .fenced
        · cases passesFence m <;> simp [a, c]
        · cases passesFence m <;> simp [a, b, c]
    · simp [a]
  unfold respond
  rw [q, p, d]
  unfold requestEnded
  by_cases z : isPlaced s h m = true
  · simp [z, updHli, hliOf]
  · simp [z, updHli, hliOf]

/-- The write of an entry leaves the trackers. -/
theorem writeEntry_trk (k w tag e cause) (s : State) : (writeEntry k w tag e cause s).trk = s.trk := by
  unfold writeEntry
  split
  · dsimp only; split <;> rfl
  · rfl

/-- A touch leaves the trackers. -/
theorem touchWritten_trk (k w) (s : State) : (touchWritten k w s).trk = s.trk := by
  unfold touchWritten; split <;> rfl

/-- The way bound to a tracker depends on the directory alone. -/
theorem boundWay_of_dir {a b : State} (h : a.dir = b.dir) (k t) : boundWay a k t = boundWay b k t := by
  simp only [boundWay, wayOf_of_dir h]

/-- The REPLY of a tracker bound to a way with no waiting requester: its request ends, the commit is made with its touch
and its report, and the tracker is free (R65, R78). -/
theorem reply_bound {s : State} {t tr h tag w m} (refuse) (ht : trackerOf s t = some tr)
    (hb : boundWay s (lineSet tr.line) t = some w) (hw : tr.waitingRequester = none)
    (hm : sendResponse tr refuse s = respond h tag m s) :
    reply t refuse s = freeTracker t (reportChange (lineSet tr.line) (touchWritten (lineSet tr.line) w
      (writeEntry (lineSet tr.line) w (lineTag tr.line) (presented s refuse tr) .commit (requestEnded h tag m s)))) := by
  unfold reply
  rw [ht]
  dsimp only
  rw [hm, respond_eq]
  unfold commit
  dsimp only
  have e : boundWay (requestEnded h tag m s) (lineSet tr.line) t = some w := (boundWay_of_dir rfl ..).trans hb
  rw [e, hw]
  rfl

/-- The REPLY of a tracker bound to no way: its request ends and the tracker is free (R78, R106, R119). -/
theorem reply_unbound {s : State} {t tr h tag m} (refuse) (ht : trackerOf s t = some tr)
    (hb : boundWay s (lineSet tr.line) t = none) (hm : sendResponse tr refuse s = respond h tag m s) :
    reply t refuse s = freeTracker t (requestEnded h tag m s) := by
  unfold reply
  rw [ht]
  dsimp only
  rw [hm, respond_eq]
  unfold commit
  dsimp only
  have e : boundWay (requestEnded h tag m s) (lineSet tr.line) t = none := (boundWay_of_dir rfl ..).trans hb
  rw [e]

/-- A tracker not bound to a way has none. -/
theorem boundWay_of_none {s : State} {k t} (hb : ∀ v, (wayOf s k v).binding ≠ some t) : boundWay s k t = none := by
  unfold boundWay; rw [List.find?_eq_none]; intro v _; simpa using hb v

/-- The way just bound to a tracker is its way. -/
theorem boundWay_bindWay {s : State} {k w t} (hb : ∀ v, (wayOf s k v).binding ≠ some t) :
    boundWay (bindWay k w t s) k t = some w := by
  obtain ⟨b1, b2, -⟩ := bindWay_spec k w t s
  unfold boundWay
  refine find_allWays (decide_eq_true (by rw [b1])) fun v hv => decide_eq_false ?_
  rw [b2 k v (by intro q; cases q; exact lt_irrefl _ hv)]
  exact hb v

/-- Everything the REPLY of a bound tracker does that is not left free by the response it sends. -/
theorem reply_spec {s : State} {t tr h tag w m} (refuse) (ht : trackerOf s t = some tr) (hb : boundWay s (lineSet tr.line) t = some w)
  (hw : tr.waitingRequester = none) (hm : sendResponse tr refuse s = respond h tag m s) : let x := reply t refuse s
    trackerOf x t = none ∧ (∀ u, u ≠ t → trackerOf x u = trackerOf s u) ∧
    wayOf x (lineSet tr.line) w = wayFor (wayOf s (lineSet tr.line) w) (lineTag tr.line) (maskEntry s (presented s refuse tr)) ∧
    (∀ j v, (j, v) ≠ (lineSet tr.line, w) → wayOf x j v = wayOf s j v) ∧
    hliOf x h = { hliOf s h with
      tags := (hliOf s h).tags.filter (· ≠ tag)
      outbound := (hliOf s h).outbound ++ (if isPlaced s h m = true then [m] else []) } ∧
    (∀ p, p ≠ h → hliOf x p = hliOf s p) ∧ x.mem = s.mem ∧ x.region = s.region ∧ x.integ = s.integ := by
  obtain ⟨r1, r2, r3, r4⟩ := respond_spec h tag m s
  unfold reply
  simp only [ht, hm]
  generalize respond h tag m s = R at *
  have q1 : R.dir = s.dir ∧ R.trk = s.trk ∧ R.ports = s.ports ∧ R.mem = s.mem ∧ R.region = s.region ∧ R.integ = s.integ := by
    rw [← r3]; exact ⟨rfl, rfl, rfl, rfl, rfl, rfl⟩
  obtain ⟨q1, q2, q3, q4, q5, q6⟩ := q1
  have mk : ∀ e, maskEntry R e = maskEntry s e := by
    have : ∀ p, isAdmitted R p = isAdmitted s p := by
      intro p
      have : portState R p = portState s p := by simp only [portState, portOf, q3]
      simp only [isAdmitted, this]
    have hh : holding R = holding s := by unfold holding; rw [show isAdmitted R = isAdmitted s from funext this]
    intro e; cases e <;> simp [maskEntry, hh, this]
  have bw : boundWay R (lineSet tr.line) t = some w := by
    rw [← hb]; simp only [boundWay, wayOf_of_dir q1]
  unfold commit
  simp only [bw, handOver, hw]
  have tA : ∀ u, trackerOf (reportChange (lineSet tr.line) (touchWritten (lineSet tr.line) w (writeEntry (lineSet tr.line) w (lineTag tr.line) (presented s refuse tr) .commit R))) u = trackerOf s u := by
    intro u
    have a1 := (writeEntry_same (lineSet tr.line) w (lineTag tr.line) (presented s refuse tr) .commit R)
    have a2 := touchWritten_same (lineSet tr.line) w (writeEntry (lineSet tr.line) w (lineTag tr.line) (presented s refuse tr) .commit R)
    show (touchWritten _ _ _).trk.table[u] = _
    rw [a2.table, a1.table, q2]; rfl
  have wA := wayOf_writeEntry (lineSet tr.line) w (lineTag tr.line) (presented s refuse tr) .commit R
  have dA := writeEntry_same (lineSet tr.line) w (lineTag tr.line) (presented s refuse tr) .commit R
  generalize writeEntry (lineSet tr.line) w (lineTag tr.line) (presented s refuse tr) .commit R = A at *
  have wB := wayOf_touchWritten (lineSet tr.line) w A
  have dB := touchWritten_same (lineSet tr.line) w A
  generalize touchWritten (lineSet tr.line) w A = B at *
  obtain ⟨ask, f1⟩ := freeTracker_spec (s := reportChange (lineSet tr.line) B) ((tA t).trans ht)
  have f2 := trackerOf_freeTracker t (reportChange (lineSet tr.line) B)
  have f3 : (freeTracker t (reportChange (lineSet tr.line) B)).dir = B.dir ∧
      (freeTracker t (reportChange (lineSet tr.line) B)).hli = B.hli ∧
      (freeTracker t (reportChange (lineSet tr.line) B)).mem = B.mem ∧
      (freeTracker t (reportChange (lineSet tr.line) B)).region = B.region ∧
      (freeTracker t (reportChange (lineSet tr.line) B)).integ = B.integ := by
    rw [f1]; exact ⟨rfl, rfl, rfl, rfl, rfl⟩
  clear f1
  generalize freeTracker t (reportChange (lineSet tr.line) B) = X at *
  have wX : ∀ j v, wayOf X j v = wayOf A j v := fun j v => (wayOf_of_dir f3.1 j v).trans (wB j v)
  have hX : X.hli = R.hli := by rw [f3.2.1, dB.hli, dA.hli]
  have hh : ∀ p, hliOf X p = hliOf R p := by intro p; simp [hliOf, hX]
  refine ⟨by simp [f2], fun u hu => by rw [f2, if_neg hu.symm, tA], ?_, ?_, ?_, ?_, ?_, ?_, ?_⟩
  · rw [wX, wA, if_pos ⟨rfl, rfl⟩, mk, wayOf_of_dir q1]
  · intro j v hn; rw [wX, wA, if_neg (by rintro ⟨rfl, rfl⟩; exact hn rfl)]; exact wayOf_of_dir q1 _ _
  · rw [hh, r1]
  · intro p hp; rw [hh, r2 p hp]
  · rw [f3.2.2.1, dB.mem, dA.mem, q4]
  · rw [f3.2.2.2.1, dB.region, dA.region, q5]
  · rw [f3.2.2.2.2, dB.integ, dA.integ, q6]

end Sys2Proof.Machine
end

