-- ==== Sys2Proof/Laws/Directory.lean ====
section
/-! SUPPORT. What the searches over trackers, parked requests and ways find, what handing over parity errors and
closing a set do, what freeing ways together does, and how the walker scans a set. -/

/- One theorem at a time: side by side, theorems that wait for one another hold a thread each. -/
set_option Elab.async false

namespace Sys2Proof.Machine

/-! ### Searches over trackers -/

/-- The host pool, split at one of its trackers. -/
theorem split_hostPool : ∀ t : TrackerNo, t.val < 56 →
    hostPool = List.filter (fun v => decide (v < t)) hostPool ++ t :: List.filter (fun v => decide (t < v)) hostPool := by decide +kernel

/-- A search of the host pool finds the lowest tracker that answers. -/
theorem find_hostPool {P : TrackerNo → Bool} {t : TrackerNo} (a : t.val < 56) (b : P t = true) (c : ∀ u, u < t →
    P u = false) : hostPool.find? P = some t := by
  rw [List.find?_eq_some_iff_append]
  refine ⟨b, ?_⟩
  refine ⟨hostPool.filter (fun v => v < t), hostPool.filter (fun v => t < v), ?_, fun v hv => ?_⟩
  · exact split_hostPool t a
  · simp at hv; simp [c v hv.2]

/-- The lowest free tracker of the host pool is the one found. -/
theorem freeHostTracker_of_free {s t} (a : t.val < 56) (b : trackerOf s t = none) (c : ∀ u, u < t →
    trackerOf s u ≠ none) : freeHostTracker s = some t := by
  apply find_hostPool a
  · simp [b]
  · intro u hu; simpa using c u hu

/-- With the whole host pool in use none is found. -/
theorem freeHostTracker_of_full {s} (a : ∀ t : TrackerNo, t.val < 56 → trackerOf s t ≠ none) :
    freeHostTracker s = none := by
  unfold freeHostTracker
  rw [List.find?_eq_none]
  intro t ht
  have : t.val < 56 := by simp [hostPool] at ht; exact ht.2
  simpa using a t this

/-- A tracker is on a line exactly when one in use names it. -/
theorem trackerOn_isSome_iff (s n) : (trackerOn s n).isSome = true ↔ ∃ t tr, trackerOf s t = some tr ∧ tr.line = n := by
  unfold trackerOn
  rw [List.find?_isSome]
  constructor
  · rintro ⟨t, -, h⟩
    cases e : trackerOf s t with
    | none => simp [e] at h
    | some tr => exact ⟨t, tr, e, by simpa [e] using h⟩
  · rintro ⟨t, tr, e, h⟩
    exact ⟨t, by simp [allTrackers], by simp [e, h]⟩

/-- No tracker is on a line exactly when none in use names it. -/
theorem trackerOn_isNone_iff (s n) : (trackerOn s n).isNone = true ↔ ∀ u tr, trackerOf s u = some tr → tr.line ≠ n := by
  have := trackerOn_isSome_iff s n
  rw [Option.isNone_iff_eq_none, ← Option.not_isSome_iff_eq_none, this]
  simp only [not_exists, not_and, ne_eq]

/-- A way is busy exactly when it is bound or a tracker is on its line (R145). -/
theorem isBusy_iff (s : State) (k : SetNo) (w : WayNo) : isBusy s k w = true ↔
    ((wayOf s k w).binding ≠ none ∨ ∃ u tr, trackerOf s u = some tr ∧ tr.line = lineOf (wayOf s k w).tag k) := by
  simp only [isBusy, Bool.or_eq_true, trackerOn_isSome_iff]
  cases (wayOf s k w).binding <;> simp

/-! ### The first ready request (R90) -/

/-- With none ready none is found. -/
theorem firstReady_of_none (s) (l : List Parked) : ∀ ah, (∀ a q b, l = a ++ q :: b → isReady s (ah ++ a) q = false) →
    firstReady s ah l = none := by
  induction l with
  | nil => intro ah _; rfl
  | cons p l ih =>
    intro ah h
    have h0 := h [] p l rfl
    rw [List.append_nil] at h0
    rw [firstReady, if_neg (by simp [h0])]
    apply ih
    intro a q b e
    have := h (p :: a) q b (by simp [e])
    simpa using this

/-- The first that is ready is found. -/
theorem firstReady_of_some (s) (p : Parked) (b : List Parked) (l : List Parked) : ∀ ah, (∀ a q b, l = a ++ q :: b →
    isReady s (ah ++ a) q = false) → isReady s (ah ++ l) p = true → firstReady s ah (l ++ p :: b) = some p := by
  induction l with
  | nil => intro ah _ h; simp at h; simp [firstReady, h]
  | cons x l ih =>
    intro ah h hp
    have h0 := h [] x l rfl
    rw [List.append_nil] at h0
    rw [List.cons_append, firstReady, if_neg (by simp [h0])]
    apply ih
    · intro a q b e
      have := h (x :: a) q b (by simp [e])
      simpa using this
    · simpa using hp

/-! ### Parity errors handed over (R159) -/

/-- A fold of operations that keep the Integrity Unit keeps it. -/
theorem integ_foldl {α : Type} {f : State → α → State} (hf : ∀ s a, (f s a).integ = s.integ) (l : List α) (s : State) :
    (l.foldl f s).integ = s.integ := by
  induction l generalizing s with
  | nil => rfl
  | cons a l ih => exact (ih _).trans (hf s a)

/-- Freeing a tracker keeps the Integrity Unit. -/
theorem integ_freeTracker (t : TrackerNo) (s : State) : (freeTracker t s).integ = s.integ := by
  unfold freeTracker
  split
  · rfl
  · dsimp only; split <;> rfl

/-- Parking a released request keeps the Integrity Unit. -/
theorem integ_reparkNow (t : TrackerNo) (s : State) : (reparkNow t s).integ = s.integ := by
  unfold reparkNow
  split
  · rfl
  · split <;> simp [integ_freeTracker]

/-- A release keeps the Integrity Unit. -/
theorem integ_release (t : TrackerNo) (s : State) : (release t s).integ = s.integ := by
  have g : (giveUpReservation t s).integ = s.integ := by
    unfold giveUpReservation
    split
    · rfl
    · split
      · rfl
      · split <;> rfl
  unfold release
  split
  · rfl
  · dsimp only
    split
    · rw [integ_reparkNow]; exact g
    · exact (updTracker_integ ..).trans g

/-- A fold of operations that keep the Management Port keeps it. -/
theorem mgmt_foldl {α : Type} {f : State → α → State} (hf : ∀ s a, (f s a).mgmt = s.mgmt) (l : List α) (s : State) :
    (l.foldl f s).mgmt = s.mgmt := by
  induction l generalizing s with
  | nil => rfl
  | cons a l ih => exact (ih _).trans (hf s a)

/-- Freeing a tracker keeps the Management Port. -/
theorem mgmt_freeTracker (t : TrackerNo) (s : State) : (freeTracker t s).mgmt = s.mgmt := by
  unfold freeTracker
  split
  · rfl
  · dsimp only; split <;> rfl

/-- Parking a released request keeps the Management Port. -/
theorem mgmt_reparkNow (t : TrackerNo) (s : State) : (reparkNow t s).mgmt = s.mgmt := by
  unfold reparkNow
  split
  · rfl
  · split <;> simp [mgmt_freeTracker]

/-- A release keeps the Management Port. -/
theorem mgmt_release (t : TrackerNo) (s : State) : (release t s).mgmt = s.mgmt := by
  have g : (giveUpReservation t s).mgmt = s.mgmt := by
    unfold giveUpReservation
    split
    · rfl
    · split
      · rfl
      · split <;> rfl
  unfold release
  split
  · rfl
  · dsimp only
    split
    · rw [mgmt_reparkNow]; exact g
    · exact (updTracker_mgmt ..).trans g

/-- The closing of a set keeps the Management Port. -/
theorem mgmt_closeSet (k : SetNo) (s : State) : (closeSet k s).mgmt = s.mgmt := by
  unfold closeSet
  dsimp only
  rw [mgmt_foldl fun s t => mgmt_release t s, mgmt_foldl]
  intro s i
  split
  · split <;> simp
  · rfl

/-- What the handing over of parity errors does to the Management Port: an alert (R159). -/
theorem mgmt_handErrors (k) (l : List WayNo) (r) (s : State) :
    ∃ latch alertLow, (handErrors k l r s).mgmt = { s.mgmt with latch := latch, alertLow := alertLow } := by
  unfold handErrors
  generalize errorsIn s k l = e
  induction e generalizing s with
  | nil => exact ⟨s.mgmt.latch, s.mgmt.alertLow, rfl⟩
  | cons e es ih =>
    obtain ⟨x, y, q⟩ := ih (handError k r s e)
    refine ⟨x, y, ?_⟩
    rw [List.foldl_cons, q]
    have : ∃ x y, (handError k r s e).mgmt = { s.mgmt with latch := x, alertLow := y } := by
      unfold handError
      dsimp only
      split
      · exact ⟨_, _, (mgmt_closeSet ..).trans rfl⟩
      · exact ⟨_, _, rfl⟩
    obtain ⟨_, _, p⟩ := this
    rw [p]

/-- A set that is closed is closed (R165). -/
theorem isClosed_closeSet (k : SetNo) (s : State) : isClosed (closeSet k s) k = true := by
  have : (closeSet k s).integ = { s.integ with purgeList := insertNew k s.integ.purgeList } := by
    unfold closeSet
    dsimp only
    rw [integ_foldl fun s t => integ_release t s, integ_foldl]
    intro s i
    split
    · split <;> simp
    · rfl
  simp only [isClosed, this, insertNew]
  split <;> simp [*]

/-- Handing over a tag error leaves its set closed. -/
theorem handErrorFold_closes (k r) (l : List (WayNo × ParityKind)) :
    ∀ s, (isClosed s k = true ∨ ∃ e ∈ l, e.2 = .tag) → isClosed (l.foldl (handError k r) s) k = true := by
  induction l with
  | nil => intro s a; simpa using a
  | cons e l ih =>
    intro s a
    rw [List.foldl_cons]
    apply ih
    have c0 : isClosed (recordParity k e.1 e.2 r s) k = isClosed s k := rfl
    by_cases z : isClosed s k = true
    · left; unfold handError; simp [c0, z]
    · have z' : isClosed s k = false := by simpa using z
      rcases a with a | ⟨x, hx, q⟩
      · exact absurd a z
      · rcases List.mem_cons.1 hx with rfl | hx
        · left
          have : handError k r s x = closeSet k (recordParity k x.1 x.2 r s) := by
            unfold handError; dsimp only; rw [if_pos ⟨q, by rw [c0]; exact z'⟩]
          rw [this]; exact isClosed_closeSet ..
        · right; exact ⟨x, hx, q⟩

/-- A read that finds a tag parity error leaves its set closed (R165). -/
theorem handErrors_closes {s : State} {k} (a : ∃ w, checkWay (wayOf s k w) = .tagError) (r) :
    isClosed (handErrors k allWays r s) k = true := by
  apply handErrorFold_closes
  right
  obtain ⟨w, a⟩ := a
  refine ⟨(w, .tag), ?_, rfl⟩
  unfold errorsIn; rw [List.mem_filterMap]; exact ⟨w, mem_allWays w, by rw [a]⟩

/-! ### Ways of a set -/

/-- The first FREE way of the touch order is the one reserved (R61, R63). -/
theorem leastRecentFree_of_order {s : State} {k w before after} (o1 : (Machine.setOf s k).order = before ++ w :: after) (o2 : (wayOf s k w).code = 0) (o3 : ∀ v ∈ before, (wayOf s k v).code ≠ 0) : leastRecentFree s k = some w := by
  unfold leastRecentFree
  rw [o1, List.find?_append]
  have : List.find? (fun w => decide ((wayOf s k w).code = 0)) before = none := by
    rw [List.find?_eq_none]; intro v hv; simpa using o3 v hv
  rw [this]; simp [o2]

/-- A set with no FREE way gives none. -/
theorem leastRecentFree_of_full {s : State} {k} (o : ∀ w ∈ (Machine.setOf s k).order, (wayOf s k w).code ≠ 0) :
    leastRecentFree s k = none := by
  unfold leastRecentFree; rw [List.find?_eq_none]; intro v hv; simpa using o v hv

/-- The victim depends on the directory and the trackers alone. -/
theorem victimOf_congr {a b : State} (h1 : a.dir = b.dir) (h2 : a.trk = b.trk) (k) : victimOf a k = victimOf b k := by
  have w := wayOf_of_dir h1
  have o : (Machine.setOf a k) = Machine.setOf b k := by simp only [Machine.setOf, h1]
  have t : trackerOn a = trackerOn b := by funext n; simp only [trackerOn, trackerOf, h2]
  have i1 : isVictim a k = isVictim b k := by funext v; simp only [isVictim, w, t]
  have i2 : isScrubVictim a k = isScrubVictim b k := by funext v; simp only [isScrubVictim, w, t]
  unfold victimOf; rw [o, i1, i2]

/-- Freeing a way keeps the touch order. -/
theorem order_putFree (k w j) (s : State) : (Machine.setOf (putFree k w s) j).order = (Machine.setOf s j).order := by
  have : Machine.setOf (putFree k w s) j = Machine.setOf (putSet s k { Machine.setOf s k with ways := (Machine.setOf s k).ways.set w (freeWay (wayOf s k w)) }) j := rfl
  rw [this, setOf_putSet]; split
  · next h => subst h; rfl
  · rfl

/-- The ways after one is freed. -/
theorem wayOf_putFree (k w j v) (s : State) : wayOf (putFree k w s) j v = if k = j ∧
    w = v then freeWay (wayOf s k w) else wayOf s j v := by
  unfold putFree; rw [wayOf_putWay]

/-- The LOST count after a way is freed (R69). -/
theorem lostCount_putFree (k w) (s : State) :
    (putFree k w s).dir.lostCount = s.dir.lostCount - (if (wayOf s k w).code = 4 then 1 else 0) := by
  show s.dir.lostCount + lostBit (freeWay _) - lostBit (wayOf s k w) = _
  have : lostBit (freeWay (wayOf s k w)) = 0 := rfl
  rw [this]; rfl

/-- All that freeing several ways one after another does. -/
theorem putFreeFold_spec (k) (l : List WayNo) : ∀ s, l.Nodup → let t := l.foldl (fun s w => putFree k w s) s
   (∀ j v, wayOf t j v = if j = k ∧ v ∈ l then freeWay (wayOf s k v) else wayOf s j v) ∧ (∀ j, j ≠ k →
       Machine.setOf t j = Machine.setOf s j) ∧ (∀ j, (Machine.setOf t j).order = (Machine.setOf s j).order) ∧
       { t with dir := s.dir } = s ∧ t.dir.lostRecord = s.dir.lostRecord
     ∧ t.dir.lostCount = s.dir.lostCount - l.countP (fun w => (wayOf s k w).code = 4) ∧ t.dir.freed = s.dir.freed := by
  induction l with
  | nil => intro s _; simp
  | cons w l ih =>
    intro s nd
    simp only [List.nodup_cons] at nd
    obtain ⟨a, b, c, d, e, f, g⟩ := ih (putFree k w s) nd.2
    dsimp only at *
    rw [List.foldl_cons]
    refine ⟨fun j v => ?_, fun j hj => ?_, fun j => ?_, ?_, ?_, ?_, g⟩
    · rw [a]; simp only [wayOf_putFree]
      by_cases z : j = k
      · subst z
        by_cases y : v = w
        · subst y; simp [nd.1]
        · have : ¬ w = v := fun q => y q.symm
          simp [y, this]
      · have : ¬ k = j := fun q => z q.symm
        simp [z, this]
    · rw [b j hj]
      have : Machine.setOf (putFree k w s) j = Machine.setOf (putSet s k { Machine.setOf s k with ways := (Machine.setOf s k).ways.set w (freeWay (wayOf s k w)) }) j := rfl
      rw [this, setOf_putSet, if_neg (fun q => hj q.symm)]
    · rw [c, order_putFree]
    · generalize List.foldl _ _ l = x at *
      have : { putFree k w s with dir := s.dir } = s := rfl
      rw [← d] at this; exact this
    · rw [e]; rfl
    · rw [f, lostCount_putFree, List.countP_cons]
      have : l.countP (fun v => (wayOf (putFree k w s) k v).code = 4) = l.countP (fun v => (wayOf s k v).code = 4) := by
        apply List.countP_congr
        intro v hv
        have : ¬ w = v := by rintro rfl; exact nd.1 hv
        simp [wayOf_putFree, this]
      rw [this]
      simp only [decide_eq_true_eq]; omega

/-- A list of ways in ascending order is the ways that it holds. -/
theorem filter_allWays_of_sublist {l : List WayNo} (h : l.Sublist allWays) : allWays.filter (· ∈ l) = l := by
  have e : ∀ x ∈ allWays.sublists, allWays.filter (· ∈ x) = x := by decide +kernel
  exact e l (List.mem_sublists.2 h)

/-- All that moving ways just made FREE does (R60): every way, every other set and all but the directory stand, and the
ways of the set that the present event has made FREE are together at the least recent end, in ascending order. -/
theorem touchFreed_spec (k) (l : List WayNo) (s : State) : let t := touchFreed k l s
   (∀ j v, wayOf t j v = wayOf s j v) ∧ (∀ j, j ≠ k → Machine.setOf t j = Machine.setOf s j) ∧
       (let g := allWays.filter (fun v => v ∈ l ∨ (k, v) ∈ s.dir.freed)
        (Machine.setOf t k).order = g ++ (Machine.setOf s k).order.filter (· ∉ g)) ∧ { t with dir := s.dir } = s ∧
       t.dir.lostRecord = s.dir.lostRecord ∧ t.dir.lostCount = s.dir.lostCount ∧
       t.dir.freed = s.dir.freed ++ l.map (fun w => (k, w)) := by
  have g : freedNow (noteFreed (s.dir.freed ++ l.map (fun w => (k, w))) s) k =
      allWays.filter (fun v => v ∈ l ∨ (k, v) ∈ s.dir.freed) := by
    unfold freedNow
    apply List.filter_congr
    intro v _
    simp [noteFreed, or_comm]
  unfold touchFreed
  dsimp only
  rw [g]
  refine ⟨fun j v => (wayOf_putOrder ..).trans (wayOf_noteFreed ..), fun j hj => ?_, ?_, rfl, rfl, rfl, rfl⟩
  · rw [setOf_putSet, if_neg (fun q => hj q.symm), setOf_noteFreed]
  · rw [setOf_putSet, if_pos rfl, setOf_noteFreed]

/-- All that freeing several ways at one event does (R60). -/
theorem freeTogether_spec (k) (l : List WayNo) (s) (nd : l.Nodup) : let t := freeTogether k l s
   (∀ j v, wayOf t j v = if j = k ∧ v ∈ l then freeWay (wayOf s k v) else wayOf s j v) ∧ (∀ j, j ≠ k →
       Machine.setOf t j = Machine.setOf s j) ∧
       (let g := allWays.filter (fun v => v ∈ l ∨ (k, v) ∈ s.dir.freed)
        (Machine.setOf t k).order = g ++ (Machine.setOf s k).order.filter (· ∉ g)) ∧ { t with dir := s.dir } = s ∧
       t.dir.lostRecord = s.dir.lostRecord
     ∧ t.dir.lostCount = s.dir.lostCount - l.countP (fun w => (wayOf s k w).code = 4) := by
    obtain ⟨a, b, c, d, e, f, g⟩ := putFreeFold_spec k l s nd
    obtain ⟨a1, b1, c1, d1, e1, f1, -⟩ := touchFreed_spec k l (l.foldl (fun s w => putFree k w s) s)
    dsimp only at *
    unfold freeTogether
    generalize List.foldl _ s l = x at *
    refine ⟨fun j v => (a1 j v).trans (a j v), fun j hj => (b1 j hj).trans (b j hj), ?_, ?_, e1.trans e, f1.trans f⟩
    · rw [c1, c, g]
    · generalize touchFreed k l x = y at *
      rw [← d1] at d; exact d

/-! ### The walker -/

/-- Ways that are all passed over end the set. -/
theorem scanWays_pass (j : Job) (l : List WayNo) : ∀ s, (∀ w ∈ l, visitWay j w s = .goOn s) →
    scanWays j l s = finishSet s := by
  induction l with
  | nil => intro s _; rfl
  | cons w l ih => intro s h; simp only [scanWays, h w (by simp)]; exact ih s (fun v hv => h v (by simp [hv]))

/-- The scan ends at the first way that makes the walker stop. -/
theorem scanWays_stop (j : Job) (l : List WayNo) (w : WayNo) (r : List WayNo) :
    ∀ s t, (∀ w ∈ l, visitWay j w s = .goOn s) → visitWay j w s = .stop t → scanWays j (l ++ w :: r) s = t := by
  induction l with
  | nil => intro s t _ h; simp only [List.nil_append, scanWays, h]
  | cons v l ih => intro s t a h; simp only [List.cons_append, scanWays, a v (by simp)]; exact ih s t (fun v hv => a v (by simp [hv])) h

/-! ### Those admitted -/

/-- The hosts that may hold lines are those admitted (R67). -/
theorem members_holding (s) (h : HostNo) : members (holding s) = hosts.filter (isAdmitted s) := by
  unfold holding members
  have : ∀ f : HostNo → Bool, hosts.filter (hasHost (hostSetOf (hosts.filter f))) = hosts.filter f := by
    intro f
    simp only [hosts, List.filter_cons, List.filter_nil]
    cases f 0 <;> cases f 1 <;> cases f 2 <;> cases f 3 <;> decide
  exact this _

/-- All that sending PURGE_SET to several hosts does (R168). -/
theorem purgeSetFold_spec (l : List HostNo) (nd : l.Nodup) :
    ∀ s : State, let t := l.foldl (fun s h => place h (.purgeSet s.integ.set) s) s
    (∀ p, hliOf t p = { hliOf s p with outbound := (hliOf s p).outbound ++ (if p ∈ l ∧
    isPlaced s p (.purgeSet s.integ.set) = true then [.purgeSet s.integ.set] else []) }) ∧
    { t with hli := s.hli } = s := by
  induction l with
  | nil => intro s; simp
  | cons q l ih =>
    intro s
    simp only [List.nodup_cons] at nd
    obtain ⟨a, b⟩ := ih nd.2 (place q (.purgeSet s.integ.set) s)
    rw [List.foldl_cons]
    have ip : ∀ p, isPlaced (place q (.purgeSet s.integ.set) s) p (.purgeSet s.integ.set) = isPlaced s p (.purgeSet s.integ.set) := by intro p; simp [isPlaced]
    refine ⟨fun p => ?_, ?_⟩
    · rw [a, place_integ, ip, hliOf_place]
      by_cases z : q = p
      · subst z; by_cases y : isPlaced s q (.purgeSet s.integ.set) = true <;> simp [nd.1, y]
      · have z' : ¬ p = q := fun x => z x.symm
        simp [z, z']
    · generalize List.foldl _ _ l = x at *
      have := place_hli_eq (s := s) q (.purgeSet s.integ.set)
      rw [← b] at this; exact this

end Sys2Proof.Machine
end

