-- ==== Sys2Proof/Laws/Fences.lean ====
section
/-! SUPPORT. The pieces of a fence and of the end of a departure: what the Port Controller, the HLI, the walker and the
trackers do at it. -/

/- One theorem at a time: side by side, theorems that wait for one another hold a thread each. -/
set_option Elab.async false

namespace Sys2Proof.Machine

/-- States are equal when they agree in every field. -/
theorem state_ext {s t : State} (a : s.hub = t.hub) (b : s.resetPhase = t.resetPhase) (c : s.hli = t.hli)
    (d : s.ports = t.ports) (e : s.region = t.region) (f : s.dir = t.dir) (g : s.trk = t.trk) (h : s.disp = t.disp)
    (i : s.mem = t.mem) (j : s.walker = t.walker) (k : s.integ = t.integ) (l : s.mgmt = t.mgmt)
    (m : s.freeCount = t.freeCount) (n : s.pending = t.pending) : s = t := by
  cases s; cases t; simp_all

/-! ### The start of a fence (R34) -/

/-- The interfaces once the fenced one is cleared and told (R22). -/
theorem hliOf_fenceNotice {s s3 : State} {h : HostNo}
    (a : ∀ p, hliOf s3 p = if h = p then clearHli (hliOf s p) else hliOf s p) (b : s3.region.epoch = s.region.epoch) :
    ∀ p, hliOf (place h (.notice .youAreFenced h s3.region.epoch) s3) p =
      if h = p then { clearHli (hliOf s h) with
        outbound := if (hliOf s h).linkUp then [.notice .youAreFenced h s.region.epoch] else [] }
      else hliOf s p := by
    intro p
    rw [hliOf_place, a, b]
    by_cases z : h = p
    · subst z
      have pf : passesFence (.notice .youAreFenced h s.region.epoch) = true := rfl
      have ip : isPlaced s3 h (.notice .youAreFenced h s.region.epoch) = (hliOf s h).linkUp := by
        simp [isPlaced, pf, a, clearHli]
      rw [if_pos rfl, if_pos rfl, ip]
      by_cases l : (hliOf s h).linkUp = true
      · rw [if_pos ⟨rfl, l⟩, if_pos l]; rfl
      · rw [if_neg (by simp [l]), if_neg l]; rfl
    · simp [z]

/-- Who may ask again depends on the trackers alone. -/
theorem reportChange_trk_congr {a b : State} (ht : a.trk = b.trk) (k) :
    (reportChange k a).trk = (reportChange k b).trk := by
  have q : waitsOn a k = waitsOn b k := by
    funext u; simp only [waitsOn, evictGranted, trackerOf, ht]
  simp only [reportChange, letAsk, q, ht]

/-- What freeing a tracker leaves of directory and trackers depends on these alone. -/
theorem freeTracker_congr {a b : State} (hd : a.dir = b.dir) (ht : a.trk = b.trk) (t : TrackerNo) :
   (freeTracker t a).dir = (freeTracker t b).dir ∧ (freeTracker t a).trk = (freeTracker t b).trk := by
  have e : trackerOf a t = trackerOf b t := by simp only [trackerOf, ht]
  have w : ∀ (x y : State) l, x.dir = y.dir → lineHasWay x l = lineHasWay y l := by
    intro x y l h; simp only [lineHasWay, wayOf_of_dir h]
  unfold freeTracker
  rw [e]
  cases trackerOf b t with
  | none => exact ⟨hd, ht⟩
  | some tr =>
    dsimp only
    generalize hA : ({ setTracker a t none with trk := _, walker := _, disp := _ } : State) = A
    generalize hB : ({ setTracker b t none with trk := _, walker := _, disp := _ } : State) = B
    have d : A.dir = B.dir := by rw [← hA, ← hB]; exact hd
    have q : A.trk = B.trk := by rw [← hA, ← hB]; simp only [setTracker, ht]
    rw [w A B _ d]
    split
    · exact ⟨d, reportChange_trk_congr q _⟩
    · exact ⟨d, q⟩

/-- So does what freeing several leaves. -/
theorem freeTrackers_congr (l : List TrackerNo) : ∀ {a b : State}, a.dir = b.dir → a.trk = b.trk →
   (l.foldl (fun x u => freeTracker u x) a).trk = (l.foldl (fun x u => freeTracker u x) b).trk := by
  induction l with
  | nil => intro a b _ h; exact h
  | cons t l ih => intro a b h g; exact ih (freeTracker_congr h g t).1 (freeTracker_congr h g t).2

/-- A fence is what the Port Controller and the HLI do at once, and then the dispatcher, the notices, the walker, the
trackers and the purge slot in turn. -/
theorem startFence_pieces (h reason) (s : State) :
    ∃ s4, startFence h reason s = purgeLetGo h (trackersLetGo h (walkerForfeit h (noticeOnline .peerFenced h (· ≠ h) (dispatcherDrop h s4)))) ∧
    s4.ports = s.ports.set h ⟨.fencing, (portOf s h).admission, reason, false⟩ ∧
    s4.mgmt = { s.mgmt with latch := s.mgmt.latch ||| 0x0005, alertLow := alertLowOf (s.mgmt.latch ||| 0x0005) s.mgmt.mask } ∧
    (∀ p, hliOf s4 p = if h = p then { clearHli (hliOf s h) with outbound := if (hliOf s h).linkUp then [.notice .youAreFenced h s.region.epoch] else [] } else hliOf s p) ∧
    s4.mem = { s.mem with claims := s.mem.claims.filter (· ≠ .ret h) } ∧
    { s4 with ports := s.ports, mgmt := s.mgmt, hli := s.hli, mem := s.mem } = s := by
  unfold startFence
  extract_lets s1 s2 s3 s4 s5
  refine ⟨s4, rfl, ?_, ?_, ?_, ?_, ?_⟩
  · simp [s4, s3, s2, s1, updPort, setPortState, latch, setAlerts, dropClaim, portOf]
  · have : s.mgmt.latch ||| 1#16 ||| 4#16 = s.mgmt.latch ||| 5#16 := by rw [BitVec.or_assoc]; rfl
    have q : s3.mgmt = { s.mgmt with latch := s.mgmt.latch ||| 1#16 ||| 4#16, alertLow := alertLowOf (s.mgmt.latch ||| 1#16 ||| 4#16) s.mgmt.mask } := rfl
    rw [this] at q
    exact (place_mgmt ..).trans q
  · have a0 : ∀ p, hliOf s2 p = hliOf s p := fun p => rfl
    have a : ∀ p, hliOf s3 p = if h = p then clearHli (hliOf s p) else hliOf s p := by
      intro p
      change hliOf (updHli s2 h clearHli) p = _; rw [hliOf_updHli, a0, a0]
      by_cases z : h = p
      · subst z; rfl
      · simp [z]
    have b : s3.region.epoch = s.region.epoch := rfl
    exact hliOf_fenceNotice a b
  · exact place_mem ..
  · have := place_hli_eq (s := s3) h (.notice .youAreFenced h s3.region.epoch)
    change { s4 with hli := s3.hli } = s3 at this
    have q : { s3 with ports := s.ports, mgmt := s.mgmt, hli := s.hli, mem := s.mem } = s := rfl
    rw [← this] at q; exact q

/-- All that a fence does to the walker (R151). -/
theorem walkerForfeit_spec (h) (s : State) : 
    (s.walker.current = some (.depart h) →
      (walkerForfeit h s).walker = { s.walker with current := some (.forfeit h), wait := if s.walker.wait = .visit then .visit else .ready } ∧
      (walkerForfeit h s).trk = { s.trk with claims := s.trk.claims.filter (· ≠ .walker) }) ∧
    (s.walker.current ≠ some (.depart h) → (walkerForfeit h s).trk = s.trk) ∧
    (s.walker.current ≠ some (.depart h) → .depart h ∈ s.walker.jobs →
      (walkerForfeit h s).walker = { s.walker with jobs := s.walker.jobs.map (fun j => if j = .depart h then .forfeit h else j) }) ∧
    (s.walker.current ≠ some (.depart h) → .depart h ∉ s.walker.jobs →
      (walkerForfeit h s).walker = { s.walker with jobs := s.walker.jobs ++ [.forfeit h] }) ∧
    { walkerForfeit h s with walker := s.walker, trk := s.trk } = s ∧ (walkerForfeit h s).trk.table = s.trk.table := by
  unfold walkerForfeit
  by_cases a : s.walker.current = some (.depart h)
  · rw [if_pos a]; simp only [a]
    cases w : s.walker.wait <;> simp
  · rw [if_neg a]
    by_cases b : Job.depart h ∈ s.walker.jobs
    · rw [if_pos b]; simp [a, b]
    · rw [if_neg b]; simp [a, b]

/-- Letting a host go changes tracker records alone. -/
theorem letGoFold_table (h) (l : List TrackerNo) :
    ∀ s : State, ∃ z, l.foldl (fun s t => updTracker s t (letGo h)) s = { s with trk := { s.trk with table := z } } := by
  induction l with
  | nil => intro s; exact ⟨_, rfl⟩
  | cons t l ih =>
    intro s
    obtain ⟨z, e⟩ := ih (updTracker s t (letGo h))
    refine ⟨z, ?_⟩
    rw [List.foldl_cons, e]
    unfold updTracker; split <;> rfl

/-! ### The end of a departure (R31) -/

/-- All that refusing every request of a host does. -/
theorem refuseFold_spec (h : HostNo) (l : List Request) : ∀ s, slotOf s h = none → ¬ isFenced s h →
    let t := l.foldl (fun s (r : Request) => respond h r.tag (.refuseReq r.tag .notOnline) s) s
    hliOf t h = { hliOf s h with tags := (hliOf t h).tags, outbound := (hliOf s h).outbound ++ (if (hliOf s h).linkUp then l.map (fun r => .refuseReq r.tag .notOnline) else []) } ∧
    (∀ p, p ≠ h → hliOf t p = hliOf s p) ∧ { t with hli := s.hli } = s := by
  induction l with
  | nil => intro s _ _; refine ⟨?_, fun _ _ => rfl, rfl⟩; simp
  | cons r l ih =>
    intro s a b
    rw [List.foldl_cons]
    have e1 : dropTag h r.tag s = updHli s h (fun x => { x with tags := x.tags.filter (· ≠ r.tag) }) := by
      unfold dropTag updSlot; simp only [slotOf, updHli] at a ⊢; rw [a]
    generalize hx : respond h r.tag (.refuseReq r.tag .notOnline) s = x
    have c1 : slotOf x h = none := by rw [← hx, respond, e1]; simp [slotOf] at a ⊢; exact a
    have c2 : ¬ isFenced x h := by rw [← hx, respond, e1]; simpa [isFenced] using b
    have c3 : hliOf x h = { hliOf s h with tags := (hliOf s h).tags.filter (· ≠ r.tag), outbound := (hliOf s h).outbound ++ (if (hliOf s h).linkUp then [.refuseReq r.tag .notOnline] else []) } := by
      rw [← hx, respond, e1, hliOf_place]
      simp only [isFenced, not_or] at b
      cases l : (hliOf s h).linkUp <;> simp [isPlaced, l, b.1, b.2]
    have c4 : ∀ p, p ≠ h → hliOf x p = hliOf s p := by
      intro p q; rw [← hx, respond, e1, hliOf_place]; simp [q.symm]
    have c5 : { x with hli := s.hli } = s := by
      rw [← hx, respond, e1]; apply state_ext <;> simp
    obtain ⟨i1, i2, i3⟩ := ih x c1 c2
    refine ⟨?_, fun p q => by rw [i2 p q, c4 p q], ?_⟩
    · rw [i1, c3]; cases l : (hliOf s h).linkUp <;> simp
    · generalize List.foldl _ x l = y at *
      rw [← i3] at c5; exact c5

/-- No tracker names a host exactly when none has it as requester or awaits it (R30). -/
theorem noTrackerNames_iff (s h) : noTrackerNames s h = true ↔ ∀ u tr, trackerOf s u = some tr →
      (∀ tag, tr.requester ≠ some (h, tag)) ∧ ∀ a ∈ tr.awaited, a.host ≠ h := by
  unfold noTrackerNames allTrackers
  simp only [List.all_eq_true, List.mem_finRange, forall_const]
  apply forall_congr'; intro u
  cases e : trackerOf s u with
  | none => simp
  | some tr =>
    simp only [requestedBy, e, awaits]
    rcases q : tr.requester with _ | ⟨r, tag⟩ <;> simp [q]

/-- The end of a departure is what the port and its interface do, and then its notices. -/
theorem endDeparture_pieces (h) (s : State) (sl : slotOf s h = none) :
    ∃ s3, endDeparture h s = noticeOnline .peerLeft h (fun _ => true) (place h (.notice .departDone h s3.region.epoch) s3) ∧
    (∀ p, portOf s3 p = if h = p then { portOf s h with state := .offline, sweepDone := false } else portOf s p) ∧
    hliOf s3 h = { hliOf s h with laneA := [], tags := [], stalled := false, outbound := (hliOf s h).outbound ++ (if (hliOf s h).linkUp then (hliOf s h).laneA.map (fun r => .refuseReq r.tag .notOnline) else []) } ∧
    (∀ p, p ≠ h → hliOf s3 p = hliOf s p) ∧
    s3.mgmt = { s.mgmt with latch := s.mgmt.latch ||| 0x0001, alertLow := alertLowOf (s.mgmt.latch ||| 0x0001) s.mgmt.mask } ∧
    s3.disp = { s.disp with passedOver := dropHost s.disp.passedOver h } ∧
    { s3 with hli := s.hli, ports := s.ports, mgmt := s.mgmt, disp := s.disp } = s := by
  have r := refuseFold_spec h (hliOf (setPortState h .offline s) h).laneA (setPortState h .offline s) (by simpa [slotOf, setPortState] using sl) (by simp [setPortState, isFenced])
  have q1 : ∀ p, hliOf (setPortState h .offline s) p = hliOf s p := fun p => rfl
  have q2 : ∀ p, portOf (setPortState h .offline s) p = if h = p then { portOf s p with state := .offline, sweepDone := false } else portOf s p := by
    intro p; unfold setPortState; rw [portOf_latch, portOf_updPort]
    by_cases z : h = p <;> simp [z]
  have q3 : (setPortState h .offline s).mgmt = { s.mgmt with latch := s.mgmt.latch ||| 0x0001, alertLow := alertLowOf (s.mgmt.latch ||| 0x0001) s.mgmt.mask } := rfl
  have q4 : (setPortState h .offline s).disp = s.disp := rfl
  have q5 : { setPortState h .offline s with hli := s.hli, ports := s.ports, mgmt := s.mgmt, disp := s.disp } = s := rfl
  unfold endDeparture
  dsimp only at r ⊢
  generalize setPortState h .offline s = s1 at *
  obtain ⟨r1, r2, r3⟩ := r
  generalize List.foldl _ s1 _ = s2 at *
  have sm : SameButHli s2 s1 := sameButHli_of r3
  refine ⟨_, rfl, ?_, ?_, ?_, ?_, ?_, ?_⟩
  · intro p
    have : portOf ({ updHli s2 h (fun x => { x with laneA := [], tags := [], stalled := false }) with disp := { s2.disp with passedOver := dropHost s2.disp.passedOver h } } : State) p = portOf s1 p := by
      simp only [portOf, updHli, sm.ports]
    rw [this, q2]
    by_cases z : h = p
    · subst z; simp
    · simp [z]
  · have : hliOf ({ updHli s2 h (fun x => { x with laneA := [], tags := [], stalled := false }) with disp := { s2.disp with passedOver := dropHost s2.disp.passedOver h } } : State) h = { hliOf s2 h with laneA := [], tags := [], stalled := false } := by
      refine Eq.trans (b := hliOf (updHli s2 h (fun x => { x with laneA := [], tags := [], stalled := false })) h) rfl ?_; rw [hliOf_updHli, if_pos rfl]
    rw [this, r1, q1]
  · intro p q
    refine Eq.trans (b := hliOf (updHli s2 h (fun x => { x with laneA := [], tags := [], stalled := false })) p) rfl ?_
    rw [hliOf_updHli, if_neg q.symm, r2 p q, q1]
  · rw [← q3, ← sm.mgmt]; rfl
  · show ({ s2.disp with passedOver := dropHost s2.disp.passedOver h } : Dispatcher) = _; rw [sm.disp, q4]
  · have e : { s2 with hli := s.hli, ports := s.ports, mgmt := s.mgmt, disp := s.disp } = s := by
      rw [show ({ s2 with hli := s.hli, ports := s.ports, mgmt := s.mgmt, disp := s.disp } : State) = { ({s2 with hli := s1.hli} : State) with hli := s.hli, ports := s.ports, mgmt := s.mgmt, disp := s.disp } from rfl, r3]
      exact q5
    exact e

end Sys2Proof.Machine
end

