-- ==== Sys2Proof/Laws/PerInstr.lean ====
section
/-! SUPPORT. What every command's syntax satisfies, one lemma per constructor: the commands of the command register have
the codes of R181, and the arrivals of host messages are exactly those that spell bytes on a lane (R4 to R6). -/

/- One theorem at a time: side by side, theorems that wait for one another hold a thread each. -/
set_option Elab.async false

namespace Sys2Proof.Laws.WellFormedLaw

open Sys2Proof.Machine

/-- A command of the command register has a listed code, and a command spells a message exactly when a host sends it. -/
def Statement (i : Instr) : Prop :=
  (∀ code, commandCode i = some code → isListedCommand code = true) ∧
    (encodeArrival i).isSome = (hostOfArrival i).isSome

/-- The codes of the commands are listed ones (R181). -/
theorem listed (i : Instr) : ∀ code, commandCode i = some code → isListedCommand code = true := by
  intro code h
  unfold commandCode at h
  split at h <;> cases h <;> decide

theorem powerOnReset : ∀ maddr, Statement (.powerOnReset maddr) :=
  fun _ => ⟨listed _, rfl⟩

theorem initEnd : Statement (.initEnd) :=
  ⟨listed _, rfl⟩

theorem linkUp : ∀ h, Statement (.linkUp h) :=
  fun _ => ⟨listed _, rfl⟩

theorem linkDown : ∀ h, Statement (.linkDown h) :=
  fun _ => ⟨listed _, rfl⟩

theorem messageDelivery : ∀ h, Statement (.messageDelivery h) :=
  fun _ => ⟨listed _, rfl⟩

theorem readShared : ∀ h tag line, Statement (.readShared h tag line) :=
  fun _ _ _ => ⟨listed _, rfl⟩

theorem readOwn : ∀ h tag line, Statement (.readOwn h tag line) :=
  fun _ _ _ => ⟨listed _, rfl⟩

theorem upgrade : ∀ h tag line, Statement (.upgrade h tag line) :=
  fun _ _ _ => ⟨listed _, rfl⟩

theorem directRead : ∀ h tag line, Statement (.directRead h tag line) :=
  fun _ _ _ => ⟨listed _, rfl⟩

theorem directWrite : ∀ h tag line mask data, Statement (.directWrite h tag line mask data) :=
  fun _ _ _ _ _ => ⟨listed _, rfl⟩

theorem atomic : ∀ h tag line op word first second, Statement (.atomic h tag line op word first second) :=
  fun _ _ _ _ _ _ _ => ⟨listed _, rfl⟩

theorem fenceMessage : ∀ h tag, Statement (.fenceMessage h tag) :=
  fun _ _ => ⟨listed _, rfl⟩

theorem writeback : ∀ h line modified poisoned data, Statement (.writeback h line modified poisoned data) :=
  fun _ _ _ _ _ => ⟨listed _, rfl⟩

theorem releaseMessage : ∀ h line, Statement (.releaseMessage h line) :=
  fun _ _ => ⟨listed _, rfl⟩

theorem answer : ∀ h line tracker held modified poisoned data, Statement (.answer h line tracker held modified poisoned data) :=
  fun _ _ _ _ _ _ _ => ⟨listed _, rfl⟩

theorem purgeDoneMessage : ∀ h set, Statement (.purgeDoneMessage h set) :=
  fun _ _ => ⟨listed _, rfl⟩

theorem join : ∀ h level, Statement (.join h level) :=
  fun _ _ => ⟨listed _, rfl⟩

theorem depart : ∀ h, Statement (.depart h) :=
  fun _ => ⟨listed _, rfl⟩

theorem unknownKind : ∀ h lane header, Statement (.unknownKind h lane header) :=
  fun _ _ _ => ⟨listed _, rfl⟩

theorem processJoin : ∀ h, Statement (.processJoin h) :=
  fun _ => ⟨listed _, rfl⟩

theorem processDepart : ∀ h, Statement (.processDepart h) :=
  fun _ => ⟨listed _, rfl⟩

theorem processReturn : ∀ h, Statement (.processReturn h) :=
  fun _ => ⟨listed _, rfl⟩

theorem processAnswer : ∀ h, Statement (.processAnswer h) :=
  fun _ => ⟨listed _, rfl⟩

theorem processPurgeDone : ∀ h, Statement (.processPurgeDone h) :=
  fun _ => ⟨listed _, rfl⟩

theorem dispatch : Statement (.dispatch) :=
  ⟨listed _, rfl⟩

theorem takeParked : Statement (.takeParked) :=
  ⟨listed _, rfl⟩

theorem trackerLookup : ∀ t, Statement (.trackerLookup t) :=
  fun _ => ⟨listed _, rfl⟩

theorem deadlineExpiry : ∀ t, Statement (.deadlineExpiry t) :=
  fun _ => ⟨listed _, rfl⟩

theorem purgeDeadlineExpiry : Statement (.purgeDeadlineExpiry) :=
  ⟨listed _, rfl⟩

theorem poolReadCompletion : Statement (.poolReadCompletion) :=
  ⟨listed _, rfl⟩

theorem drainCompletion : Statement (.drainCompletion) :=
  ⟨listed _, rfl⟩

theorem walkerSetVisit : Statement (.walkerSetVisit) :=
  ⟨listed _, rfl⟩

theorem interfaceLock : ∀ event, Statement (.interfaceLock event) :=
  fun _ => ⟨listed _, rfl⟩

theorem indexLoad : ∀ index, Statement (.indexLoad index) :=
  fun _ => ⟨listed _, rfl⟩

theorem registerWrite : ∀ data, Statement (.registerWrite data) :=
  fun _ => ⟨listed _, rfl⟩

theorem stagedTableWrite : ∀ data, Statement (.stagedTableWrite data) :=
  fun _ => ⟨listed _, rfl⟩

theorem alertLatchClear : ∀ data, Statement (.alertLatchClear data) :=
  fun _ => ⟨listed _, rfl⟩

theorem alertMaskWrite : ∀ data, Statement (.alertMaskWrite data) :=
  fun _ => ⟨listed _, rfl⟩

theorem recordClear : ∀ data, Statement (.recordClear data) :=
  fun _ => ⟨listed _, rfl⟩

theorem cutover : Statement (.cutover) :=
  ⟨listed _, rfl⟩

theorem fenceCommand : Statement (.fenceCommand) :=
  ⟨listed _, rfl⟩

theorem releaseCommand : Statement (.releaseCommand) :=
  ⟨listed _, rfl⟩

theorem hubReset : Statement (.hubReset) :=
  ⟨listed _, rfl⟩

theorem clearLost : Statement (.clearLost) :=
  ⟨listed _, rfl⟩

theorem diagRead : Statement (.diagRead) :=
  ⟨listed _, rfl⟩

theorem diagWrite : Statement (.diagWrite) :=
  ⟨listed _, rfl⟩

theorem maintEnter : Statement (.maintEnter) :=
  ⟨listed _, rfl⟩

theorem maintExit : Statement (.maintExit) :=
  ⟨listed _, rfl⟩

theorem poolClear : Statement (.poolClear) :=
  ⟨listed _, rfl⟩

theorem poolClearEnd : Statement (.poolClearEnd) :=
  ⟨listed _, rfl⟩

theorem invalidCommand : ∀ code, Statement (.invalidCommand code) :=
  fun _ => ⟨listed _, rfl⟩

theorem registerRead : ∀ acknowledged, Statement (.registerRead acknowledged) :=
  fun _ => ⟨listed _, rfl⟩

theorem poolStorageFault : ∀ line flips correctable, Statement (.poolStorageFault line flips correctable) :=
  fun _ _ _ => ⟨listed _, rfl⟩

theorem directoryStorageFault : ∀ set way tagFlips codeFlips holderFlips tagParityFlip stateParityFlip, Statement (.directoryStorageFault set way tagFlips codeFlips holderFlips tagParityFlip stateParityFlip) :=
  fun _ _ _ _ _ _ _ => ⟨listed _, rfl⟩

end Sys2Proof.Laws.WellFormedLaw
end

