-- ==== Sys2Proof/Laws/Pool.lean ====
section
/-! SUPPORT. Reading the pool after a write of it: the byte, the line and the condition read are those written, and
every other line is left alone. What a masked merge gives byte by byte, what a pool read does beside what it finds, and
what a change of a fence slot does. -/

/- One theorem at a time: side by side, theorems that wait for one another hold a thread each. -/
set_option Elab.async false

namespace Sys2Proof.Machine

/-! ### Conditions -/

/-- A search that what is left out cannot answer is not changed by leaving it out. -/
theorem find?_filter_of_imp {α : Type} (p q : α → Bool) (l : List α) (h : ∀ a ∈ l, p a = true → q a = true) :
    (l.filter q).find? p = l.find? p := by
  induction l with
  | nil => rfl
  | cons a l ih =>
    have ih := ih fun b hb => h b (by simp [hb])
    have ha := h a (by simp)
    by_cases hp : p a = true
    · simp [ha hp, hp]
    · by_cases hq : q a = true <;> simp [hq, hp, ih]

/-- A search that what is kept cannot answer finds nothing. -/
theorem find?_filter_none {α : Type} (p q : α → Bool) (l : List α) (h : ∀ a ∈ l, q a = true → p a = false) :
    (l.filter q).find? p = none := by
  rw [List.find?_eq_none]
  intro a ha
  have := h a (List.mem_of_mem_filter ha) (List.of_mem_filter ha)
  simp [this]

/-- The condition of a line, read from the list of conditions. -/
def condIn (l : List (LineNo × LineCond)) (n : LineNo) : LineCond :=
  match l.find? (fun c => c.1 = n) with
  | some c => c.2
  | none => goodCond

theorem condOf_eq (m : Memory) (n : LineNo) : condOf m n = condIn m.conds n := rfl

theorem condIn_putCond_same (l : List (LineNo × LineCond)) (n : LineNo) (c : LineCond) :
    condIn (putCond l n c) n = c := by
  have a : (l.filter (fun x => x.1.toNat < n.toNat)).find? (fun x => decide (x.1 = n)) = none :=
    find?_filter_none _ _ l fun x _ hq => by
      by_contra e
      simp only [decide_eq_true_eq, Bool.not_eq_false] at hq e
      subst e
      omega
  have b : (l.filter (fun x => n.toNat < x.1.toNat)).find? (fun x => decide (x.1 = n)) = none :=
    find?_filter_none _ _ l fun x _ hq => by
      by_contra e
      simp only [decide_eq_true_eq, Bool.not_eq_false] at hq e
      subst e
      omega
  unfold condIn putCond
  rw [List.find?_append, a, List.find?_append]
  by_cases g : c = goodCond
  · simp only [g, if_true, List.find?_nil, Option.none_or, b]
  · simp [g]

theorem condIn_putCond_ne (l : List (LineNo × LineCond)) {n m : LineNo} (c : LineCond) (h : m ≠ n) :
    condIn (putCond l n c) m = condIn l m := by
  have z : (if c = goodCond then [] else [(n, c)]).find? (fun x => decide (x.1 = m)) = none := by
    split <;> simp [h.symm]
  have e : (putCond l n c).find? (fun x => decide (x.1 = m)) = l.find? (fun x => decide (x.1 = m)) := by
    unfold putCond
    rw [List.find?_append, List.find?_append, z, Option.none_or]
    rcases Nat.lt_or_gt_of_ne (fun t => h (BitVec.eq_of_toNat_eq t)) with lt | gt
    · have a := find?_filter_of_imp (fun x : LineNo × LineCond => decide (x.1 = m))
        (fun x => decide (x.1.toNat < n.toNat)) l (fun x _ hp => by simp_all)
      have b := find?_filter_none (fun x : LineNo × LineCond => decide (x.1 = m))
        (fun x => decide (n.toNat < x.1.toNat)) l (fun x _ hq => by
          by_contra e; simp only [decide_eq_true_eq, Bool.not_eq_false] at hq e; subst e; omega)
      rw [a, b, Option.or_none]
    · have a := find?_filter_of_imp (fun x : LineNo × LineCond => decide (x.1 = m))
        (fun x => decide (n.toNat < x.1.toNat)) l (fun x _ hp => by simp_all)
      have b := find?_filter_none (fun x : LineNo × LineCond => decide (x.1 = m))
        (fun x => decide (x.1.toNat < n.toNat)) l (fun x _ hq => by
          by_contra e; simp only [decide_eq_true_eq, Bool.not_eq_false] at hq e; subst e; omega)
      rw [a, b, Option.none_or]
  unfold condIn
  rw [e]

/-! ### Bytes and lines -/

/-- The byte of the pool at an address, read from the list of cells. -/
def byteIn (l : List Host.Cell) (a : Nat) : Byte :=
  match l.find? (fun c => c.1 = a) with
  | some c => c.2
  | none => 0

theorem poolByte_eq (m : Memory) (a : Nat) : poolByte m a = byteIn m.pool a := rfl

theorem byteIn_putLine_outside (l : List Host.Cell) (n : LineNo) (d : LineData) {a : Nat}
    (h : a < 64 * n.toNat ∨ 64 * n.toNat + 64 ≤ a) : byteIn (putLine l n d) a = byteIn l a := by
  have z : (lineCells n d).find? (fun c => decide (c.1 = a)) = none := by
    rw [List.find?_eq_none]
    intro c hc
    have := (lineCells_wf n d).2 c hc
    simp only [decide_eq_true_eq]
    omega
  have e : (putLine l n d).find? (fun c => decide (c.1 = a)) = l.find? (fun c => decide (c.1 = a)) := by
    unfold putLine
    rw [List.find?_append, List.find?_append, z, Option.none_or]
    rcases h with lt | ge
    · have p := find?_filter_of_imp (fun c : Host.Cell => decide (c.1 = a))
        (fun c => decide (c.1 < 64 * n.toNat)) l (fun c _ hp => by simp_all)
      have q := find?_filter_none (fun c : Host.Cell => decide (c.1 = a))
        (fun c => decide (64 * n.toNat + 64 ≤ c.1)) l (fun c _ hq => by
          by_contra e; simp only [decide_eq_true_eq, Bool.not_eq_false] at hq e; omega)
      rw [p, q, Option.or_none]
    · have p := find?_filter_of_imp (fun c : Host.Cell => decide (c.1 = a))
        (fun c => decide (64 * n.toNat + 64 ≤ c.1)) l (fun c _ hp => by simp_all)
      have q := find?_filter_none (fun c : Host.Cell => decide (c.1 = a))
        (fun c => decide (c.1 < 64 * n.toNat)) l (fun c _ hq => by
          by_contra e; simp only [decide_eq_true_eq, Bool.not_eq_false] at hq e; omega)
      rw [p, q, Option.none_or]
  unfold byteIn
  rw [e]

/-- The cell of one address, if its byte is not 0. -/
def cellOf (n : Nat) (f : Nat → Byte) (j : Nat) : Option Host.Cell := if f j = 0 then none else some (n + j, f j)

theorem cellOf_fst {n : Nat} {f : Nat → Byte} {j : Nat} {c : Host.Cell} (h : cellOf n f j = some c) : c.1 = n + j := by
  unfold cellOf at h
  split at h
  · cases h
  · cases h; rfl

/-- The cell that stands at an address of a range. -/
theorem find?_range_cells (n : Nat) (f : Nat → Byte) (m i : Nat) (hi : i < m) :
    ((List.range m).filterMap (cellOf n f)).find? (fun c => decide (c.1 = n + i)) = cellOf n f i := by
  induction m with
  | zero => omega
  | succ m ih =>
    rw [List.range_succ, List.filterMap_append, List.find?_append]
    rcases Nat.lt_or_ge i m with h | h
    · have z : (([m] : List Nat).filterMap (cellOf n f)).find? (fun c => decide (c.1 = n + i)) = none := by
        rw [List.find?_eq_none]
        intro c hc
        obtain ⟨j, hj, e⟩ := List.mem_filterMap.mp hc
        have := cellOf_fst e
        simp only [List.mem_singleton] at hj
        simp only [decide_eq_true_eq]
        omega
      rw [ih h, z, Option.or_none]
    · have e : i = m := by omega
      subst e
      have a : ((List.range i).filterMap (cellOf n f)).find? (fun c => decide (c.1 = n + i)) = none := by
        rw [List.find?_eq_none]
        intro c hc
        obtain ⟨j, hj, e⟩ := List.mem_filterMap.mp hc
        have := cellOf_fst e
        rw [List.mem_range] at hj
        simp only [decide_eq_true_eq]
        omega
      rw [a, Option.none_or]
      cases e : cellOf n f i with
      | none => simp [e]
      | some c => simp [e, cellOf_fst e]

theorem byteIn_putLine_inside (l : List Host.Cell) (n : LineNo) (d : LineData) {i : Nat} (hi : i < 64) :
    byteIn (putLine l n d) (64 * n.toNat + i) = lineByte d i := by
  have p := find?_filter_none (fun c : Host.Cell => decide (c.1 = 64 * n.toNat + i))
    (fun c => decide (c.1 < 64 * n.toNat)) l (fun c _ hq => by
      by_contra e; simp only [decide_eq_true_eq, Bool.not_eq_false] at hq e; omega)
  have q := find?_filter_none (fun c : Host.Cell => decide (c.1 = 64 * n.toNat + i))
    (fun c => decide (64 * n.toNat + 64 ≤ c.1)) l (fun c _ hq => by
      by_contra e; simp only [decide_eq_true_eq, Bool.not_eq_false] at hq e; omega)
  have r : (lineCells n d).find? (fun c => decide (c.1 = 64 * n.toNat + i)) =
      cellOf (64 * n.toNat) (lineByte d) i :=
    find?_range_cells (64 * n.toNat) (lineByte d) 64 i hi
  unfold byteIn putLine
  rw [List.find?_append, List.find?_append, p, q, r, Option.none_or, Option.or_none]
  unfold cellOf
  by_cases z : lineByte d i = 0
  · rw [if_pos z, z]
  · rw [if_neg z]

/-- A line's bytes put together again are the line. -/
theorem ofBytes_lineBytes (d : LineData) : ofBytes 512 ((List.range 64).map (lineByte d)) = d := by
  have key : ∀ m, m ≤ 64 → ∀ k,
      ((ofBytes 512 ((List.range' k m).map (lineByte d))).getLsbD = fun j =>
        decide (j < 8 * m) && d.getLsbD (8 * k + j) && decide (j < 512)) := by
    intro m
    induction m with
    | zero => intro _ k; funext j; simp [ofBytes]
    | succ m ih =>
      intro hm k
      funext j
      have ih := congrFun (ih (by omega) (k + 1))
      rw [List.range'_succ, List.map_cons]
      show ((ofBytes 512 ((List.range' (k + 1) m).map (lineByte d)) <<< 8) |||
        (lineByte d k).setWidth 512).getLsbD j = _
      rw [BitVec.getLsbD_or, BitVec.getLsbD_shiftLeft, ih, BitVec.getLsbD_setWidth, lineByte,
        BitVec.getLsbD_extractLsb']
      by_cases h8 : j < 8
      · have : j < 8 * (m + 1) := by omega
        have h5 : j < 512 := by omega
        simp [h8, this, h5]
      · have e : 8 * (k + 1) + (j - 8) = 8 * k + j := by omega
        rw [e]
        by_cases h5 : j < 512
        · have g : (j - 8 < 8 * m) = (j < 8 * (m + 1)) := by apply propext; omega
          have h5' : j - 8 < 512 := by omega
          simp [h8, h5, g, h5']
        · simp [h8, h5]
  apply BitVec.eq_of_getLsbD_eq
  intro j hj
  have := congrFun (key 64 (le_refl _) 0) j
  rw [List.range_eq_range']
  rw [this]
  simp [hj]

theorem poolLine_writePool_same (n : LineNo) (d : LineData) (p : Bool) (s : State) :
    poolLine (writePool n d p s).mem n = d := by
  unfold poolLine
  rw [show (List.range 64).map (fun i => poolByte (writePool n d p s).mem (64 * n.toNat + i)) =
    (List.range 64).map (lineByte d) from List.map_congr_left fun i hi =>
      byteIn_putLine_inside _ _ _ (List.mem_range.mp hi)]
  exact ofBytes_lineBytes d

theorem poolLine_writePool_ne {n m : LineNo} (d : LineData) (p : Bool) (s : State) (h : m ≠ n) :
    poolLine (writePool n d p s).mem m = poolLine s.mem m := by
  unfold poolLine
  congr 1
  refine List.map_congr_left fun i hi => byteIn_putLine_outside _ _ _ ?_
  have := List.mem_range.mp hi
  rcases Nat.lt_or_gt_of_ne (fun t => h (BitVec.eq_of_toNat_eq t)) with lt | gt <;> omega

theorem condOf_writePool_same (n : LineNo) (d : LineData) (p : Bool) (s : State) :
    condOf (writePool n d p s).mem n = ⟨p, none⟩ := condIn_putCond_same ..

theorem condOf_writePool_ne {n m : LineNo} (d : LineData) (p : Bool) (s : State) (h : m ≠ n) :
    condOf (writePool n d p s).mem m = condOf s.mem m := condIn_putCond_ne _ _ h

/-- What a read of a line finds depends on its bytes and its condition alone. -/
theorem judgeLine_congr {a b : Memory} {n : LineNo} (h : poolLine a n = poolLine b n) (c : condOf a n = condOf b n)
    (d : Bool) : judgeLine a n d = judgeLine b n d := by
  unfold judgeLine; rw [h, c]

theorem judgeLine_writePool_same (n : LineNo) (d : LineData) (p : Bool) (s : State) (x : Bool) :
    judgeLine (writePool n d p s).mem n x = ⟨d, p, if p then some .poisonMark else none⟩ := by
  unfold judgeLine
  rw [condOf_writePool_same, poolLine_writePool_same]
  cases p <;> rfl

theorem judgeLine_writePool_ne {n m : LineNo} (d : LineData) (p : Bool) (s : State) (h : m ≠ n) (x : Bool) :
    judgeLine (writePool n d p s).mem m x = judgeLine s.mem m x :=
  judgeLine_congr (poolLine_writePool_ne d p s h) (condOf_writePool_ne d p s h) x

/-! ### Masks -/

/-- A bit of a byte mask spread over the bits of a line. -/
theorem maskBits_getLsbD (m : ByteMask) (j : Nat) : (maskBits m).getLsbD j = (decide (j < 512) && m.getLsbD (j / 8)) := by
  have key : ∀ n, n ≤ 64 → ((List.range n).foldl
    (fun acc i => if m.getLsbD i then acc ||| ((BitVec.allOnes 8).setWidth 512 <<< (8 * i)) else acc) (0 : LineData)).getLsbD j = (decide (j < 8 * n) && m.getLsbD (j / 8)) := by
    intro n
    induction n with
    | zero => intro _; simp
    | succ n ih =>
      intro hn
      rw [List.range_succ, List.foldl_append, List.foldl_cons, List.foldl_nil]
      have ih := ih (by omega)
      split
      · next h =>
        rw [BitVec.getLsbD_or, ih, BitVec.getLsbD_shiftLeft, BitVec.getLsbD_setWidth, BitVec.getLsbD_allOnes]
        by_cases a : j < 8 * n
        · have : j < 8 * (n + 1) := by omega
          simp [a, this]
        · by_cases b : j < 8 * (n + 1)
          · have e : j / 8 = n := by omega
            have c : j - 8 * n < 8 := by omega
            have d : j < 512 := by omega
            have f : j - 8 * n < 512 := by omega
            simp [a, b, e, h, c, d, f]
          · have c : ¬ j - 8 * n < 8 := by omega
            simp [a, b, c]
      · next h =>
        rw [ih]
        by_cases a : j < 8 * n
        · have : j < 8 * (n + 1) := by omega
          simp [a, this]
        · by_cases b : j < 8 * (n + 1)
          · have e : j / 8 = n := by omega
            simp only [Bool.not_eq_true] at h
            simp [a, b, e, h]
          · simp [a, b]
  exact key 64 (le_refl _)

/-- A byte of a merge is the new one under the mask and the old one elsewhere (R137). -/
theorem lineByte_mergeUnder (m : ByteMask) (new old : LineData) (i : Nat) (hi : i < 64) : lineByte (mergeUnder m new old) i = if m.getLsbD i then lineByte new i else lineByte old i := by
  apply BitVec.eq_of_getLsbD_eq
  intro j hj
  have a : 8 * i + j < 512 := by omega
  have b : (8 * i + j) / 8 = i := by omega
  have e : (lineByte (mergeUnder m new old) i).getLsbD j = ((old.getLsbD (8 * i + j) && !m.getLsbD i) || (new.getLsbD (8 * i + j) && m.getLsbD i)) := by
    simp only [lineByte, mergeUnder, BitVec.getLsbD_extractLsb', hj, BitVec.getLsbD_or, BitVec.getLsbD_and, BitVec.getLsbD_not, maskBits_getLsbD, a, b, decide_true, Bool.true_and]
  rw [e]
  cases m.getLsbD i <;> simp [lineByte, BitVec.getLsbD_extractLsb', hj]

/-! ### Reading the pool (R133, R134) -/

/-- All that a pool read does. -/
theorem readPool_spec (n : LineNo) (a : MemAccess) (src : Option WriteSource) (s : State) : ∃ S, readPool n a src s = (judgeLine s.mem n (Config.doubleFaultReadsUncorrectable s.freeCount), S) ∧
    S.mem = { s.mem with record := (match (judgeLine s.mem n (Config.doubleFaultReadsUncorrectable s.freeCount)).cause, s.mem.record with
        | none, r => r
        | some c, none => some ⟨n, a, c, src, false⟩
        | some _, some r => some { r with more := true }) } ∧
    S.mgmt = (match (judgeLine s.mem n (Config.doubleFaultReadsUncorrectable s.freeCount)).cause with
        | none => s.mgmt
        | some _ => { s.mgmt with
            latch := s.mgmt.latch ||| 0x0100, alertLow := alertLowOf (s.mgmt.latch ||| 0x0100) s.mgmt.mask }) ∧
    S.disp = s.disp ∧ S.dir = s.dir ∧ S.trk = s.trk ∧ S.hli = s.hli ∧ S.ports = s.ports := by
  unfold readPool doubleFault
  dsimp only
  cases (judgeLine s.mem n (Config.doubleFaultReadsUncorrectable s.freeCount)).cause with
  | none => exact ⟨s, rfl, rfl, rfl, rfl, rfl, rfl, rfl, rfl⟩
  | some c =>
    refine ⟨_, rfl, ?_, ?_, rfl, rfl, rfl, rfl, rfl⟩
    · simp only [memError]; cases s.mem.record <;> rfl
    · rfl

/-! ### Fence slots (R129) -/

/-- All that a change of a fence slot does. -/
theorem updSlot_spec (p : HostNo) (f : FenceSlot → FenceSlot) (Z : State) : { updSlot Z p f with disp := { (updSlot Z p f).disp with slots := Z.disp.slots } } = Z ∧
   ∀ h, slotOf (updSlot Z p f) h = if p = h then (slotOf Z h).map f else slotOf Z h := by
  refine ⟨by unfold updSlot; split <;> rfl, fun h => ?_⟩
  unfold updSlot
  cases q : slotOf Z p with
  | none => by_cases y : p = h
            · subst y; simp [q]
            · simp [y]
  | some x => by_cases y : p = h
              · subst y; rw [if_pos rfl, q]; simp [slotOf, setSlot]
              · have := Fin.val_ne_of_ne y; simp [slotOf, setSlot, y, this]

/-- A change of a fence slot, written out. -/
theorem updSlot_eq (p : HostNo) (f : FenceSlot → FenceSlot) (Z : State) : updSlot Z p f = { Z with disp := { Z.disp with slots := Z.disp.slots.set p ((slotOf Z p).map f) } } := by
  unfold updSlot
  cases q : slotOf Z p with
  | none =>
    have : Z.disp.slots.set p none = Z.disp.slots := by rw [← q]; exact Vector.set_getElem_self _
    simp [this]
  | some x => rfl

/-- All that a change of several fence slots does. -/
theorem updSlotFold_spec (f : HostNo → FenceSlot → FenceSlot) (l : List HostNo) (nd : l.Nodup) : ∀ Z : State, let X := l.foldl (fun s h => updSlot s h (f h)) Z
     { X with disp := { X.disp with slots := Z.disp.slots } } = Z ∧ ∀ h, slotOf X h = if h ∈ l then (slotOf Z h).map (f h) else slotOf Z h := by
    induction l with
    | nil => intro Z; exact ⟨rfl, by simp⟩
    | cons p l ih =>
      intro Z
      simp only [List.nodup_cons] at nd
      obtain ⟨i1, i2⟩ := ih nd.2 (updSlot Z p (f p))
      rw [List.foldl_cons]
      generalize List.foldl _ _ l = X at *
      obtain ⟨u1, u2⟩ := updSlot_spec p (f p) Z
      refine ⟨?_, fun h => ?_⟩
      · generalize updSlot Z p _ = U at *
        rw [← i1] at u1; exact u1
      · rw [i2, u2]
        by_cases y : p = h
        · subst y; simp [nd.1]
        · have : ¬ h = p := fun q => y q.symm
          simp [y, this]

end Sys2Proof.Machine
end

