-- ==== Sys2Proof/Laws/Window.lean ====
section
/-! SUPPORT. What the operations of the register window do: a data byte written, a command issued, an address at which no
field stands. -/

/- One theorem at a time: side by side, theorems that wait for one another hold a thread each. -/
set_option Elab.async false

namespace Sys2Proof.Machine

/-! ### Data bytes -/

/-- The index after a byte and what the hub drives for it, in the words of the claims. -/
theorem driveWrite_eq_wrote (e : Byte) (r : Bool) (m n : Mgmt) (hn : n.interface = m.interface)
    (hi : n.index = m.index) (hm : m.interface ≠ .undetermined) :
    ({ driveWrite e r n with index := m.index + 1, capture := none } : Mgmt) = wrote e r n := by
  unfold driveWrite wrote
  rw [hi]
  cases h : n.interface
  · exact absurd (hn.symm.trans h) hm
  · simp
  · simp

/-- The guard of a data byte, in the words of the claims. -/
theorem inTransfer_write (s : State) : inTransfer s .write = true ↔ inWrite s := by
  unfold inTransfer inWrite
  rw [decide_eq_true_iff]

/-- Outside a write no data byte is written. -/
theorem writeData_outside (eff : WriteEffect) (s : State) (hs : ¬inWrite s) : writeData eff s = s := by
  unfold writeData
  rw [if_pos (Bool.eq_false_iff.2 (fun h => hs ((inTransfer_write s).1 h)))]

/-- A data byte written. -/
theorem writeData_inWrite (eff : WriteEffect) (s : State) (hs : inWrite s) :
    writeData eff s =
      (let r := eff s
       let s1 := if r.2 then latch .mgmtRefused r.1 else r.1
       { s1 with
         mgmt := { driveWrite (regByte s s.mgmt.index) r.2 s1.mgmt with
           index := s.mgmt.index + 1, capture := none } }) := by
  unfold writeData
  rw [(inTransfer_write s).2 hs, if_neg (by decide)]

/-- Everything a byte that is stored, held or ignored does. -/
theorem writeData_taken (eff : WriteEffect) (s t : State) (hs : inWrite s)
    (he : eff s = (t, false)) (h1 : t.mgmt.interface = s.mgmt.interface) (h2 : t.mgmt.index = s.mgmt.index) :
    writeData eff s = { t with mgmt := wrote (regByte s s.mgmt.index) false t.mgmt } := by
  rw [writeData_inWrite eff s hs, he]
  dsimp only
  rw [← driveWrite_eq_wrote _ _ s.mgmt t.mgmt h1 h2 hs.1]
  rfl

/-- Everything a byte that is refused does. -/
theorem writeData_refused (eff : WriteEffect) (s t : State) (hs : inWrite s)
    (he : eff s = (t, true)) (h1 : t.mgmt.interface = s.mgmt.interface) (h2 : t.mgmt.index = s.mgmt.index) :
    writeData eff s = { t with mgmt := wrote (regByte s s.mgmt.index) true (refusalLatched t.mgmt) } := by
  rw [writeData_inWrite eff s hs, he]
  dsimp only
  rw [← driveWrite_eq_wrote _ _ s.mgmt (refusalLatched t.mgmt) h1 h2 hs.1]
  rfl

/-- An index is the number it stands at. -/
theorem index_eq (s : State) (n : Nat) (h : s.mgmt.index.toNat = n) : s.mgmt.index = BitVec.ofNat 16 n := by
  rw [← h]
  simp

/-! ### Commands -/

/-- At 0010h stands the command code. -/
theorem fieldAt_command (s : State) (h : atCommand s) : fieldAt s.mgmt.index = some (.commandCode, 0) := by
  rw [h.2]
  decide

/-- At 0010h the code of the last command judged is read. -/
theorem regByte_command (s : State) (h : atCommand s) : regByte s s.mgmt.index = s.mgmt.code := by
  unfold regByte
  rw [fieldAt_command s h]
  simp [fieldValue, valueByte]

/-- A command that its judging refuses. -/
theorem issue_refused (code : Byte) (judge : State → Verdict) (s t : State) (h : atCommand s)
    (hb : s.mgmt.status ≠ .busy) (hj : judge s = .refuse t) (h1 : t.mgmt.interface = s.mgmt.interface)
    (h2 : t.mgmt.index = s.mgmt.index) : issue code judge s = commandRefused code s t := by
  have he : judgeCommand code judge s = (setCommand code .refused t, true) := by
    unfold judgeCommand
    rw [if_neg hb, hj]
    rfl
  unfold issue
  rw [if_pos (fieldAt_command s h), writeData_refused _ s _ h.1 he h1 h2, regByte_command s h]
  rfl

/-- A command that is done at its judging. -/
theorem issue_finished (code : Byte) (judge : State → Verdict) (s t : State) (h : atCommand s)
    (hb : s.mgmt.status ≠ .busy) (hj : judge s = .finish t) (h1 : t.mgmt.interface = s.mgmt.interface)
    (h2 : t.mgmt.index = s.mgmt.index) : issue code judge s = commandTaken code .done s t := by
  have he : judgeCommand code judge s = (setCommand code .done t, false) := by
    unfold judgeCommand
    rw [if_neg hb, hj]
    rfl
  unfold issue
  rw [if_pos (fieldAt_command s h), writeData_taken _ s _ h.1 he h1 h2, regByte_command s h]
  rfl

/-- A command that takes time. -/
theorem issue_started (code : Byte) (judge : State → Verdict) (s t : State) (h : atCommand s)
    (hb : s.mgmt.status ≠ .busy) (hj : judge s = .start t) (h1 : t.mgmt.interface = s.mgmt.interface)
    (h2 : t.mgmt.index = s.mgmt.index) : issue code judge s = commandTaken code .busy s t := by
  have he : judgeCommand code judge s = (setCommand code .busy t, false) := by
    unfold judgeCommand
    rw [if_neg hb, hj]
    rfl
  unfold issue
  rw [if_pos (fieldAt_command s h), writeData_taken _ s _ h.1 he h1 h2, regByte_command s h]
  rfl

/-! ### Addresses -/

/-- An address that none of the rows of its block lists. -/
theorem fieldAt_none (x : BitVec 16) (h : ∀ r ∈ rowsNear x.toNat, ¬(r.start ≤ x.toNat ∧ x.toNat < r.start + r.width)) :
    fieldAt x = none := by
  have e : rowAt x = none := by
    unfold rowAt
    rw [List.find?_eq_none]
    simpa using h
  unfold fieldAt
  rw [e]
  rfl

/-- An address at which no field stands reads 00h (R177). -/
theorem regByte_none (s : State) (x : BitVec 16) (h : fieldAt x = none) : regByte s x = 0 := by
  unfold regByte
  rw [h]

/-- What the bytes of a field read. -/
theorem regByte_field (s : State) (f : Field) (a w : Nat)
    (h : ∀ i, i < w → fieldAt (BitVec.ofNat 16 (a + i)) = some (f, i)) :
    ∀ i, i < w → regByte s (BitVec.ofNat 16 (a + i)) = BitVec.ofNat 8 (fieldValue s f / 256 ^ i) := by
  intro i hi
  unfold regByte
  rw [h i hi]
  rfl

end Sys2Proof.Machine
end

