-- ==== Sys2Proof/Tests/Slice0.lean ====
section
/-! SUPPORT. Small tests on fixed values: the checks of WellFormed, messages written out from R4, the worked examples of
spec/, and for every statement with hypotheses a state and operands that meet them. -/

/- One theorem at a time: evaluated side by side, the many small theorems below hold a thread each. -/
set_option Elab.async false

namespace Sys2Proof.Tests

open Sys2Proof.Machine

/-! ### Ill-formed commands -/

theorem test_wf_swap_with_second_operand : (Instr.atomic 0 1 2 .swap 3 4 5).wf = false := by decide

theorem test_wf_answer_with_data_not_owned : (Instr.answer 0 1 2 .shared false false 9).wf = false := by decide +kernel

theorem test_wf_unknown_kind_of_a_listed_kind : (Instr.unknownKind 0 .a 0x01).wf = false := by decide

theorem test_wf_invalid_command_of_a_listed_code : (Instr.invalidCommand 0x0A).wf = false := by decide

theorem test_wf_directory_fault_without_flips :
    (Instr.directoryStorageFault 0 0 0 0 0 false false).wf = false := by decide

/-- A fault of the check code alone flips no data bit, and a later frame may begin with any byte. -/
theorem test_wf_examples : (Instr.atomic 0 1 2 .compareSwap 3 4 5).wf = true ∧
    (Instr.unknownKind 0 .b 0x01).wf = true ∧ (Instr.interfaceLock (.i2c 0xA0)).wf = true ∧
    (Instr.poolStorageFault 0 0 false).wf = true := by decide

/-! ### Words and messages -/

/-- No row of the table has bits (spec/opcode_table.json). -/
theorem test_no_table_word : decodeTableWord 32 0x12345678 = none := by decide

/-- A READ_OWN (02h) of tag 7 and line 9,000 = 2328h, byte by byte from R4. -/
theorem test_wire_read_own :
    arrivalOf 1 .a [0x02, 0x07, 0x28, 0x23, 0, 0, 0, 0, 0, 0, 0, 0] = some (.readOwn 1 7 9000) := by decide +kernel

/-- An ATOMIC (06h) SWAP of word 2 of line 9,000, tag 30, new value 41 (R4 to R6, R8). -/
theorem test_wire_atomic :
    arrivalOf 1 .a [0x06, 30, 0x28, 0x23, 0, 0, 0x21, 0, 0, 0, 0, 0, 41, 0, 0, 0, 0, 0, 0, 0] =
      some (.atomic 1 30 9000 .swap 2 41 0) := by decide +kernel

/-- A FENCE (07h) of tag 31. -/
theorem test_wire_fence :
    arrivalOf 1 .a [0x07, 31, 0, 0, 0, 0, 0, 0, 0, 0, 0, 0] = some (.fenceMessage 1 31) := by decide +kernel

/-- A RELEASE (11h) of line 4,194,303 = 3FFFFFh. -/
theorem test_wire_release :
    arrivalOf 0 .b [0x11, 0, 0xFF, 0xFF, 0x3F, 0, 0, 0, 0, 0, 0, 0] = some (.releaseMessage 0 0x3FFFFF) := by
  decide +kernel

/-- An ANSWER (12h) SHARED for tracker 5 and line 1: held 1 in bits 7 to 6 and the tracker in bits 5 to 0 of byte 5. -/
theorem test_wire_answer :
    arrivalOf 2 .b [0x12, 0, 1, 0, 0, 0x45, 0, 0, 0, 0, 0, 0] = some (.answer 2 1 5 .shared false false 0) := by
  decide +kernel

/-- A PURGE_DONE (13h) of set 2,047 = 7FFh, in bytes 10 and 11. -/
theorem test_wire_purge_done :
    arrivalOf 3 .b [0x13, 0, 0, 0, 0, 0, 0, 0, 0, 0, 0xFF, 0x07] = some (.purgeDoneMessage 3 2047) := by decide +kernel

/-- A JOIN (14h) of level 1, in bits 7 to 4 of byte 7. -/
theorem test_wire_join :
    arrivalOf 3 .b [0x14, 0, 0, 0, 0, 0, 0, 0x10, 0, 0, 0, 0] = some (.join 3 1) := by decide +kernel

/-- A READ_SHARED on lane B, and an ANSWER with held 3, are of unknown kind (R5). -/
theorem test_wire_unknown_kind :
    arrivalOf 0 .b [0x01, 0, 0, 0, 0, 0, 0, 0, 0, 0, 0, 0] = some (.unknownKind 0 .b 0x01) ∧
    arrivalOf 0 .b [0x12, 0, 0, 0, 0, 0xC0, 0, 0, 0, 0, 0, 0] = some (.unknownKind 0 .b 0xC00000000012) := by
  decide +kernel

/-- A DONE(STRAY) for a return of line 10: kind 24h, code 1 and subject 1 in byte 6 (R7, R8). -/
theorem test_wire_done_stray :
    (HubMsg.doneRet 10 .stray).encode = [0x24, 0, 10, 0, 0, 0, 0x81, 0, 0, 0, 0, 0] := by decide +kernel

/-- A NOTICE(PEER_LEFT) of host 2 at epoch 258: kind 2Ch, code 2 in byte 6, host in byte 7, epoch in bytes 8 and 9. -/
theorem test_wire_notice :
    (HubMsg.notice .peerLeft 2 258).encode = [0x2C, 0, 0, 0, 0, 0, 2, 2, 2, 1, 0, 0] := by decide +kernel

/-! ### Worked examples of spec/ -/

/-- Tag 0 has tag parity 1, and code 4 with no holders has state parity 0 (12.6, step 4). -/
theorem test_parity_example : tagParityOf 0 = true ∧ stateParityOf 4 0 = false := by decide

/-- The two planted errors of 12.6 and the good way between them. -/
theorem test_planted_parity_errors : checkWay ⟨4, 0, 0, none, false, false⟩ = .tagError ∧
    checkWay ⟨4, 0, 0, none, true, true⟩ = .stateError ∧ checkWay ⟨4, 0, 0, none, true, false⟩ = .good := by decide

/-- Line 9,000 lies in set 808 with tag 4 (7.6). -/
theorem test_line_split : lineSet 9000 = 808 ∧ lineTag 9000 = 4 ∧ lineOf 4 808 = 9000 := by decide

/-- The table of 3.8; `third` is whether its descriptor 5 is enabled. -/
def tableOf38 (third : Bool) : Vector Descriptor 16 :=
  ((RegionTable.reset.active.set 0 ⟨true, 0, 64, .tracked, #v[.write, .write, .read, .noRight]⟩).set 3
    ⟨true, 64, 16, .directOnly, #v[.write, .write, .write, .read]⟩).set 5
    ⟨third, 32, 32, .tracked, Vector.replicate 4 .noRight⟩

/-- The eight outcomes of 3.8. -/
theorem test_access_examples :
    accessCheck (tableOf38 false) 2 .readShared 5000 = .ok .tracked ∧
    accessCheck (tableOf38 false) 2 .readOwn 5000 = .error .denied ∧
    accessCheck (tableOf38 false) 3 .directRead 5000 = .error .denied ∧
    accessCheck (tableOf38 false) 0 .readShared 1100000 = .error .mode ∧
    accessCheck (tableOf38 false) 3 .directWrite 1100000 = .error .denied ∧
    accessCheck (tableOf38 false) 3 .readOwn 1300000 = .error .denied ∧
    accessCheck (tableOf38 false) 1 .atomic 1200000 = .ok .directOnly ∧
    accessCheck (tableOf38 false) 0 .directRead 1400000 = .error .noRegion := by decide +kernel

/-- Enabling descriptor 5 of 3.8 makes descriptors 0 and 5 offend. -/
theorem test_offending_example : isValidTable (tableOf38 false) = true ∧ isValidTable (tableOf38 true) = false ∧
    offendingOf (tableOf38 true) = 0x0021 := by decide +kernel

/-- The counter of 7.6 goes from 41 to 42. -/
theorem test_fetch_add_example : atomicResult .fetchAdd 1 0 41 = (42, .ok) := by decide

/-- COMPARE_SWAP that fails, and an addition that wraps (R125). -/
theorem test_atomic_corners : atomicResult .compareSwap 7 9 8 = (8, .mismatch) ∧
    atomicResult .fetchAdd 1 0 0xFFFFFFFFFFFFFFFF = (0, .ok) := by decide

/-! ### Small states -/

/-- The hub in RUN at rest, its interface locked as four-wire, in a write frame whose index has been loaded. -/
def atRest : State :=
  { State.reset with
    hub := .run
    mem := { Memory.reset with port := .idle }
    mgmt := { Mgmt.reset with interface := .fourWire, transfer := .write } }

/-- A port in a state, with its link up. -/
def withPort (h : HostNo) (p : PortState) (s : State) : State :=
  updPort (updHli s h (fun x => { x with linkUp := true })) h (fun x => { x with state := p })

/-- One host online. -/
def online0 : State := withPort 0 .online atRest

/-- The index at an address. -/
def atIndex (a : BitVec 16) (s : State) : State := { s with mgmt := { s.mgmt with index := a } }

/-- A way of line 9,000 owned by host 0, in good parity. -/
def owned0 : Way := wayFor Way.reset 4 (.owned 0)

/-- Host 0 online and owner of line 9,000 in way 6 of set 808. -/
def owning : State := putWay 808 6 owned0 online0

/-- A tracker record for line 9,000. -/
def someTracker (kind : TrackerKind) (phase : Phase) : Tracker :=
  ⟨kind, 9000, .tracked, some (0, 30), .absent, phase, [], none, false, none, none, none, false, .free, .free, false, 0,
    false⟩

/-- A write-buffer entry with a full mask. -/
def entryOfLine (n : LineNo) (held : Bool) : WbEntry := ⟨n, 1, fullMask, false, .tracker, false, false, held⟩

/-- The six entries of 8.6. -/
def sixEntries : List WbEntry :=
  [entryOfLine 1000 false, entryOfLine 2000 false, entryOfLine 3000 false, entryOfLine 4000 false,
    entryOfLine 5000 false, entryOfLine 6000 false]

/-- The memory controller of 8.6 before its step 1. -/
def memoryOf86 : State := { atRest with mem := { atRest.mem with wbuf := sixEntries, reads := [10, 11, 12, 13, 14] } }

/-- Step 1 of 8.6: tracker 10's read is granted, and the streak is 1. -/
theorem test_arbiter_example : (dueArbiter memoryOf86).map (fun s => (s.mem.port, s.mem.streak)) =
    some (.read 10, 1) := by decide +kernel

/-- A device number read at reset of the interface: 7,724 = 1E2Ch, low byte first. -/
theorem test_device_number : regByte State.reset 0 = 0x2C ∧ regByte State.reset 1 = 0x1E := by decide +kernel

/-- After power-on the recall limit reads 200 and the mask 0FFFh (R187). -/
theorem test_reset_settings : regByte State.reset 0x0100 = 200 ∧ regByte State.reset 0x0023 = 0x0F := by decide +kernel

/-! ### Steps -/

/-- A READ_SHARED that arrives from an ONLINE host is queued with its tag (R11). -/
theorem test_step_request : (match step { online0 with pending := [.readShared 0 9 5000] } with
    | .next s => ((hliOf s 0).laneA.length, (hliOf s 0).tags, s.pending.length)
    | _ => (0, [], 0)) = (1, [9], 0) := by decide +kernel

/-- A JOIN with ADMIT clear is refused ADMISSION (R27). -/
theorem test_step_join_refused :
    (match step { updHli (withPort 1 .offline atRest) 1 (fun x => { x with laneB := [.join 1], controlPending := true }) with
        pending := [.processJoin 1] } with
    | .next s => ((hliOf s 1).outbound, (hliOf s 1).controlPending)
    | _ => ([], true)) = ([.refuseJoin .admission], false) := by decide +kernel

/-- A CUTOVER of an empty table goes through to RECALLING at its event, the host pool being empty (R152, R153). -/
theorem test_step_cutover : (match step { atIndex 0x0010 atRest with pending := [.cutover] } with
    | .next s => (s.region.status, s.region.lock, s.mgmt.status, s.mgmt.code)
    | _ => (.idle, false, .idle, 0)) = (.recalling, true, .done, 1) := by decide +kernel

/-- A WRITEBACK of the owner frees its entry, and its data is placed in the write buffer (R112). -/
theorem test_step_writeback :
    (match step { updHli owning 0 (fun x => { x with laneB := [.writeback 9000 true false 7], returns := [9000] }) with
        pending := [.processReturn 0] } with
    | .next s => ((wayOf s 808 6).code, (wayOf s 808 6).tag, s.mem.port, (hliOf s 0).outbound, (hliOf s 0).returns)
    | _ => (3, 0, .idle, [], [1])) =
      (0, 0, .drain ⟨9000, 7, fullMask, false, .ret, false, false, false⟩, [.doneRet 9000 .ok], []) := by
  decide +kernel

/-- The Management Port's interface, the frame or transaction on it, and the index, after one command. -/
def portAfter (c : Instr) (s : State) : Option (Interface × Transfer × BitVec 16) :=
  match exec c s with
  | .next t => some (t.mgmt.interface, t.mgmt.transfer, t.mgmt.index)
  | _ => none

/-- A write address byte of 58h, its read or write bit 0, locks I2C; one with the bit 1 begins a read (R174, R176). -/
theorem test_address_bytes :
    portAfter (.interfaceLock (.i2c 0xB0)) State.reset = some (.i2c, .index false, 0) ∧
    portAfter (.interfaceLock (.i2c 0xB1)) State.reset = some (.i2c, .read, 0) ∧
    portAfter (.interfaceLock (.i2c 0xB2)) State.reset = some (.undetermined, .noTransfer, 0) := by decide +kernel

/-- After 3Bh the index bytes 06h, 0Ah load 060Ah, the high one first; a frame of another first byte is ignored (R175). -/
theorem test_frames :
    portAfter (.interfaceLock (.fourWire 0x3B)) atRest = some (.fourWire, .index true, 0) ∧
    portAfter (.indexLoad ⟨0x06, 0x0A⟩) { atRest with mgmt := { atRest.mgmt with transfer := .index true } } =
      some (.fourWire, .read, 0x060A) ∧
    portAfter (.interfaceLock (.fourWire 0x42)) atRest = some (.fourWire, .ignored, 0) ∧
    portAfter (.indexLoad ⟨0x06, 0x0A⟩) { atRest with mgmt := { atRest.mgmt with transfer := .ignored } } =
      some (.fourWire, .ignored, 0) := by decide +kernel

/-- The I2C byte that the master does not acknowledge is the last of its read (R176). -/
theorem test_last_byte_read :
    (let reading := { atRest with mgmt := { atRest.mgmt with interface := .i2c, transfer := .read } }
     portAfter (.registerRead true) reading = some (.i2c, .read, 1) ∧
       portAfter (.registerRead false) reading = some (.i2c, .noTransfer, 1)) := by decide +kernel

/-! ### States and operands that meet the hypotheses of the statements

Each theorem is named for its statement; the numbers are its clauses. -/

theorem meets_stepRunsFrontCommand :
    ({ atRest with pending := [.dispatch, .takeParked] } : State).pending = .dispatch :: [.takeParked] ∧
      atRest.pending = [] ∧ nextDue atRest = none ∧ atRest.resetPhase = .noReset ∧
      (nextDue { atRest with integ := { atRest.integ with purgeList := [808] } }).isSome = true ∧
      (nextDue { atRest with resetPhase := .drain }).isSome = true ∧
      (nextDue { atRest with resetPhase := .links }).isSome = true := by decide +kernel

theorem meets_startUpResults : State.reset.hub = .init ∧ atRest.hub ≠ .init := by decide

theorem meets_poolStorageFaultResult :
    atRest.mem.port ≠ .rewrite ∧ condOf atRest.mem 4194303 = ⟨false, none⟩ := by decide +kernel

theorem meets_directoryStorageFaultResult : checkWay (wayOf owning 808 6) = .good ∧
    checkWay { wayOf owning 808 6 with tag := (wayOf owning 808 6).tag ^^^ 1 } = .tagError := by decide +kernel

theorem meets_linkDownResult :
    ((hliOf (withPort 3 .offline atRest) 3).linkUp = true ∧ portState (withPort 3 .offline atRest) 3 = .offline) ∧
      ((hliOf online0 0).linkUp = true ∧ isAdmitted online0 0 = true ∧ online0.resetPhase = .noReset) ∧
      ((hliOf (withPort 0 .departing atRest) 0).linkUp = true ∧ isAdmitted (withPort 0 .departing atRest) 0 = true ∧
        ({ withPort 0 .departing atRest with resetPhase := .drain } : State).resetPhase ≠ .noReset) ∧
      ((hliOf (withPort 0 .fenced atRest) 0).linkUp = true ∧ portState (withPort 0 .fenced atRest) 0 = .fenced) := by
  decide +kernel

theorem meets_linkUpAndDelivery : (hliOf (sent 0 .stall online0) 0).linkUp = true ∧
    (hliOf (sent 0 .stall online0) 0).outbound = .stall :: [] := by decide +kernel

/-- Requests waiting in lane A of host 0, with their tags outstanding. -/
def queued (n : Nat) : State :=
  updHli online0 0 (fun x =>
    { x with
      laneA := List.replicate n ⟨.readShared, 0, 0, .absent⟩
      tags := (List.range n).map (fun i => BitVec.ofNat 8 i) })

theorem meets_requestArrivals_admitted : arrivingRequest (.readOwn 0 200 1) = some (0, ⟨.readOwn, 200, 1, .absent⟩) ∧
    linkOpen (queued 15) 0 ∧ isAdmitted (queued 15) 0 = true ∧ (200 : HostTag) ∉ (hliOf (queued 15) 0).tags ∧
    (hliOf (queued 15) 0).laneA.length < 16 := by
  unfold linkOpen; decide +kernel

theorem meets_requestArrivals_full : linkOpen (queued 16) 0 ∧ (200 : HostTag) ∉ (hliOf (queued 16) 0).tags ∧
    16 ≤ (hliOf (queued 16) 0).laneA.length ∧ (15 : HostTag) ∈ (hliOf (queued 16) 0).tags := by
  unfold linkOpen; decide +kernel

theorem meets_requestArrivals_closed : linkOpen (withPort 2 .offline atRest) 2 ∧
    portState (withPort 2 .offline atRest) 2 = .offline ∧ isFenced (withPort 2 .fencing atRest) 2 := by
  unfold linkOpen isFenced; decide +kernel

/-- Returns of host 0 outstanding. -/
def returning (n : Nat) : State :=
  updHli online0 0 (fun x => { x with returns := (List.range n).map (fun i => BitVec.ofNat 22 i) })

theorem meets_returnArrivals : arrivingReturn (.releaseMessage 0 20) = some (0, 0x11, 20, .release 20) ∧
    (linkOpen (returning 15) 0 ∧ isAdmitted (returning 15) 0 = true ∧ (20 : LineNo) ∉ (hliOf (returning 15) 0).returns ∧
      (hliOf (returning 15) 0).returns.length < 16) ∧
    (linkOpen (returning 16) 0 ∧ 16 ≤ (hliOf (returning 16) 0).returns.length ∧
      (15 : LineNo) ∈ (hliOf (returning 16) 0).returns) := by
  unfold linkOpen; decide +kernel

/-- Tracker 63 on line 9,000 awaiting host 0. -/
def awaiting0 : Tracker := { someTracker .readOwn .recall with awaited := [⟨0, .drop, false⟩], deadline := some 200 }

/-- The state in which it waits, its stored entry owned by host 0. -/
def recalling : State := setTracker owning 63 (some { awaiting0 with stored := .owned 0 })

theorem meets_answerArrivals_matched : linkOpen recalling 0 ∧ isAdmitted recalling 0 = true ∧
    (∃ tr, trackerOf recalling 63 = some tr ∧ awaits tr 0 = true) ∧ (63 : TrackerNo) ∉ (hliOf recalling 0).answered := by
  unfold linkOpen
  refine ⟨by decide +kernel, by decide +kernel, ⟨_, rfl, by decide +kernel⟩, by decide +kernel⟩

/-- The purge slot purging set 2,047 and awaiting host 0. -/
def purging : State :=
  { online0 with integ := { online0.integ with phase := .purging, set := 2047, awaited := [0], deadline := some 200 } }

theorem meets_answerArrivals_purge : linkOpen purging 0 ∧ purging.integ.phase = .purging ∧ purging.integ.set = 2047 ∧
    0 ∈ purging.integ.awaited ∧ (hliOf purging 0).purgeAnswer = false ∧ isAdmitted purging 0 = true := by
  unfold linkOpen; decide +kernel

theorem meets_controlArrivals : linkOpen (withPort 1 .offline atRest) 1 ∧
    (hliOf (withPort 1 .offline atRest) 1).controlPending = false ∧ portState online0 0 = .online ∧ linkOpen online0 0 ∧
    portState (withPort 1 .departing atRest) 1 = .departing ∧ isFenced (withPort 1 .fenced atRest) 1 := by
  unfold linkOpen isFenced; decide +kernel

theorem meets_unknownKindArrivals : linkOpen online0 0 ∧ isUnknownKind .a (unpackHeader 0xFF) = true := by
  unfold linkOpen; decide +kernel

theorem meets_closedLinkBringsNothing : ¬linkOpen atRest 0 ∧
    ¬linkOpen (updHli online0 0 (fun x => { x with intakeStopped := true })) 0 := by
  unfold linkOpen; decide +kernel

/-- Set 808 in the purge list. -/
def closed (s : State) : State := { s with integ := { s.integ with purgeList := [808] } }

theorem meets_protocolErrorResult : isClosed (closed owning) 808 = true ∧ isClosed owning 808 = false ∧
    (808 : SetNo) ∉ owning.integ.purgeList := by decide +kernel

theorem meets_placingRule : (hliOf atRest 0).linkUp = false ∧
    ((hliOf (withPort 0 .fencing atRest) 0).linkUp = true ∧ isFenced (withPort 0 .fencing atRest) 0 ∧
      passesFence .stall = false ∧ passesFence (.refuseJoin .fenced) = true) ∧
    ((hliOf online0 0).linkUp = true ∧ ¬isFenced online0 0) := by
  unfold isFenced; decide +kernel

theorem meets_fenceStart : isAdmitted online0 0 = true ∧ isAdmitted (withPort 3 .departing atRest) 3 = true := by
  decide +kernel

/-- A job current in the walker, at a set. -/
def walking (j : Job) (k : SetNo) (s : State) : State :=
  { s with walker := { s.walker with current := some j, set := k } }

/-- Tracker 4 of host 0, which waits to re-park. -/
def reparking (s : State) : State :=
  let s1 := setTracker s 4 (some (someTracker .readOwn .setup))
  { s1 with trk := { s1.trk with reparkWait := [4] } }

theorem meets_fenceStart_walker : (walking (.depart 0) 5 online0).walker.current = some (.depart 0) ∧
    online0.walker.current ≠ some (.depart 0) ∧
    Job.depart 0 ∈ ({ online0 with walker := { online0.walker with jobs := [.depart 0] } } : State).walker.jobs ∧
    Job.depart 0 ∉ online0.walker.jobs ∧
    (4 : TrackerNo) ∈ (reparking online0).trk.reparkWait ∧ requestedBy (reparking online0) 0 4 = true := by
  decide +kernel

/-- A JOIN of a level at the head of the lane B of host 1, whose port is OFFLINE. -/
def joining (level : BitVec 4) : State :=
  updHli (withPort 1 .offline atRest) 1 (fun x => { x with laneB := [.join level], controlPending := true })

theorem meets_joinProcessed : (hliOf (joining 1) 1).laneB = .join 1 :: [] ∧ portState (joining 1) 1 = .offline ∧
    (joining 1).hub = .run ∧ (portOf (joining 1) 1).admission = false ∧
    (portOf (updPort (joining 1) 1 (fun p => { p with admission := true })) 1).admission = true ∧
    (hliOf (joining 2) 1).laneB = .join 2 :: [] := by decide +kernel

theorem meets_departProcessed :
    (hliOf (updHli online0 0 (fun x => { x with laneB := [.depart] })) 0).laneB = .depart :: [] ∧
      portState online0 0 = .online := by decide +kernel

/-- No tracker is in use at rest. -/
theorem no_tracker (t : TrackerNo) (tr : Tracker) : trackerOf atRest t ≠ some tr := by
  have e : ∀ t, trackerOf atRest t = none := by decide +kernel
  rw [e]
  exact fun h => nomatch h

/-- Port 2 in a state, its walk reported as finished. -/
def sweptPort (p : PortState) : State := updPort (withPort 2 p atRest) 2 (fun x => { x with sweepDone := true })

theorem meets_departureAndForfeitEnd (p : PortState) : (portOf (sweptPort p) 2).sweepDone = true ∧
    (∀ u tr, trackerOf (sweptPort p) u = some tr →
      (∀ tag, tr.requester ≠ some (2, tag)) ∧ ∀ a ∈ tr.awaited, a.host ≠ 2) ∧
    2 ∉ (sweptPort p).integ.awaited ∧ (∀ q ∈ (sweptPort p).disp.park, q.host ≠ 2) ∧
    slotOf (sweptPort p) 2 = none ∧ (hliOf (sweptPort p) 2).returns = [] ∧ portState (sweptPort p) 2 = p := by
  refine ⟨by cases p <;> decide +kernel, fun u tr h => absurd h (no_tracker u tr), ?_⟩
  cases p <;> decide +kernel

/-- A return at the head of the lane B of host 0. -/
def returned (m : LaneBMsg) : State := updHli owning 0 (fun x => { x with laneB := [m], returns := [9000] })

/-- Tracker 4 of host 0 on line 9,000, its lookup made. -/
def lookedUp (kind : TrackerKind) (s : State) : State := setTracker s 4 (some (someTracker kind .memWait))

theorem meets_returnAtHead : (hliOf (returned (.writeback 9000 true false 7)) 0).laneB = .writeback 9000 true false 7 :: [] ∧
    returnOf (.writeback 9000 true false 7) = some ⟨9000, true, true, false, 7⟩ ∧
    isAdmitted (returned (.release 9000)) 0 = true ∧ (returned (.release 9000)).resetPhase = .noReset ∧
    metTracker (returned (.release 9000)) 9000 = none ∧ WbClaim.ret 0 ∉ (returned (.release 9000)).mem.claims ∧
    returnOf (.release 9000) = some ⟨9000, false, false, false, 0⟩ := by decide +kernel

theorem meets_openSetReturn : metTracker owning 9000 = none ∧ isClosed owning 808 = false ∧
    returnBlocked owning 9000 = false ∧ matchingWay owning 9000 = some 6 ∧ entryOf (wayOf owning 808 6) = .owned 0 ∧
    matchingWay online0 9000 = none ∧ returnBlocked online0 9000 = false ∧
    entryOf (wayOf (putWay 808 6 (wayFor Way.reset 4 (.shared 3)) online0) 808 6) = .shared 3 ∧
    entryOf (wayOf (putWay 808 6 (wayFor Way.reset 4 .lost) online0) 808 6) = .lost ∧
    returnBlocked (putWay 808 6 ⟨3, 4, 1, none, true, true⟩ online0) 9000 = true := by decide +kernel

theorem meets_returnMeetsTracker : metTracker recalling 9000 = some 63 ∧
    trackerOf recalling 63 = some { awaiting0 with stored := .owned 0 } ∧
    (∃ a ∈ awaiting0.awaited, a.host = 0 ∧ a.returned = false) ∧ awaiting0.scrubbing = false := by
  refine ⟨by decide +kernel, by decide +kernel, ⟨_, List.mem_singleton.2 rfl, rfl, rfl⟩, rfl⟩

theorem meets_returnMeetsTracker_released : metTracker (setTracker owning 63 (some
      { awaiting0 with stored := .shared 3 })) 9000 = some 63 ∧ hasHost 3 0 = true ∧ hasHost 3 2 = false := by
  decide +kernel

theorem meets_closedSetReturn : metTracker (closed owning) 9000 = none ∧ isClosed (closed owning) 808 = true ∧
    2 ≤ (wayOf (closed owning) 808 6).code.toNat ∧
    (wayOf (closed owning) 808 6).tagParity = tagParityOf (wayOf (closed owning) 808 6).tag ∧
    (wayOf (closed owning) 808 6).tag = lineTag 9000 ∧ (∀ v, v < 6 → (wayOf (closed owning) 808 v).code = 0) ∧
    (∀ v, (wayOf (closed online0) 808 v).code = 0) := by decide +kernel

/-- Tracker 4 with its pool read in the read list. -/
def readOut (s : State) : State := { s with mem := { s.mem with reads := [4] } }

/-- A DIRECT_WRITE of line 9,000 in the closed set 808, bound to no way and awaiting no host, is not met (R166); it is met
in an open set, and in the closed one once it is bound. A DIRECT_READ there is met while its read is outstanding (R139),
and an ATOMIC in MEM_WAIT (R124). -/
theorem meets_closedSetReturn_unbound :
    trackerOf (closed (lookedUp .directWrite owning)) 4 = some (someTracker .directWrite .memWait) ∧
    (∀ u x, u < 4 → trackerOf (closed (lookedUp .directWrite owning)) u = some x → x.line ≠ 9000) ∧
    metTracker (closed (lookedUp .directWrite owning)) 9000 = none ∧
    metTracker (lookedUp .directWrite owning) 9000 = some 4 ∧
    metTracker (closed (putWay 808 6 { owned0 with binding := some 4 } (lookedUp .directWrite online0))) 9000 = some 4 ∧
    (∀ t tr, trackerOf owning t = some tr → tr.line ≠ 9000) := by
  refine ⟨by decide +kernel, fun u x h q => ?_, by decide +kernel, by decide +kernel, by decide +kernel,
    fun t tr q => ?_⟩
  · have : trackerOf (closed (lookedUp .directWrite owning)) u = none := by clear q x; revert u; decide +kernel
    rw [this] at q; cases q
  · have : trackerOf owning t = none := by clear q tr; revert t; decide +kernel
    rw [this] at q; cases q

theorem meets_closedSetReturn_reading :
    metTracker (closed (readOut (lookedUp .directRead owning))) 9000 = some 4 ∧
    (closed (readOut (lookedUp .directRead owning))).mem.reads = [4] ∧
    metTracker (closed (lookedUp .atomic owning)) 9000 = some 4 ∧
    (someTracker .directRead .memWait).awaited = [] := by decide +kernel

/-- An ANSWER of host 0 at its head, for tracker 63. -/
def answering (m : LaneBMsg) (tr : Tracker) : State :=
  updHli (setTracker owning 63 (some tr)) 0 (fun x => { x with laneB := [m], answered := [63] })

theorem meets_answerProcessed (n : LineNo) (held : Held) (tr : Tracker) (h : awaits tr 0 = true)
    (hs : tr.scrubbing = false) :
    (hliOf (answering (.answer n 63 held false false 0) tr) 0).laneB = .answer n 63 held false false 0 :: [] ∧
      trackerOf (answering (.answer n 63 held false false 0) tr) 63 = some tr ∧ awaits tr 0 = true ∧
      tr.scrubbing = false := by
  refine ⟨by simp [answering, hliOf, updHli], by simp [answering, trackerOf, updHli, setTracker], h, hs⟩

theorem meets_answerProcessed_clauses : awaits awaiting0 0 = true ∧ awaiting0.scrubbing = false ∧
    awaiting0.buffer = none ∧ awaiting0.stored ≠ .owned 0 ∧ awaiting0.line = 9000 ∧
    (∃ a ∈ ({ awaiting0 with awaited := [⟨0, .share, true⟩] } : Tracker).awaited, a.host = 0 ∧ a.returned = true) := by
  refine ⟨by decide, by decide, by decide, by decide, by decide, ⟨_, List.mem_singleton.2 rfl, rfl, rfl⟩⟩

/-- Tracker 63 scrubbing line 9,000 and awaiting host 0. -/
def scrubbing0 : Tracker := { awaiting0 with scrubbing := true }

theorem meets_answerProcessed_scrubbing (n : LineNo) (held : Held) :
    (hliOf (answering (.answer n 63 held false false 0) scrubbing0) 0).laneB = .answer n 63 held false false 0 :: [] ∧
      trackerOf (answering (.answer n 63 held false false 0) scrubbing0) 63 = some scrubbing0 ∧
      awaits scrubbing0 0 = true ∧ scrubbing0.scrubbing = true ∧ scrubbing0.buffer = none ∧ scrubbing0.line = 9000 := by
  refine ⟨by simp [answering, hliOf, updHli], by simp [answering, trackerOf, updHli, setTracker], ?_⟩
  decide

theorem meets_purgeDoneProcessed :
    (hliOf (updHli purging 0 (fun x => { x with laneB := [.purgeDone 2047] })) 0).laneB = .purgeDone 2047 :: [] ∧
      purging.integ.phase = .purging ∧ purging.integ.set = 2047 ∧ purging.integ.set ≠ 0 ∧
      ({ purging with integ := { purging.integ with awaited := [] } } : State).integ.awaited = [] := by decide +kernel

/-- The purge slot in a phase, at set 808. -/
def slotAt (p : PurgePhase) (s : State) : State := { s with integ := { s.integ with phase := p, set := 808 } }

theorem meets_purgeDoneProcessed_slot : atRest.integ.phase = .idle ∧ atRest.integ.purgeList = [] ∧
    (closed atRest).integ.phase = .idle ∧ (closed atRest).integ.purgeList = 808 :: [] ∧
    (slotAt .closing owning).integ.phase = .closing ∧ (∀ w, (wayOf (slotAt .closing owning) 808 w).binding = none) ∧
    (wayOf (slotAt .closing (putWay 808 6 { owned0 with binding := some 4 } online0)) 808 6).binding ≠ none ∧
    (slotAt .purging owning).integ.awaited = [] ∧ (wayOf (slotAt .purging owning) 808 6).code = 3 ∧
    purging.integ.awaited ≠ [] := by decide +kernel

theorem meets_dispatchDecisions : atRest.disp.halted = false ∧ atRest.resetPhase = .noReset ∧
    parkedChoice (queued 1) = none ∧ (dealHead (queued 1) 0).isSome = true ∧ (∀ h, dealHead atRest h = none) ∧
    (hliOf (queued 1) 0).laneA = ⟨.readShared, 0, 0, .absent⟩ :: [] ∧ portState (queued 1) 0 ≠ .departing ∧
    hasHost (queued 1).disp.passedOver 0 = false ∧
    accessCheck (queued 1).region.active 0 .readShared 0 = .error .noRegion := by decide +kernel

/-- Host 0 with one request, under the active table of 3.8. -/
def asking : State := { queued 1 with region := { RegionTable.reset with active := tableOf38 false } }

theorem meets_dispatchDecisions_placed : accessCheck asking.region.active 0 .readShared 0 = .ok .tracked ∧
    kindOf .readShared = some .readShared ∧ trackerOf asking 0 = none ∧ asking.disp.park.length < 48 ∧
    isClosed asking (lineSet 0) = false ∧ (0 : LineNo) ∉ (hliOf asking 0).returns ∧
    isClosed (closed asking) (lineSet 808) = true := by decide +kernel

/-- A state with every tracker of the host pool in use, on line 9,000. -/
def poolFull (s : State) : State :=
  hostPool.foldl (fun s t => setTracker s t (some (someTracker .readOwn .memWait))) s

/-- Host 0 with a FENCE at its head. -/
def fencing : State :=
  updHli online0 0 (fun x => { x with laneA := [⟨.fence, 7, 0, .absent⟩], tags := [7, 8] })

theorem meets_dispatchDecisions_heads :
    portState (updPort asking 0 (fun x => { x with state := .departing })) 0 = .departing ∧
    ((hliOf fencing 0).laneA = ⟨.fence, 7, 0, .absent⟩ :: [] ∧ slotOf fencing 0 = none ∧
      slotOf (setSlot fencing 0 (some ⟨9, [], [], [], []⟩)) 0 ≠ none ∧
      slotOf (setSlot fencing 0 (some ⟨9, [8], [], [], []⟩)) 0 = some ⟨9, [8], [], [], []⟩) ∧
    trackerOf (setTracker asking 60 (some { someTracker .evict .recall with line := 0 })) 60 =
      some { someTracker .evict .recall with line := 0 } ∧
    48 ≤ ({ asking with disp := { asking.disp with
      park := List.replicate 48 ⟨1, ⟨.readShared, 5, 0, .absent⟩⟩ } } : State).disp.park.length ∧
    (∀ t : TrackerNo, t.val < 56 → trackerOf (poolFull asking) t ≠ none) ∧ dealHead (poolFull asking) 0 = none ∧
    hasHost ({ asking with disp := { asking.disp with passedOver := 1 } } : State).disp.passedOver 0 = true := by
  decide +kernel

/-- One request of host 0 parked. -/
def parkedOne : State :=
  { asking with disp := { asking.disp with park := [⟨0, ⟨.readShared, 5, 5000, .absent⟩⟩] } }

theorem meets_parkedTaken : parkedOne.disp.halted = false ∧ parkedOne.resetPhase = .noReset ∧
    parkedOne.disp.park = [] ++ ⟨0, ⟨.readShared, 5, 5000, .absent⟩⟩ :: [] ∧ trackerOf parkedOne 0 = none ∧
    isReady parkedOne [] ⟨0, ⟨.readShared, 5, 5000, .absent⟩⟩ = true ∧ portState parkedOne 0 ≠ .departing ∧
    accessCheck parkedOne.region.active 0 .readShared 5000 = .ok .tracked := by decide +kernel

theorem meets_parkedTaken_repark : (reparking online0).trk.reparkWait = 4 :: [] ∧
    (reparking online0).disp.park.length < 48 ∧ atRest.trk.reparkWait = [] ∧
    trackerOf (reparking online0) 4 = some (someTracker .readOwn .setup) ∧
    (someTracker .readOwn .setup).requester = some (0, 30) ∧ reqKindOf .readOwn = some .readOwn ∧
    (2 ≤ (wayOf owning 808 6).code.toNat ∧ (wayOf owning 808 6).tag = lineTag 9000) ∧
    (∀ w, (wayOf online0 808 w).code = 0) ∧ isReady (closed parkedOne) [] ⟨0, ⟨.readShared, 5, 808, .absent⟩⟩ = false ∧
    (∀ t : TrackerNo, t.val < 56 → trackerOf (poolFull parkedOne) t ≠ none) := by decide +kernel

/-- Tracker 4 in SETUP on line 9,000, for host 1. -/
def lookingUp (kind : TrackerKind) (s : State) : State :=
  setTracker s 4 (some { someTracker kind .setup with requester := some (1, 30) })

theorem meets_lookupRecalls : (lookingUp .readOwn owning).resetPhase = .noReset ∧
    (4 : TrackerNo) ∉ (lookingUp .readOwn owning).trk.reparkWait ∧ isClosed (lookingUp .readOwn owning) 808 = false ∧
    (∀ v, checkWay (wayOf (lookingUp .readOwn owning) 808 v) = .notChecked ∨
      checkWay (wayOf (lookingUp .readOwn owning) 808 v) = .good) ∧
    checkWay (wayOf (lookingUp .readOwn owning) 808 6) = .good ∧
    (wayOf (lookingUp .readOwn owning) 808 6).tag = lineTag 9000 ∧
    (∀ v, v < 6 → checkWay (wayOf (lookingUp .readOwn owning) 808 v) = .notChecked) ∧
    refusalAt { someTracker .readOwn .setup with requester := some (1, 30) } 1 (.owned 0) = none ∧
    roundOf .readOwn 1 (.owned 0) = (0, .drop) :: [] := by decide +kernel

/-- Another line's way in set 808, way 3, with a state parity error (R163). -/
def beside (s : State) : State :=
  putWay 808 3 { wayFor Way.reset 9 (.owned 0) with stateParity := !(wayFor Way.reset 9 (.owned 0)).stateParity } s

theorem meets_lookup_beside : checkWay (wayOf (lookingUp .readOwn (beside owning)) 808 3) = .stateError ∧
    (wayOf (lookingUp .readOwn (beside owning)) 808 3).tag ≠ lineTag 9000 ∧
    (∀ v, checkWay (wayOf (lookingUp .readOwn (beside owning)) 808 v) ≠ .tagError) ∧
    checkWay (wayOf (lookingUp .readOwn (beside owning)) 808 6) = .good ∧
    (∀ v, v < 6 → (wayOf (lookingUp .readOwn (beside owning)) 808 v).tag ≠ lineTag 9000) ∧
    isClosed (lookingUp .readOwn (beside owning)) 808 = false ∧
    (∀ v, (wayOf (lookingUp .readOwn (beside online0)) 808 v).tag ≠ lineTag 9000) := by decide +kernel

/-- Line 9,000 shared by host 0, in way 6 of set 808. -/
def sharing : State := putWay 808 6 (wayFor Way.reset 4 (.shared 1)) online0

/-- Line 9,000 with a state parity error, in way 6 of set 808. -/
def badState : State := putWay 808 6 { owned0 with stateParity := !owned0.stateParity } online0

theorem meets_lookupRecalls_empty : reportEntry sharing (entryOf (wayOf sharing 808 6)) = .shared 1 ∧
    roundOf .readShared 1 (.shared 1) = [] ∧ roundOf .upgrade 0 (.shared 1) = [] ∧ roundOf .directRead 1 (.shared 1) = [] ∧
    refusalAt (someTracker .readShared .setup) 1 (.shared 1) = none ∧ servedAs .upgrade 0 (.shared 1) = .upgrade ∧
    roundOf .directWrite 1 .lost = [] ∧
    refusalAt { someTracker .directWrite .setup with operands := .write fullMask 2 } 1 .lost = none := by decide +kernel

theorem meets_lookupRecalls_scrub : checkWay (wayOf (lookingUp .readOwn badState) 808 6) = .stateError ∧
    (wayOf (lookingUp .readOwn badState) 808 6).tag = lineTag 9000 ∧
    (∀ v, checkWay (wayOf (lookingUp .readOwn badState) 808 v) ≠ .tagError) ∧
    (∀ v, v < 6 → checkWay (wayOf (lookingUp .readOwn badState) 808 v) = .notChecked) ∧
    isClosed (lookingUp .readOwn badState) 808 = false := by decide +kernel

/-- What is true of a recall round's first message: the tracker in use, and a LOST view of an internal tracker. -/
theorem meets_recallRounds : (trackerOf recalling 63).isSome = true ∧
    reportEntry online0 (.owned 1) = .lost ∧ reportEntry online0 (.owned 0) ≠ .lost ∧
    regionOf (tableOf38 false) 5000 = some ⟨true, 0, 64, .tracked, #v[.write, .write, .read, .noRight]⟩ ∧
    regionOf (tableOf38 false) 1400000 = none ∧ (regionOf (tableOf38 false) 1100000).map (·.mode) = some .directOnly := by
  decide +kernel

theorem meets_lookupMisses : isClosed (lookingUp .readOwn online0) 808 = false ∧
    (∀ v, checkWay (wayOf (lookingUp .readOwn online0) 808 v) = .notChecked) ∧
    (setOf (lookingUp .readOwn online0) 808).order = [] ++ 0 :: [1, 2, 3, 4, 5, 6, 7] ∧
    (wayOf (lookingUp .readOwn online0) 808 0).code = 0 := by decide +kernel

/-- Set 808 with the same entry in every way, tags 10 to 17. -/
def fullSet (e : Entry) : State :=
  allWays.foldl (fun s w => putWay 808 w (wayFor Way.reset (10 + BitVec.ofNat 11 w.val) e) s) online0

/-- Set 808 with every way bound to tracker 63. -/
def boundSet : State :=
  allWays.foldl (fun s w => putWay 808 w { wayOf s 808 w with binding := some 63 } s) (fullSet (.owned 0))

/-- Set 808 full, one way with a parity error. -/
def faultySet (tag : Bool) : State :=
  putWay 808 6 (if tag then { wayOf (fullSet .lost) 808 6 with tagParity := !tagParityOf 16 }
    else { wayOf (fullSet .lost) 808 6 with stateParity := true }) (fullSet .lost)

theorem meets_lookupMisses_direct :
    (∀ kind, (someTracker kind .setup).scrubbing = false ∧ (someTracker kind .setup).ownerLost = false ∧
      (someTracker kind .setup).buffer = none ∧ (someTracker kind .setup).mode = .tracked) ∧
    trackerOf (lookingUp .atomic online0) 4 = some { someTracker .atomic .setup with requester := some (1, 30) } :=
  ⟨fun _ => ⟨rfl, rfl, rfl, rfl⟩, by decide +kernel⟩

theorem meets_lookupMisses_full :
    (∀ w ∈ (Machine.setOf (fullSet (.owned 0)) 808).order, (wayOf (fullSet (.owned 0)) 808 w).code ≠ 0) ∧
    victimOf (fullSet (.owned 0)) 808 = some 0 ∧
    (Machine.setOf (fullSet (.owned 0)) 808).order = [] ++ 0 :: [1, 2, 3, 4, 5, 6, 7] ∧
    (∀ w, checkWay (wayOf (fullSet (.owned 0)) 808 w) ≠ .tagError) ∧
    (victimOf boundSet 808 = none ∧ (wayOf boundSet 808 0).binding ≠ none ∧
      (∀ w ∈ (Machine.setOf boundSet 808).order, (wayOf boundSet 808 w).code ≠ 0)) ∧
    (victimOf (fullSet .lost) 808 = none ∧ (∀ w, (wayOf (fullSet .lost) 808 w).code = 4) ∧
      (∀ w, (wayOf (fullSet .lost) 808 w).binding = none) ∧
      (trackerOf (lookingUp .readOwn (fullSet .lost)) 4).map (fun tr => tr.requester) = some (some (1, 30))) ∧
    (checkWay (wayOf (faultySet true) 808 6) = .tagError ∧ isClosed (faultySet true) 808 = false) ∧
    (checkWay (wayOf (faultySet false) 808 6) = .stateError ∧ victimOf (faultySet false) 808 = some 6) := by
  decide +kernel

/-- Tracker 4 waiting for a way, allowed to ask again. -/
def askingAgain (s : State) : State :=
  let s1 := setTracker s 4 (some (someTracker .readOwn .victimWait))
  { s1 with trk := { s1.trk with victimWait := [4], askAgain := [4], claims := [.evict 4, .walker] } }

theorem meets_lookupMisses_asking : (askingAgain atRest).trk.askAgain = 4 :: [] ∧ atRest.trk.askAgain = [] ∧
    trackerOf (askingAgain atRest) 4 = some (someTracker .readOwn .victimWait) ∧
    (∀ u : TrackerNo, u ≠ 4 → trackerOf (askingAgain atRest) u = none) ∧ waitsOn (askingAgain atRest) 808 4 = true ∧
    (askingAgain atRest).trk.claims = .evict 4 :: [.walker] ∧ atRest.trk.claims = [] ∧
    trackerOf (askingAgain atRest) 56 = none ∧ isClosed (closed (askingAgain atRest)) 808 = true ∧
    victimOf (fullSet (.owned 0)) 808 ≠ none ∧ checkWay (wayOf (fullSet (.owned 0)) 808 0) = .good := by decide +kernel

theorem meets_lookupEnds :
    reportEntry owning (entryOf (wayOf owning 808 6)) = .owned 0 ∧ isCoherent .readOwn = true ∧
      (∀ v, (wayOf owning 808 v).binding ≠ some 4) ∧
      reportEntry owning (entryOf (wayOf (putWay 808 6 (wayFor Way.reset 4 .lost) online0) 808 6)) = .lost ∧
      isFullWrite (someTracker .readOwn .setup) = false ∧
      isClosed (closed owning) 808 = true ∧ reqKindOf .readOwn = some .readOwn ∧ isAdmitted owning 0 = true := by
  decide +kernel

theorem meets_lookupEnds_released : trackerOf (lookingUp .readOwn owning) 4 =
      some { someTracker .readOwn .setup with requester := some (1, 30) } ∧
    (wayOf (putWay 808 3 ⟨1, 4, 0, some 4, true, true⟩ (lookingUp .readOwn online0)) 808 3).binding = some 4 ∧
    (∀ v, (wayOf (lookingUp .readOwn online0) 808 v).binding ≠ some 4) ∧
    (isFenced (withPort 1 .fencing online0) 1 ∧ online0.trk.reparkWait = [] ∧ online0.disp.park.length < 48) ∧
    (reparking online0).trk.reparkWait ≠ [] ∧ (4 : TrackerNo) ∈ (reparking online0).trk.reparkWait ∧
    checkWay (wayOf (faultySet true) 808 6) = .tagError ∧
    ({ someTracker .readOwn .setup with mode := .directOnly } : Tracker).mode = .directOnly := by
  unfold isFenced; decide +kernel

/-- A request of a host that is FENCING is parked when its set is found closed (R91, R165). -/
theorem test_release_of_fenced :
    (match exec (.trackerLookup 4) (closed (lookingUp .readOwn (withPort 1 .fencing online0))) with
      | .next s => (trackerOf s 4, s.disp.park)
      | _ => (none, [])) = (none, [⟨1, ⟨.readOwn, 30, 9000, .absent⟩⟩]) := by decide +kernel

theorem meets_memoryAsked : entryFor atRest.mem 9000 = none ∧ (4 : TrackerNo) ∉ atRest.mem.reads ∧
    entryFor memoryOf86.mem 1000 = some (entryOfLine 1000 false) ∧ (entryOfLine 1000 false).mask = fullMask ∧
    ({ entryOfLine 1000 false with mask := 1 } : WbEntry).mask ≠ fullMask ∧
    (trackerWrite { someTracker .directWrite .setup with operands := .write 1 2 }).isSome = true ∧
    trackerWrite (someTracker .readShared .setup) = none := by decide +kernel

/-- A tracker whose recall round has ended, the way bound to it, and one to which a way has been handed. -/
def goingOn (kind : TrackerKind) (phase : Phase) : State :=
  putWay 808 6 { owned0 with binding := some 4 } (setTracker online0 4 (some (someTracker kind phase)))

theorem meets_memoryAsked_going :
    (trackerOf (goingOn .readOwn .recall) 4 = some (someTracker .readOwn .recall) ∧
      (someTracker .readOwn .recall).awaited = []) ∧
    (trackerOf (goingOn .readOwn .victimWait) 4 = some (someTracker .readOwn .victimWait) ∧
      (wayOf (goingOn .readOwn .victimWait) 808 6).binding = some 4) ∧
    (∀ u : TrackerNo, u < 4 → trackerOf (goingOn .readOwn .recall) u = none) ∧
    WbClaim.tracker 4 ∉ (goingOn .evict .recall).mem.claims ∧
    boundWay (goingOn .evict .recall) 808 4 = some 6 ∧
    (∀ t, trackerOf atRest t = none) ∧
    (∀ b : DataBuffer, b.modified = true →
      (trackerWrite { someTracker .readOwn .recall with buffer := some b }).isSome = true) := by
  refine ⟨by decide +kernel, by decide +kernel, by decide +kernel, by decide +kernel, by decide +kernel,
    by decide +kernel, fun b h => ?_⟩
  simp [trackerWrite, someTracker, h]

theorem meets_deadlinesExpire : recalling.resetPhase = .noReset ∧ awaiting0.deadline ≠ none ∧ awaiting0.awaited ≠ [] ∧
    awaiting0.graceUsed = false ∧ (63 : TrackerNo) ∉ recalling.trk.reparkWait ∧ purging.resetPhase = .noReset ∧
    purging.integ.phase = .purging ∧ purging.integ.deadline ≠ none ∧ purging.integ.awaited ≠ [] ∧
    purging.integ.graceUsed = false := by decide +kernel

theorem meets_entriesAreMasked : isAdmitted online0 0 = true ∧ isAdmitted online0 1 = false ∧
    (3 : HostSet) &&& holding online0 ≠ 0 ∧ (2 : HostSet) &&& holding online0 = 0 ∧
    (wayOf online0 808 6).code ≠ 4 ∧ (wayOf (fullSet .lost) 808 6).code = 4 ∧
    (wayOf (writeEntry 808 6 4 (.owned 0) .commit (fullSet .lost)) 808 6).code ≠ 4 ∧
    (wayOf (writeEntry 808 6 4 (.owned 1) .commit online0) 808 6).code = 4 ∧ (wayOf online0 808 6).code = 0 := by
  decide +kernel

/-- Tracker 4 of host 0 bound to the way that host owns. -/
def bound4 (kind : TrackerKind) : State :=
  putWay 808 6 { owned0 with binding := some 4 } (setTracker online0 4 (some (someTracker kind .memWait)))

/-- The same with host 0 FENCING. -/
def fenced4 (kind : TrackerKind) : State := withPort 0 .fencing (bound4 kind)

theorem meets_replies_fenced : isFenced (fenced4 .readShared) 0 ∧ boundWay (fenced4 .readShared) 808 4 = some 6 ∧
    isPlaced (fenced4 .readShared) 0 (.dataShared 30 9000 false 0) = false ∧
    boundWay (setTracker (withPort 0 .fencing online0) 4 (some (someTracker .directWrite .memWait))) 808 4 = none ∧
    portState (withPort 0 .departing (bound4 .upgrade)) 0 = .departing ∧
    boundWay (withPort 0 .departing (bound4 .upgrade)) 808 4 = some 6 := by
  unfold isFenced; decide +kernel

theorem meets_coherentReplies : boundWay (bound4 .readShared) 808 4 = some 6 ∧ isAdmitted (bound4 .readShared) 0 = true ∧
    isCoherent .readShared = true ∧ isCoherent .readOwn = true ∧ isCoherent .upgrade = true ∧
    (trackerOf (bound4 .readShared) 4).isSome = true := by decide +kernel

/-- Internal tracker 60 bound to the way of host 0's line, for waiting requester 4 or for none. -/
def committing (kind : TrackerKind) (waiting : Option TrackerNo) : State :=
  putWay 808 6 { owned0 with binding := some 60 } (setTracker (lookingUp .readOwn online0) 60
    (some { someTracker kind .recall with requester := none, waitingRequester := waiting }))

theorem meets_coherentReplies_internal : (∀ kind ∈ [TrackerKind.evict, .sweepRecall], ∀ w ∈ [none, some 4],
      trackerOf (committing kind w) 60 = some { someTracker kind .recall with requester := none, waitingRequester := w } ∧
      boundWay (committing kind w) 808 60 = some 6) ∧
    (trackerOf (committing .evict (some 4)) 4).isSome = true ∧ (4 : TrackerNo) ≠ 60 := by decide +kernel

/-- One line with a condition of its own. -/
def conditioned (c : LineCond) : Memory := { atRest.mem with conds := [(5, c)] }

theorem meets_poolReadFindings : condOf atRest.mem 5 = ⟨false, none⟩ ∧
    condOf (conditioned ⟨false, some ⟨1, true⟩⟩) 5 = ⟨false, some ⟨1, true⟩⟩ ∧
    condOf (conditioned ⟨true, none⟩) 5 = ⟨true, none⟩ ∧
    condOf (conditioned ⟨true, some ⟨1, false⟩⟩) 5 = ⟨true, some ⟨1, false⟩⟩ := by decide +kernel

/-- Tracker 4's read holding the port. -/
def reading : State :=
  { setTracker online0 4 (some (someTracker .readOwn .memWait)) with mem := { atRest.mem with port := .read 4 } }

/-- The same with a partial entry of the line, held. -/
def readingHeld : State :=
  { reading with mem := { reading.mem with wbuf := [{ entryOfLine 9000 true with mask := 1 }] } }

theorem meets_poolReadCompletes : reading.mem.port = .read 4 ∧
    trackerOf reading 4 = some (someTracker .readOwn .memWait) ∧ reading.mem.clearing = false ∧
    ({ reading with mem := { reading.mem with clearing := true } } : State).mem.clearing = true ∧
    reading.resetPhase = .noReset ∧ ({ reading with resetPhase := .drain } : State).resetPhase ≠ .noReset ∧
    readingHeld.mem.wbuf.find? (fun e => e.line = 9000) = some { entryOfLine 9000 true with mask := 1 } := by
  decide +kernel

/-- The drain of line 1,000 holding the port. -/
def draining : State :=
  { atRest with
    mem := { atRest.mem with
      port := .drain (entryOfLine 1000 false), wbuf := [{ entryOfLine 1000 false with draining := true }] } }

theorem meets_drainCompletes : draining.mem.port = .drain (entryOfLine 1000 false) ∧ draining.mem.clearing = false ∧
    ({ draining with mem := { draining.mem with clearing := true } } : State).mem.clearing = true ∧
    ¬(∃ x ∈ draining.mem.wbuf, x.line = (entryOfLine 1000 false).line ∧ x.rewritten = true) := by decide +kernel

/-- The full buffer of 8.6 after its step 3, the return of host 3 waiting at the head of the claim list. -/
def fullBuffer : State :=
  { atRest with
    mem := { atRest.mem with
      wbuf := sixEntries ++ [entryOfLine 8000 false, entryOfLine 9000 false], claims := [.ret 3, .tracker 20] } }

theorem meets_writesPlaced : fullBuffer.resetPhase ≠ .drain ∧ fullBuffer.mem.clearing = false ∧
    fullBuffer.mem.claims = [] ++ .ret 3 :: [.tracker 20] ∧ 8 ≤ fullBuffer.mem.wbuf.length ∧
    (∀ c ∈ fullBuffer.mem.claims, claimLine fullBuffer c = none) ∧
    (memoryOf86.mem.wbuf.length < 8 ∧ (∀ e ∈ memoryOf86.mem.wbuf, e.line ≠ 9000)) := by decide +kernel

theorem meets_writesPlaced_tracker : trackerOf (lookingUp .directWrite online0) 4 =
      some { someTracker .directWrite .setup with requester := some (1, 30) } ∧
    trackerWrite { someTracker .directWrite .setup with operands := .write 1 2 } = some (2, 1, false) ∧
    (1000 : LineNo) = (entryOfLine 1000 false).line ∧ atRest.mem.claims = [] := by decide +kernel

theorem meets_arbiterChooses : memoryOf86.mem.port = .idle ∧ memoryOf86.mem.clearing = false ∧
    memoryOf86.mem.wbuf = [] ++ entryOfLine 1000 false :: sixEntries.tail ∧
    ((entryOfLine 1000 false).draining = false ∧ (entryOfLine 1000 false).held = false) ∧
    memoryOf86.mem.reads = 10 :: [11, 12, 13, 14] ∧ memoryOf86.mem.wbuf.length < 8 ∧ memoryOf86.mem.streak < 4 ∧
    8 ≤ fullBuffer.mem.wbuf.length ∧ atRest.mem.reads = [] ∧ (∀ x ∈ atRest.mem.wbuf, x.held = true) := by
  decide +kernel

/-- An ATOMIC with its contents in the buffer. -/
def atomicTracker (b : DataBuffer) : Tracker :=
  { someTracker .atomic .memWait with operands := .atomic .fetchAdd 2 1 0, buffer := some b }

theorem meets_atomicResults (b : DataBuffer) : (atomicTracker b).kind = .atomic ∧
    (atomicTracker b).operands = .atomic .fetchAdd 2 1 0 ∧ (atomicTracker b).buffer = some b ∧
    (atomicTracker b).scrubbing = false := ⟨rfl, rfl, rfl, rfl⟩

/-- Tracker 4 of host 0 with a direct read's contents. -/
def directTracker : Tracker := { someTracker .directRead .memWait with buffer := some ⟨7, false, false, .memory, none⟩ }

theorem meets_directReplies : trackerOf (setTracker online0 4 (some directTracker)) 4 = some directTracker ∧
    directTracker.requester = some (0, 30) ∧ boundWay (setTracker online0 4 (some directTracker)) 808 4 = none ∧
    isAdmitted (setTracker online0 4 (some directTracker)) 0 = true ∧
    ({ directTracker with kind := .atomic, result := some (.ok, 41) } : Tracker).result = some (.ok, 41) := by
  decide +kernel

theorem meets_directReplies_bound : boundWay (bound4 .directRead) 808 4 = some 6 ∧ isAdmitted (bound4 .directRead) 0 = true ∧
    trackerOf (bound4 .directWrite) 4 = some (someTracker .directWrite .memWait) ∧
    (someTracker .directWrite .memWait).requester = some (0, 30) ∧
    (someTracker .directWrite .memWait).waitingRequester = none ∧ directTracker.reported = .free ∧
    ({ directTracker with reported := .owned 0 } : Tracker).reported = .owned 0 := by decide +kernel

theorem meets_walkerVisits : (walking (.depart 0) 808 owning).walker.current = some (.depart 0) ∧
    (walking (.depart 0) 808 owning).walker.draining = false ∧ (walking (.depart 0) 808 owning).walker.walked = false ∧
    (walking (.depart 0) 808 owning).walker.wait = .visit ∧ isClosed (walking (.depart 0) 808 owning) 808 = false ∧
    checkWay (wayOf (walking (.depart 0) 808 owning) 808 6) = .good ∧
    jobRound (walking (.depart 0) 808 owning) (.depart 0) 9000 (.owned 0) ≠ [] ∧
    (wayOf (walking (.depart 0) 808 owning) 808 6).binding = none ∧
    isClosed (closed (walking (.depart 0) 808 owning)) 808 = true ∧
    (walking (.forfeit 0) 2047 (withPort 0 .fencing atRest)).walker.set = 2047 ∧
    isAdmitted (walking (.forfeit 0) 2047 (withPort 0 .fencing atRest)) 0 = false := by decide +kernel

/-- The walker past set 2,047, with set 808 skipped. -/
def revisiting (s : State) : State :=
  let s1 := walking (.depart 0) 2047 s
  { s1 with walker := { s1.walker with revisiting := true, skipped := [808] } }

/-- The walker waiting at way 6 of set 808. -/
def waitingAt (x : WalkWait) (s : State) : State :=
  let s1 := walking (.depart 0) 808 s
  { s1 with walker := { s1.walker with way := 6, wait := x } }

/-- The walker past set 2,047, the set it skipped found open since. -/
def reopening (s : State) : State :=
  let s1 := revisiting s
  { s1 with walker := { s1.walker with reopened := [808] } }

theorem meets_walkerVisits_revisiting : (revisiting owning).walker.revisiting = true ∧
    (revisiting owning).walker.skipped = 808 :: [] ∧ isClosed (revisiting owning) 808 = false ∧
    isClosed (closed (revisiting owning)) 808 = true ∧ (808 : SetNo) ∉ (closed (revisiting owning)).walker.reopened ∧
    isClosed (closed (reopening owning)) 808 = true ∧ (808 : SetNo) ∈ (closed (reopening owning)).walker.reopened ∧
    (reopening owning).walker.skipped = 808 :: [] ∧ atRest.walker.current = none := by decide +kernel

theorem meets_walkerVisits_ways : (wayOf (walking .cutover 808 (bound4 .readOwn)) 808 6).binding ≠ none ∧
    checkWay (wayOf (walking .cutover 808 (bound4 .readOwn)) 808 6) = .good ∧
    jobRound (walking .cutover 808 (bound4 .readOwn)) .cutover 9000 (.owned 0) ≠ [] ∧
    (∀ v, v < 6 → checkWay (wayOf (walking .cutover 808 (bound4 .readOwn)) 808 v) = .notChecked) ∧
    allWays = [0, 1, 2, 3, 4, 5] ++ 6 :: [7] ∧
    checkWay (wayOf (walking (.depart 0) 808 (faultySet true)) 808 6) = .tagError ∧
    checkWay (wayOf (walking (.depart 0) 808 badState) 808 6) = .stateError ∧
    InternalClaim.walker ∉ (walking (.depart 0) 808 badState).trk.claims := by decide +kernel

/-- Host 0, fenced, alone or with host 1 a holder of three lines of set 808, in ways 5, 1 and 3. -/
def forfeiting (holders : HostSet) : State :=
  let held := fun (tag : DirTag) => wayFor Way.reset tag (.shared holders)
  walking (.forfeit 0) 808 (putWay 808 3 (held 3) (putWay 808 1 (held 1) (putWay 808 5 (held 5)
    (withPort 1 .online (withPort 0 .fencing atRest)))))

theorem meets_walkerVisits_forfeit :
    checkWay (wayOf (walking (.depart 0) 808 (lookedUp .directRead badState)) 808 6) = .stateError ∧
    trackerOf (walking (.depart 0) 808 (lookedUp .directRead badState)) 4 = some (someTracker .directRead .memWait) ∧
    (someTracker .directRead .memWait).line = lineOf (wayOf badState 808 6).tag 808 ∧
    checkWay (wayOf (walking (.forfeit 0) 808 (faultySet true)) 808 6) = .tagError ∧
    checkWay (wayOf (walking (.forfeit 0) 808 badState) 808 6) = .stateError ∧
    (wayOf (walking (.forfeit 0) 808 badState) 808 6).binding = none ∧
    InternalClaim.walker ∉ (walking (.forfeit 0) 808 badState).trk.claims ∧
    (∀ w, checkWay (wayOf (forfeiting 1) 808 w) = .notChecked ∨ checkWay (wayOf (forfeiting 1) 808 w) = .good) ∧
    entryOf (wayOf (forfeiting 1) 808 1) = .shared 1 ∧ entryOf (wayOf (forfeiting 3) 808 1) = .shared 3 ∧
    isAdmitted (forfeiting 1) 0 = false ∧ entryOf (wayOf (walking (.forfeit 0) 808 owning) 808 6) = .owned 0 ∧
    (∀ w, (808, w) ∉ (forfeiting 1).dir.freed) := by decide +kernel

/-- A FORFEIT visit that makes ways 1, 3 and 5 FREE leaves way 1 least recent, then 3, then 5 (R60, the ways that become
FREE at one event); one that leaves them VALID moves none. -/
theorem test_forfeit_order :
    (Machine.setOf (scanWays (.forfeit 0) allWays (forfeiting 1)) 808).order = [1, 3, 5, 0, 2, 4, 6, 7] ∧
    (Machine.setOf (scanWays (.forfeit 0) allWays (forfeiting 3)) 808).order = [0, 1, 2, 3, 4, 5, 6, 7] := by
  decide +kernel

theorem meets_walkerVisits_grant : (waitingAt (.claim 9000 false) owning).walker.wait = .claim 9000 false ∧
    lineOf (wayOf (waitingAt (.claim 9000 false) owning) 808 6).tag 808 = 9000 ∧
    checkWay (wayOf (waitingAt (.claim 9000 true) badState) 808 6) = .stateError ∧
    isClosed (closed (waitingAt (.claim 9000 false) owning)) 808 = true ∧
    (wayOf (waitingAt (.claim 9000 false) online0) 808 6).code = 0 := by decide +kernel

theorem meets_walkerVisits_due : (waitingAt .ready owning).walker.wait = .ready ∧
    (waitingAt (.busy 9000) recalling).walker.wait = .busy 9000 ∧
    2 ≤ (wayOf (waitingAt (.busy 9000) recalling) 808 6).code.toNat ∧
    (trackerOf recalling 63).map (fun tr => tr.line) = some 9000 ∧
    (wayOf (waitingAt (.busy 9000) online0) 808 6).code = 0 ∧
    ({ (walking (.depart 0) 808 owning).walker with walked := true } : Walker).walked = true ∧
    (walking (.depart 0) 808 owning).walker.trackers = [] ∧
    ({ atRest with walker := { atRest.walker with jobs := [.forfeit 1] } } : State).walker.jobs = .forfeit 1 :: [] := by
  decide +kernel

theorem meets_cutoverSteps : atRest.walker.current = none ∧
    ({ atRest with walker := { atRest.walker with jobs := [.cutover] } } : State).walker.jobs = .cutover :: [] ∧
    (walking .cutover 0 atRest).walker.current = some .cutover ∧ (walking .cutover 0 atRest).walker.wait = .visit ∧
    (∀ t : TrackerNo, t.val < 56 → trackerOf (walking .cutover 0 atRest) t = none) ∧
    (walking .cutover 0 atRest).walker.trackers = [] ∧ (walking .cutover 0 atRest).walker.walked = false := by
  decide +kernel

theorem meets_accessChecked : (tableOf38 false)[(0 : Fin 16)].Covers 1048575 ∧
    (tableOf38 false)[(3 : Fin 16)].Covers 1048576 ∧ (tableOf38 false)[(3 : Fin 16)].Covers 1310719 ∧
    (∀ e : Fin 16, (tableOf38 false)[e].Covers 1048576 → e = 3) ∧
    (∀ e : Fin 16, ¬(tableOf38 false)[e].Covers 1310720) := by
  unfold Descriptor.Covers; decide +kernel

theorem meets_tableValidity : atCommand (atIndex 0x0010 atRest) ∧ (atIndex 0x0010 atRest).mgmt.status ≠ .busy ∧
    (atIndex 0x0010 atRest).hub ≠ .init ∧ (atIndex 0x0010 atRest).region.status = .idle ∧
    isValidTable atRest.region.staged = true := by
  unfold atCommand inWrite; decide +kernel

theorem meets_managementReads : State.reset.mgmt.interface = .undetermined ∧ atRest.mgmt.interface = .fourWire ∧
    ({ Mgmt.reset with interface := .i2c } : Mgmt).interface = .i2c ∧ State.reset.mgmt.capture = none ∧
    ({ Mgmt.reset with interface := .i2c, transfer := .read } : Mgmt).transfer = .read ∧
    (0xB6 : Byte) >>> 1 = 0x58 ||| (3 : BitVec 2).setWidth 8 ∧ ¬(0xA0 : Byte) >>> 1 = 0x58 ||| (3 : BitVec 2).setWidth 8 ∧
    rowAt 0x0027 = some ⟨0x0027, 3, .graceValue⟩ ∧ rowAt 0x0710 = some ⟨0x0710, 2, .purgeCount⟩ := by decide +kernel

theorem meets_registerWrites : inWrite atRest ∧ ¬inWrite State.reset ∧
    (10 ≤ ((0 : Byte) ++ (10 : Byte)).toNat ∧ ¬10 ≤ ((0 : Byte) ++ (9 : Byte)).toNat) ∧
    (((0x07 : Byte) ++ (0xFF : Byte)).toNat ≤ 2047 ∧ ¬((0x08 : Byte) ++ (0 : Byte)).toNat ≤ 2047) ∧
    ((15 : Byte).toNat ≤ 15 ∧ (7 : Byte).toNat ≤ 7) := by
  unfold inWrite; decide

theorem meets_stagedWrites : (atIndex 0x027D atRest).mgmt.index.toNat = 0x200 + 8 * (15 : Fin 16).val + 5 ∧
    inWrite (atIndex 0x027D atRest) ∧ (atIndex 0x027D atRest).region.lock = false ∧
    (∀ h : HostNo, (0xAA : Byte).toNat / 4 ^ h.val % 4 ≠ 3) ∧ (∃ h : HostNo, (0xC0 : Byte).toNat / 4 ^ h.val % 4 = 3) := by
  unfold inWrite; decide

theorem meets_alertAndRecordWrites : inWrite atRest ∧
    (atIndex 0x0021 atRest).mgmt.index = 0x0021 ∧ (atIndex 0x053F atRest).mgmt.index = 0x053F ∧
    (1 : Byte).getLsbD 0 = true ∧ (2 : Byte).getLsbD 0 = false := by
  unfold inWrite; decide

theorem meets_commandsJudged : atCommand (atIndex 0x0010 atRest) ∧ isListedCommand 0x00 = false ∧
    isListedCommand 0x0B = false ∧
    ({ (atIndex 0x0010 atRest).mgmt with status := .busy } : Mgmt).status = .busy ∧ isValidTable (tableOf38 true) = false := by
  unfold atCommand inWrite; decide +kernel

theorem meets_portAndMaintenanceCommands : (0 : Byte).toNat = (0 : HostNo).val ∧ isAdmitted online0 0 = true ∧
    portState (withPort 3 .fenced atRest) 3 = .fenced ∧ (3 : Byte).toNat = (3 : HostNo).val ∧ 4 ≤ (4 : Byte).toNat ∧
    (atRest.hub = .run ∧ ∀ h, portState atRest h = .offline ∨ portState atRest h = .fenced) ∧
    ({ atRest with hub := .maint } : State).hub = .maint ∧ atRest.mem.port = .idle ∧
    (reading.mem.port ≠ .idle ∧ Memory.reset.port = .rewrite) := by decide +kernel

theorem meets_hubResetSteps : atCommand (atIndex 0x0010 online0) ∧ (atIndex 0x0010 online0).hub ≠ .init ∧
    State.reset.hub = .init ∧ atRest.mem.wbuf = [] ∧ atRest.mem.port = .idle ∧ draining.mem.wbuf ≠ [] ∧
    (hliOf (updHli online0 0 (fun x => { x with intakeStopped := true })) 0).intakeStopped = true ∧
    (hliOf (updHli online0 0 (fun x => { x with intakeStopped := true })) 0).outbound = [] ∧
    (∀ h, (hliOf atRest h).intakeStopped = false) := by
  unfold atCommand inWrite; decide +kernel

theorem meets_hubResetSteps_fell :
    (hliOf (updHli online0 0 (fun x => { x with intakeStopped := true, linkFell := true })) 0).linkFell = true ∧
    (hliOf (updHli online0 0 (fun x => { x with intakeStopped := true, outbound := [.stall] })) 0).outbound ≠ [] ∧
    (hliOf (updHli online0 0 (fun x => { x with intakeStopped := true, outbound := [.stall] })) 0).linkUp = true ∧
    reading.mem.port = .read 4 ∧ (trackerOf reading 4).isSome = true := by decide +kernel

/-- A LOST line 9,000, its number in the line operand, the index at 0010h. -/
def lostLine (operand : BitVec 24) : State :=
  atIndex 0x0010 { putWay 808 6 (wayFor Way.reset 4 .lost) atRest with mgmt := { atRest.mgmt with lineOperand := operand } }

theorem meets_clearLostJudged : atCommand (lostLine 9000) ∧ (lostLine 9000).mgmt.lineOperand.toNat = (9000 : LineNo).toNat ∧
    4194303 < (lostLine 4194304).mgmt.lineOperand.toNat ∧ isClosed (lostLine 9000) 808 = false ∧
    isClosed (closed (lostLine 9000)) 808 = true ∧ checkWay (wayOf (lostLine 9000) 808 6) = .good ∧
    (wayOf (lostLine 9000) 808 6).tag = lineTag 9000 ∧ (wayOf (lostLine 9000) 808 6).code = 4 ∧
    (wayOf (lostLine 9000) 808 6).binding = none ∧
    (∀ v, v < 6 → checkWay (wayOf (lostLine 9000) 808 v) = .notChecked) ∧
    checkWay (wayOf (beside (lostLine 9000)) 808 3) = .stateError ∧
    (wayOf (beside (lostLine 9000)) 808 3).tag ≠ lineTag 9000 ∧
    (∀ v, checkWay (wayOf (beside (lostLine 9000)) 808 v) ≠ .tagError) := by
  unfold atCommand inWrite; decide +kernel

/-- The diagnostic window enabled and at set 5, way 7, as in 12.6. -/
def diagnosing (code : BitVec 3) : State :=
  atIndex 0x0010 { atRest with
    hub := .maint
    mgmt := { atRest.mgmt with diagEnable := true, diag := ⟨5, 7, code, 0, 0, none, true, false, .notChecked⟩ } }

theorem meets_diagnosticCommands : atCommand (diagnosing 4) ∧ (diagnosing 4).mgmt.diagEnable = true ∧
    (diagnosing 4).mgmt.diag.set.toNat = (5 : SetNo).toNat ∧ (diagnosing 4).mgmt.diag.way.toNat = (7 : WayNo).val ∧
    checkWay (wayOf (diagnosing 4) 5 7) = .notChecked ∧ (wayOf (diagnosing 4) 5 7).binding = none ∧
    isClosed (diagnosing 4) 5 = false ∧ atRest.mgmt.diagEnable = false ∧
    diagWriteBad (diagnosing 4) 5 7 ⟨4, 0, 0, none, true, false⟩ = false ∧
    diagWriteBad (diagnosing 1) 5 7 ⟨1, 0, 0, none, true, false⟩ = true := by
  unfold atCommand inWrite; decide +kernel

theorem meets_wireRoundTrip : (Instr.join 3 1).wf = true ∧ hostOfArrival (.join 3 1) = some 3 ∧
    encodeArrival (.join 3 1) = some (.b, [0x14, 0, 0, 0, 0, 0, 0, 0x10, 0, 0, 0, 0]) := by decide +kernel

theorem sum_zeros (n : Nat) : (List.replicate n 0).sum = 0 := by
  induction n with
  | zero => rfl
  | succ n ih => rw [List.replicate_succ, List.sum_cons, ih]

theorem lostWays_atRest : lostWays atRest.dir = 0 := by
  have h : atRest.dir.sets.toList = List.replicate 2048 DirSet.reset := Vector.toList_replicate
  have e : lostIn DirSet.reset = 0 := by decide
  rw [lostWays, h, List.map_replicate, e, sum_zeros]

theorem order_atRest (k : SetNo) : (Machine.setOf atRest k).order = allWays := by
  have : Machine.setOf atRest k = DirSet.reset := Vector.getElem_replicate _
  rw [this]; rfl

theorem bounded_reset : Hli.reset.Bounded where
  requests := Nat.zero_le _
  returns := Nat.zero_le _
  returnsOnce := List.nodup_nil
  tagsOnce := List.nodup_nil
  queuedOnce := List.nodup_nil
  queuedOutstanding := fun _ h => nomatch h
  answersOnce := List.nodup_nil
  answersMarked := fun _ h => nomatch h
  purges := Nat.zero_le _
  controls := Nat.zero_le _

theorem bounded_atRest (h : HostNo) : (hliOf atRest h).Bounded := by
  have e : hliOf atRest h = Hli.reset := Vector.getElem_replicate _
  exact e ▸ bounded_reset

theorem lines_atRest : linesUnique atRest := fun t _ _ h _ => by
  cases e : trackerOf atRest t with
  | none => simp [lineHeld, e] at h
  | some tr => exact absurd e (no_tracker t tr)

/-- The hub at rest is sound, and its step answers a next state. -/
theorem meets_stepsKeepSound : Sound atRest ∧ step atRest = .next atRest where
  left :=
    { alert := rfl
      lock := rfl
      limit := by unfold limitLegal; decide
      lost := lostWays_atRest.symm
      orders := fun k => by rw [order_atRest k]
      pool := by decide
      buffer := ⟨Nat.zero_le _, List.nodup_nil⟩
      lines := lines_atRest
      park := Nat.zero_le _
      links := bounded_atRest }
  right := rfl

end Sys2Proof.Tests
end

section
/-! PROOFS. A message at its arrival: a link that is open hands it to what its port's state says (R9), and an admitted
port's checks decide the rest (R11 to R13). -/

namespace Sys2Proof.Machine

variable {s : State} {h : HostNo}

/-! ### The port's state -/

theorem isAdmitted_iff : isAdmitted s h = true ↔ portState s h = .online ∨ portState s h = .departing :=
  decide_eq_true_iff

/-- A host that is admitted is not fenced (R26). -/
theorem isAdmitted_not_isFenced (a : isAdmitted s h = true) : ¬isFenced s h := by
  unfold isFenced
  rcases isAdmitted_iff.mp a with e | e <;> simp [e]

theorem isFenced_isAdmitted (f : isFenced s h) : isAdmitted s h = false :=
  Bool.eq_false_iff.mpr fun a => isAdmitted_not_isFenced a f

theorem offline_not_isFenced (e : portState s h = .offline) : ¬isFenced s h := by simp [isFenced, e]

/-! ### The link interface -/

/-- An update of a link interface is judged by what it makes of the interface that stands. -/
theorem updHli_congr {f g : Hli → Hli} (e : f (hliOf s h) = g (hliOf s h)) : updHli s h f = updHli s h g := by
  simp only [updHli, e]

theorem updHli_eq_self {f : Hli → Hli} (e : f (hliOf s h) = hliOf s h) : updHli s h f = s := by
  rw [updHli, e]
  simp [hliOf]

/-- A message for a host whose link is up joins its outbound queue, unless its port is FENCING or FENCED (R1, R3). -/
theorem place_eq_sent (m : HubMsg) (u : (hliOf s h).linkUp = true) (f : ¬isFenced s h) : place h m s = sent h m s := by
  unfold isFenced at f
  simp [place, sent, u, f]

/-! ### What an arrival is handed to (R9) -/

/-- What an arrival gives where an OFFLINE port gives `refused`, an admitted one `checked`, and any other discards. -/
def arrivalByPort (h : HostNo) (refused checked s : State) : State :=
  if takesMessages s h = false then s
  else if portState s h = .offline then refused
  else if isAdmitted s h = true then checked
  else s

/-! The four arrivals, each by what it gives an OFFLINE port and what checks an admitted one's. -/

theorem arriveRequest_eq (r : Request) :
    arriveRequest h r s = arrivalByPort h (place h (.refuseReq r.tag .notOnline) s) (checkRequest h r s) s := by
  unfold arriveRequest arrivalByPort isAdmitted
  cases portState s h <;> rfl

theorem arriveReturn_eq (kind : Byte) (n : LineNo) (m : LaneBMsg) :
    arriveReturn h kind n m s =
      arrivalByPort h (protocolError h kind .notAdmitted none (some n) s) (checkReturn h kind n m s) s := by
  unfold arriveReturn arrivalByPort isAdmitted
  cases portState s h <;> rfl

theorem arriveAnswer_eq (t : TrackerNo) (n : LineNo) (m : LaneBMsg) :
    arriveAnswer h t n m s =
      arrivalByPort h (protocolError h 0x12 .notAdmitted none (some n) s) (checkAnswer h t n m s) s := by
  unfold arriveAnswer arrivalByPort isAdmitted
  cases portState s h <;> rfl

theorem arrivePurgeDone_eq (k : SetNo) :
    arrivePurgeDone h k s =
      arrivalByPort h (protocolError h 0x13 .notAdmitted none none s) (checkPurgeDone h k s) s := by
  unfold arrivePurgeDone arrivalByPort isAdmitted
  cases portState s h <;> rfl

theorem linkOpen_takesMessages (o : linkOpen s h) : takesMessages s h = true := by
  obtain ⟨up, taken⟩ := o
  simp [takesMessages, up, taken]

/-- An arrival from an OFFLINE port. -/
theorem arrivalByPort_offline {refused checked : State} (o : linkOpen s h) (e : portState s h = .offline) :
    arrivalByPort h refused checked s = refused := by
  simp [arrivalByPort, linkOpen_takesMessages o, e]

/-- An arrival from an ONLINE or DEPARTING port. -/
theorem arrivalByPort_admitted {refused checked : State} (o : linkOpen s h) (a : isAdmitted s h = true) :
    arrivalByPort h refused checked s = checked := by
  have e : portState s h ≠ .offline := fun e => by simp [isAdmitted, e] at a
  simp [arrivalByPort, linkOpen_takesMessages o, e, a]

/-- An arrival from a FENCING or FENCED port. -/
theorem arrivalByPort_fenced {refused checked : State} (f : isFenced s h) :
    arrivalByPort h refused checked s = s := by
  have e : portState s h ≠ .offline := fun e => offline_not_isFenced e f
  simp [arrivalByPort, e, isFenced_isAdmitted f]

/-- An arrival that an admitted port takes when it matches, by the state of its port. -/
theorem arrivalByPort_matched {refused taken discarded : State} {isMatch : Bool} {matched : Prop} (o : linkOpen s h)
    (iff : isMatch = true ↔ matched) :
    let t := arrivalByPort h refused (if isMatch = true then taken else discarded) s
    (portState s h = .offline → t = refused) ∧ (isFenced s h → t = s) ∧
      (isAdmitted s h = true → matched → t = taken) ∧ (isAdmitted s h = true → ¬matched → t = discarded) := by
  refine ⟨fun off => ?_, fun f => ?_, fun a hit => ?_, fun a miss => ?_⟩
  · exact arrivalByPort_offline o off
  · exact arrivalByPort_fenced f
  · rw [arrivalByPort_admitted o a, if_pos (iff.mpr hit)]
  · rw [arrivalByPort_admitted o a, if_neg (miss ∘ iff.mp)]

/-! ### Requests (R11, R16) -/

/-- Each of the seven requests arrives as what it asks. -/
theorem exec_arrivingRequest {c : Instr} {r : Request} (e : arrivingRequest c = some (h, r)) (s : State) :
    exec c s = .next (arriveRequest h r s) := by
  unfold arrivingRequest at e
  split at e <;> cases e <;> rfl

theorem lineNamed_eq (r : Request) : lineNamed r = if r.kind = .fence then none else some r.line := by
  unfold lineNamed
  cases r.kind <;> rfl

/-- A request whose tag is outstanding (R11). -/
theorem checkRequest_dupTag {r : Request} (u : (hliOf s h).linkUp = true) (f : ¬isFenced s h)
    (dup : r.tag ∈ (hliOf s h).tags) :
    checkRequest h r s =
      protocolError h r.kind.toCode .dupTag (some r.tag) (lineNamed r) (sent h (.refuseReq r.tag .dupTag) s) := by
  rw [checkRequest, if_pos dup, place_eq_sent _ u f]

/-- A request for which the lane A queue has no room (R11). -/
theorem checkRequest_overrun {r : Request} (u : (hliOf s h).linkUp = true) (f : ¬isFenced s h)
    (new : r.tag ∉ (hliOf s h).tags) (full : 16 ≤ (hliOf s h).laneA.length) :
    checkRequest h r s =
      protocolError h r.kind.toCode .overrun (some r.tag) (lineNamed r) (sent h (.refuseReq r.tag .overrun) s) := by
  rw [checkRequest, if_neg new, if_pos full, place_eq_sent _ u f]

/-- The twelfth request sets the stalled mark, and STALL is sent unless the mark stood (R16). -/
theorem stallCheck_eq (u : (hliOf s h).linkUp = true) (f : ¬isFenced s h) :
    stallCheck h s = updHli s h (fun x => { x with
      stalled := x.stalled || x.laneA.length = 12
      outbound := x.outbound ++ (if x.laneA.length = 12 ∧ x.stalled = false then [.stall] else []) }) := by
  unfold stallCheck
  split
  · next due =>
    have up : (hliOf (updHli s h (fun x => { x with stalled := true })) h).linkUp = true := by simpa using u
    rw [place_eq_sent _ up (by simpa [isFenced] using f), sent, updHli_updHli]
    exact updHli_congr (by simp [due])
  · next kept =>
    have mark : ((hliOf s h).stalled || decide ((hliOf s h).laneA.length = 12)) = (hliOf s h).stalled := by
      simpa using kept
    exact (updHli_eq_self (by simp [mark, kept])).symm

/-- A request accepted joins lane A and the outstanding tags, and its place in lane A decides the STALL (R11, R16). -/
theorem acceptRequest_eq {r : Request} (u : (hliOf s h).linkUp = true) (f : ¬isFenced s h)
    (new : r.tag ∉ (hliOf s h).tags) :
    acceptRequest h r s = updHli s h (fun x => { x with
      laneA := x.laneA ++ [r]
      tags := x.tags ++ [r.tag]
      stalled := x.stalled || x.laneA.length = 11
      outbound := x.outbound ++ (if x.laneA.length = 11 ∧ x.stalled = false then [.stall] else []) }) := by
  rw [acceptRequest, stallCheck_eq (by simpa using u) (by simpa [isFenced] using f), updHli_updHli]
  exact updHli_congr (by simp [insertNew_of_not_mem new])

/-- A request accepted: its tag is new, and lane A has room (R11). -/
theorem checkRequest_accepted {r : Request} (new : r.tag ∉ (hliOf s h).tags) (room : (hliOf s h).laneA.length < 16) :
    checkRequest h r s = acceptRequest h r s := by
  rw [checkRequest, if_neg new, if_neg (by omega)]

/-- Settles O9: R9 hands the request to its port's state, and R11 judges it by its tag and the room in lane A. -/
theorem requestArrivals : Obligations.RequestArrivals := by
  intro c h r s arrives o line
  rw [exec_arrivingRequest arrives, arriveRequest_eq]
  have named : lineNamed r = line := lineNamed_eq r
  refine ⟨fun off => ?_, fun f => ?_, fun a => ?_⟩
  · rw [arrivalByPort_offline o off, place_eq_sent _ o.1 (offline_not_isFenced off)]
  · rw [arrivalByPort_fenced f]
  · have f := isAdmitted_not_isFenced a
    rw [arrivalByPort_admitted o a, ← named]
    refine ⟨fun dup => ?_, fun new full => ?_, fun new room => ?_⟩
    · rw [checkRequest_dupTag o.1 f dup]
    · rw [checkRequest_overrun o.1 f new full]
    · rw [checkRequest_accepted new room, acceptRequest_eq o.1 f new]

/-! ### Returns (R12) -/

/-- A WRITEBACK and a RELEASE arrive as the return of their line. -/
theorem exec_arrivingReturn {c : Instr} {kind : Byte} {n : LineNo} {m : LaneBMsg}
    (e : arrivingReturn c = some (h, kind, n, m)) (s : State) :
    exec c s = .next (settle (arriveReturn h kind n m s)) := by
  unfold arrivingReturn at e
  split at e <;> cases e <;> rfl

/-- A return of a line whose return is outstanding (R12). -/
theorem checkReturn_dupReturn {kind : Byte} {n : LineNo} {m : LaneBMsg} (u : (hliOf s h).linkUp = true)
    (f : ¬isFenced s h) (dup : n ∈ (hliOf s h).returns) :
    checkReturn h kind n m s = protocolError h kind .dupReturn none (some n) (sent h (.doneRet n .stray) s) := by
  rw [checkReturn, if_pos dup, place_eq_sent _ u f]

/-- A return past the sixteenth (R12). -/
theorem checkReturn_returnLimit {kind : Byte} {n : LineNo} {m : LaneBMsg} (new : n ∉ (hliOf s h).returns)
    (full : 16 ≤ (hliOf s h).returns.length) :
    checkReturn h kind n m s = requestFence h .protocol (protocolError h kind .returnLimit none (some n) s) := by
  rw [checkReturn, if_neg new, if_pos full, severeViolation]

/-- A return accepted (R12). -/
theorem checkReturn_accepted {kind : Byte} {n : LineNo} {m : LaneBMsg} (new : n ∉ (hliOf s h).returns)
    (room : (hliOf s h).returns.length < 16) :
    checkReturn h kind n m s =
      updHli s h (fun x => { x with returns := x.returns ++ [n], laneB := x.laneB ++ [m] }) := by
  rw [checkReturn, if_neg new, if_neg (by omega), queueLaneB, updHli_updHli]

/-- Settles O10: R9 hands the return to its port's state, and R12 judges it by the return list. -/
theorem returnArrivals : Obligations.ReturnArrivals := by
  intro c h kind n m s arrives o
  rw [exec_arrivingReturn arrives, arriveReturn_eq]
  refine ⟨fun off => ?_, fun f => ?_, fun a => ?_⟩
  · rw [arrivalByPort_offline o off]
  · rw [arrivalByPort_fenced f]
  · rw [arrivalByPort_admitted o a]
    refine ⟨fun dup => ?_, fun new full => ?_, fun new room => ?_⟩
    · rw [checkReturn_dupReturn o.1 (isAdmitted_not_isFenced a) dup]
    · rw [checkReturn_returnLimit new full]
    · rw [checkReturn_accepted new room]

/-! ### Answers (R13) -/

/-- An ANSWER matches when its tracker is in use, awaits the host and has no answer of the host queued (R13). -/
theorem answerMatches_iff (t : TrackerNo) : answerMatches s h t = true ↔
    (∃ tr, trackerOf s t = some tr ∧ awaits tr h = true) ∧ t ∉ (hliOf s h).answered := by
  unfold answerMatches
  cases trackerOf s t <;> simp

/-- A PURGE_DONE matches when its set is being purged and awaits the host, which has none queued (R13). -/
theorem purgeDoneMatches_iff (k : SetNo) : purgeDoneMatches s h k = true ↔
    s.integ.phase = .purging ∧ s.integ.set = k ∧ h ∈ s.integ.awaited ∧ (hliOf s h).purgeAnswer = false := by
  simp [purgeDoneMatches, and_assoc]

theorem checkAnswer_eq (t : TrackerNo) (n : LineNo) (m : LaneBMsg) :
    checkAnswer h t n m s = if answerMatches s h t = true
      then updHli s h (fun x => { x with answered := x.answered ++ [t], laneB := x.laneB ++ [m] })
      else protocolError h 0x12 .unmatchedAnswer none (some n) s := by
  rw [checkAnswer, queueLaneB, updHli_updHli]

theorem checkPurgeDone_eq (k : SetNo) :
    checkPurgeDone h k s = if purgeDoneMatches s h k = true
      then updHli s h (fun x => { x with purgeAnswer := true, laneB := x.laneB ++ [.purgeDone k] })
      else protocolError h 0x13 .unmatchedPurge none none s := by
  rw [checkPurgeDone, queueLaneB, updHli_updHli]

/-- An ANSWER arrives as one to the tracker it names. -/
theorem exec_answer_eq (n : LineNo) (t : TrackerNo) (held : Held) (m p : Bool) (d : LineData) :
    exec (.answer h n t held m p d) s = .next (arriveAnswer h t n (.answer n t held m p d) s) := rfl

/-- A PURGE_DONE arrives as one for the set it names. -/
theorem exec_purgeDoneMessage_eq (k : SetNo) : exec (.purgeDoneMessage h k) s = .next (arrivePurgeDone h k s) := rfl

/-- Settles O11: R9 hands the message to its port's state, and R13 judges whether it matches. -/
theorem answerArrivals : Obligations.AnswerArrivals := by
  refine ⟨fun h n t held m p d s o => ?_, fun h k s o => ?_⟩
  · simpa only [exec_answer_eq, arriveAnswer_eq, checkAnswer_eq, Host.Outcome.next.injEq] using
      arrivalByPort_matched o (answerMatches_iff t)
  · simpa only [exec_purgeDoneMessage_eq, arrivePurgeDone_eq, checkPurgeDone_eq, Host.Outcome.next.injEq] using
      arrivalByPort_matched o (purgeDoneMatches_iff k)

end Sys2Proof.Machine
end

section
/-! PROOFS. The access check: the region of a line in a table (R41, R49), and what a request's kind asks of it (R50). -/

namespace Sys2Proof.Machine

variable {table : Vector Descriptor 16} {line : LineNo} {kind : ReqKind} {h : HostNo} {d : Descriptor}

/-! ### The region of a line -/

/-- The model compares MiB and `Descriptor.Covers` compares lines, 16,384 of them to a MiB (R41). -/
theorem covers_iff : covers d line = true ↔ d.Covers line := by
  simp [covers, Descriptor.Covers, lineMib, Nat.le_div_iff_mul_le, Nat.div_lt_iff_lt_mul, and_assoc]

/-- A line is unmapped exactly when no descriptor covers it (R49). -/
theorem regionOf_eq_none_iff : regionOf table line = none ↔ ∀ d ∈ table.toList, ¬d.Covers line := by
  simp only [regionOf, List.find?_eq_none, covers_iff]

/-- A line's region is a descriptor of the table that covers the line. -/
theorem regionOf_covers (e : regionOf table line = some d) : ∃ i : Fin 16, table[i] = d ∧ d.Covers line := by
  obtain ⟨n, bound, at_n⟩ := Vector.getElem_of_mem (Vector.mem_toList_iff.mp (List.mem_of_find?_eq_some e))
  exact ⟨⟨n, bound⟩, at_n, covers_iff.mp (List.find?_some e :)⟩

/-- A line's region is the only descriptor that covers it, whatever its place in the table. -/
theorem regionOf_eq_some {i : Fin 16} (covered : table[i].Covers line)
    (only : ∀ j : Fin 16, table[j].Covers line → j = i) : regionOf table line = some table[i] := by
  cases found : regionOf table line with
  | none => exact absurd covered (regionOf_eq_none_iff.mp found _ (Vector.mem_toList_iff.mpr (Vector.getElem_mem i.isLt)))
  | some d =>
    obtain ⟨j, rfl, covers⟩ := regionOf_covers found
    rw [only j covers]

/-! ### What a kind asks -/

/-- The two kinds that read need READ, and the others that name a line need WRITE (R50). -/
theorem rightNeeded_eq (named : kind ≠ .fence) :
    rightNeeded kind = if kind = .readShared ∨ kind = .directRead then .read else .write := by
  cases kind
  case fence => exact absurd rfl named
  all_goals rfl

theorem isCoherentReq_iff :
    isCoherentReq kind = true ↔ kind = .readShared ∨ kind = .readOwn ∨ kind = .upgrade := by
  cases kind <;> simp [isCoherentReq]

/-- The codes of the rights rise with the rights (R41). -/
theorem toCode_lt_iff (a b : Right) :
    a.toCode < b.toCode ↔ (a = .noRight ∧ b ≠ .noRight) ∨ (a = .read ∧ b = .write) := by
  cases a <;> cases b <;> decide

/-! ### The check (R50) -/

theorem accessCheck_unmapped (e : regionOf table line = none) :
    accessCheck table h kind line = .error .noRegion := by
  rw [accessCheck, e]

theorem accessCheck_mapped (e : regionOf table line = some d) :
    accessCheck table h kind line =
      if d.rights[h].toCode < (rightNeeded kind).toCode then .error .denied
      else if d.mode = .directOnly ∧ isCoherentReq kind = true then .error .mode
      else .ok d.mode := by
  rw [accessCheck, e]

/-- Settles O46: the one descriptor that covers a line is its region, which is asked for the right and then the mode. -/
theorem accessChecked : Obligations.AccessChecked := by
  intro table h kind line named needs less coherent
  refine ⟨fun uncovered => accessCheck_unmapped (regionOf_eq_none_iff.mpr uncovered), fun d covered only => ?_⟩
  have denied : table[d].rights[h].toCode < (rightNeeded kind).toCode ↔ less table[d].rights[h] needs := by
    rw [rightNeeded_eq named]; exact toCode_lt_iff _ _
  have refused : table[d].mode = .directOnly ∧ isCoherentReq kind = true ↔ table[d].mode = .directOnly ∧ coherent :=
    and_congr_right fun _ => isCoherentReq_iff
  rw [accessCheck_mapped (regionOf_eq_some covered only)]
  refine ⟨fun low => ?_, fun enough direct asks => ?_, fun enough allowed => ?_⟩
  · rw [if_pos (denied.mpr low)]
  · rw [if_neg (mt denied.mp enough), if_pos (refused.mpr ⟨direct, asks⟩)]
  · rw [if_neg (mt denied.mp enough), if_neg (mt refused.mp allowed)]

end Sys2Proof.Machine
end

section
/-! PROOFS. A step keeps the hub sound: every command's own effect keeps the relations of Safety.lean (`Kept`), and at
the event's end no way counts as freed (assumption 45). -/

namespace Sys2Proof.Machine

variable {s t : State}

/-- What a command brings about: the relations of Safety.lean stand and the queue with them (`Kept`), and a state in
which no way counts as freed leads to another. -/
structure EventKept (s t : State) : Prop where
  kept : Kept s t
  freed : s.dir.freed = [] → t.dir.freed = []

/-- An event that settles ends with no way counted as freed. -/
theorem EventKept.settled (a : Kept s t) : EventKept s (settle t) := ⟨.of (kept_settle t) a, fun _ => rfl⟩

/-- An event that does not settle, and notes no way as freed. -/
theorem EventKept.alone (a : Kept s t) (e : t.dir.freed = s.dir.freed) : EventKept s t := ⟨a, e.trans⟩

/-! ### The ways freed across the events that do not settle -/

theorem freed_stallCheck (h : HostNo) (s : State) : (stallCheck h s).dir.freed = s.dir.freed := by
  unfold stallCheck
  split <;> simp

theorem freed_arriveRequest (h : HostNo) (r : Request) (s : State) : (arriveRequest h r s).dir.freed = s.dir.freed := by
  have checked : (checkRequest h r s).dir.freed = s.dir.freed := by
    unfold checkRequest acceptRequest
    split_ifs <;> simp [freed_stallCheck]
  rw [arriveRequest_eq]
  unfold arrivalByPort
  split_ifs <;> simp [checked]

theorem freed_arriveAnswer (h : HostNo) (t : TrackerNo) (n : LineNo) (m : LaneBMsg) (s : State) :
    (arriveAnswer h t n m s).dir.freed = s.dir.freed := by
  rw [arriveAnswer_eq, checkAnswer_eq]
  unfold arrivalByPort
  split_ifs <;> simp

theorem freed_arrivePurgeDone (h : HostNo) (k : SetNo) (s : State) :
    (arrivePurgeDone h k s).dir.freed = s.dir.freed := by
  rw [arrivePurgeDone_eq, checkPurgeDone_eq]
  unfold arrivalByPort
  split_ifs <;> simp

theorem freed_arriveDepart (h : HostNo) (s : State) : (arriveDepart h s).dir.freed = s.dir.freed := by
  have queued : (queueControl h 0x15 .depart s).dir.freed = s.dir.freed := by
    unfold queueControl queueLaneB
    split <;> simp
  unfold arriveDepart
  split
  · rfl
  · split <;> simp_all only [protocolError_dir]

/-- A data byte written notes what its effect notes. -/
theorem freed_writeData {f : WriteEffect} (e : (f s).1.dir.freed = s.dir.freed) :
    (writeData f s).dir.freed = s.dir.freed := by
  unfold writeData
  dsimp only
  split_ifs
  · rfl
  · exact e
  · exact e

theorem freed_readData (a : Bool) (s : State) : (readData a s).dir.freed = s.dir.freed := by
  unfold readData
  split <;> rfl

theorem freed_storeSome {α : Type} (x : Option α) (f : α → State → State)
    (e : ∀ v, (f v s).dir.freed = s.dir.freed) : (storeSome x f s).1.dir.freed = s.dir.freed := by
  cases x with
  | none => rfl
  | some v => exact e v

theorem freed_assemble {w : Nat} (v : BitVec w) (ok : Bool) (d : Mgmt → Mgmt) (f : BitVec w → State → State)
    (e : (f v (updMgmt d s)).dir.freed = s.dir.freed) : (assemble v ok d f s).1.dir.freed = s.dir.freed := by
  cases ok with
  | false => rfl
  | true => exact e

/-- The fields that are held byte by byte and assembled at their highest (R178). -/
theorem freed_heldBytes (i : Nat) (b : Byte) (s : State) :
    (writeLineOperand i b s).1.dir.freed = s.dir.freed ∧ (writeRecallLimit i b s).1.dir.freed = s.dir.freed ∧
      (writeDiagSet i b s).1.dir.freed = s.dir.freed ∧ (writeDiagTag i b s).1.dir.freed = s.dir.freed := by
  unfold writeLineOperand writeRecallLimit writeDiagSet writeDiagTag
  by_cases low : i = 0
  · simp only [if_pos low]; exact ⟨rfl, rfl, rfl, rfl⟩
  · simp only [if_neg low]
    refine ⟨?_, freed_assemble _ _ _ _ rfl, freed_assemble _ _ _ _ rfl, freed_assemble _ _ _ _ rfl⟩
    split
    · rfl
    · exact freed_assemble _ _ _ _ rfl

theorem freed_writePlain (f : Field) (i : Nat) (b : Byte) (s : State) :
    (writePlain f i b s).1.dir.freed = s.dir.freed := by
  obtain ⟨operand, limit, set, tag⟩ := freed_heldBytes i b s
  unfold writePlain
  split
  case h_2 => exact operand
  case h_4 => exact limit
  case h_6 => exact set
  case h_9 => exact tag
  case h_3 | h_5 | h_11 | h_12 => exact freed_storeSome _ _ fun _ => rfl
  case h_8 | h_10 => split <;> rfl
  all_goals rfl

theorem freed_registerWrite (b : Byte) (s : State) : (registerWrite b s).dir.freed = s.dir.freed := by
  unfold registerWrite
  split
  · exact freed_writeData rfl
  · split
    · rfl
    · exact freed_writeData (freed_writePlain ..)

theorem freed_stagedTableWrite (b : Byte) (s : State) : (stagedTableWrite b s).dir.freed = s.dir.freed := by
  unfold stagedTableWrite
  split
  · refine freed_writeData ?_
    unfold writeStaged writeStagedSize
    split
    · rfl
    · split
      case h_2 => rfl
      case h_3 =>
        split
        · rfl
        · exact freed_assemble _ _ _ _ rfl
      all_goals exact freed_storeSome _ _ fun _ => rfl
  · rfl

theorem freed_alertLatchClear (b : Byte) (s : State) : (alertLatchClear b s).dir.freed = s.dir.freed := by
  unfold alertLatchClear
  split
  · exact freed_writeData rfl
  · rfl

theorem freed_alertMaskWrite (b : Byte) (s : State) : (alertMaskWrite b s).dir.freed = s.dir.freed := by
  unfold alertMaskWrite
  split
  · exact freed_writeData rfl
  · rfl

theorem freed_recordClear (b : Byte) (s : State) : (recordClear b s).dir.freed = s.dir.freed := by
  have cleared (f : Field) : (clearRecord f s).dir.freed = s.dir.freed := by
    unfold clearRecord
    split <;> rfl
  unfold recordClear
  split
  · split
    · refine freed_writeData ?_
      unfold taken
      split
      · exact cleared _
      · rfl
    · rfl
  · rfl

theorem freed_lockInterface (e : LockEvent) (s : State) : (lockInterface e s).dir.freed = s.dir.freed := by
  unfold lockInterface
  split
  case h_1 | h_2 => split <;> rfl
  all_goals rfl

theorem freed_loadIndex (i : IndexBytes) (s : State) : (loadIndex i s).dir.freed = s.dir.freed := by
  unfold loadIndex
  split_ifs <;> rfl

/-- A command issued notes what its judging notes. -/
theorem freed_issue (code : Byte) (j : State → Verdict) (e : (j s).state.dir.freed = s.dir.freed) :
    (issue code j s).dir.freed = s.dir.freed := by
  unfold issue
  split
  · refine freed_writeData ?_
    unfold judgeCommand
    split
    · rfl
    · cases v : j s <;> rw [v] at e <;> exact e
  · rfl

theorem freed_judgeRelease (s : State) : (judgeRelease s).state.dir.freed = s.dir.freed := by
  unfold judgeRelease
  split
  · rfl
  · split <;> rfl

theorem freed_judgeMaintEnter (s : State) : (judgeMaintEnter s).state.dir.freed = s.dir.freed := by
  unfold judgeMaintEnter
  split <;> rfl

theorem freed_judgeMaintExit (s : State) : (judgeMaintExit s).state.dir.freed = s.dir.freed := by
  unfold judgeMaintExit
  split <;> rfl

theorem freed_judgePoolClear (s : State) : (judgePoolClear s).state.dir.freed = s.dir.freed := by
  have begun : (beginClear s).dir.freed = s.dir.freed := by
    unfold beginClear freePort
    split_ifs <;> rfl
  unfold judgePoolClear
  split
  · exact begun
  · rfl

theorem freed_poolFault (n : LineNo) (f : LineData) (c : Bool) (s : State) :
    (poolFault n f c s).dir.freed = s.dir.freed := by
  unfold poolFault
  dsimp only
  split_ifs <;> rfl

theorem freed_directoryFault (k : SetNo) (w : WayNo) (f : WayFlips) (s : State) :
    (directoryFault k w f s).dir.freed = s.dir.freed := by
  unfold directoryFault
  dsimp only
  split <;> rfl

theorem freed_endInit (s : State) : (endInit s).dir.freed = s.dir.freed := by
  unfold endInit
  split <;> rfl

/-! ### Every command -/

/-- Every command answers a next state, and its event keeps the hub sound: one case for each row of the table. -/
theorem exec_eventKept (c : Instr) (s : State) : ∃ t, exec c s = .next t ∧ EventKept s t := by
  cases c with
  | powerOnReset m => exact ⟨_, rfl, kept_powerOn m s, fun _ => rfl⟩
  | initEnd => exact ⟨_, rfl, .alone (kept_endInit s) (freed_endInit s)⟩
  | linkUp h => exact ⟨_, rfl, .alone (kept_linkComesUp h s) rfl⟩
  | linkDown h => exact ⟨_, rfl, .settled (kept_linkGoesDown h s)⟩
  | messageDelivery h => exact ⟨_, rfl, .settled (kept_deliver h s)⟩
  | readShared | readOwn | upgrade | directRead | directWrite | atomic | fenceMessage =>
    exact ⟨_, rfl, .alone (kept_arriveRequest ..) (freed_arriveRequest ..)⟩
  | writeback | releaseMessage => exact ⟨_, rfl, .settled (kept_arriveReturn _ _ _ _ _ rfl)⟩
  | answer => exact ⟨_, rfl, .alone (kept_arriveAnswer _ _ _ _ _ rfl) (freed_arriveAnswer ..)⟩
  | purgeDoneMessage => exact ⟨_, rfl, .alone (kept_arrivePurgeDone ..) (freed_arrivePurgeDone ..)⟩
  | join => exact ⟨_, rfl, .settled (kept_arriveJoin ..)⟩
  | depart => exact ⟨_, rfl, .alone (kept_arriveDepart ..) (freed_arriveDepart ..)⟩
  | unknownKind h lane w =>
    change ∃ t, execUnknownKind h lane w s = _ ∧ _
    unfold execUnknownKind
    split
    · exact ⟨_, rfl, .settled (kept_arriveUnknown ..)⟩
    · exact ⟨_, rfl, .alone (.refl s) rfl⟩
  | processJoin => exact ⟨_, rfl, .settled (kept_processJoin ..)⟩
  | processDepart => exact ⟨_, rfl, .settled (kept_processDepart ..)⟩
  | processReturn => exact ⟨_, rfl, .settled (kept_processReturn ..)⟩
  | processAnswer => exact ⟨_, rfl, .settled (kept_processAnswer ..)⟩
  | processPurgeDone => exact ⟨_, rfl, .settled (kept_processPurgeDone ..)⟩
  | dispatch => exact ⟨_, rfl, .settled (kept_dispatchHead s)⟩
  | takeParked => exact ⟨_, rfl, .settled (kept_takeParked s)⟩
  | trackerLookup => exact ⟨_, rfl, .settled (kept_trackerLookup ..)⟩
  | deadlineExpiry => exact ⟨_, rfl, .settled (kept_deadlineExpires ..)⟩
  | purgeDeadlineExpiry => exact ⟨_, rfl, .settled (kept_purgeDeadlineExpires s)⟩
  | poolReadCompletion => exact ⟨_, rfl, .settled (kept_completeRead s)⟩
  | drainCompletion => exact ⟨_, rfl, .settled (kept_drainCompletes s)⟩
  | walkerSetVisit => exact ⟨_, rfl, .settled (kept_visitSet s)⟩
  | interfaceLock => exact ⟨_, rfl, .alone (kept_lockInterface ..) (freed_lockInterface ..)⟩
  | indexLoad => exact ⟨_, rfl, .alone (kept_loadIndex ..) (freed_loadIndex ..)⟩
  | registerWrite => exact ⟨_, rfl, .alone (kept_registerWrite ..) (freed_registerWrite ..)⟩
  | stagedTableWrite => exact ⟨_, rfl, .alone (kept_stagedTableWrite ..) (freed_stagedTableWrite ..)⟩
  | alertLatchClear => exact ⟨_, rfl, .alone (kept_alertLatchClear ..) (freed_alertLatchClear ..)⟩
  | alertMaskWrite => exact ⟨_, rfl, .alone (kept_alertMaskWrite ..) (freed_alertMaskWrite ..)⟩
  | recordClear => exact ⟨_, rfl, .alone (kept_recordClear ..) (freed_recordClear ..)⟩
  | cutover => exact ⟨_, rfl, .settled (kept_issue _ _ s (kept_judgeCutover s))⟩
  | fenceCommand => exact ⟨_, rfl, .settled (kept_issue _ _ s (kept_judgeFence s))⟩
  | releaseCommand =>
    exact ⟨_, rfl, .alone (kept_issue _ _ s (kept_judgeRelease s)) (freed_issue _ _ (freed_judgeRelease s))⟩
  | hubReset => exact ⟨_, rfl, .settled (kept_issue _ _ s (kept_judgeHubReset s))⟩
  | clearLost => exact ⟨_, rfl, .settled (kept_issue _ _ s (kept_judgeClearLost s))⟩
  | diagRead => exact ⟨_, rfl, .settled (kept_issue _ _ s (kept_judgeDiagRead s))⟩
  | diagWrite => exact ⟨_, rfl, .settled (kept_issue _ _ s (kept_judgeDiagWrite s))⟩
  | maintEnter =>
    exact ⟨_, rfl, .alone (kept_issue _ _ s (kept_judgeMaintEnter s)) (freed_issue _ _ (freed_judgeMaintEnter s))⟩
  | maintExit =>
    exact ⟨_, rfl, .alone (kept_issue _ _ s (kept_judgeMaintExit s)) (freed_issue _ _ (freed_judgeMaintExit s))⟩
  | poolClear =>
    exact ⟨_, rfl, .alone (kept_issue _ _ s (kept_judgePoolClear s)) (freed_issue _ _ (freed_judgePoolClear s))⟩
  | poolClearEnd => exact ⟨_, rfl, .settled (kept_endClear s)⟩
  | invalidCommand code =>
    change ∃ t, execInvalidCommand code s = _ ∧ _
    unfold execInvalidCommand
    split
    · exact ⟨_, rfl, .alone (.refl s) rfl⟩
    · exact ⟨_, rfl, .alone (kept_issue _ _ s (.refl s)) (freed_issue _ _ rfl)⟩
  | registerRead => exact ⟨_, rfl, .alone (kept_readData ..) (freed_readData ..)⟩
  | poolStorageFault => exact ⟨_, rfl, .alone (kept_poolFault ..) (freed_poolFault ..)⟩
  | directoryStorageFault => exact ⟨_, rfl, .alone (kept_directoryFault ..) (freed_directoryFault ..)⟩

/-- Settles O2: every command has a next state, and `Kept` keeps the queue. -/
theorem everyCommandCompletes : Obligations.EveryCommandCompletes := fun c s =>
  have ⟨t, next, event⟩ := exec_eventKept c s
  ⟨t, next, event.kept.queue⟩

/-! ### Soundness -/

/-- A sound hub, its effects kept, is sound. -/
theorem Sound.of_kept (a : Sound s) (k : Kept s t) : Sound t where
  alert := k.alert a.alert
  lock := k.lock a.lock
  limit := k.limit a.limit
  lost := k.lost a.lost
  orders := k.orders a.orders
  pool := k.pool a.pool
  buffer := k.buffer a.buffer
  lines := k.lines a.lines
  park := k.park a.park
  links := k.links a.links

/-- A step idles, or is the event of the command taken from the queue. -/
theorem step_eventKept (e : step s = .next t) : ∃ rest, EventKept { s with pending := rest } t := by
  unfold step at e
  split at e
  · next empty =>
    cases e
    exact ⟨s.pending, .alone (.refl s) rfl⟩
  · next c rest _ =>
    obtain ⟨u, next, event⟩ := exec_eventKept c { s with pending := rest }
    rw [next] at e
    cases e
    exact ⟨rest, event⟩

/-- Settles O59: no relation of `Sound` reads the queue, and what is left of a step is one event. -/
theorem stepsKeepSound : Obligations.StepsKeepSound := by
  intro s t sound e
  obtain ⟨rest, event⟩ := step_eventKept e
  have taken : Sound { s with pending := rest } := { sound with }
  exact ⟨taken.of_kept event.kept, event.freed⟩

/-- Settles O60: power-on reset is an event that keeps every relation, whatever stood before; the reset values give
them outright. -/
theorem soundAtReset : Obligations.SoundAtReset := by
  refine ⟨?_, rfl⟩
  exact {
    alert := by unfold alertFollows; decide
    lock := rfl
    limit := by unfold limitLegal; decide
    lost := lostWays_reset.symm
    orders := ordersWhole_reset rfl
    pool := by decide
    buffer := ⟨Nat.zero_le _, List.nodup_nil⟩
    lines := linesUnique_reset rfl
    park := Nat.zero_le _
    links := fun h => by
      have reset : hliOf State.reset h = Hli.reset := Vector.getElem_replicate _
      rw [reset]
      exact bounded_empty rfl rfl rfl rfl }

end Sys2Proof.Machine
end

section
/-! PROOFS. The sequence of commands and what an event makes due; power-on reset and the end of INIT; the faults of the
pool's and the directory's storage, and what parity catches of them. -/

namespace Sys2Proof.Machine

variable {s : State}

/-! ### The sequence -/

theorem firstDue_eq (s : State) (due : List (State → Option State)) :
    firstDue s due = due.findSome? (fun f => f s) := by
  induction due with
  | nil => rfl
  | cons f rest ih =>
    rw [firstDue, List.findSome?_cons, ih]
    cases f s <;> rfl

theorem settleWithin_succ_due {n : Nat} {s t : State} (e : nextDue s = some t) :
    settleWithin (n + 1) s = settleWithin n t := by
  rw [settleWithin, e]

theorem step_cons {c : Instr} {rest : List Instr} (e : s.pending = c :: rest) :
    step s = exec c { s with pending := rest } := by
  rw [step, e]

theorem step_nil (e : s.pending = []) : step s = .next s := by
  rw [step, e]

/-- What is due in each phase of a hub reset is the first answer of its list. -/
theorem nextDue_eq (s : State) : nextDue s = match s.resetPhase with
    | .noReset => dueInService.findSome? (fun f => f s)
    | .drain => dueInDrain.findSome? (fun f => f s)
    | .links => dueInLinks.findSome? (fun f => f s) := by
  unfold nextDue
  cases s.resetPhase <;> exact firstDue_eq ..

/-- Settles O1: the step by the queue, settling by its recursion, and what is due by the phase. -/
theorem stepRunsFrontCommand : Obligations.StepRunsFrontCommand := by
  refine ⟨fun _ _ _ => step_cons, fun _ => step_nil, fun _ => ⟨rfl, rfl⟩, fun n _ => settleWithin_of_settled n,
    fun _ _ _ => settleWithin_succ_due, ?_⟩
  intro s first
  refine ⟨fun phase => ?_, fun phase => ?_, fun phase => ?_⟩
  all_goals rw [nextDue_eq, phase]; rfl

/-! ### Start-up -/

/-- A pool with no cell and no condition listed reads 0 and GOOD (R188). -/
theorem pool_of_empty {m : Memory} (cells : m.pool = []) (conds : m.conds = []) (n : LineNo) :
    poolLine m n = 0 ∧ condOf m n = ⟨false, none⟩ := by
  constructor
  · have byte (a : Nat) : poolByte m a = 0 := by rw [poolByte, cells]; rfl
    have zeros : (fun i => poolByte m (64 * n.toNat + i)) = lineByte 0 := funext fun i => by simp [byte, lineByte]
    rw [poolLine, zeros, ofBytes_lineBytes]
  · unfold condOf
    rw [conds]
    rfl

/-- Settles O3: the reset state, block by block; the vectors read the one value they repeat. -/
theorem resetValues : Obligations.ResetValues := by
  have set (k : SetNo) : setOf State.reset k = DirSet.reset := setOf_reset rfl k
  refine ⟨rfl, rfl, rfl, rfl, fun h => Vector.getElem_replicate _, fun h => Vector.getElem_replicate _,
    fun d => ⟨Vector.getElem_replicate _, rfl⟩, rfl, rfl, rfl, rfl, fun k w => ?_, fun k => ?_, rfl, rfl, rfl,
    fun t => Vector.getElem_replicate _, rfl, rfl, rfl, rfl, rfl, fun h => Vector.getElem_replicate _, rfl, rfl, rfl,
    rfl, pool_of_empty rfl rfl, rfl, rfl, fun d => Vector.getElem_replicate _, rfl⟩
  · rw [wayOf, set]
    exact Vector.getElem_replicate _
  · rw [set]
    rfl

/-- Settles O4: both events as their definitions give them; INIT_END by the hub state. -/
theorem startUpResults : Obligations.StartUpResults := by
  refine ⟨fun _ _ => rfl, fun s => ⟨fun starting => ?_, fun running => ?_⟩⟩
  · exact congrArg Host.Outcome.next (if_pos starting)
  · exact congrArg Host.Outcome.next (if_neg running)

/-! ### A fault in the pool's storage (R132) -/

/-- A line that was undisturbed bears the fault; every other is left in its condition. -/
theorem condOf_disturbLine {n : LineNo} (good : condOf s.mem n = ⟨false, none⟩) (flips : LineData) (ok : Bool)
    (m : LineNo) : condOf (disturbLine n flips ok s).mem m =
      if m = n then ⟨false, some ⟨flips, ok⟩⟩ else condOf s.mem m := by
  unfold disturbLine
  split
  · next e =>
    rw [e, condOf_eq, condIn_putCond_same, good]
    simp [addFault]
  · next e => rw [condOf_eq, condIn_putCond_ne _ _ e, condOf_eq]

/-- Settles O5: the line's condition is the one thing that changes, and what a read finds follows from it. -/
theorem poolStorageFaultResult : Obligations.PoolStorageFaultResult := by
  intro n flips ok s port good
  refine ⟨disturbLine n flips ok s, ?_, fun d => ?_, fun m d other => ?_, fun m => rfl, rfl⟩
  · exact congrArg Host.Outcome.next (if_neg fun h => port h.1)
  · have struck := condOf_disturbLine good flips ok n
    rw [if_pos rfl] at struck
    unfold judgeLine
    rw [struck]
    rfl
  · have spared := condOf_disturbLine good flips ok m
    rw [if_neg other] at spared
    exact judgeLine_congr (by rfl) spared d

/-! ### A fault in the directory's storage, and parity (R58, R59) -/

/-- The parity of a sum without carry is the sum of the parities. -/
theorem oddOnes_xor {w : Nat} (a b : BitVec w) : oddOnes (a ^^^ b) = (oddOnes a ^^ oddOnes b) := by
  have fold (l : List Nat) (x y : Bool) :
      l.foldl (fun acc i => acc ^^ (a ^^^ b).getLsbD i) (x ^^ y) =
        (l.foldl (fun acc i => acc ^^ a.getLsbD i) x ^^ l.foldl (fun acc i => acc ^^ b.getLsbD i) y) := by
    induction l generalizing x y with
    | nil => rfl
    | cons i l ih =>
      simp only [List.foldl_cons, ← ih, BitVec.getLsbD_xor]
      rw [Bool.xor_assoc, Bool.xor_assoc, Bool.xor_left_comm y]
  exact fold _ false false

/-- One tag bit flipped turns the tag's parity. -/
theorem tagParityOf_flip (tag : DirTag) (i : Fin 11) : tagParityOf (tag ^^^ (1#11 <<< i.val)) = !tagParityOf tag := by
  have odd : ∀ i : Fin 11, oddOnes (1#11 <<< i.val) = true := by decide
  simp [tagParityOf, oddOnes_xor, odd i]

/-- One holder flipped turns the parity of code and holders. -/
theorem stateParityOf_flip (code : BitVec 3) (holders : HostSet) (h : HostNo) :
    stateParityOf code (holders ^^^ oneHost h) = !stateParityOf code holders := by
  have odd : ∀ h : HostNo, oddOnes (0#3 ++ oneHost h) = true := by decide
  have split : code ++ (holders ^^^ oneHost h) = (code ++ holders) ^^^ (0#3 ++ oneHost h) := by
    rw [BitVec.xor_append]
    simp
  simp [stateParityOf, split, oddOnes_xor, odd h]

/-- A way that reads good has a code of 2, 3 or 4 and both parities right (R59). -/
theorem checkWay_good_iff {x : Way} : checkWay x = .good ↔
    (1 < x.code.toNat ∧ x.code.toNat < 5) ∧ x.tagParity = tagParityOf x.tag ∧
      x.stateParity = stateParityOf x.code x.holders := by
  unfold checkWay
  split_ifs with free tag state
  · simp; omega
  · simp [tag]
  · simp only [false_iff]
    rintro ⟨range, _, parity⟩
    rcases state with code | wrong
    · omega
    · exact wrong parity
  · rw [not_or] at state
    simp only [ne_eq, not_not] at tag state
    simp only [true_iff]
    exact ⟨by omega, tag, state.2⟩

/-- A flipped tag bit of a way that read good is caught. -/
theorem checkWay_flip_tag {x : Way} (good : checkWay x = .good) (i : Fin 11) :
    checkWay { x with tag := x.tag ^^^ (1#11 <<< i.val) } = .tagError := by
  obtain ⟨⟨valid, _⟩, tag, _⟩ := checkWay_good_iff.mp good
  unfold checkWay
  rw [if_neg (by simpa using valid), if_pos]
  simp [tagParityOf_flip, tag]

/-- A flipped holder of a way that read good is caught. -/
theorem checkWay_flip_holder {x : Way} (good : checkWay x = .good) (h : HostNo) :
    checkWay { x with holders := x.holders ^^^ oneHost h } = .stateError := by
  obtain ⟨⟨valid, _⟩, tag, state⟩ := checkWay_good_iff.mp good
  unfold checkWay
  rw [if_neg (by simpa using valid), if_neg (by simp [tag]), if_pos]
  simp [stateParityOf_flip, state]

/-- The event is one after which a read finds a parity error; other flips are none (assumption 16). -/
theorem directoryFault_eq (k : SetNo) (w : WayNo) (f : WayFlips) (s : State) :
    directoryFault k w f s =
      if checkWay (disturbWay f (wayOf s k w)) = .tagError ∨ checkWay (disturbWay f (wayOf s k w)) = .stateError
      then putWay k w (disturbWay f (wayOf s k w)) s else s := by
  unfold directoryFault
  dsimp only
  split
  · next e => rw [if_pos (.inl e)]
  · next e => rw [if_pos (.inr e)]
  · next tag state => rw [if_neg (not_or.mpr ⟨tag, state⟩)]

/-- A way written leaves every touch order. -/
theorem order_putWay (k : SetNo) (w : WayNo) (v : Way) (s : State) (j : SetNo) :
    (setOf (putWay k w v s) j).order = (setOf s j).order := by
  change (setOf (putSet s k _) j).order = _
  rw [setOf_putSet]
  split
  · next e => rw [e]
  · rfl

/-- Settles O6: the one way is written as disturbed, and a flipped bit turns a parity. -/
theorem directoryStorageFaultResult : Obligations.DirectoryStorageFaultResult := by
  refine ⟨?_, fun x good => ⟨checkWay_flip_tag good, checkWay_flip_holder good⟩⟩
  intro k w tag code holders tp sp s x y
  have event : exec (.directoryStorageFault k w tag code holders tp sp) s =
      .next (if checkWay y = .tagError ∨ checkWay y = .stateError then putWay k w y s else s) :=
    congrArg Host.Outcome.next (directoryFault_eq k w ⟨tag, code, holders, tp, sp⟩ s)
  rw [event]
  split
  · refine ⟨_, rfl, by simp, fun j v other => ?_, order_putWay k w y s, rfl, rfl, rfl, rfl⟩
    rw [wayOf_putWay, if_neg]
    rintro ⟨rfl, rfl⟩
    exact other rfl
  · rfl

end Sys2Proof.Machine
end

section
/-! PROOFS. The host links: what a message placed does, link-up, link-down and delivery, the control messages and those
of unknown kind at their arrival; what an error recorded does, and the closing of a set. -/

namespace Sys2Proof.Machine

variable {s : State} {h : HostNo}

/-! ### Which messages are placed (R1, R3) -/

/-- A link that is down takes no message (R1). -/
theorem place_eq_self_of_down {m : HubMsg} (down : (hliOf s h).linkUp = false) : place h m s = s := by
  rw [place, if_pos down]

/-- A FENCING or FENCED port's queue takes no message but the two excepted (R3). -/
theorem place_eq_self_of_fenced {m : HubMsg} (up : (hliOf s h).linkUp = true) (f : isFenced s h)
    (stopped : passesFence m = false) : place h m s = s := by
  rw [place, if_neg (by simp [up]), if_pos ⟨f, stopped⟩]

/-- What is not discarded is placed at the tail. -/
theorem place_eq_sent_of_passes {m : HubMsg} (up : (hliOf s h).linkUp = true)
    (passes : ¬isFenced s h ∨ passesFence m = true) : place h m s = sent h m s := by
  rw [place, if_neg (by simp [up]), if_neg, sent]
  rintro ⟨f, stopped⟩
  rcases passes with unfenced | passed
  · exact unfenced f
  · simp [passed] at stopped

/-- Settles O16: the two ways in which a message is discarded, and the placing of any other. -/
theorem placingRule : Obligations.PlacingRule :=
  fun _ _ _ => ⟨place_eq_self_of_down, place_eq_self_of_fenced, place_eq_sent_of_passes⟩

/-! ### The link (R1, R3, R32) -/

/-- What a link-down does to the interface, whatever the port's state. -/
def linkDropped (x : Hli) : Hli := { x with linkUp := false, linkFell := x.intakeStopped, outbound := [] }

theorem inReset_eq_true (phase : s.resetPhase ≠ .noReset) : inReset s = true := by simpa [inReset] using phase

theorem inReset_eq_false (phase : s.resetPhase = .noReset) : inReset s = false := by simpa [inReset] using phase

/-- A fence asked for in service of an admitted port is started (R33). -/
theorem requestFence_admitted (reason : FenceReason) (phase : s.resetPhase = .noReset) (a : isAdmitted s h = true) :
    requestFence h reason s = startFence h reason s := by
  rw [requestFence, inReset_eq_false phase, if_neg (by simp), if_pos a]

/-- During a hub reset no fence asked for is started (R182). -/
theorem requestFence_inReset (reason : FenceReason) (phase : s.resetPhase ≠ .noReset) :
    requestFence h reason s = s := by
  rw [requestFence, if_pos (inReset_eq_true phase)]

@[simp] theorem isAdmitted_updHli (s : State) (h p : HostNo) (f : Hli → Hli) :
    isAdmitted (updHli s h f) p = isAdmitted s p := rfl

theorem linkGoesDown_offline (up : (hliOf s h).linkUp = true) (off : portState s h = .offline) :
    linkGoesDown h s = updHli s h (fun x => { linkDropped x with laneB := [], controlPending := false }) := by
  rw [linkGoesDown, if_neg (by simp [up]), off]
  exact updHli_updHli ..

theorem linkGoesDown_admitted (up : (hliOf s h).linkUp = true) (a : isAdmitted s h = true) :
    linkGoesDown h s = requestFence h .linkDown (updHli s h linkDropped) := by
  rw [linkGoesDown, if_neg (by simp [up])]
  rcases isAdmitted_iff.mp a with e | e <;> rw [e] <;> rfl

theorem linkGoesDown_fenced (up : (hliOf s h).linkUp = true) (f : isFenced s h) :
    linkGoesDown h s = updHli s h linkDropped := by
  rw [linkGoesDown, if_neg (by simp [up])]
  rcases f with e | e <;> rw [e] <;> rfl

/-- LINK_DOWN is what its port's state makes of it, settled. -/
theorem exec_linkDown_eq {t : State} (e : linkGoesDown h s = t) : exec (.linkDown h) s = .next (settle t) :=
  congrArg (fun x => Host.Outcome.next (settle x)) e

/-- Settles O7: the link-down by the port's state, and by the hub reset for an admitted port. -/
theorem linkDownResult : Obligations.LinkDownResult := by
  intro h s up down
  refine ⟨fun off => ?_, fun a service => ?_, fun a phase => ?_, fun f => ?_⟩
  · exact exec_linkDown_eq (linkGoesDown_offline up off)
  · exact exec_linkDown_eq ((linkGoesDown_admitted up a).trans (requestFence_admitted _ service a))
  · exact exec_linkDown_eq ((linkGoesDown_admitted up a).trans (requestFence_inReset _ phase))
  · exact exec_linkDown_eq (linkGoesDown_fenced up f)

/-- An update of one interface is nothing else. -/
theorem updHli_restored (s : State) (h : HostNo) (f : Hli → Hli) : { updHli s h f with hli := s.hli } = s := rfl

/-- Settles O8: LINK_UP and MESSAGE_DELIVERY as they change the one interface. -/
theorem linkUpAndDelivery : Obligations.LinkUpAndDelivery := by
  refine fun h s => ⟨⟨linkComesUp h s, rfl, ?_, fun p other => ?_, updHli_restored ..⟩, fun m rest up queue => ?_⟩
  · simp [linkComesUp]
  · exact hliOf_updHli_ne s _ other.symm
  · change Host.Outcome.next (settle (deliver h s)) = _
    rw [deliver, if_pos up, updHli_congr (g := fun x => { x with outbound := rest }) (by simp [queue])]

/-! ### Control messages and unknown kinds (R5, R9, R10, R14) -/

/-- A control message is queued while none is pending, and is else a repeat (R14). -/
theorem queueControl_eq (kind : Byte) (m : LaneBMsg) : queueControl h kind m s =
    if (hliOf s h).controlPending = true then protocolError h kind .controlRepeat none none s
    else updHli s h (fun x => { x with controlPending := true, laneB := x.laneB ++ [m] }) := by
  rw [queueControl, queueLaneB, updHli_updHli]

/-- A message that a closed link brings is discarded (R1, R23). -/
theorem takesMessages_of_closed (closed : ¬linkOpen s h) : takesMessages s h = false := by
  rw [Bool.eq_false_iff]
  intro taken
  simp only [takesMessages, Bool.and_eq_true, Bool.not_eq_true'] at taken
  exact closed taken

theorem arrivalByPort_closed {refused checked : State} (closed : ¬linkOpen s h) :
    arrivalByPort h refused checked s = s := by
  rw [arrivalByPort, if_pos (takesMessages_of_closed closed)]

theorem arriveUnknown_eq (f : HeaderFields) : arriveUnknown h f s =
    arrivalByPort h (protocolError h f.kind .unknownKind (carriedTag f) (carriedLine f) s)
      (severeViolation h f.kind .unknownKind (carriedTag f) (carriedLine f) s) s := by
  unfold arriveUnknown arrivalByPort isAdmitted
  cases portState s h <;> rfl

/-- A JOIN at its arrival, by port state. -/
theorem arriveJoin_eq (o : linkOpen s h) (level : BitVec 4) : arriveJoin h level s = match portState s h with
    | .offline => queueControl h 0x14 (.join level) s
    | .online => severeViolation h 0x14 .joinWhileAdmitted none none s
    | .departing => severeViolation h 0x14 .joinWhileAdmitted none none s
    | .fencing => place h (.refuseJoin .fenced) s
    | .fenced => place h (.refuseJoin .fenced) s := by
  rw [arriveJoin, if_neg (by simp [linkOpen_takesMessages o])] <;> cases portState s h <;> rfl

/-- A DEPART at its arrival, by port state. -/
theorem arriveDepart_eq (o : linkOpen s h) : arriveDepart h s = match portState s h with
    | .offline => protocolError h 0x15 .notAdmitted none none s
    | .online => queueControl h 0x15 .depart s
    | .departing => protocolError h 0x15 .controlRepeat none none s
    | .fencing => s
    | .fenced => s := by
  rw [arriveDepart, if_neg (by simp [linkOpen_takesMessages o])] <;> cases portState s h <;> rfl

theorem exec_join_eq {t : State} {level : BitVec 4} (e : arriveJoin h level s = t) :
    exec (.join h level) s = .next (settle t) :=
  congrArg (fun x => Host.Outcome.next (settle x)) e

theorem exec_depart_eq {t : State} (e : arriveDepart h s = t) : exec (.depart h) s = .next t :=
  congrArg Host.Outcome.next e

/-- A message of unknown kind is an event of its row where its lane does not allow its kind (R5). -/
theorem exec_unknownKind_eq {lane : Lane} {w : Header} (unknown : isUnknownKind lane (unpackHeader w) = true) :
    exec (.unknownKind h lane w) s = .next (settle (arriveUnknown h (unpackHeader w) s)) := by
  change execUnknownKind h lane w s = _
  rw [execUnknownKind, if_pos unknown]

/-- Settles O12: JOIN and DEPART by the port's state and, where they are queued, by the control-pending mark. -/
theorem controlArrivals : Obligations.ControlArrivals := by
  intro h level s o
  refine ⟨fun off clear => ?_, fun off pending => ?_, fun a => ?_, fun f => ?_, fun on clear => ?_,
    fun on pending => ?_, fun leaving => ?_, fun off => ?_, fun f => ?_⟩
  · exact exec_join_eq (by rw [arriveJoin_eq o, off]; simp [queueControl_eq, clear])
  · exact exec_join_eq (by rw [arriveJoin_eq o, off]; simp [queueControl_eq, pending])
  · refine exec_join_eq ?_
    rw [arriveJoin_eq o]
    rcases isAdmitted_iff.mp a with e | e <;> rw [e] <;> rfl
  · have refused : place h (.refuseJoin .fenced) s = sent h (.refuseJoin .fenced) s :=
      place_eq_sent_of_passes o.1 (.inr rfl)
    refine exec_join_eq ?_
    rw [arriveJoin_eq o]
    rcases f with e | e <;> rw [e] <;> exact refused
  · exact exec_depart_eq (by rw [arriveDepart_eq o, on]; simp [queueControl_eq, clear])
  · exact exec_depart_eq (by rw [arriveDepart_eq o, on]; simp [queueControl_eq, pending])
  · exact exec_depart_eq (by rw [arriveDepart_eq o, leaving])
  · exact exec_depart_eq (by rw [arriveDepart_eq o, off])
  · refine exec_depart_eq ?_
    rw [arriveDepart_eq o]
    rcases f with e | e <;> rw [e]

/-- Settles O13: R9 hands the message to its port's state. -/
theorem unknownKindArrivals : Obligations.UnknownKindArrivals := by
  intro h lane w s o unknown f recorded
  rw [exec_unknownKind_eq unknown, arriveUnknown_eq]
  refine ⟨fun off => ?_, fun a => ?_, fun fenced => ?_⟩
  · rw [arrivalByPort_offline o off]
  · rw [arrivalByPort_admitted o a]
    rfl
  · rw [arrivalByPort_fenced fenced]

/-- Settles O14: each arrival discards what a closed link brings; the four that settle then settle. -/
theorem closedLinkBringsNothing : Obligations.ClosedLinkBringsNothing := by
  intro h s closed
  have stopped := takesMessages_of_closed closed
  refine ⟨fun c r arrives => ?_, fun c kind n m arrives => ?_, fun n t held m p d => ?_, fun k => ?_, fun level => ?_,
    ?_, fun lane w unknown => ?_⟩
  · rw [exec_arrivingRequest arrives, arriveRequest_eq, arrivalByPort_closed closed]
  · rw [exec_arrivingReturn arrives, arriveReturn_eq, arrivalByPort_closed closed]
  · rw [exec_answer_eq, arriveAnswer_eq, arrivalByPort_closed closed]
  · rw [exec_purgeDoneMessage_eq, arrivePurgeDone_eq, arrivalByPort_closed closed]
  · exact exec_join_eq (by rw [arriveJoin, if_pos stopped])
  · exact exec_depart_eq (by rw [arriveDepart, if_pos stopped])
  · rw [exec_unknownKind_eq unknown, arriveUnknown_eq, arrivalByPort_closed closed]

/-! ### Errors recorded, and the closing of a set (R159, R165, R185) -/

/-- The parity errors of a set's ways, in ascending way number. -/
theorem errorsIn_eq (s : State) (k : SetNo) (ways : List WayNo) : errorsIn s k ways = ways.filterMap (fun w =>
    if checkWay (wayOf s k w) = .tagError then some (w, ParityKind.tag)
    else if checkWay (wayOf s k w) = .stateError then some (w, ParityKind.state)
    else none) := by
  unfold errorsIn
  congr 1
  funext w
  cases checkWay (wayOf s k w) <;> rfl

/-- A tag parity error of an open set closes it; any other error is recorded alone (R159). -/
theorem handError_of_closes {k : SetNo} {reader : Reader} {e : WayNo × ParityKind} (tag : e.2 = .tag)
    (openSet : isClosed s k = false) : handError k reader s e = closeSet k (recordParity k e.1 e.2 reader s) := by
  rw [handError, if_pos ⟨tag, openSet⟩]

theorem handError_of_recorded {k : SetNo} {reader : Reader} {e : WayNo × ParityKind}
    (alone : e.2 = .state ∨ isClosed s k = true) : handError k reader s e = recordParity k e.1 e.2 reader s := by
  rw [handError, if_neg]
  rintro ⟨tag, openSet⟩
  rcases alone with state | closed
  · simp [state] at tag
  · change isClosed s k = false at openSet
    simp [closed] at openSet

/-- What a closing of set `k` makes of a tracker of the internal pool: one on a line of the set has no requester
waiting any more (R165). -/
def withoutRequester (k : SetNo) (tr : Tracker) : Tracker :=
  if lineSet tr.line = k then { tr with waitingRequester := none } else tr

/-- Updates of the trackers of a list change those trackers, and nothing beside the tracker table. -/
theorem updTrackers_spec (f : Tracker → Tracker) {l : List TrackerNo} (nd : l.Nodup) (s : State) :
    ∃ table, l.foldl (fun s t => updTracker s t f) s = { s with trk := { s.trk with table := table } } ∧
      ∀ u : TrackerNo, table[u] = if u ∈ l then (trackerOf s u).map f else trackerOf s u := by
  induction l generalizing s with
  | nil => exact ⟨s.trk.table, rfl, fun u => by simp [trackerOf]⟩
  | cons t l ih =>
    obtain ⟨fresh, nd⟩ := List.nodup_cons.mp nd
    obtain ⟨table, folded, reads⟩ := ih nd (updTracker s t f)
    refine ⟨table, ?_, fun u => ?_⟩
    · rw [List.foldl_cons, folded]
      unfold updTracker
      split <;> rfl
    · rw [reads, trackerOf_updTracker]
      by_cases same : t = u
      · subst same
        simp [fresh]
      · have other : ¬u = t := fun e => same e.symm
        simp [same, other]

theorem mem_internalPool (u : TrackerNo) : u ∈ internalPool ↔ 56 ≤ u.val := by
  simp [internalPool, allTrackers]

theorem nodup_internalPool : internalPool.Nodup := List.Nodup.filter _ (List.nodup_finRange 64)

/-- The closing's pass over a list of trackers is an update of each of them. -/
theorem dropRequesters_eq (k : SetNo) (l : List TrackerNo) (s : State) :
    l.foldl (fun s i => match trackerOf s i with
      | some tr => if lineSet tr.line = k then updTracker s i (fun tr => { tr with waitingRequester := none }) else s
      | none => s) s = l.foldl (fun s i => updTracker s i (withoutRequester k)) s := by
  refine List.foldl_ext _ _ _ fun s i _ => ?_
  cases found : trackerOf s i with
  | none => simp [updTracker, found]
  | some tr =>
    dsimp only
    split
    · next e => rw [updTracker_of_some _ found, updTracker_of_some _ found, withoutRequester, if_pos e]
    · next e => rw [updTracker_of_some _ found, withoutRequester, if_neg e, setTracker_same found]

/-- Closing a set: the trackers that then wait for a way in it are released. -/
theorem closeSet_eq {k : SetNo} {s x : State} (e : internalPool.foldl (fun s i => updTracker s i (withoutRequester k))
      { s with integ := { s.integ with purgeList := insertNew k s.integ.purgeList } } = x) :
    closeSet k s = (x.trk.victimWait.filter (fun t => (trackerOf x t).any (fun tr => lineSet tr.line = k))).foldl
      (fun y t => release t y) x := by
  have passed := (dropRequesters_eq k internalPool _).trans e
  unfold closeSet
  generalize internalPool = pool at passed ⊢
  have waiting : (fun t => (trackerOf x t).any (fun tr => lineSet tr.line = k)) =
      fun t => match trackerOf x t with | some tr => decide (lineSet tr.line = k) | none => false := by
    funext t
    cases trackerOf x t <;> rfl
  rw [waiting, ← passed] <;> rfl

/-- Closing a set that is not closed: the release of the trackers that wait for a way in it, from a state in which the
set has joined the purge list and no EVICT tracker on a line of it has a requester (R165). -/
theorem closeSet_spec {k : SetNo} (fresh : k ∉ s.integ.purgeList) : ∃ x,
    closeSet k s = (s.trk.victimWait.filter (fun t => (trackerOf s t).any (fun tr => lineSet tr.line = k))).foldl
      (fun y t => release t y) x ∧
    x.integ = { s.integ with purgeList := s.integ.purgeList ++ [k] } ∧
    (∀ t, trackerOf x t = (trackerOf s t).map (fun tr =>
      if 56 ≤ t.val ∧ lineSet tr.line = k then { tr with waitingRequester := none } else tr)) ∧
    { x with integ := s.integ, trk := { x.trk with table := s.trk.table } } = s := by
  obtain ⟨table, folded, reads⟩ := updTrackers_spec (withoutRequester k) nodup_internalPool
    { s with integ := { s.integ with purgeList := insertNew k s.integ.purgeList } }
  have tracker (t : TrackerNo) : table[t] = (trackerOf s t).map (fun tr =>
      if 56 ≤ t.val ∧ lineSet tr.line = k then { tr with waitingRequester := none } else tr) := by
    rw [reads]
    by_cases internal : 56 ≤ t.val
    · rw [if_pos ((mem_internalPool t).mpr internal)]
      simp only [internal, true_and]
      rfl
    · rw [if_neg (mt (mem_internalPool t).mp internal)]
      simp only [internal, false_and, if_false]
      exact Option.map_id'.symm
  refine ⟨{ s with
    integ := { s.integ with purgeList := insertNew k s.integ.purgeList }
    trk := { s.trk with table := table } }, ?_, by simp [insertNew_of_not_mem fresh], tracker, rfl⟩
  refine (closeSet_eq folded).trans ?_
  refine congrArg (List.foldl _ _) ?_
  refine List.filter_congr fun t _ => ?_
  change (table[t]).any _ = _
  rw [tracker]
  cases trackerOf s t with
  | none => rfl
  | some tr =>
    simp only [Option.map_some, Option.any_some]
    split <;> rfl

/-- Settles O15: the records as their definitions fill them, the errors in way order, and the closing of a set. -/
theorem protocolErrorResult : Obligations.ProtocolErrorResult := by
  refine ⟨fun p kind cause tag line s => ?_, fun k reader s => ?_, ?_, fun k s fresh => closeSet_spec fresh⟩
  · unfold protocolError
    cases s.mgmt.proto <;> rfl
  · rw [handErrors, errorsIn_eq]
  · intro k reader w kind s recorded
    have taken : recordParity k w kind reader s = recorded := by
      unfold recordParity recorded
      cases s.integ.record <;> rfl
    refine ⟨fun alone => ?_, fun tag openSet => ?_⟩
    · rw [handError_of_recorded alone, taken]
    · rw [handError_of_closes tag openSet, taken]

end Sys2Proof.Machine
end

section
/-! PROOFS. The ports: the start of a fence, the judging of a JOIN, a DEPART, and the ends of a departure and of a
forfeit. -/

namespace Sys2Proof.Machine

variable {s : State} {h : HostNo}

/-! ### The start of a fence (R22, R34, R35, R94, R151) -/

/-- The Port Controller's, the alerts', the controller's and the dispatcher's part of a fence of host `h`. -/
def fenceBlocks (h : HostNo) (reason : FenceReason) (s : State) : State :=
  { s with
    ports := s.ports.set h ⟨.fencing, (portOf s h).admission, reason, false⟩
    mgmt := { s.mgmt with
      latch := s.mgmt.latch ||| 0x0005, alertLow := alertLowOf (s.mgmt.latch ||| 0x0005) s.mgmt.mask }
    mem := { s.mem with claims := s.mem.claims.filter (· ≠ .ret h) }
    disp := { s.disp with
      park := s.disp.park.filter (fun p => p.host ≠ h)
      slots := s.disp.slots.set h none
      passedOver := dropHost s.disp.passedOver h } }

/-- Letting a host go, written as one record whether or not the tracker awaits it. -/
theorem letGo_eq (h : HostNo) (tr : Tracker) : letGo h tr =
    { tr with
      awaited := tr.awaited.filter (fun a => a.host ≠ h)
      deadline := if awaits tr h ∧ tr.awaited.filter (fun a => a.host ≠ h) = [] then none else tr.deadline
      ownerLost := tr.ownerLost || (awaits tr h && !tr.scrubbing && tr.stored = .owned h && tr.buffer.isNone) } := by
  unfold letGo
  by_cases a : awaits tr h = true
  · simp [a]
  · have none_left : tr.awaited.filter (fun a => a.host ≠ h) = tr.awaited := by
      simpa [awaits, List.filter_eq_self] using a
    rw [if_neg a, none_left]
    simp [a]

/-- The interfaces after a fence of host `h`, as the statement of the fence gives them. -/
def hliAfterFence (s : State) (h p : HostNo) : Hli :=
  if p = h then { clearHli (hliOf s h) with
    outbound := if (hliOf s h).linkUp then [.notice .youAreFenced h s.region.epoch] else [] }
  else { hliOf s p with
    outbound := (hliOf s p).outbound ++ (if portState s p = .online then
      (if (hliOf s p).linkUp then [.notice .peerFenced h s.region.epoch] else []) else []) }

/-- Whom the dispatcher's part of a fence lets ask again. -/
theorem askAgain_dispatcherDrop {x : State} (dir : x.dir = s.dir) (trk : x.trk = s.trk) :
    (dispatcherDrop h x).trk.askAgain = ((reparkingFor s h).foldl (fun x u => freeTracker u x) s).trk.askAgain := by
  have gone : reparkingFor x h = reparkingFor s h := by simp only [reparkingFor, requestedBy, trackerOf, trk]
  rw [← gone]
  refine congrArg TrackerTable.askAgain (?_ : (dispatcherDrop h x).trk = _)
  unfold dispatcherDrop
  dsimp only
  refine freeTrackers_congr _ ?_ ?_
  · exact dir
  · exact trk

/-- A fence is its blocks' parts, the trackers that wait to re-park freed, the interfaces, the walker's part and then
the trackers and the purge slot letting the host go. -/
theorem startFence_form (h : HostNo) (reason : FenceReason) (s : State) : ∃ table links,
    startFence h reason s = purgeLetGo h (trackersLetGo h (walkerForfeit h
      { afterFree (reparkingFor s h) table ((reparkingFor s h).foldl (fun x u => freeTracker u x) s).trk.askAgain
          (fenceBlocks h reason s) with hli := links })) ∧
    (∀ u : TrackerNo, table[u] = if u ∈ reparkingFor s h then none else trackerOf s u) ∧
    ∀ p : HostNo, links[p] = hliAfterFence s h p := by
  obtain ⟨s4, fence, ports, mgmt, links, mem, rest⟩ := startFence_pieces h reason s
  obtain ⟨table, ask, dropped, reads⟩ := dispatcherDrop_spec h s4
  have asked := congrArg (fun x : State => x.trk.askAgain) dropped
  have dir := congrArg State.dir rest
  have trk : s4.trk = s.trk := (congrArg State.trk rest :)
  rw [askAgain_dispatcherDrop (x := s4) dir trk] at asked
  change _ = ask at asked
  subst asked
  have gone : reparkingFor s4 h = reparkingFor s h := by simp only [reparkingFor, requestedBy, trackerOf, trk]
  rw [gone] at dropped reads
  have told := noticeOnline_hli_eq (s := dispatcherDrop h s4) .peerFenced h (· ≠ h)
  have link := hliOf_noticeOnline (s := dispatcherDrop h s4) .peerFenced h (· ≠ h)
  generalize noticeOnline .peerFenced h (· ≠ h) (dispatcherDrop h s4) = n at fence told link
  have blocks : { s4 with
      hli := n.hli
      disp := { s4.disp with
        park := s4.disp.park.filter (fun p => p.host ≠ h)
        slots := s4.disp.slots.set h none
        passedOver := dropHost s4.disp.passedOver h } } = { fenceBlocks h reason s with hli := n.hli } := by
    unfold fenceBlocks
    rw [← ports, ← mgmt, ← mem]
    cases s4
    cases s
    cases rest
    rfl
  refine ⟨table, n.hli, ?_, fun u => ?_, fun p => ?_⟩
  · rw [fence]
    refine congrArg (fun x => purgeLetGo h (trackersLetGo h (walkerForfeit h x))) ?_
    calc n = { dispatcherDrop h s4 with hli := n.hli } := by rw [← told]
      _ = _ := by rw [dropped]; exact congrArg (afterFree (reparkingFor s h) table _) blocks
  · rw [reads, trackerOf, trackerOf, trk]
  · have kept : hliOf (dispatcherDrop h s4) p = hliOf s4 p := by rw [dropped]; rfl
    have epoch : (dispatcherDrop h s4).region = s.region := by rw [dropped]; exact (congrArg State.region rest :)
    have state : portState (dispatcherDrop h s4) p = if h = p then .fencing else portState s p := by
      rw [dropped]
      change s4.ports[p].state = _
      rw [ports]
      by_cases same : h = p
      · simp [same]
      · have other : ¬h.val = p.val := fun e => same (Fin.ext e)
        simp [same, other, portState, portOf]
    refine (link p).trans ?_
    rw [kept, epoch, state, links, hliAfterFence]
    by_cases same : h = p
    · simp [same]
    · have other : ¬p = h := fun e => same e.symm
      by_cases on : portState s p = .online <;> simp [same, other, on]

/-- The trackers and the purge slot letting a host go change the tracker records and the purge slot alone. -/
theorem letGo_form (h : HostNo) (x : State) : ∃ table : Vector (Option Tracker) 64,
    purgeLetGo h (trackersLetGo h x) = { x with
      trk := { x.trk with table := table }
      integ := { x.integ with
        awaited := x.integ.awaited.filter (· ≠ h)
        deadline := if x.integ.awaited.filter (· ≠ h) = [] then none else x.integ.deadline } } ∧
    ∀ u : TrackerNo, table[u] = (trackerOf x u).map (letGo h) := by
  obtain ⟨table, folded⟩ := letGoFold_table h allTrackers x
  have reads := (trackersLetGo_spec h x).2
  change trackersLetGo h x = _ at folded
  rw [folded] at reads ⊢
  exact ⟨table, rfl, reads⟩

/-- The walker's part of a fence changes the walker and the claims of the internal pool alone. -/
theorem walkerForfeit_form (h : HostNo) (x : State) : ∃ walker claims,
    walkerForfeit h x = { x with walker := walker, trk := { x.trk with claims := claims } } ∧
    (x.walker.current = some (.depart h) →
      walker = { x.walker with
        current := some (.forfeit h), wait := if x.walker.wait = .visit then .visit else .ready } ∧
      claims = x.trk.claims.filter (· ≠ .walker)) ∧
    (x.walker.current ≠ some (.depart h) → claims = x.trk.claims) ∧
    (x.walker.current ≠ some (.depart h) → .depart h ∈ x.walker.jobs →
      walker = { x.walker with jobs := x.walker.jobs.map (fun j => if j = .depart h then .forfeit h else j) }) ∧
    (x.walker.current ≠ some (.depart h) → .depart h ∉ x.walker.jobs →
      walker = { x.walker with jobs := x.walker.jobs ++ [.forfeit h] }) := by
  unfold walkerForfeit
  by_cases running : x.walker.current = some (.depart h)
  · rw [if_pos running]
    refine ⟨_, _, rfl, fun _ => ⟨?_, rfl⟩, fun n => absurd running n, fun n => absurd running n,
      fun n => absurd running n⟩
    cases x.walker.wait <;> simp
  · rw [if_neg running]
    by_cases waiting : Job.depart h ∈ x.walker.jobs
    · rw [if_pos waiting]
      exact ⟨_, _, rfl, fun r => absurd r running, fun _ => rfl, fun _ _ => rfl, fun _ n => absurd waiting n⟩
    · rw [if_neg waiting]
      exact ⟨_, _, rfl, fun r => absurd r running, fun _ => rfl, fun _ w => absurd w waiting, fun _ _ => rfl⟩

theorem mem_reparkingFor {u : TrackerNo} :
    u ∈ reparkingFor s h ↔ u ∈ s.trk.reparkWait ∧ requestedBy s h u = true := by
  simp [reparkingFor, allTrackers]

/-- A walker that trackers freed have brought out of a wait was not on its visit. -/
theorem waitAfter_eq_visit_iff (gone : List TrackerNo) (s : State) :
    waitAfter gone s = .visit ↔ s.walker.wait = .visit := by
  unfold waitAfter
  split
  · next told =>
    obtain ⟨u, _, waits⟩ := List.any_eq_true.mp told
    cases on : trackerOf s u with
    | none => simp [on] at waits
    | some tr =>
      have busy : s.walker.wait = .busy tr.line := by simpa [on] using waits
      simp [busy]
  · rfl

/-- Settles O17: the fence in its four parts, each read off its own form. -/
theorem fenceStart : Obligations.FenceStart := by
  intro h reason s _ t tell gone walker
  obtain ⟨table1, links, fence, reads1, link⟩ := startFence_form h reason s
  obtain ⟨w, claims, forfeit, running, standing, waiting, absent⟩ := walkerForfeit_form h
    { afterFree (reparkingFor s h) table1 ((reparkingFor s h).foldl (fun x u => freeTracker u x) s).trk.askAgain
      (fenceBlocks h reason s) with hli := links }
  rw [forfeit] at fence
  obtain ⟨table, letGone, reads⟩ := letGo_form h
    { afterFree (reparkingFor s h) table1 ((reparkingFor s h).foldl (fun x u => freeTracker u x) s).trk.askAgain
      (fenceBlocks h reason s) with
      hli := links, walker := w, trk := ⟨table1, claims, s.trk.victimWait.filter (· ∉ gone),
        ((reparkingFor s h).foldl (fun x u => freeTracker u x) s).trk.askAgain,
        s.trk.reparkWait.filter (· ∉ gone)⟩ }
  replace fence := fence.trans letGone
  change t = _ at fence
  clear_value t
  subst fence
  refine ⟨?_, fun p other => ?_, ?_, fun p other => ?_, rfl, rfl, fun u => ?_, rfl, rfl, rfl, rfl, fun r => ?_, standing,
    waiting, absent, rfl, rfl⟩
  · simp [portOf, fenceBlocks, afterFree]
  · have apart : ¬h.val = p.val := fun e => other (Fin.ext e.symm)
    simp [portOf, fenceBlocks, afterFree, apart]
  · refine (link h).trans ?_
    rw [hliAfterFence, if_pos rfl]
    rfl
  · refine (link p).trans ?_
    rw [hliAfterFence, if_neg other]
  · refine (reads u).trans ?_
    change (table1[u]).map _ = _
    rw [reads1]
    by_cases freed : u ∈ s.trk.reparkWait ∧ requestedBy s h u = true
    · rw [if_pos (mem_reparkingFor.mpr freed), if_pos freed]
      rfl
    · rw [if_neg (mt mem_reparkingFor.mp freed), if_neg freed]
      exact congrArg (fun f => (trackerOf s u).map f) (funext fun tr => letGo_eq h tr)
  · obtain ⟨walks, dropped⟩ := running r
    refine ⟨walks.trans ?_, dropped.trans ?_⟩
    · exact congrArg (fun x => { walker with current := some (Job.forfeit h), wait := x })
        (if_congr (waitAfter_eq_visit_iff gone s) rfl rfl)
    · change List.filter _ (List.filter _ _) = _
      rw [List.filter_filter]
      exact List.filter_congr fun c _ => (Bool.decide_and ..).symm

/-! ### Admission and departure (R17, R27, R28) -/

/-- The port's new state and PORT_CHANGE (R24). -/
theorem setPortState_form (h : HostNo) (p : PortState) (s : State) : setPortState h p s =
    { s with
      ports := s.ports.set h { portOf s h with state := p, sweepDone := false }
      mgmt := { s.mgmt with
        latch := s.mgmt.latch ||| 0x0001, alertLow := alertLowOf (s.mgmt.latch ||| 0x0001) s.mgmt.mask } } := rfl

@[simp] theorem portOf_setPortState (h q : HostNo) (p : PortState) (s : State) : portOf (setPortState h p s) q =
    if h = q then { portOf s h with state := p, sweepDone := false } else portOf s q := by
  rw [setPortState, portOf_latch, portOf_updPort]

@[simp] theorem hliOf_setPortState (h q : HostNo) (p : PortState) (s : State) :
    hliOf (setPortState h p s) q = hliOf s q := rfl

theorem portState_setPortState_other {p : HostNo} (q : PortState) (other : p ≠ h) :
    portState (setPortState h q s) p = portState s p := by
  simp [portState, portOf_setPortState, other.symm]

/-- A JOIN at the head of an OFFLINE port's lane B is judged with the control message taken off (R17, R27). -/
theorem exec_processJoin_eq {level : BitVec 4} {rest : List LaneBMsg} (queue : (hliOf s h).laneB = .join level :: rest)
    (off : portState s h = .offline) : exec (.processJoin h) s = .next (settle (judgeJoin h level
      (updHli s h (fun x => { x with laneB := rest, controlPending := false })))) := by
  have popped : popControl h s = updHli s h (fun x => { x with laneB := rest, controlPending := false }) :=
    updHli_congr (by simp [queue])
  change Host.Outcome.next (settle (processJoin h s)) = _
  rw [processJoin, queue, ← popped]
  exact congrArg _ (congrArg _ (if_pos off))

/-- A DEPART at the head of an ONLINE port's lane B makes it DEPARTING, and the walker's job follows (R28). -/
theorem exec_processDepart_eq {rest : List LaneBMsg} (queue : (hliOf s h).laneB = .depart :: rest)
    (on : portState s h = .online) : exec (.processDepart h) s = .next (settle
      { setPortState h .departing (updHli s h (fun x => { x with laneB := rest, controlPending := false })) with
        walker := { s.walker with jobs := s.walker.jobs ++ [.depart h] } }) := by
  have popped : popControl h s = updHli s h (fun x => { x with laneB := rest, controlPending := false }) :=
    updHli_congr (by simp [queue])
  change Host.Outcome.next (settle (processDepart h s)) = _
  rw [processDepart, queue, ← popped]
  exact congrArg _ (congrArg _ (if_pos on))

/-- A placed answer to host `h` and the notices to ONLINE ports that follow it, seen by a port that takes no notice of
its own (R3, R8, R26). -/
theorem hliOf_answered (kind : NoticeKind) (wanted : HostNo → Bool) (m : HubMsg) (x : State)
    (unfenced : ¬isFenced x h) (untold : ¬(portState x h = .online ∧ wanted h = true)) :
    hliOf (noticeOnline kind h wanted (place h m x)) h = { hliOf x h with
      outbound := (hliOf x h).outbound ++ if (hliOf x h).linkUp then [m] else [] } := by
  rw [hliOf_noticeOnline, portState_place, if_neg fun told => untold ⟨told.1, told.2.1⟩, hliOf_place]
  by_cases up : (hliOf x h).linkUp = true
  · simp only [isFenced, not_or] at unfenced
    simp [isPlaced, up, unfenced]
  · simp [isPlaced, up]

/-- The other ports see the notice alone. -/
theorem hliOf_noticed {p : HostNo} (kind : NoticeKind) (wanted : HostNo → Bool) (m : HubMsg) (x : State)
    (other : p ≠ h) (picked : wanted p = true) :
    hliOf (noticeOnline kind h wanted (place h m x)) p = { hliOf x p with
      outbound := (hliOf x p).outbound ++ if portState x p = .online then
        (if (hliOf x p).linkUp then [.notice kind h x.region.epoch] else []) else [] } := by
  rw [hliOf_noticeOnline, portState_place, hliOf_place]
  by_cases on : portState x p = .online
  · simp [other.symm, on, picked]
  · simp [other.symm, on]

/-- Settles O18: the order of the judging and, for the admission, what the port and the interfaces hold. -/
theorem joinProcessed : Obligations.JoinProcessed := by
  intro h level rest s queue off s1 tell
  rw [exec_processJoin_eq queue off]
  refine ⟨fun idle => ?_, fun run level => ?_, fun run level barred => ?_, fun run level open_ => ?_⟩
  · rw [judgeJoin, if_pos (by exact idle)]
  · rw [judgeJoin, if_neg (by exact not_not.mpr run), if_pos level]
  · rw [judgeJoin, if_neg (by exact not_not.mpr run), if_neg (not_not.mpr level), if_pos (by exact barred)]
  · rw [judgeJoin, if_neg (by exact not_not.mpr run), if_neg (not_not.mpr level),
      if_neg (by exact (Bool.not_eq_false _).mpr open_)]
    refine ⟨_, rfl, ?_, fun p other => ?_, ?_, fun p other => ?_, ?_, ?_⟩
    · simp [admitHost, portOf_updHli]
    · simp [admitHost, other.symm, portOf_updHli]
    · refine (hliOf_answered _ _ _ _ (by simp [isFenced, portState]) (by simp)).trans ?_
      simp [tell]
    · refine (hliOf_noticed _ _ _ _ other (by simpa using other)).trans ?_
      simp [tell, other.symm, portState_setPortState_other _ other]
    · simp [admitHost, setPortState_form, updHli]
    · apply state_ext <;> simp [admitHost, setPortState_form]

/-- Settles O19: the port, the interface and the walk list as the DEPART leaves them. -/
theorem departProcessed : Obligations.DepartProcessed := by
  intro h rest s queue on
  refine ⟨_, exec_processDepart_eq queue on, ?_, fun p other => ?_, ?_, fun p other => ?_, rfl, rfl, rfl⟩
  · exact (portOf_setPortState ..).trans (if_pos rfl)
  · exact (portOf_setPortState ..).trans (if_neg other.symm)
  · simp [hliOf, setPortState_form, updHli]
  · have apart : ¬h.val = p.val := fun e => other (Fin.ext e.symm)
    simp [hliOf, setPortState_form, updHli, apart]

/-! ### The ends of a departure and of a forfeit (R30, R31, R36) -/

/-- The six conditions of R30. -/
theorem departureReady_iff : departureReady s h = true ↔
    (portOf s h).sweepDone = true ∧
    (∀ u tr, trackerOf s u = some tr → (∀ tag, tr.requester ≠ some (h, tag)) ∧ ∀ a ∈ tr.awaited, a.host ≠ h) ∧
    h ∉ s.integ.awaited ∧ (∀ p ∈ s.disp.park, p.host ≠ h) ∧ slotOf s h = none ∧ (hliOf s h).returns = [] := by
  rw [← noTrackerNames_iff]
  simp [departureReady, and_assoc]

theorem duePort_departing (leaving : portState s h = .departing) :
    duePort h s = if departureReady s h = true then some (endDeparture h s) else none := by
  rw [duePort, leaving]

theorem duePort_fencing (fencing : portState s h = .fencing) :
    duePort h s = if ((portOf s h).sweepDone && noTrackerNames s h) = true then some (setPortState h .fenced s)
      else none := by
  rw [duePort, fencing]

theorem duePort_of_other (leaving : portState s h ≠ .departing) (fencing : portState s h ≠ .fencing) :
    duePort h s = none := by
  unfold duePort
  split
  · next e => exact absurd e leaving
  · next e => exact absurd e fencing
  · rfl

/-- Settles O20: R30's conditions decide the departure's end, R36's the forfeit's. -/
theorem departureAndForfeitEnd : Obligations.DepartureAndForfeitEnd := by
  intro h s noTracker complete tell mgmt
  refine ⟨fun leaving early => ?_, fun leaving done => ?_, fun fencing early => ?_, fun fencing swept unnamed => ?_,
    duePort_of_other⟩
  · rw [duePort_departing leaving, if_neg (mt departureReady_iff.mp early)]
  · have ⟨_, _, _, _, slot, _⟩ := done
    obtain ⟨x, ended, ports, link, links, alerts, disp, frame⟩ := endDeparture_pieces h s slot
    rw [duePort_departing leaving, if_pos (departureReady_iff.mpr done), ended]
    have off : portState x h = .offline := by simp [portState, ports]
    have told : x.region = s.region := (congrArg State.region frame :)
    refine ⟨_, rfl, ?_, fun p other => ?_, ?_, fun p other => ?_, ?_, ?_, ?_⟩
    · rw [portOf_noticeOnline, portOf_place, ports, if_pos rfl]
    · rw [portOf_noticeOnline, portOf_place, ports, if_neg other.symm]
    · rw [hliOf_answered _ _ _ _ (by simp [isFenced, off]) (by simp [off]), link, told]
      by_cases up : (hliOf s h).linkUp = true <;> simp [up, tell]
    · have same : portState x p = portState s p := by simp [portState, ports, other.symm]
      rw [hliOf_noticed _ _ _ _ other rfl, links p other, same, told]
    · rw [noticeOnline_mgmt, place_mgmt, alerts]
    · rw [noticeOnline_disp, place_disp, disp]
    · rw [← frame]
      apply state_ext <;> simp
  · rw [duePort_fencing fencing, if_neg]
    rw [Bool.and_eq_true, noTrackerNames_iff]
    exact early
  · rw [duePort_fencing fencing, if_pos]
    · exact ⟨_, rfl, by simp, fun p other => by simp [other.symm], rfl, rfl⟩
    · rw [Bool.and_eq_true, noTrackerNames_iff]
      exact ⟨swept, unnamed⟩

end Sys2Proof.Machine
end

section
/-! PROOFS. Lane B at its head: which tracker a return meets, a return's judging in an open and in a closed set, the
answers, and the purge slot. -/

namespace Sys2Proof.Machine

variable {s : State} {h : HostNo}

/-! ### The tracker that a return meets (R64, R75, R111, R166) -/

/-- A search of the trackers finds the lowest that answers. -/
theorem find_allTrackers {P : TrackerNo → Bool} {t : TrackerNo} (a : P t = true) (b : ∀ u, u < t → P u = false) :
    allTrackers.find? P = some t := by
  rw [allTrackers, List.find?_eq_some_iff_getElem]
  refine ⟨a, t.val, by simp, by simp, fun j below => ?_⟩
  rw [List.getElem_finRange, b _ below]
  rfl

/-- The lowest tracker on a line is the one found. -/
theorem trackerOn_of_first {t : TrackerNo} {tr : Tracker} {n : LineNo} (on : trackerOf s t = some tr)
    (line : tr.line = n) (first : ∀ u x, u < t → trackerOf s u = some x → x.line ≠ n) : trackerOn s n = some t := by
  refine find_allTrackers (by simp [on, line]) fun u below => ?_
  cases found : trackerOf s u with
  | none => rfl
  | some x => simpa using first u x below found

/-- With no tracker on a line none is found. -/
theorem trackerOn_of_none {n : LineNo} (off : ∀ t tr, trackerOf s t = some tr → tr.line ≠ n) :
    trackerOn s n = none :=
  Option.isNone_iff_eq_none.mp ((trackerOn_isNone_iff s n).mpr off)

theorem metTracker_of_off {n : LineNo} (off : trackerOn s n = none) : metTracker s n = none := by
  rw [metTracker, off]

theorem metTracker_of_on {t : TrackerNo} {tr : Tracker} {n : LineNo} (found : trackerOn s n = some t)
    (on : trackerOf s t = some tr) : metTracker s n = if isMet s t tr = true then some t else none := by
  simp only [metTracker, found, on]

theorem boundWay_eq_none_iff {k : SetNo} {t : TrackerNo} :
    boundWay s k t = none ↔ ∀ w, (wayOf s k w).binding ≠ some t := by
  simp [boundWay, List.find?_eq_none, mem_allWays]

/-- A tracker that a return does not meet: one in SETUP (R64), or one of a closed set that has done with the line (R166). -/
theorem isMet_eq_false_iff {t : TrackerNo} {tr : Tracker} : isMet s t tr = false ↔
    tr.phase = .setup ∨ (isClosed s (lineSet tr.line) = true ∧ tr.awaited = [] ∧
      (∀ w, (wayOf s (lineSet tr.line) w).binding ≠ some t) ∧ t ∉ s.mem.reads ∧ s.mem.port ≠ .read t ∧
      ¬(tr.kind = .atomic ∧ tr.phase = .memWait)) := by
  rw [← boundWay_eq_none_iff]
  simp only [isMet, worksOnContents, readOutstanding, Bool.and_eq_false_iff, Bool.or_eq_false_iff]
  simp
  tauto

/-! ### A return at the head (R17, R111, R182) -/

/-- A return at the head leaves the queue by its rest. -/
theorem popLaneB_eq {m : LaneBMsg} {rest : List LaneBMsg} (queue : (hliOf s h).laneB = m :: rest) :
    popLaneB h s = updHli s h (fun x => { x with laneB := rest }) :=
  updHli_congr (by simp [queue])

theorem headReturn_eq {m : LaneBMsg} {rest : List LaneBMsg} (queue : (hliOf s h).laneB = m :: rest) :
    headReturn s h = returnOf m := by
  simp [headReturn, queue]

/-- Whether a return stays at the head during a hub reset: an absorption (R182). -/
theorem blockedByReset_iff {r : Return} : blockedByReset s h r = true ↔
    s.resetPhase ≠ .noReset ∧ ∃ t tr, metTracker s r.line = some t ∧ trackerOf s t = some tr ∧
      r.isWriteback = true ∧ absorbs tr h = true := by
  simp only [blockedByReset, Bool.and_eq_true, inReset]
  refine and_congr (by simp) ?_
  cases met : metTracker s r.line with
  | none => simp
  | some t => cases on : trackerOf s t <;> simp [on]

theorem mustClaim_iff {r : Return} : mustClaim s r = true ↔
    r.isWriteback = true ∧ r.modified = true ∧ metTracker s r.line = none := by
  simp [mustClaim, and_assoc]

/-- A return at the head of an admitted port's lane B: it stays, claims, or is judged (R111). -/
theorem processReturn_eq {r : Return} (head : headReturn s h = some r) (a : isAdmitted s h = true) :
    processReturn h s = if blockedByReset s h r = true ∨ WbClaim.ret h ∈ s.mem.claims then s
      else if mustClaim s r = true then addClaim (.ret h) s else judgeReturn h r (popLaneB h s) := by
  simp only [processReturn, head, a, processingEvent, Bool.true_eq_false, false_or]

theorem exec_processReturn_eq {t : State} (e : processReturn h s = t) :
    exec (.processReturn h) s = .next (settle t) :=
  congrArg (fun x => Host.Outcome.next (settle x)) e

/-- Settles O21: the tracker met, and then the head's three courses and the granted claim's. -/
theorem returnAtHead : Obligations.ReturnAtHead := by
  refine ⟨fun n s => ⟨fun off => metTracker_of_off (trackerOn_of_none off), fun t tr on line first => ?_⟩, ?_⟩
  · subst line
    rw [metTracker_of_on (trackerOn_of_first on rfl first) on]
    cases met : isMet s t tr with
    | false => rw [if_neg (by simp), if_pos (isMet_eq_false_iff.mp met)]
    | true => rw [if_pos rfl, if_neg (by rw [← isMet_eq_false_iff, met]; simp)]
  · intro h m rest r s queue isReturn a judged waits stays
    have head : headReturn s h = some r := (headReturn_eq queue).trans isReturn
    have judging : judgeReturn h r (popLaneB h s) = judged := by rw [popLaneB_eq queue]
    refine ⟨fun free unclaimed waiting => ?_, fun free unclaimed ready => ?_, fun stands => ?_, ?_⟩
    · refine exec_processReturn_eq ?_
      rw [processReturn_eq head a, if_neg (not_or.mpr ⟨mt blockedByReset_iff.mp free, unclaimed⟩),
        if_pos (mustClaim_iff.mpr waiting), addClaim, insertNew_of_not_mem unclaimed]
    · refine exec_processReturn_eq ?_
      rw [processReturn_eq head a, if_neg (not_or.mpr ⟨mt blockedByReset_iff.mp free, unclaimed⟩),
        if_neg (mt mustClaim_iff.mp ready), judging]
    · refine exec_processReturn_eq ?_
      rw [processReturn_eq head a, if_pos (stands.imp_left blockedByReset_iff.mpr)]
    · rw [← popLaneB_eq (s := { s with mem := { s.mem with claims := s.mem.claims.filter (· ≠ .ret h) } }) queue]
      have head' : headReturn (dropClaim (.ret h) s) h = some r := head
      simp only [grantClaim, head']
      rfl

/-! ### The read of a set and its errors (R70, R116, R159, R163) -/

/-- A read that finds every way good hands nothing over. -/
theorem handErrors_of_good {k : SetNo} (reader : Reader)
    (good : ∀ w, checkWay (wayOf s k w) = .notChecked ∨ checkWay (wayOf s k w) = .good) :
    handErrors k allWays reader s = s := by
  have nothing : errorsIn s k allWays = [] := by
    rw [errorsIn, List.filterMap_eq_nil_iff]
    intro w _
    rcases good w with e | e <;> rw [e]
  rw [handErrors, nothing]
  rfl

/-- In a closed set errors are recorded alone. -/
theorem handErrorFold_of_closed {k : SetNo} (reader : Reader) (l : List (WayNo × ParityKind))
    (closed : isClosed s k = true) :
    ∃ record latch alertLow, l.foldl (handError k reader) s = afterErrors record latch alertLow s := by
  induction l generalizing s with
  | nil => exact ⟨s.integ.record, s.mgmt.latch, s.mgmt.alertLow, rfl⟩
  | cons e l ih =>
    obtain ⟨record, latch, alertLow, folded⟩ := ih (s := recordParity k e.1 e.2 reader s) closed
    refine ⟨record, latch, alertLow, ?_⟩
    rw [List.foldl_cons, handError_of_recorded (.inr closed), folded]
    rfl

theorem handErrors_of_closed {k : SetNo} (ways : List WayNo) (reader : Reader) (closed : isClosed s k = true) :
    ∃ record latch alertLow, handErrors k ways reader s = afterErrors record latch alertLow s :=
  handErrorFold_of_closed reader _ closed

theorem hasTagError_eq_false_iff {k : SetNo} :
    hasTagError s k = false ↔ ∀ w, checkWay (wayOf s k w) ≠ .tagError := by
  simp [hasTagError, mem_allWays]

/-- A read that does not keep an update from being made closes no set. -/
theorem handErrors_of_unblocked {n : LineNo} (free : returnBlocked s n = false) :
    ∃ record latch alertLow, handErrors (lineSet n) allWays .ret s = afterErrors record latch alertLow s := by
  rw [returnBlocked, Bool.or_eq_false_iff] at free
  exact handErrors_of_no_tag (hasTagError_eq_false_iff.mp free.1) _

/-! ### The judging in an open set (R112, R115, R116) -/

/-- A return update that presents a free entry frees its way and reports it. -/
theorem returnUpdate_free (k : SetNo) (w : WayNo) (tag : DirTag) (x : State) :
    returnUpdate k w tag .free x = reportChange k (touchLeast k w (putFree k w x)) := by
  have freed : wayOf (putFree k w x) k w = freeWay (wayOf x k w) := by simp [wayOf_putFree]
  have touched : touchWritten k w (putFree k w x) = touchLeast k w (putFree k w x) := by
    rw [touchWritten, freed]
    exact if_pos rfl
  change (if (wayOf (touchWritten k w (putFree k w x)) k w).code = 0 then
    reportChange k (touchWritten k w (putFree k w x)) else touchWritten k w (putFree k w x)) = _
  rw [wayOf_touchWritten, freed, touched]
  exact if_pos rfl

/-- A return update that takes a holder out: with none left the way is freed, and else it stays VALID (R68). -/
theorem returnUpdate_shared (k : SetNo) (w : WayNo) (tag : DirTag) (holders : HostSet) (x : State) :
    returnUpdate k w tag (.shared holders) x =
      if holders &&& holding x = 0 then reportChange k (touchLeast k w (putFree k w x))
      else touchMost k w (putWay k w ⟨2, tag, holders &&& holding x, none, tagParityOf tag,
        stateParityOf 2 (holders &&& holding x)⟩ x) := by
  have written : writeEntry k w tag (.shared holders) .commit x =
      putWay k w (wayFor (wayOf x k w) tag (maskEntry x (.shared holders))) x := rfl
  by_cases gone : holders &&& holding x = 0
  · have asFree : returnUpdate k w tag (.shared holders) x = returnUpdate k w tag .free x := by
      simp only [returnUpdate, written, maskEntry, if_pos gone]
      rfl
    rw [if_pos gone, asFree, returnUpdate_free]
  · have valid : wayFor (wayOf x k w) tag (maskEntry x (.shared holders)) =
        ⟨2, tag, holders &&& holding x, none, tagParityOf tag, stateParityOf 2 (holders &&& holding x)⟩ := by
      rw [maskEntry, if_neg gone, wayFor, if_neg gone]
    have stays (y : Way) : wayOf (putWay k w y x) k w = y := by simp
    have valid_code : ¬(2 : BitVec 3) = 0 := by decide
    rw [if_neg gone, returnUpdate, written, valid]
    simp only [touchWritten, wayOf_touchMost, stays, if_neg valid_code]

theorem judgeReturn_open {r : Return} (unmet : metTracker s r.line = none) (o : isClosed s (lineSet r.line) = false) :
    judgeReturn h r s = openSetReturn h r s := by
  rw [judgeReturn, unmet]
  simp only [o, Bool.false_eq_true, if_false]

/-- An unblocked return whose line a way matches is judged by that way's entry. -/
theorem openSetReturn_of_match {r : Return} {w : WayNo} {e : Entry} (free : returnBlocked s r.line = false)
    (found : matchingWay s r.line = some w) :
    entryOf (wayOf s (lineSet r.line) w) = e → openSetReturn h r s = match e with
      | .owned o =>
        if r.isWriteback = true ∧ o = h then
          doneReturn h r.line .ok (returnUpdate (lineSet r.line) w (lineTag r.line) .free
            (placeReturn h r (handErrors (lineSet r.line) allWays .ret s)))
        else strayReturn h r (handErrors (lineSet r.line) allWays .ret s)
      | .shared holders =>
        if r.isWriteback = false ∧ hasHost holders h = true then
          doneReturn h r.line .ok (returnUpdate (lineSet r.line) w (lineTag r.line) (.shared (dropHost holders h))
            (handErrors (lineSet r.line) allWays .ret s))
        else strayReturn h r (handErrors (lineSet r.line) allWays .ret s)
      | _ => strayReturn h r (handErrors (lineSet r.line) allWays .ret s) := by
  rintro rfl
  simp only [openSetReturn, free, found, Bool.false_eq_true, if_false] <;>
    cases entryOf (wayOf s (lineSet r.line) w) <;> rfl

/-- Settles O22: the read, its errors in the way, and by the entry found the return's update. -/
theorem openSetReturn_holds : Obligations.OpenSetReturn := by
  intro h r s unmet o k read placed stray
  rw [judgeReturn_open unmet o]
  refine ⟨handErrors_of_good _, fun free missing => ?_, fun w free found => ⟨fun owner entry => ?_,
    fun holders entry => ?_, fun entry => ?_⟩, fun blocked => ?_⟩
  · simp only [openSetReturn, free, missing, Bool.false_eq_true, if_false]
    rfl
  · rw [openSetReturn_of_match free found entry, returnUpdate_free]
    rfl
  · obtain ⟨record, latch, alertLow, handed⟩ := handErrors_of_unblocked free
    have same : holding (handErrors (lineSet r.line) allWays .ret s) = holding s := by rw [handed]; rfl
    refine (openSetReturn_of_match free found entry).trans ?_
    dsimp only
    rw [returnUpdate_shared, same]
    rfl
  · rw [openSetReturn_of_match free found entry]
    rfl
  · simp only [openSetReturn, blocked, if_true]
    rfl

/-! ### A return that meets a tracker (R113, R114, R115, R161) -/

/-- A WRITEBACK is absorbed of an unmarked awaited host: by a scrub into an empty buffer, else of the stored owner. -/
theorem absorbs_iff {tr : Tracker} : absorbs tr h = true ↔
    (∃ a ∈ tr.awaited, a.host = h ∧ a.returned = false) ∧ (tr.scrubbing = true → tr.buffer = none) ∧
      (tr.scrubbing = false → tr.stored = .owned h) := by
  rw [absorbs, Bool.and_eq_true, List.any_eq_true]
  cases tr.scrubbing <;> simp

/-- A RELEASE is taken: by a scrub of an awaited host, else of a holder of the stored entry. -/
theorem takesRelease_iff {tr : Tracker} : takesRelease tr h = true ↔
    (tr.scrubbing = true ∧ ∃ a ∈ tr.awaited, a.host = h) ∨
      (tr.scrubbing = false ∧ ∃ holders, tr.stored = .shared holders ∧ hasHost holders h = true) := by
  cases scrub : tr.scrubbing with
  | true => simp [takesRelease, scrub, awaits]
  | false => cases entry : tr.stored <;> simp [takesRelease, scrub, entry]

theorem judgeReturn_met {r : Return} {t : TrackerNo} {tr : Tracker} (met : metTracker s r.line = some t)
    (on : trackerOf s t = some tr) : judgeReturn h r s =
      if r.isWriteback = true then (if absorbs tr h = true then absorb h r t s else strayReturn h r s)
      else if takesRelease tr h = true then doneReturn h r.line .ok s else strayReturn h r s := by
  simp only [judgeReturn, met, meetTracker, on]

/-- Settles O23: whether the tracker absorbs the WRITEBACK or takes the RELEASE decides. -/
theorem returnMeetsTracker : Obligations.ReturnMeetsTracker := by
  intro h r t tr s met on unmarked takenUp released filled stray
  rw [judgeReturn_met met on]
  refine ⟨fun wb taken => ?_, fun wb untaken => ?_, fun rel taken => ?_, fun rel untaken => ?_⟩
  · rw [if_pos wb, if_pos (absorbs_iff.mpr taken), absorb, updTracker_of_some _ on]
  · rw [if_pos wb, if_neg (mt absorbs_iff.mp untaken)]
    rfl
  · rw [if_neg (by simp [rel]), if_pos (takesRelease_iff.mpr taken)]
  · rw [if_neg (by simp [rel]), if_neg (mt takesRelease_iff.mp untaken)]
    rfl

/-! ### The judging in a closed set (R166) -/

/-- The way that holds a line of a closed set is the first of good tag parity with its tag. -/
theorem taggedWay_of_first {n : LineNo} {w : WayNo}
    (holds : 2 ≤ (wayOf s (lineSet n) w).code.toNat ∧
      (wayOf s (lineSet n) w).tagParity = tagParityOf (wayOf s (lineSet n) w).tag ∧
      (wayOf s (lineSet n) w).tag = lineTag n)
    (first : ∀ v, v < w → ¬(2 ≤ (wayOf s (lineSet n) v).code.toNat ∧
      (wayOf s (lineSet n) v).tagParity = tagParityOf (wayOf s (lineSet n) v).tag ∧
      (wayOf s (lineSet n) v).tag = lineTag n)) : taggedWay s n = some w :=
  find_allWays (decide_eq_true holds) fun v below => decide_eq_false (first v below)

theorem taggedWay_of_none {n : LineNo} (missing : ∀ v, ¬(2 ≤ (wayOf s (lineSet n) v).code.toNat ∧
      (wayOf s (lineSet n) v).tagParity = tagParityOf (wayOf s (lineSet n) v).tag ∧
      (wayOf s (lineSet n) v).tag = lineTag n)) : taggedWay s n = none := by
  rw [taggedWay, List.find?_eq_none]
  intro v _ holds
  exact missing v (of_decide_eq_true holds)

theorem judgeReturn_closed {r : Return} (unmet : metTracker s r.line = none)
    (c : isClosed s (lineSet r.line) = true) : judgeReturn h r s = closedSetReturn h r s := by
  rw [judgeReturn, unmet]
  exact if_pos c

/-- Settles O24: the errors recorded alone, and the first way that holds the line. -/
theorem closedSetReturn_holds : Obligations.ClosedSetReturn := by
  intro h r s unmet c k read placed holds
  rw [judgeReturn_closed unmet c]
  obtain ⟨record, latch, alertLow, handed⟩ := handErrors_of_closed allWays .ret c
  refine ⟨(congrArg (fun x : State => x.integ.purgeList) handed :), (congrArg State.dir handed :), fun missing => ?_,
    fun w held first => ?_⟩
  · simp only [closedSetReturn, taggedWay_of_none missing]
    rfl
  · simp only [closedSetReturn, taggedWay_of_first held first]
    rfl

/-! ### Answers (R17, R81, R98, R99, R161) -/

/-- A tracker that notes whether the host that answers keeps a copy (R98). -/
def noting (h : HostNo) (held : Held) (tr : Tracker) : Tracker :=
  { tr with kept := tr.kept || (held ≠ .notHeld && tr.awaited.any (fun a => a.host = h ∧ a.kind = .share)) }

/-- A tracker that takes the data of an answer (R98). -/
def answered (m p : Bool) (d : LineData) (tr : Tracker) : Tracker := { tr with buffer := some ⟨d, m, p, .answer, none⟩ }

/-- The later change of a tracker just written. -/
theorem updTracker_setTracker (x : State) (t : TrackerNo) (tr : Tracker) (f : Tracker → Tracker) :
    updTracker (setTracker x t (some tr)) t f = setTracker x t (some (f tr)) := by
  rw [updTracker_of_some f ((trackerOf_setTracker ..).trans (if_pos rfl)), setTracker_setTracker]

/-- A record leaves the tracker table to be written. -/
theorem setTracker_protocolError (x : State) (t : TrackerNo) (tr : Option Tracker) (kind : Byte)
    (cause : ProtocolCause) (tag : Option HostTag) (line : Option LineNo) :
    setTracker (protocolError h kind cause tag line x) t tr = protocolError h kind cause tag line (setTracker x t tr) :=
  rfl

section
variable {t : TrackerNo} {tr : Tracker} {n : LineNo} {m p : Bool} {d : LineData}

theorem judgeAnswer_wrong_line {held : Held} (on : trackerOf s t = some tr) (wrong : n ≠ tr.line) :
    judgeAnswer h t tr n held m p d s =
      protocolError h 0x12 .answerLine none (some n) (setTracker s t (some tr)) := by
  rw [setTracker_same on]
  exact if_pos wrong

/-- An answer to a scrub: OWNED fills an empty buffer, and nothing else is taken (R161). -/
theorem judgeAnswer_scrub {held : Held} (on : trackerOf s t = some tr) (right : n = tr.line)
    (scrub : tr.scrubbing = true) : judgeAnswer h t tr n held m p d s =
      if held = .owned then
        (if tr.buffer = none then setTracker s t (some (answered m p d tr))
         else protocolError h 0x12 .answerExtraData none (some n) (setTracker s t (some tr)))
      else setTracker s t (some tr) := by
  rw [setTracker_same on]
  unfold judgeAnswer
  rw [if_neg (not_not.mpr right), if_pos scrub]
  dsimp only
  rw [updTracker_of_some _ on]
  cases held <;> cases tr.buffer <;> rfl

/-- The record of a tracker that does not scrub, once it has noted whether a copy is kept. -/
theorem updTracker_noting {held : Held} (on : trackerOf s t = some tr) :
    updTracker s t (fun x => { x with
      kept := x.kept || (tr.awaited.any (fun a => a.host = h ∧ a.kind = .share) && held ≠ .notHeld) }) =
    setTracker s t (some (noting h held tr)) := by
  rw [updTracker_of_some _ on, noting, Bool.and_comm]

/-- An answer of the stored owner (R98, R99). -/
theorem judgeAnswer_owner {held : Held} (on : trackerOf s t = some tr) (right : n = tr.line)
    (steady : tr.scrubbing = false) (owner : tr.stored = .owned h) : judgeAnswer h t tr n held m p d s =
      let noted := setTracker s t (some (noting h held tr))
      match held with
      | .owned => if tr.buffer.isSome then protocolError h 0x12 .answerExtraData none (some n) noted
        else setTracker s t (some (answered m p d (noting h held tr)))
      | .notHeld => if tr.awaited.any (fun a => a.host = h ∧ a.returned) then noted
        else protocolError h 0x12 .answerNoData none (some n) noted
      | .shared => protocolError h 0x12 .answerNoData none (some n) noted := by
  unfold judgeAnswer
  rw [if_neg (not_not.mpr right), if_neg (by simp [steady])]
  dsimp only
  rw [updTracker_noting on, if_pos owner, updTracker_setTracker]
  cases held <;> rfl

/-- An answer of another host than the stored owner (R98, R99). -/
theorem judgeAnswer_other {held : Held} (on : trackerOf s t = some tr) (right : n = tr.line)
    (steady : tr.scrubbing = false) (other : tr.stored ≠ .owned h) : judgeAnswer h t tr n held m p d s =
      if held = .owned then
        protocolError h 0x12 .answerExtraData none (some n) (setTracker s t (some (noting h held tr)))
      else setTracker s t (some (noting h held tr)) := by
  unfold judgeAnswer
  rw [if_neg (not_not.mpr right), if_neg (by simp [steady])]
  dsimp only
  rw [updTracker_noting on, if_neg other]
  cases held <;> rfl

/-- What the queue's head leaves of the interface and the tracker table when its ANSWER is taken. -/
def answerTaken (s : State) (h : HostNo) (t : TrackerNo) (rest : List LaneBMsg) : State :=
  updHli s h (fun x => { x with laneB := rest, answered := x.answered.filter (· ≠ t) })

theorem processAnswer_eq {held : Held} {rest : List LaneBMsg} (queue : (hliOf s h).laneB = .answer n t held m p d :: rest)
    (on : trackerOf s t = some tr) (awaited : awaits tr h = true) : processAnswer h s =
      updTracker (judgeAnswer h t tr n held m p d (answerTaken s h t rest)) t (removeAwaited h) := by
  rw [processAnswer, queue]
  have on' : trackerOf (answerTaken s h t rest) t = some tr := on
  change (match trackerOf (answerTaken s h t rest) t with | none => _ | some tr => _) = _
  rw [on']
  exact if_pos awaited

/-- An ANSWER that its tracker takes without a record. -/
theorem exec_answer_taken (x : Tracker) {held : Held} {rest : List LaneBMsg}
    (queue : (hliOf s h).laneB = .answer n t held m p d :: rest) (on : trackerOf s t = some tr)
    (awaited : awaits tr h = true)
    (judged : judgeAnswer h t tr n held m p d (answerTaken s h t rest) =
      setTracker (answerTaken s h t rest) t (some x)) : exec (.processAnswer h) s =
      .next (settle (setTracker (answerTaken s h t rest) t (some (removeAwaited h x)))) := by
  change Host.Outcome.next (settle (processAnswer h s)) = _
  rw [processAnswer_eq queue on awaited, judged, updTracker_setTracker]

/-- An ANSWER that is recorded. -/
theorem exec_answer_recorded (x : Tracker) {cause : ProtocolCause} {held : Held} {rest : List LaneBMsg}
    (queue : (hliOf s h).laneB = .answer n t held m p d :: rest) (on : trackerOf s t = some tr)
    (awaited : awaits tr h = true)
    (judged : judgeAnswer h t tr n held m p d (answerTaken s h t rest) =
      protocolError h 0x12 cause none (some n) (setTracker (answerTaken s h t rest) t (some x))) :
    exec (.processAnswer h) s = .next (settle (protocolError h 0x12 cause none (some n)
      (setTracker (answerTaken s h t rest) t (some (removeAwaited h x))))) := by
  change Host.Outcome.next (settle (processAnswer h s)) = _
  rw [processAnswer_eq queue on awaited, judged]
  rw [← setTracker_protocolError, updTracker_setTracker, setTracker_protocolError]

/-- Settles O25: the wrong line, the stored owner, another host and the scrub in turn. -/
theorem answerProcessed : Obligations.AnswerProcessed := by
  intro h n t held m p d rest tr s queue on awaited c s1 left gone noted filled now recorded absorbed
  have on1 : trackerOf (answerTaken s h t rest) t = some tr := on
  refine ⟨fun wrong => ?_, fun steady right owner => ?_, fun steady right other => ?_, fun scrub right => ?_⟩
  · exact exec_answer_recorded tr queue on awaited (judgeAnswer_wrong_line on1 wrong)
  · have judged := judgeAnswer_owner (held := held) (m := m) (p := p) (d := d) on1 right steady owner
    refine ⟨?_, ?_, ?_, ?_, ?_⟩
    · rintro rfl empty
      exact exec_answer_taken (answered m p d (noting h .owned tr)) queue on awaited
        (judged.trans (if_neg (by simp [empty])))
    · rintro rfl full
      exact exec_answer_recorded (noting h _ tr) queue on awaited (judged.trans (if_pos (Option.isSome_iff_ne_none.mpr full)))
    · rintro rfl marked
      exact exec_answer_taken (noting h _ tr) queue on awaited (judged.trans (if_pos (by simpa using marked)))
    · rintro rfl unmarked
      exact exec_answer_recorded (noting h _ tr) queue on awaited (judged.trans (if_neg (by simpa [absorbed] using unmarked)))
    · rintro rfl
      exact exec_answer_recorded (noting h _ tr) queue on awaited judged
  · have judged := judgeAnswer_other (held := held) (m := m) (p := p) (d := d) on1 right steady other
    exact ⟨fun own => exec_answer_recorded (noting h _ tr) queue on awaited (judged.trans (if_pos own)),
      fun keep => exec_answer_taken (noting h _ tr) queue on awaited (judged.trans (if_neg keep))⟩
  · have judged := judgeAnswer_scrub (h := h) (held := held) (m := m) (p := p) (d := d) on1 right scrub
    refine ⟨fun own empty => ?_, fun own full => ?_, fun keep => ?_⟩
    · exact exec_answer_taken (answered m p d tr) queue on awaited (judged.trans ((if_pos own).trans (if_pos empty)))
    · exact exec_answer_recorded tr queue on awaited (judged.trans ((if_pos own).trans (if_neg full)))
    · exact exec_answer_taken tr queue on awaited (judged.trans (if_neg keep))

end

/-! ### The purge slot (R167, R168, R170) -/

/-- A PURGE_DONE at the head leaves the queue and clears the mark; a host the slot awaits for that set leaves (R168). -/
theorem exec_processPurgeDone_eq {k : SetNo} {rest : List LaneBMsg} (queue : (hliOf s h).laneB = .purgeDone k :: rest) :
    exec (.processPurgeDone h) s = .next (settle (if s.integ.phase = .purging ∧ s.integ.set = k
      then purgeLetGo h (updHli s h (fun x => { x with laneB := rest, purgeAnswer := false }))
      else updHli s h (fun x => { x with laneB := rest, purgeAnswer := false }))) := by
  change Host.Outcome.next (settle (processPurgeDone h s)) = _
  rw [processPurgeDone, queue]

theorem hasBinding_iff {k : SetNo} : hasBinding s k = true ↔ ∃ w, (wayOf s k w).binding ≠ none := by
  simp [hasBinding, mem_allWays, Option.isSome_iff_ne_none]

/-- What the slot does next, by its phase (R167, R168, R170). -/
theorem duePurge_closing (closing : s.integ.phase = .closing) :
    duePurge s = if hasBinding s s.integ.set = true then none else some (startPurging s) := by
  rw [duePurge, closing]

theorem duePurge_purging (purging : s.integ.phase = .purging) :
    duePurge s = if s.integ.awaited = [] then some (clearSet s) else none := by
  rw [duePurge, purging]

theorem isPlaced_of_admitted {m : HubMsg} (a : isAdmitted s h = true) : isPlaced s h m = (hliOf s h).linkUp := by
  have unfenced := isAdmitted_not_isFenced a
  simp only [isFenced, not_or] at unfenced
  simp [isPlaced, unfenced]

theorem nodup_admitted (s : State) : (hosts.filter (isAdmitted s)).Nodup := List.Nodup.filter _ (by decide)

theorem admitted_eq_nil_iff : hosts.filter (isAdmitted s) = [] ↔ ¬∃ p, isAdmitted s p = true := by
  simp [List.filter_eq_nil_iff, mem_hosts]

/-- The slot enters PURGING: whom it asks, and what each interface is then sent (R168). -/
theorem startPurging_spec (s : State) :
    (startPurging s).integ = { s.integ with
      phase := .purging
      awaited := hosts.filter (isAdmitted s)
      deadline := if ∃ p, isAdmitted s p = true then some s.mgmt.recallLimit.toNat else none
      graceUsed := false } ∧
    (∀ p, hliOf (startPurging s) p = { hliOf s p with
      outbound := (hliOf s p).outbound ++
        (if isAdmitted s p ∧ (hliOf s p).linkUp then [.purgeSet s.integ.set] else []) }) ∧
    { startPurging s with integ := s.integ, hli := s.hli } = s := by
  obtain ⟨sent, frame⟩ := purgeSetFold_spec (hosts.filter (isAdmitted s)) (nodup_admitted s) s
  have asked := members_holding s 0
  unfold startPurging
  rw [asked]
  dsimp only at sent frame ⊢
  generalize (hosts.filter (isAdmitted s)).foldl _ s = x at sent frame ⊢
  have integ : x.integ = s.integ := (congrArg State.integ frame :)
  refine ⟨?_, fun p => (sent p).trans ?_, ?_⟩
  · rw [integ]
    by_cases some_ : ∃ p, isAdmitted s p = true
    · rw [if_neg (mt admitted_eq_nil_iff.mp (not_not.mpr some_)), if_pos some_]
    · rw [if_pos (admitted_eq_nil_iff.mpr some_), if_neg some_]
  · by_cases a : isAdmitted s p = true
    · simp [a, mem_hosts, isPlaced_of_admitted a]
    · simp [a]
  · rw [← integ]
    exact frame

/-- The ways that the clear frees: all but the FREE ones and those LOST of good parity (R170). -/
theorem mem_clearedWays {k : SetNo} {w : WayNo} : w ∈ clearedWays s k ↔
    ¬((wayOf s k w).code = 0 ∨ ((wayOf s k w).code = 4 ∧ checkWay (wayOf s k w) = .good)) := by
  simp only [clearedWays, keptByClear, List.mem_filter, mem_allWays, true_and]
  simp
  tauto

/-- The ways freed together are noted as freed at the present event (R60). -/
theorem freed_freeTogether (k : SetNo) {l : List WayNo} (nd : l.Nodup) (s : State) :
    (freeTogether k l s).dir.freed = s.dir.freed ++ l.map (fun w => (k, w)) := by
  obtain ⟨_, _, _, _, _, _, noted⟩ := touchFreed_spec k l (l.foldl (fun s w => putFree k w s) s)
  obtain ⟨_, _, _, _, _, _, kept⟩ := putFreeFold_spec k l s nd
  rw [freeTogether, noted, kept]

/-- What the clear leaves beside the directory, from the state `x` in which the ways are freed (R61, R145, R170). -/
theorem clearSet_eq {x : State} (freed : freeTogether s.integ.set (clearedWays s s.integ.set) s = x) : clearSet s =
    reportChange s.integ.set (latch .purgeDone { x with
      integ := { x.integ with phase := .idle, set := 0, awaited := [], deadline := none, graceUsed := false }
      trk := { x.trk with
        reparkWait := x.trk.reparkWait.filter (fun t => (trackerOf x t).all (fun tr => lineSet tr.line ≠ s.integ.set)) }
      walker := tellReopened s.integ.set x.walker }) := by
  have kept : (fun t => (trackerOf x t).all (fun tr => lineSet tr.line ≠ s.integ.set)) =
      fun t => match trackerOf x t with | some tr => decide (lineSet tr.line ≠ s.integ.set) | none => true := by
    funext t
    cases trackerOf x t <;> rfl
  rw [kept, ← freed, clearSet] <;> rfl

/-- A state that differs from another in the directory alone. -/
theorem eq_of_dir_frame {x y : State} (e : { x with dir := y.dir } = y) : x = { y with dir := x.dir } := by
  cases x
  cases y
  cases e
  rfl

/-- Settles O26: the answer at the head, and the slot's four steps. -/
theorem purgeDoneProcessed : Obligations.PurgeDoneProcessed := by
  refine ⟨fun h k rest s queue => ?_, fun s idle => ⟨fun none_left => ?_, fun k rest next => ?_⟩,
    fun s closing => ⟨fun bound => ?_, fun unbound => ?_⟩, fun s purging awaited => ?_, ?_⟩
  · intro s1 left
    rw [exec_processPurgeDone_eq queue]
    exact ⟨fun purging set => by rw [if_pos ⟨purging, set⟩]; rfl, fun other => by rw [if_neg other]⟩
  · simp only [duePurge, idle, none_left]
  · simp only [duePurge, idle, next, takePurge]
  · rw [duePurge_closing closing, if_pos (hasBinding_iff.mpr bound)]
  · rw [duePurge_closing closing, if_neg (mt hasBinding_iff.mp (by simpa using unbound))]
    exact ⟨_, rfl, startPurging_spec s⟩
  · rw [duePurge_purging purging, if_neg awaited]
  · intro s purging done k stands
    have sub : (clearedWays s k).Sublist allWays := List.filter_sublist
    have nd : (clearedWays s k).Nodup := sub.nodup (by decide)
    obtain ⟨ways, sets, order, frame, record, count⟩ := freeTogether_spec k (clearedWays s k) s nd
    have freed := freed_freeTogether k nd s
    obtain ⟨dir, form⟩ : ∃ dir, freeTogether k (clearedWays s k) s = { s with dir := dir } :=
      ⟨_, eq_of_dir_frame frame⟩
    rw [form] at ways sets order record count freed
    rw [duePurge_purging purging, if_pos done, clearSet_eq form]
    refine ⟨_, clearedWays s k, rfl, sub, fun w => mem_clearedWays, fun w => ?_, order, sets, freed, count, record, ?_,
      rfl, rfl, ?_, rfl⟩
    · change if stands w then wayOf { s with dir := dir } k w = _ else isFreed (wayOf { s with dir := dir } k w)
      rw [ways]
      by_cases kept : stands w
      · rw [if_pos kept, if_neg (fun c => mem_clearedWays.mp c.2 kept)]
      · rw [if_neg kept, if_pos ⟨rfl, mem_clearedWays.mpr kept⟩]
        exact ⟨rfl, rfl, rfl, rfl⟩
    · rfl
    · change tellReopened k s.walker = _
      unfold tellReopened insertNew
      by_cases skipped : k ∈ s.walker.skipped <;> by_cases told : k ∈ s.walker.reopened <;> simp [skipped, told]

end Sys2Proof.Machine
end

section
/-! PROOFS. The dispatcher: the heads of lane A in turn, how a head is dealt with, the FENCE marker, and the park
list. -/

namespace Sys2Proof.Machine

variable {s : State} {h : HostNo}

/-! ### Holder sets -/

theorem hasHost_addHost (m : HostSet) (h p : HostNo) :
    hasHost (addHost m h) p = (hasHost m p || decide (p = h)) := by
  revert m h p
  decide

/-- Holder sets are equal when they have the same members. -/
theorem hostSet_ext {m n : HostSet} (same : ∀ h, hasHost m h = hasHost n h) : m = n :=
  BitVec.eq_of_getLsbD_eq fun i below => same ⟨i, below⟩

/-- A holder set with the hosts of a list added. -/
theorem hasHost_addHosts (l : List HostNo) (m : HostSet) (p : HostNo) :
    hasHost (l.foldl addHost m) p = true ↔ hasHost m p = true ∨ p ∈ l := by
  induction l generalizing m with
  | nil => simp
  | cons h l ih => rw [List.foldl_cons, ih, hasHost_addHost, List.mem_cons]; simp [or_assoc]

/-! ### The lane A head (R16, R86) -/

theorem freeHostTracker_eq_none_iff :
    freeHostTracker s = none ↔ ∀ t : TrackerNo, t.val < 56 → trackerOf s t ≠ none := by
  refine ⟨fun full t pool free => ?_, freeHostTracker_of_full⟩
  rw [freeHostTracker, List.find?_eq_none] at full
  exact full t (by simp [hostPool, allTrackers, pool]) (by simp [free])

/-- A request waits for its line: a tracker on it, a request parked for it, a return pending, or a closed set. -/
theorem mustPark_iff {n : LineNo} : mustPark s h n = true ↔
    (∃ t tr, trackerOf s t = some tr ∧ tr.line = n) ∨ (∃ p ∈ s.disp.park, p.req.line = n) ∨
      n ∈ (hliOf s h).returns ∨ isClosed s (lineSet n) = true := by
  simp [mustPark, trackerOn_isSome_iff, or_assoc]

/-- A head leaves its queue, with the RESUME check (R15, R16). -/
theorem popLaneA_eq {r : Request} {rest : List Request} (queue : (hliOf s h).laneA = r :: rest) :
    popLaneA h s = if rest.length = 6 ∧ (hliOf s h).stalled = true
      then place h .resume (updHli s h (fun x => { x with laneA := rest, stalled := false }))
      else updHli s h (fun x => { x with laneA := rest }) := by
  have popped : updHli s h (fun x => { x with laneA := x.laneA.tail }) = updHli s h (fun x => { x with laneA := rest }) :=
    updHli_congr (by simp [queue])
  rw [popLaneA, popped, resumeCheck, updHli_updHli]
  simp

theorem dealHead_cons {r : Request} {rest : List Request} (queue : (hliOf s h).laneA = r :: rest) :
    dealHead s h = if hasHost s.disp.passedOver h = true then none else dealWith h r s := by
  rw [dealHead, queue]

theorem dealHead_nil (queue : (hliOf s h).laneA = []) : dealHead s h = none := by
  rw [dealHead, queue]

/-- A head that is to be placed on a tracker while none of the host pool is free (R92). -/
def wantsTracker (s : State) (h : HostNo) : Bool :=
  (hliOf s h).laneA.head?.any (fun r => needsTracker s h r && (freeHostTracker s).isNone)

theorem needsTracker_iff {r : Request} : needsTracker s h r = true ↔
    portState s h ≠ .departing ∧ r.kind ≠ .fence ∧
      ∃ mode, accessCheck s.region.active h r.kind r.line = .ok mode ∧ ¬mustPark s h r.line = true := by
  cases access : accessCheck s.region.active h r.kind r.line <;> simp [needsTracker, access, and_assoc]

theorem wantsTracker_iff : wantsTracker s h = true ↔
    (∀ t : TrackerNo, t.val < 56 → trackerOf s t ≠ none) ∧ ∃ r rest mode, (hliOf s h).laneA = r :: rest ∧
      portState s h ≠ .departing ∧ r.kind ≠ .fence ∧ accessCheck s.region.active h r.kind r.line = .ok mode ∧
      ¬mustPark s h r.line = true := by
  rw [← freeHostTracker_eq_none_iff, wantsTracker]
  cases queue : (hliOf s h).laneA with
  | nil => simp
  | cons r rest =>
    rw [List.head?_cons, Option.any_some, Bool.and_eq_true, needsTracker_iff, Option.isNone_iff_eq_none, and_comm]
    refine and_congr_right fun _ => ⟨fun ⟨stays, kind, mode, rest⟩ => ⟨r, _, mode, rfl, stays, kind, rest⟩, ?_⟩
    rintro ⟨_, _, mode, same, stays, kind, access⟩
    obtain ⟨rfl, rfl⟩ := List.cons.inj same
    exact ⟨stays, kind, mode, access⟩

/-! ### The heads in turn (R84, R92) -/

/-- The state with a set of heads noted as passed over. -/
def noted (s : State) (m : HostSet) : State := { s with disp := { s.disp with passedOver := m } }

theorem passOver_noted (s : State) (m : HostSet) (h : HostNo) :
    passOver h (noted s m) = noted s (if wantsTracker s h = true then addHost m h else m) := by
  cases queue : (hliOf s h).laneA with
  | nil =>
    have queue' : (hliOf (noted s m) h).laneA = [] := queue
    simp [passOver, queue', wantsTracker, queue]
  | cons r rest =>
    have queue' : (hliOf (noted s m) h).laneA = r :: rest := queue
    have needs : (needsTracker (noted s m) h r && (freeHostTracker (noted s m)).isNone) = wantsTracker s h := by
      simp only [wantsTracker, queue, List.head?_cons, Option.any_some]
      rfl
    simp only [passOver, queue', needs]
    split <;> rfl

/-- Whether a request at a head can be dealt with now (R86): not a FENCE with the slot occupied (R87), one to park with
the list full (R88), or one to place with the host pool in use. -/
theorem dealWith_eq_none_iff {r : Request} : dealWith h r s = none ↔ portState s h ≠ .departing ∧
    (r.kind = .fence → slotOf s h ≠ none) ∧
    (r.kind ≠ .fence → ∃ mode, accessCheck s.region.active h r.kind r.line = .ok mode ∧
      (mustPark s h r.line = true → 48 ≤ s.disp.park.length) ∧
      (mustPark s h r.line = false → freeHostTracker s = none)) := by
  unfold dealWith
  by_cases leaving : portState s h = .departing
  · simp [leaving]
  by_cases fence : r.kind = .fence
  · rw [if_neg leaving, if_pos fence]
    cases slotOf s h <;> simp [leaving, fence]
  · rw [if_neg leaving, if_neg fence]
    cases accessCheck s.region.active h r.kind r.line with
    | error reason => simp [leaving, fence]
    | ok mode =>
      cases mustPark s h r.line with
      | true => simp [leaving, fence]
      | false => cases freeHostTracker s <;> simp [leaving, fence]

/-- A head that cannot be dealt with cannot once others are noted. -/
theorem dealHead_noted_none {m : HostSet} (none_ : dealHead s h = none)
    (more : hasHost s.disp.passedOver h = true → hasHost m h = true) : dealHead (noted s m) h = none := by
  cases queue : (hliOf s h).laneA with
  | nil => exact dealHead_nil queue
  | cons r rest =>
    have queue' : (hliOf (noted s m) h).laneA = r :: rest := queue
    rw [dealHead_cons queue] at none_
    rw [dealHead_cons queue']
    by_cases passed : hasHost s.disp.passedOver h = true
    · exact if_pos (more passed)
    · rw [if_neg passed, dealWith_eq_none_iff] at none_
      split
      · rfl
      · exact dealWith_eq_none_iff.mpr none_

/-- Heads that cannot be dealt with are passed over in turn, those that want a tracker noted. -/
theorem takeHead_pass (l later : List HostNo) (m : HostSet)
    (more : ∀ p, hasHost s.disp.passedOver p = true → hasHost m p = true) (none_ : ∀ p ∈ l, dealHead s p = none) :
    takeHead (noted s m) (l ++ later) = takeHead (noted s ((l.filter (wantsTracker s)).foldl addHost m)) later := by
  induction l generalizing m with
  | nil => rfl
  | cons p l ih =>
    have passed : takeHead (noted s m) (p :: (l ++ later)) = takeHead (passOver p (noted s m)) (l ++ later) := by
      rw [takeHead, dealHead_noted_none (none_ p (by simp)) (more p)]
    rw [List.cons_append, passed, passOver_noted, List.filter_cons]
    by_cases wants : wantsTracker s p = true
    · rw [if_pos wants, if_pos wants, List.foldl_cons]
      refine ih _ (fun q noted_ => ?_) fun q later => none_ q (by simp [later])
      rw [hasHost_addHost, more q noted_]
      rfl
    · rw [if_neg wants, if_neg wants]
      exact ih m more fun q later => none_ q (by simp [later])

/-- The turn is the four hosts from the pointer, split at any of them. -/
theorem turnFrom_split (p : HostNo) (i : Fin 4) : turnFrom p = ((List.finRange 4).filter (· < i)).map (p + ·) ++
    (p + i) :: ((List.finRange 4).filter (i < ·)).map (p + ·) := by
  revert p i
  decide

theorem mem_turnFrom (p h : HostNo) : h ∈ turnFrom p := by
  revert p h
  decide

theorem takeHead_of_deal {p : HostNo} {later : List HostNo} {t : State} (deals : dealHead s p = some t) :
    takeHead s (p :: later) = { t with disp := { t.disp with pointer := p + 1 } } := by
  rw [takeHead, deals]

/-- A decision on the heads of lane A: no halt, no hub reset, and no parked request to take (R84, R85, R182). -/
theorem exec_dispatch_eq (halted : s.disp.halted = false) (service : s.resetPhase = .noReset)
    (unparked : parkedChoice s = none) : exec .dispatch s = .next (settle (takeHead s (turnFrom s.disp.pointer))) := by
  change Host.Outcome.next (settle (dispatchHead s)) = _
  rw [dispatchHead, if_neg]
  simp [dispatcherStopped, halted, inReset_eq_false service, unparked]

theorem exec_dispatch_stopped (stopped : s.disp.halted = true ∨ s.resetPhase ≠ .noReset ∨ parkedChoice s ≠ none) :
    exec .dispatch s = .next (settle s) := by
  change Host.Outcome.next (settle (dispatchHead s)) = _
  rw [dispatchHead, if_pos]
  simpa [dispatcherStopped, inReset, or_assoc, Option.isSome_iff_ne_none] using stopped

/-- The first head in turn that can be dealt with is, those before it passed over (R84, R92). -/
theorem takeHead_first {i : Fin 4} {n : HostSet} {t : State}
    (none_ : ∀ j, j < i → dealHead s (s.disp.pointer + j) = none)
    (members : ∀ h, hasHost n h = true ↔ hasHost s.disp.passedOver h = true ∨
      (wantsTracker s h = true ∧ ∃ j, j < i ∧ h = s.disp.pointer + j))
    (deals : dealHead (noted s n) (s.disp.pointer + i) = some t) : takeHead s (turnFrom s.disp.pointer) =
      { t with disp := { t.disp with pointer := s.disp.pointer + i + 1 } } := by
  have passed := takeHead_pass (((List.finRange 4).filter (· < i)).map (s.disp.pointer + ·))
    ((s.disp.pointer + i) :: ((List.finRange 4).filter (i < ·)).map (s.disp.pointer + ·)) s.disp.passedOver
    (fun _ => id) (by simpa using none_)
  have same : ((((List.finRange 4).filter (· < i)).map (s.disp.pointer + ·)).filter (wantsTracker s)).foldl addHost
      s.disp.passedOver = n := by
    refine hostSet_ext fun h => Bool.eq_iff_iff.mpr ?_
    rw [hasHost_addHosts, members]
    refine or_congr_right ?_
    simp only [List.mem_filter, List.mem_map, List.mem_finRange, true_and, decide_eq_true_eq]
    grind
  rw [turnFrom_split s.disp.pointer i]
  rw [same, takeHead_of_deal deals] at passed
  exact passed

/-- With no head that can be dealt with, those that want a tracker are noted (R92). -/
theorem takeHead_none {n : HostSet} (none_ : ∀ h, dealHead s h = none)
    (members : ∀ h, hasHost n h = true ↔ hasHost s.disp.passedOver h = true ∨ wantsTracker s h = true) :
    takeHead s (turnFrom s.disp.pointer) = noted s n := by
  have passed := takeHead_pass (turnFrom s.disp.pointer) [] s.disp.passedOver (fun _ => id) fun p _ => none_ p
  have same : ((turnFrom s.disp.pointer).filter (wantsTracker s)).foldl addHost s.disp.passedOver = n := by
    refine hostSet_ext fun h => Bool.eq_iff_iff.mpr ?_
    rw [hasHost_addHosts, members]
    simp [mem_turnFrom]
  rw [List.append_nil, same] at passed
  exact passed

/-! ### How a head is dealt with (R86 to R88), and the FENCE slot (R127, R128, R130) -/

theorem placeOn_of_kind {t : TrackerNo} {r : Request} {mode : RegionMode} {kind : TrackerKind}
    (found : kindOf r.kind = some kind) : placeOn t h r mode s =
      if mode = .directOnly
        then goOn t (setTracker s t (some (newTracker kind r.line mode (some (h, r.tag)) r.operands)))
        else setTracker s t (some (newTracker kind r.line mode (some (h, r.tag)) r.operands)) := by
  rw [placeOn, found]

theorem dealWith_departing {r : Request} (leaving : portState s h = .departing) :
    dealWith h r s = some (refuse h r.tag .notOnline (popLaneA h s)) := by
  rw [dealWith, if_pos leaving]

theorem dealWith_fence {r : Request} (stays : portState s h ≠ .departing) (fence : r.kind = .fence)
    (empty : slotOf s h = none) :
    dealWith h r s = some (setSlot (popLaneA h s) h (some (markerOf (popLaneA h s) h r.tag))) := by
  rw [dealWith, if_neg stays, if_pos fence, empty]

theorem dealWith_error {r : Request} {reason : RefuseReason} (stays : portState s h ≠ .departing)
    (other : r.kind ≠ .fence) (access : accessCheck s.region.active h r.kind r.line = .error reason) :
    dealWith h r s = some (refuse h r.tag reason (popLaneA h s)) := by
  rw [dealWith, if_neg stays, if_neg other, access]

theorem dealWith_ok {r : Request} {mode : RegionMode} (stays : portState s h ≠ .departing)
    (other : r.kind ≠ .fence) (access : accessCheck s.region.active h r.kind r.line = .ok mode) :
    dealWith h r s = if mustPark s h r.line = true then
        (if 48 ≤ s.disp.park.length then none else some (parkTail ⟨h, r⟩ (popLaneA h s)))
      else (freeHostTracker s).map (fun t => placeOn t h r mode (popLaneA h s)) := by
  rw [dealWith, if_neg stays, if_neg other, access]
  cases freeHostTracker s <;> rfl

theorem holdsAbsorbed_iff {t : TrackerNo} : holdsAbsorbed s h t = true ↔
    ∃ tr b, trackerOf s t = some tr ∧ tr.buffer = some b ∧ b.source = .absorbed ∧ b.modified = true ∧
      b.absorbedFrom = some h := by
  cases on : trackerOf s t with
  | none => simp [holdsAbsorbed, on]
  | some tr => cases full : tr.buffer <;> simp [holdsAbsorbed, on, full]

theorem markerEmpty_iff {x : FenceSlot} : markerEmpty x = true ↔
    x.requests = [] ∧ x.returns = [] ∧ x.absorptions = [] ∧ x.drainLines = [] := by
  simp [markerEmpty, and_assoc]

theorem dueSlot_of_slot {x : FenceSlot} (full : slotOf s h = some x) : dueSlot h s =
    if markerEmpty x = true then some (respond h x.tag (.doneReq x.tag .ok none) (setSlot s h none)) else none := by
  rw [dueSlot, full]

/-- Settles O27: the heads in turn, the stops, and the dealing with one head by the steps of R86. -/
theorem dispatchDecisions : Obligations.DispatchDecisions := by
  unfold Obligations.DispatchDecisions
  intro busy noneFree
  have parks (s : State) (h : HostNo) (n : LineNo) : mustPark s h n = true ↔ busy s h n := mustPark_iff
  have wanting (s : State) (h : HostNo) : wantsTracker s h = true ↔ noneFree s ∧ ∃ r rest mode,
      (hliOf s h).laneA = r :: rest ∧ portState s h ≠ .departing ∧ r.kind ≠ .fence ∧
      accessCheck s.region.active h r.kind r.line = .ok mode ∧ ¬busy s h r.line := by
    simp only [wantsTracker_iff, parks, noneFree]
  refine ⟨fun s halted service unparked => ?_, fun s => exec_dispatch_stopped, fun h r rest s queue passed => ?_,
    fun h r rest s queue fresh => ?_, fun h tag s => ?_⟩
  · intro wants noted
    refine ⟨fun i n t none_ members deals => ?_, fun n none_ members => ?_⟩
    · rw [exec_dispatch_eq halted service unparked, takeHead_first none_ (fun h => ?_) deals]
      rw [members, wanting]
    · rw [exec_dispatch_eq halted service unparked, takeHead_none none_ fun h => ?_]
      · rfl
      · rw [members, wanting]
  · rw [dealHead_cons queue, if_pos passed]
  · intro left refused
    have pops : popLaneA h s = left := popLaneA_eq queue
    have disp : left.disp = s.disp := by rw [← pops, popLaneA_disp]
    rw [dealHead_cons queue, if_neg (by simp [fresh])]
    refine ⟨fun leaving => ?_, fun stays => ⟨fun fence empty => ?_, fun fence full => ?_, fun other reason access => ?_,
      fun other mode access => ⟨fun waits room => ?_, fun waits full => ?_, fun ready t kind kinds pool free first => ?_,
        fun ready full => ?_⟩⟩⟩
    · rw [dealWith_departing leaving, pops]
      rfl
    · rw [dealWith_fence stays fence empty, pops]
    · exact dealWith_eq_none_iff.mpr ⟨stays, fun _ => full, fun n => absurd fence n⟩
    · rw [dealWith_error stays other access, pops]
      rfl
    · rw [dealWith_ok stays other access, if_pos ((parks ..).mpr waits), if_neg (by omega), parkTail, pops, disp]
    · rw [dealWith_ok stays other access, if_pos ((parks ..).mpr waits), if_pos full]
    · rw [dealWith_ok stays other access, if_neg (mt (parks ..).mp ready), freeHostTracker_of_free pool free first,
        Option.map_some, placeOn_of_kind kinds, pops]
    · rw [dealWith_ok stays other access, if_neg (mt (parks ..).mp ready), freeHostTracker_of_full full]
      rfl
  · intro x
    refine ⟨⟨rfl, fun u => ?_, rfl, fun t => ?_, rfl⟩, fun empty => ?_, fun y full => ⟨fun waits => ?_,
      fun r n a d => ?_⟩⟩
    · simp [x, markerOf]
    · simp [x, markerOf, allTrackers, holdsAbsorbed_iff]
    · rw [dueSlot, empty]
    · rw [dueSlot_of_slot full, if_neg]
      rw [markerEmpty_iff]
      tauto
    · rw [dueSlot_of_slot full, if_pos (markerEmpty_iff.mpr ⟨r, n, a, d⟩)]

/-! ### The park list (R89, R90, R91) -/

/-- A parked request is ready when it is the first parked for its line and its line is free (R89). -/
theorem isReady_iff {ahead : List Parked} {p : Parked} : isReady s ahead p = true ↔
    (∀ x ∈ ahead, x.req.line ≠ p.req.line) ∧ (∀ u tr, trackerOf s u = some tr → tr.line ≠ p.req.line) ∧
      p.req.line ∉ (hliOf s p.host).returns ∧ isClosed s (lineSet p.req.line) = false := by
  rw [← trackerOn_isNone_iff]
  simp [isReady, and_assoc]

/-- The dispatcher's decision on the park list, where it makes one (R84, R90). -/
theorem exec_takeParked_eq (halted : s.disp.halted = false) (service : s.resetPhase = .noReset) :
    exec .takeParked s = .next (settle (match parkedChoice s with
      | none => s
      | some (t, p) => takeParkedTo t p s)) := by
  change Host.Outcome.next (settle (takeParked s)) = _
  rw [takeParked, if_neg (by simp [dispatcherStopped, halted, inReset_eq_false service])] <;>
    cases parkedChoice s <;> rfl

theorem exec_takeParked_stopped (stopped : s.disp.halted = true ∨ s.resetPhase ≠ .noReset) :
    exec .takeParked s = .next (settle s) := by
  change Host.Outcome.next (settle (takeParked s)) = _
  rw [takeParked, if_pos (by simpa [dispatcherStopped, inReset] using stopped)]

/-- The first ready request and the lowest free tracker are the dispatcher's choice. -/
theorem parkedChoice_of_first {before after : List Parked} {p : Parked} {t : TrackerNo}
    (free : freeHostTracker s = some t) (park : s.disp.park = before ++ p :: after) (ready : isReady s before p = true)
    (first : ∀ ahead q behind, before = ahead ++ q :: behind → isReady s ahead q = false) :
    parkedChoice s = some (t, p) := by
  have oldest : oldestReady s = some p := by
    rw [oldestReady, park]
    exact firstReady_of_some s p after before [] first ready
  rw [parkedChoice, free, oldest]

theorem parkedChoice_of_full (full : ∀ u : TrackerNo, u.val < 56 → trackerOf s u ≠ none) : parkedChoice s = none := by
  rw [parkedChoice, freeHostTracker_of_full full]

theorem parkedChoice_of_none
    (unready : ∀ ahead q behind, s.disp.park = ahead ++ q :: behind → isReady s ahead q = false) :
    parkedChoice s = none := by
  have oldest : oldestReady s = none := firstReady_of_none s s.disp.park [] unready
  rw [parkedChoice, oldest]
  cases freeHostTracker s <;> rfl

/-- A parked request taken is dealt with by its port's state and the access check now (R90). -/
theorem takeParkedTo_eq (t : TrackerNo) {p : Parked} {left : State}
    (taken : { s with disp := { s.disp with park := s.disp.park.filter (· ≠ p) } } = left) : takeParkedTo t p s =
      if portState s p.host = .departing then refuse p.host p.req.tag .notOnline left
      else match accessCheck s.region.active p.host p.req.kind p.req.line with
        | .error reason => refuse p.host p.req.tag reason left
        | .ok mode => placeOn t p.host p.req mode left := by
  subst taken
  rw [takeParkedTo] <;> cases accessCheck s.region.active p.host p.req.kind p.req.line <;> rfl

/-- Behind requests for other lines a request is parked at the tail. -/
theorem parkAhead_of_none {p : Parked} {before : List Parked} (others : ∀ x ∈ before, x.req.line ≠ p.req.line) :
    parkAhead p before = before ++ [p] := by
  induction before with
  | nil => rfl
  | cons x before ih =>
    rw [parkAhead, if_neg (others x (by simp)), ih fun y later => others y (by simp [later])]
    rfl

/-- A request is parked just ahead of the first parked for its line. -/
theorem parkAhead_of_some {p q : Parked} {before after : List Parked}
    (others : ∀ x ∈ before, x.req.line ≠ p.req.line) (same : q.req.line = p.req.line) :
    parkAhead p (before ++ q :: after) = before ++ p :: q :: after := by
  induction before with
  | nil => exact if_pos same
  | cons x before ih =>
    rw [List.cons_append, parkAhead, if_neg (others x (by simp)), ih fun y later => others y (by simp [later])]
    rfl

/-- A tracker released with a request parks it and is freed. -/
theorem reparkNow_of_request {t : TrackerNo} {tr : Tracker} {p : Parked} (on : trackerOf s t = some tr)
    (request : requestOf tr = some p) : reparkNow t s =
      freeTracker t { s with disp := { s.disp with park := parkAhead p s.disp.park } } := by
  simp only [reparkNow, on, request]

theorem lineHasWay_iff {n : LineNo} : lineHasWay s n = true ↔
    ∃ w, 2 ≤ (wayOf s (lineSet n) w).code.toNat ∧ (wayOf s (lineSet n) w).tag = lineTag n := by
  simp [lineHasWay, mem_allWays]

/-- The freeing of a tracker: every list that names it, and its set where a way of it holds the line (R61, R78). -/
theorem freeTracker_of_some {t : TrackerNo} {tr : Tracker} (on : trackerOf s t = some tr) : freeTracker t s =
    (fun freed => if lineHasWay s tr.line = true then reportChange (lineSet tr.line) freed else freed)
      { s with
        trk := {
          table := s.trk.table.set t none, claims := s.trk.claims.filter (· ≠ .evict t)
          victimWait := s.trk.victimWait.filter (· ≠ t), askAgain := s.trk.askAgain.filter (· ≠ t)
          reparkWait := s.trk.reparkWait.filter (· ≠ t) }
        walker := { s.walker with
          trackers := s.walker.trackers.filter (· ≠ t), wait := toldFree tr.line s.walker.wait }
        disp := { s.disp with passedOver := headsAfterFree t s.disp.passedOver } } := by
  rw [freeTracker, on] <;> rfl

/-- Settles O28: the taking from the park list, the re-parking, the place in the list, and the freeing of a tracker. -/
theorem parkedTaken : Obligations.ParkedTaken := by
  refine ⟨fun before after p t s halted service park => ?_, fun s => exec_takeParked_stopped, fun s => ?_,
    fun p before after q others => ⟨parkAhead_of_none others, parkAhead_of_some others⟩, fun t tr s on => ?_⟩
  · intro ready left free
    have readiness (ahead : List Parked) (q : Parked) : isReady s ahead q = true ↔ ready ahead q := isReady_iff
    have unready {ahead : List Parked} {q : Parked} (n : ¬ready ahead q) : isReady s ahead q = false := by
      rw [Bool.eq_false_iff]
      exact mt (readiness ahead q).mp n
    rw [exec_takeParked_eq halted service]
    refine ⟨readiness, fun ⟨pool, empty, lowest⟩ isReady first => ?_, fun full => ?_, fun none_ => ?_⟩
    · rw [parkedChoice_of_first (freeHostTracker_of_free pool empty lowest) park ((readiness ..).mpr isReady)
        fun ahead q behind e => unready (first ahead q behind e)]
      dsimp only
      rw [takeParkedTo_eq (left := left) t rfl]
      refine ⟨fun leaving => ?_, fun stays reason access => ?_, fun stays mode kind access kinds => ?_⟩
      · rw [if_pos leaving]
        rfl
      · rw [if_neg stays, access]
        rfl
      · rw [if_neg stays, access]
        dsimp only
        rw [placeOn_of_kind kinds]
    · rw [parkedChoice_of_full full]
    · rw [parkedChoice_of_none fun ahead q behind e => unready (none_ ahead q behind e)]
  · refine ⟨fun stays => ?_, fun t rest tr h tag kind waits room on requester kinds => ?_⟩
    · rw [dueRepark]
      split
      · rfl
      · next e =>
        refine if_neg ?_
        rcases stays with empty | full
        · simp [e] at empty
        · omega
    · have request : requestOf tr = some ⟨h, ⟨kind, tag, tr.line, tr.operands⟩⟩ := by
        simp only [requestOf, requester, kinds]
      rw [dueRepark, waits]
      dsimp only
      rw [if_pos room, reparkNow_of_request on request]
  · intro k freed held
    rw [freeTracker_of_some on]
    exact ⟨fun has => if_pos (lineHasWay_iff.mpr has), fun hasNot => if_neg (mt lineHasWay_iff.mp hasNot)⟩

end Sys2Proof.Machine
end

section
/-! PROOFS. The trackers: the recall rounds, the lookup by what it finds, how a tracker goes on, the deadlines, the
write of an entry under masking, and the replies. -/

namespace Sys2Proof.Machine

variable {s : State} {h : HostNo}

/-! ### The recall rounds (R80, R93, R96, R147, R148, R154, R160) -/

theorem hasHost_dropHost (m : HostSet) (h p : HostNo) :
    hasHost (dropHost m h) p = (hasHost m p && decide (p ≠ h)) := by
  revert m h p
  decide

theorem hasHost_oneHost (h p : HostNo) : hasHost (oneHost h) p = decide (h = p) := by
  revert h p
  decide

theorem members_oneHost (h : HostNo) : members (oneHost h) = [h] := by
  revert h
  decide

theorem roundTo_oneHost (kind : RecallKind) (h : HostNo) : roundTo kind (oneHost h) = [(h, kind)] := by
  rw [roundTo, members_oneHost]
  rfl

theorem roundTo_dropHost (kind : RecallKind) (m : HostSet) (h : HostNo) : roundTo kind (dropHost m h) =
    (hosts.filter (fun p => hasHost m p && decide (p ≠ h))).map (fun p => (p, kind)) := by
  have left : hasHost (dropHost m h) = fun p => hasHost m p && decide (p ≠ h) :=
    funext fun p => hasHost_dropHost m h p
  rw [roundTo, members, left]

theorem servedAs_upgrade_shared (req : HostNo) (holders : HostSet) : servedAs .upgrade req (.shared holders) =
    if hasHost holders req = true then .upgrade else .readOwn := rfl

/-- A line that the staged table leaves unmapped, or makes DIRECT_ONLY, is dropped by every holder (R154). -/
theorem recallUnder_dropped {table : Vector Descriptor 16} {n : LineNo}
    (gone : ∀ d, regionOf table n = some d → d.mode = .directOnly) (isOwner : Bool) (p : HostNo) :
    recallUnder table n isOwner p = some .drop := by
  cases region : regionOf table n with
  | none => simp only [recallUnder, region]
  | some d => simp only [recallUnder, region, gone d region]

/-- In a TRACKED region the right decides: no right drops the line, and an owner with READ shares it (R154). -/
theorem recallUnder_tracked {table : Vector Descriptor 16} {n : LineNo} {d : Descriptor}
    (region : regionOf table n = some d) (tracked : d.mode = .tracked) (isOwner : Bool) (p : HostNo) :
    recallUnder table n isOwner p = match d.rights[p] with
      | .noRight => some .drop
      | .read => if isOwner = true then some .share else none
      | .write => none := by
  simp only [recallUnder, region, tracked]
  cases d.rights[p] <;> cases isOwner <;> rfl

/-- The recalls of one kind among the holders. -/
theorem filterMap_picked (l : List HostNo) (pick : HostNo → Bool) (kind : RecallKind) :
    l.filterMap (fun p => if pick p = true then some (p, kind) else none) =
      (l.filter pick).map (fun p => (p, kind)) := by
  induction l with
  | nil => rfl
  | cons p l ih => by_cases picked : pick p = true <;> simp [picked, ih]

theorem jobRound_cutover (s : State) (n : LineNo) (e : Entry) : jobRound s .cutover n e =
    (members (holdersOf e)).filterMap
      (fun p => (recallUnder s.region.staged n (isOwnedEntry e) p).map (fun k => (p, k))) := rfl

/-- An entry that nobody holds brings no recall. -/
theorem jobRound_of_unheld {e : Entry} (empty : holdersOf e = 0) (s : State) (j : Job) (n : LineNo) :
    jobRound s j n e = [] := by
  cases j with
  | depart p => simp [jobRound, empty, hasHost]
  | forfeit p => rfl
  | cutover => rw [jobRound_cutover, empty]; rfl

/-- The cutover's round where every holder drops the line. -/
theorem jobRound_cutover_dropped {n : LineNo} (gone : ∀ d, regionOf s.region.staged n = some d → d.mode = .directOnly)
    (e : Entry) : jobRound s .cutover n e = roundTo .drop (holdersOf e) := by
  rw [jobRound_cutover, roundTo, ← List.filterMap_eq_map]
  exact List.filterMap_congr fun p _ => by rw [recallUnder_dropped gone]; rfl

/-- The cutover's round over the shared holders of a TRACKED line. -/
theorem jobRound_cutover_shared {n : LineNo} {d : Descriptor} (region : regionOf s.region.staged n = some d)
    (tracked : d.mode = .tracked) (holders : HostSet) : jobRound s .cutover n (.shared holders) =
      (hosts.filter (fun p => hasHost holders p && decide (d.rights[p] = .noRight))).map
        (fun p => (p, RecallKind.drop)) := by
  have picks (p : HostNo) : (recallUnder s.region.staged n false p).map (fun k => (p, k)) =
      if decide (d.rights[p] = .noRight) = true then some (p, RecallKind.drop) else none := by
    rw [recallUnder_tracked region tracked]
    cases d.rights[p] <;> rfl
  rw [jobRound_cutover]
  simp only [holdersOf, isOwnedEntry, picks]
  rw [filterMap_picked, members, List.filter_filter]
  congr 2
  funext p
  exact Bool.and_comm ..

/-- The cutover's round over the owner of a TRACKED line. -/
theorem jobRound_cutover_owned {n : LineNo} {d : Descriptor} (region : regionOf s.region.staged n = some d)
    (tracked : d.mode = .tracked) (o : HostNo) : jobRound s .cutover n (.owned o) =
      match d.rights[o] with | .write => [] | .read => [(o, .share)] | .noRight => [(o, .drop)] := by
  rw [jobRound_cutover, holdersOf, members_oneHost, List.filterMap_cons, isOwnedEntry,
    recallUnder_tracked region tracked]
  cases d.rights[o] <;> rfl

/-- What a round of recalls makes of its tracker (R80). -/
def roundSent (s : State) (round : List (HostNo × RecallKind)) (tr : Tracker) : Tracker :=
  { tr with
    phase := .recall
    awaited := round.map (fun r => ⟨r.1, r.2, false⟩)
    deadline := some s.mgmt.recallLimit.toNat
    graceUsed := false
    dropped := hostSetOf ((round.filter (fun r => r.2 = .drop)).map (fun r => r.1)) }

/-- How a round is sent (R80): its tracker in RECALL, the recalls placed, and nothing else. -/
theorem startRound_spec {t : TrackerNo} {tr : Tracker} (on : trackerOf s t = some tr) (r : HostNo × RecallKind)
    (l : List (HostNo × RecallKind)) :
    trackerOf (startRound t (r :: l) s) t = some (roundSent s (r :: l) tr) ∧
    (∀ u, u ≠ t → trackerOf (startRound t (r :: l) s) u = trackerOf s u) ∧
    (∀ p, hliOf (startRound t (r :: l) s) p = { hliOf s p with
      outbound := (hliOf s p).outbound ++
        (((r :: l).filter (fun r => r.1 = p ∧ isPlaced s p (recallMsg r.2 tr.line t) = true)).map
          (fun r => recallMsg r.2 tr.line t)) }) ∧
    { startRound t (r :: l) s with
      trk := { (startRound t (r :: l) s).trk with table := s.trk.table }, hli := s.hli } = s := by
  obtain ⟨sent, same⟩ := recallFold_spec tr.line t (r :: l) s
  rw [startRound_cons t r l s on]
  generalize (r :: l).foldl _ s = x at sent same ⊢
  refine ⟨?_, fun u other => ?_, sent, ?_⟩
  · exact (trackerOf_setTracker ..).trans (if_pos rfl)
  · rw [trackerOf_setTracker, if_neg other.symm, trackerOf, trackerOf, same.trk]
  · apply state_ext <;> simp [setTracker, same.hub, same.resetPhase, same.ports, same.region, same.dir, same.trk,
      same.disp, same.mem, same.walker, same.integ, same.mgmt, same.freeCount, same.pending]

theorem startRound_nil {t : TrackerNo} {tr : Tracker} (on : trackerOf s t = some tr) : startRound t [] s = goOn t s := by
  simp only [startRound, on]

/-- The round of a scrub (R160). -/
theorem startScrub_eq {t : TrackerNo} {tr : Tracker} (on : trackerOf s t = some tr) : startScrub t s =
    startRound t ((hosts.filter (isAdmitted s)).map (fun p => (p, RecallKind.drop)))
      (setTracker s t (some { tr with scrubbing := true, stored := .free, reported := .free })) := by
  rw [startScrub, updTracker_of_some _ on, roundTo, members_holding s 0]

/-- An internal tracker takes its entry and goes on by the report of it (R93, R147). -/
theorem startInternal_eq {t : TrackerNo} {tr : Tracker} (on : trackerOf s t = some tr)
    (round : List (HostNo × RecallKind)) (e : Entry) : startInternal t round e s =
      if reportEntry s e = .lost
      then reply t none (setTracker s t (some { tr with stored := e, reported := reportEntry s e }))
      else startRound t (round.filter (fun r => isAdmitted s r.1))
        (setTracker s t (some { tr with stored := e, reported := reportEntry s e })) := by
  simp only [startInternal, updTracker_of_some _ on]

/-- Settles O29: the rounds by kind and entry, by job and entry, and how a round is sent. -/
theorem recallRounds : Obligations.RecallRounds := by
  refine ⟨fun req o holders => ?_, fun s line h o holders d => ?_, fun t tr s on => ?_⟩
  · intro each drops
    have all : roundTo .drop holders = drops (fun h => holders.getLsbD h.val) := rfl
    have others : roundTo .drop (dropHost holders req) = drops (fun h => holders.getLsbD h.val && h ≠ req) :=
      roundTo_dropHost ..
    refine ⟨rfl, rfl, rfl, rfl, rfl, others, others, roundTo_oneHost .., roundTo_oneHost .., all, all, rfl, ?_, ?_,
      rfl, rfl⟩
    · rw [servedAs_upgrade_shared]
      cases e : hasHost holders req <;> simpa [hasHost] using e
    · rw [servedAs_upgrade_shared]
      cases e : hasHost holders req <;> simpa [hasHost] using e
  · refine ⟨rfl, ?_, ?_, fun e => rfl, fun unmapped => ?_, fun region direct => ?_, fun region tracked =>
      ⟨jobRound_cutover_owned region tracked o, jobRound_cutover_shared region tracked holders⟩⟩
    · simp only [jobRound, holdersOf, hasHost_oneHost, decide_eq_true_eq]
    · intro j e none_
      exact jobRound_of_unheld (by rcases none_ with rfl | rfl <;> rfl) s j line
    · have gone : ∀ d, regionOf s.region.staged line = some d → d.mode = .directOnly := by simp [unmapped]
      exact ⟨(jobRound_cutover_dropped gone _).trans (roundTo_oneHost ..), jobRound_cutover_dropped gone _⟩
    · have gone : ∀ e, regionOf s.region.staged line = some e → e.mode = .directOnly := by
        rintro e again
        rwa [← Option.some.inj (region.symm.trans again)]
      exact ⟨(jobRound_cutover_dropped gone _).trans (roundTo_oneHost ..), jobRound_cutover_dropped gone _⟩
  · refine ⟨startRound_nil on, fun first others => startRound_spec on first others, fun round e => ?_,
      startScrub_eq on⟩
    rw [startInternal_eq on]
    exact ⟨fun lost => if_pos lost, fun held => if_neg held⟩

/-! ### The lookup that finds its line's way (R62, R67, R71, R80, R160) -/

/-- A tracker whose lookup is due: in SETUP, TRACKED, not waiting to re-park, with no hub reset in progress. -/
structure LooksUp (s : State) (t : TrackerNo) (tr : Tracker) : Prop where
  service : s.resetPhase = .noReset
  on : trackerOf s t = some tr
  setup : tr.phase = .setup
  unparked : t ∉ s.trk.reparkWait
  tracked : tr.mode = .tracked

theorem LooksUp.exec {t : TrackerNo} {tr : Tracker} (due : LooksUp s t tr) :
    exec (.trackerLookup t) s = .next (settle (lookup t s)) :=
  trackerLookup_due due.service due.on due.tracked due.setup due.unparked

/-- A tracker that has taken the entry that its lookup found (R62, R67, R105). -/
def hitTracker (s : State) (h : HostNo) (e : Entry) (tr : Tracker) : Tracker :=
  { tr with kind := servedAs tr.kind h (reportEntry s e), stored := e, reported := reportEntry s e }

/-- The state in which the way found is bound and its tracker has taken the entry, `read` being the state read. -/
def lookupTaken (s read : State) (t : TrackerNo) (tr : Tracker) (h : HostNo) (w : WayNo) : State :=
  putWay (lineSet tr.line) w { wayOf s (lineSet tr.line) w with binding := some t }
    (setTracker read t (some (hitTracker s h (entryOf (wayOf s (lineSet tr.line) w)) tr)))

theorem trackerOf_lookupTaken (s read : State) (t : TrackerNo) (tr : Tracker) (h : HostNo) (w : WayNo) :
    trackerOf (lookupTaken s read t tr h w) t =
      some (hitTracker s h (entryOf (wayOf s (lineSet tr.line) w)) tr) := by
  change trackerOf (setTracker read t _) t = _
  rw [trackerOf_setTracker, if_pos rfl]

theorem wayOf_lookupTaken (s read : State) (t : TrackerNo) (tr : Tracker) (h : HostNo) (w : WayNo) (j : SetNo)
    (v : WayNo) : wayOf (lookupTaken s read t tr h w) j v = if lineSet tr.line = j ∧ w = v
      then { wayOf s (lineSet tr.line) w with binding := some t } else wayOf read j v :=
  wayOf_putWay ..

/-- A binding leaves the LOST count. -/
theorem lostCount_lookupTaken {s read : State} (dir : read.dir = s.dir) (t : TrackerNo) (tr : Tracker) (h : HostNo)
    (w : WayNo) : (lookupTaken s read t tr h w).dir.lostCount = s.dir.lostCount := by
  change read.dir.lostCount + lostBit _ - lostBit (wayOf read (lineSet tr.line) w) = _
  rw [wayOf_of_dir dir, dir]
  exact Nat.add_sub_cancel ..

/-- A lookup that finds its line's way with good parity (R62, R96, R106). -/
theorem lookupHit_eq {t : TrackerNo} {tr : Tracker} {tag : HostTag} {record : Option DirRecord} {latch : BitVec 16}
    {alertLow : Bool} {read : State} (errors : read = afterErrors record latch alertLow s)
    (on : trackerOf s t = some tr) (requester : tr.requester = some (h, tag)) (w : WayNo) :
    lookupHit t tr w read = match refusalAt tr h (reportEntry s (entryOf (wayOf s (lineSet tr.line) w))) with
      | some reason => reply t (some reason) (lookupTaken s read t tr h w)
      | none => startRound t (roundOf (servedAs tr.kind h (reportEntry s (entryOf (wayOf s (lineSet tr.line) w)))) h
          (reportEntry s (entryOf (wayOf s (lineSet tr.line) w)))) (lookupTaken s read t tr h w) := by
  have on' : trackerOf (bindWay (lineSet tr.line) w t read) t = some tr := by rw [errors]; exact on
  have way : wayOf read (lineSet tr.line) w = wayOf s (lineSet tr.line) w := by rw [errors]; rfl
  have report (e : Entry) : reportEntry read e = reportEntry s e := by rw [errors]; cases e <;> rfl
  simp only [lookupHit, requester]
  rw [updTracker_of_some _ on', way, report]
  cases refusalAt tr h (reportEntry s (entryOf (wayOf s (lineSet tr.line) w))) <;>
    simp only [bindWay, way] <;> rfl

/-- The lookup of a set without a tag parity error whose way for the line is of good parity. -/
theorem lookup_good {t : TrackerNo} {tr : Tracker} {w : WayNo} (on : trackerOf s t = some tr)
    (opened : isClosed s (lineSet tr.line) = false) (untagged : ∀ v, checkWay (wayOf s (lineSet tr.line) v) ≠ .tagError)
    (found : matchingWay s tr.line = some w) (good : checkWay (wayOf s (lineSet tr.line) w) = .good) :
    lookup t s = lookupHit t tr w (handErrors (lineSet tr.line) allWays .lookup s) := by
  rw [lookup_open on opened untagged, found]
  exact if_neg (by simp [good])

/-- What a round sent from a lookup changes beside the interfaces. -/
theorem startRound_form {x : State} {t : TrackerNo} {tr : Tracker} (on : trackerOf x t = some tr)
    (r : HostNo × RecallKind) (l : List (HostNo × RecallKind)) : ∃ table links,
    startRound t (r :: l) x = { x with trk := { x.trk with table := table }, hli := links } := by
  obtain ⟨_, same⟩ := recallFold_spec tr.line t (r :: l) x
  have fold : (r :: l).foldl (fun s r => place r.1 (recallMsg r.2 tr.line t) s) x =
      { x with hli := ((r :: l).foldl (fun s r => place r.1 (recallMsg r.2 tr.line t) s) x).hli } :=
    state_ext same.hub same.resetPhase rfl same.ports same.region same.dir same.trk same.disp same.mem same.walker
      same.integ same.mgmt same.freeCount same.pending
  rw [startRound_cons t r l x on, fold]
  exact ⟨_, _, rfl⟩

/-- Settles O30: the way found of good parity, with and without a round, and the way with a state parity error. -/
theorem lookupRecalls : Obligations.LookupRecalls := by
  refine ⟨?_, ?_⟩
  · intro t tr h tag w s k stored kind service on setup unparked requester tracked opened untagged good tagged first
      unrefused read bound
    have found : matchingWay s tr.line = some w := matchingWay_of_first (.inl good) tagged first
    obtain ⟨record, latch, alertLow, handed⟩ := handErrors_of_no_tag untagged .lookup
    have looked : lookup t s = startRound t (roundOf kind h (reportEntry s stored)) (lookupTaken s read t tr h w) := by
      rw [lookup_good on opened untagged found good, lookupHit_eq handed on requester, unrefused]
    have taken : trackerOf (lookupTaken s read t tr h w) t = some bound := trackerOf_lookupTaken ..
    have due : LooksUp s t tr := ⟨service, on, setup, unparked, tracked⟩
    rw [due.exec, looked]
    refine ⟨fun empty => ?_, fun r l => ?_⟩
    · rw [empty, startRound_nil taken]
      rfl
    · intro round sends
      rw [sends]
      obtain ⟨sent, others, links, _⟩ := startRound_spec taken r l
      obtain ⟨table, hli, form⟩ := startRound_form taken r l
      rw [form] at sent others links
      have errors : read = afterErrors record latch alertLow s := handed
      refine ⟨_, rfl, ?_⟩
      rw [form]
      clear_value read
      subst errors
      refine ⟨?_, ?_, sent, fun u other => (others u other).trans ?_, links, rfl, ?_, rfl, rfl⟩
      · exact (wayOf_lookupTaken ..).trans (if_pos ⟨rfl, rfl⟩)
      · intro j v other
        refine (wayOf_lookupTaken ..).trans (if_neg ?_)
        rintro ⟨rfl, rfl⟩
        exact other rfl
      · exact (trackerOf_setTracker ..).trans (if_neg other.symm)
      · exact lostCount_lookupTaken rfl ..
  · intro t tr w s k service on setup unparked tracked opened untagged broken tagged first
    have found : matchingWay s tr.line = some w := matchingWay_of_first (.inr broken) tagged first
    have due : LooksUp s t tr := ⟨service, on, setup, unparked, tracked⟩
    rw [due.exec, lookup_open on opened untagged, found]
    refine congrArg (fun x => Host.Outcome.next (settle x)) ((if_pos broken).trans ?_)
    obtain ⟨record, latch, alertLow, handed⟩ := handErrors_of_no_tag untagged .lookup
    rw [handed]
    rfl

end Sys2Proof.Machine
end

section
/-! PROOFS. The lookup that finds no way for its line, the asking for a way and the evictions, and the lookup that refuses
or releases its request. -/

namespace Sys2Proof.Machine

variable {s : State} {h : HostNo}

/-! ### The lookup that finds no way (R62, R63, R105, R119) -/

/-- A lookup that finds no way for its line, in an open set read with no tag parity error. -/
theorem lookup_missed {t : TrackerNo} {tr : Tracker} (on : trackerOf s t = some tr)
    (opened : isClosed s (lineSet tr.line) = false) (untagged : ∀ v, checkWay (wayOf s (lineSet tr.line) v) ≠ .tagError)
    (missing : matchingWay s tr.line = none) :
    lookup t s = lookupMiss t tr (handErrors (lineSet tr.line) allWays .lookup s) := by
  rw [lookup_open on opened untagged, missing]

/-- A coherent request that finds no way asks for one, an UPGRADE as a READ_OWN (R63, R105). -/
theorem lookupMiss_coherent {t : TrackerNo} {tr : Tracker} {kind : TrackerKind} (on : trackerOf s t = some tr)
    (served : (tr.kind = .readShared ∧ kind = .readShared) ∨ (tr.kind = .readOwn ∧ kind = .readOwn) ∨
      (tr.kind = .upgrade ∧ kind = .readOwn)) :
    lookupMiss t tr s = askWay t (setTracker s t (some { tr with kind := kind })) := by
  have coherent : isCoherent tr.kind = true := by
    rcases served with ⟨e, _⟩ | ⟨e, _⟩ | ⟨e, _⟩ <;> rw [e] <;> rfl
  have serves : servedAs tr.kind 0 .free = kind := by
    rcases served with ⟨e, rfl⟩ | ⟨e, rfl⟩ | ⟨e, rfl⟩ <;> rw [e] <;> rfl
  rw [lookupMiss, updTracker_of_some _ on, serves]
  exact if_pos coherent

/-- A direct kind that finds no way goes on without one (R119). -/
theorem lookupMiss_direct {t : TrackerNo} {tr : Tracker} (on : trackerOf s t = some tr)
    (direct : tr.kind = .directRead ∨ tr.kind = .atomic ∨ tr.kind = .directWrite) : lookupMiss t tr s = goOn t s := by
  have coherent : isCoherent tr.kind = false := by
    rcases direct with e | e | e <;> rw [e] <;> rfl
  have serves : servedAs tr.kind 0 .free = tr.kind := by
    rcases direct with e | e | e <;> rw [e] <;> rfl
  rw [lookupMiss, updTracker_of_some _ on, serves, setTracker_same on]
  exact if_neg (by simp [coherent])

/-- A request with no owner lost and nothing in its buffer that needs the contents asks memory (R77, R100). -/
theorem goOn_requestRead {t : TrackerNo} {tr : Tracker} (on : trackerOf s t = some tr) (steady : tr.scrubbing = false)
    (kept : tr.ownerLost = false) (empty : tr.buffer = none)
    (needs : tr.kind = .readShared ∨ tr.kind = .readOwn ∨ tr.kind = .directRead ∨ tr.kind = .atomic) :
    goOn t s = requestRead t s := by
  unfold goOn
  rw [on]
  dsimp only
  rw [if_neg (by simp [steady]), kept, empty]
  rcases needs with e | e | e | e <;> rw [e] <;> rfl

/-- A DIRECT_WRITE with no owner lost goes to its write and reply (R120, R123). -/
theorem goOn_directWrite {t : TrackerNo} {tr : Tracker} (on : trackerOf s t = some tr) (steady : tr.scrubbing = false)
    (kept : tr.ownerLost = false) (kind : tr.kind = .directWrite) : goOn t s = writeOrReply t s := by
  unfold goOn
  rw [on]
  dsimp only
  rw [if_neg (by simp [steady]), kept, kind]
  rfl

/-! ### The asking for a way (R61, R63, R164, R165) -/

theorem askWay_closed {t : TrackerNo} {tr : Tracker} (on : trackerOf s t = some tr)
    (closed : isClosed s (lineSet tr.line) = true) : askWay t s = release t s := by
  unfold askWay
  rw [on]
  exact if_pos closed

/-- With a FREE way the least recently touched one is reserved, and the request goes on. -/
theorem askWay_free {t : TrackerNo} {tr : Tracker} {w : WayNo} (on : trackerOf s t = some tr)
    (opened : isClosed s (lineSet tr.line) = false) (free : leastRecentFree s (lineSet tr.line) = some w) :
    askWay t s = goOn t (leaveVictimWait t (putWay (lineSet tr.line) w (reservedWay (lineTag tr.line) t) s)) := by
  unfold askWay
  rw [on]
  dsimp only
  rw [if_neg (by simp [opened]), free]

/-- With no FREE way the eight ways are read, and the set as then read decides. -/
theorem askWay_full {t : TrackerNo} {tr : Tracker} {read : State} (on : trackerOf s t = some tr)
    (opened : isClosed s (lineSet tr.line) = false) (full : leastRecentFree s (lineSet tr.line) = none)
    (handed : handErrors (lineSet tr.line) allWays .reserve s = read) : askWay t s =
      if isClosed read (lineSet tr.line) then release t read
      else if (victimOf read (lineSet tr.line)).isSome then claimEviction t (waitForWay t read)
      else if someWayInUse read (lineSet tr.line) then waitForWay t read
      else if allLost read (lineSet tr.line) then reply t (some .noEntry) (leaveVictimWait t read)
      else waitForWay t read := by
  subst handed
  unfold askWay
  rw [on]
  dsimp only
  rw [if_neg (by simp [opened]), full]

theorem someWayInUse_iff {k : SetNo} : someWayInUse s k = true ↔ ∃ w, (wayOf s k w).binding ≠ none ∨
    (wayOf s k w).code = 1 ∨ (2 ≤ (wayOf s k w).code.toNat ∧
      ∃ u x, trackerOf s u = some x ∧ x.line = lineOf (wayOf s k w).tag k) := by
  simp only [someWayInUse, List.any_eq_true, mem_allWays, true_and, decide_eq_true_eq, trackerOn_isSome_iff,
    Option.isSome_iff_ne_none (o := (wayOf s k _).binding)]

theorem allLost_iff {k : SetNo} : allLost s k = true ↔ ∀ w, (wayOf s k w).code = 4 := by
  simp [allLost, mem_allWays]

/-- Whether ways are in use depends on the directory and the trackers alone. -/
theorem someWayInUse_congr {a b : State} (dir : a.dir = b.dir) (trk : a.trk = b.trk) (k : SetNo) :
    someWayInUse a k = someWayInUse b k := by
  rw [Bool.eq_iff_iff, someWayInUse_iff, someWayInUse_iff]
  simp only [wayOf_of_dir dir, trackerOf, trk]

/-- A tracker that waits for a way, in its place among those that wait (R61). -/
theorem waitForWay_eq {t : TrackerNo} {tr : Tracker} (on : trackerOf s t = some tr) : waitForWay t s =
    { s with trk := { s.trk with
      table := s.trk.table.set t (some { tr with phase := .victimWait })
      victimWait := if t ∈ s.trk.victimWait then s.trk.victimWait else s.trk.victimWait ++ [t] } } := by
  rw [waitForWay, updTracker_of_some _ on]
  rfl

/-- What the freeing of a tracker in use leaves of the other blocks. -/
theorem freeTracker_frame {t : TrackerNo} {tr : Tracker} (on : trackerOf s t = some tr) :
    (freeTracker t s).hli = s.hli ∧ (freeTracker t s).dir = s.dir ∧ (freeTracker t s).mem = s.mem ∧
      (freeTracker t s).mgmt = s.mgmt := by
  obtain ⟨ask, freed⟩ := freeTracker_spec on
  rw [freed]
  exact ⟨rfl, rfl, rfl, rfl⟩

/-- A request refused with no way bound: the refusal ends it, and its tracker is free (R78, R106). -/
theorem reply_refused {t : TrackerNo} {tr : Tracker} {tag : HostTag} (reason : RefuseReason)
    (on : trackerOf s t = some tr) (unbound : ∀ w, (wayOf s (lineSet tr.line) w).binding ≠ some t)
    (requester : tr.requester = some (h, tag)) :
    reply t (some reason) s = freeTracker t (requestEnded h tag (.refuseReq tag reason) s) :=
  reply_unbound _ on (boundWay_of_none unbound) (by simp only [sendResponse, requester])

/-- The interfaces once a request has ended (R3, R20). -/
theorem hliOf_requestEnded (h p : HostNo) (tag : HostTag) (m : HubMsg) (s : State) :
    hliOf (requestEnded h tag m s) p = if h = p then { hliOf s h with
      tags := (hliOf s h).tags.filter (· ≠ tag)
      outbound := (hliOf s h).outbound ++ (if isPlaced s h m then [m] else []) } else hliOf s p :=
  hliOf_updHli s h p (fun x => { x with
    tags := x.tags.filter (· ≠ tag)
    outbound := x.outbound ++ (if isPlaced s h m then [m] else []) })

/-! ### The way given to an eviction (R61, R164) -/

theorem isVictim_iff {k : SetNo} {w : WayNo} : isVictim s k w = true ↔ checkWay (wayOf s k w) = .good ∧
    (wayOf s k w).code ≠ 4 ∧ (wayOf s k w).binding = none ∧
      ∀ u x, trackerOf s u = some x → x.line ≠ lineOf (wayOf s k w).tag k := by
  rw [← trackerOn_isNone_iff]
  simp [isVictim]

theorem isScrubVictim_iff {k : SetNo} {w : WayNo} : isScrubVictim s k w = true ↔
    checkWay (wayOf s k w) = .stateError ∧ (wayOf s k w).binding = none ∧
      ∀ u x, trackerOf s u = some x → x.line ≠ lineOf (wayOf s k w).tag k := by
  rw [← trackerOn_isNone_iff]
  simp [isScrubVictim]

/-- The first of an order that passes a test. -/
theorem find_split {P : WayNo → Bool} {w : WayNo} {before after : List WayNo} (passes : P w = true)
    (first : ∀ v ∈ before, ¬P v = true) : (before ++ w :: after).find? P = some w := by
  rw [List.find?_append, List.find?_eq_none.mpr first, Option.none_or, List.find?_cons_of_pos passes]

theorem victimOf_of_victim {k : SetNo} {w : WayNo} (found : (setOf s k).order.find? (isVictim s k) = some w) :
    victimOf s k = some w := by
  rw [victimOf, found]

theorem victimOf_of_no_victim {k : SetNo} (missing : ∀ v ∈ (setOf s k).order, ¬isVictim s k v = true) :
    victimOf s k = (setOf s k).order.find? (isScrubVictim s k) := by
  rw [victimOf, List.find?_eq_none.mpr missing]

/-! ### Who asks again, and the claims (R61, R79) -/

theorem evictGranted_eq_false_iff {t : TrackerNo} :
    evictGranted s t = false ↔ ∀ u x, trackerOf s u = some x → x.waitingRequester ≠ some t := by
  rw [evictGranted, List.any_eq_false]
  refine forall_congr' fun u => ⟨fun fresh x on => ?_, fun fresh _ => ?_⟩
  · simpa [on] using fresh (by simp [allTrackers])
  · cases on : trackerOf s u with
    | none => simp
    | some x => simpa using fresh x on

theorem waitsOn_iff {k : SetNo} {t : TrackerNo} : waitsOn s k t = true ↔
    (∃ tr, trackerOf s t = some tr ∧ lineSet tr.line = k) ∧
      ∀ u x, trackerOf s u = some x → x.waitingRequester ≠ some t := by
  rw [← evictGranted_eq_false_iff]
  cases on : trackerOf s t <;> simp [waitsOn, on]

theorem stillAsks_iff {t : TrackerNo} : stillAsks s t = true ↔
    (∃ tr, trackerOf s t = some tr ∧ tr.phase = .victimWait) ∧
      ∀ u x, trackerOf s u = some x → x.waitingRequester ≠ some t := by
  rw [← evictGranted_eq_false_iff]
  cases on : trackerOf s t <;> simp [stillAsks, on]

theorem dueAsk_cons {t : TrackerNo} {rest : List TrackerNo} (next : s.trk.askAgain = t :: rest) : dueAsk s =
    some (if stillAsks s t = true then askWay t { s with trk := { s.trk with askAgain := rest } }
      else { s with trk := { s.trk with askAgain := rest } }) := by
  rw [dueAsk, next]
  rfl

theorem freeInternalTracker_of_free {i : TrackerNo} (pool : 56 ≤ i.val) (free : trackerOf s i = none)
    (lowest : ∀ u : TrackerNo, 56 ≤ u.val → u < i → trackerOf s u ≠ none) : freeInternalTracker s = some i := by
  rw [freeInternalTracker, internalPool, List.find?_filter]
  refine find_allTrackers (by simp [pool, free]) fun u below => ?_
  by_cases internal : 56 ≤ u.val
  · simpa [internal] using lowest u internal below
  · simp [internal]

theorem freeInternalTracker_of_full (full : ∀ i : TrackerNo, 56 ≤ i.val → trackerOf s i ≠ none) :
    freeInternalTracker s = none := by
  rw [freeInternalTracker, List.find?_eq_none]
  intro i internal
  simpa using full i ((mem_internalPool i).mp internal)

theorem dueInternal_none (stays : s.trk.claims = [] ∨ ∀ i : TrackerNo, 56 ≤ i.val → trackerOf s i ≠ none) :
    dueInternal s = none := by
  unfold dueInternal
  rcases stays with empty | full
  · rw [empty]
  · rw [freeInternalTracker_of_full full]
    cases s.trk.claims <;> rfl

/-- An eviction's claim at the head is granted the lowest free internal tracker (R79). -/
theorem dueInternal_evict {t i : TrackerNo} {rest : List InternalClaim} (next : s.trk.claims = .evict t :: rest)
    (free : freeInternalTracker s = some i) :
    dueInternal s = some (grantEviction t i { s with trk := { s.trk with claims := rest } }) := by
  simp only [dueInternal, next, free]

/-- So is the walker's (R79). -/
theorem dueInternal_walker {i : TrackerNo} {rest : List InternalClaim} (next : s.trk.claims = .walker :: rest)
    (free : freeInternalTracker s = some i) :
    dueInternal s = some (grantWalker i { s with trk := { s.trk with claims := rest } }) := by
  simp only [dueInternal, next, free]

/-! ### The grant for an eviction (R61, R79, R93, R164) -/

theorem grantEviction_closed {a i : TrackerNo} {tr : Tracker} (on : trackerOf s a = some tr)
    (closed : isClosed s (lineSet tr.line) = true) : grantEviction a i s = release a s := by
  unfold grantEviction
  rw [on]
  exact if_pos closed

/-- The grant in an open set: the eight ways read again, and by the victim then found. -/
theorem grantEviction_open {a i : TrackerNo} {tr : Tracker} {read : State} (on : trackerOf s a = some tr)
    (opened : isClosed s (lineSet tr.line) = false)
    (handed : handErrors (lineSet tr.line) allWays .reserve s = read) : grantEviction a i s =
      if isClosed read (lineSet tr.line) then read
      else match victimOf read (lineSet tr.line) with
        | none => letAsk (· = a) read
        | some w =>
          (fun bound => if checkWay (wayOf read (lineSet tr.line) w) = .stateError then startScrub i bound
            else startInternal i (roundTo .drop (holdersOf (entryOf (wayOf read (lineSet tr.line) w))))
              (entryOf (wayOf read (lineSet tr.line) w)) bound)
          (bindWay (lineSet tr.line) w i (setTracker read i (some
            { newTracker .evict (lineOf (wayOf read (lineSet tr.line) w).tag (lineSet tr.line)) .tracked none .absent with
              waitingRequester := some a }))) := by
  subst handed
  unfold grantEviction
  rw [on]
  dsimp only
  rw [if_neg (by simp [opened])] <;> cases victimOf (handErrors _ _ _ _) _ <;> rfl

/-- Settles O31: the lookup that misses, the asking for a way, the victim, who asks again, the claims and the grant. -/
theorem lookupMisses : Obligations.LookupMisses := by
  unfold Obligations.LookupMisses
  intro victim scrubbed reserved
  have victims (s : State) (k : SetNo) (w : WayNo) : isVictim s k w = true ↔ victim s k w := isVictim_iff
  have scrubs (s : State) (k : SetNo) (w : WayNo) : isScrubVictim s k w = true ↔ scrubbed s k w := isScrubVictim_iff
  refine ⟨?_, ?_, fun k s w before after order => ⟨fun v first => ?_, fun none_ v first => ?_, fun none_ => ?_⟩,
    fun k s => ⟨rfl, fun t => waitsOn_iff, fun empty => ?_, fun t rest next => ?_⟩,
    fun s => ⟨dueInternal_none, fun i c rest next pool free lowest => ?_⟩, ?_⟩
  · intro t tr s k service on setup unparked tracked opened untagged missing read
    have due : LooksUp s t tr := ⟨service, on, setup, unparked, tracked⟩
    obtain ⟨record, latch, alertLow, handed⟩ := handErrors_of_no_tag untagged .lookup
    have missed : lookup t s = lookupMiss t tr read :=
      lookup_missed on opened untagged (matchingWay_of_no_way missing)
    have read_on : trackerOf read t = some tr := by
      change trackerOf (handErrors k allWays .lookup s) t = _
      rw [handed]
      exact on
    rw [due.exec, missed]
    refine ⟨fun kind served => ?_, fun steady kept empty needs => ?_, fun steady kept write => ?_⟩
    · rw [lookupMiss_coherent read_on served]
      refine ⟨rfl, fun w before after steady kept empty order free first => ?_⟩
      have handed : read = afterErrors record latch alertLow s := handed
      clear_value read
      subst handed
      have serves : kind = .readShared ∨ kind = .readOwn := by
        rcases served with ⟨_, e⟩ | ⟨_, e⟩ | ⟨_, e⟩ <;> simp [e]
      have asker : trackerOf (setTracker (afterErrors record latch alertLow s) t (some { tr with kind := kind })) t =
          some { tr with kind := kind } := (trackerOf_setTracker ..).trans (if_pos rfl)
      rw [askWay_free asker opened (leastRecentFree_of_order order free first)]
      refine congrArg (fun x => Host.Outcome.next (settle x)) (goOn_requestRead (tr := { tr with kind := kind }) ?_
        steady kept empty (serves.elim .inl fun e => .inr (.inl e)))
      exact asker
    · rw [lookupMiss_direct read_on (needs.imp_right .inl), goOn_requestRead read_on steady kept empty (.inr (.inr needs))]
    · rw [lookupMiss_direct read_on (.inr (.inr write)), goOn_directWrite read_on steady kept write]
  · intro t tr s on k read withdrawn waiting inUse
    refine ⟨askWay_closed on, fun opened => ⟨fun w before after order free first => ?_, fun full => ?_⟩⟩
    · exact askWay_free on opened (leastRecentFree_of_order order free first)
    · have none_free := leastRecentFree_of_full full
      rw [askWay_full on opened none_free (read := read) rfl]
      refine ⟨fun tagged => if_pos (handErrors_closes tagged .reserve), fun untagged => ?_⟩
      obtain ⟨record, latch, alertLow, handed⟩ := handErrors_of_no_tag untagged .reserve
      have handed : read = afterErrors record latch alertLow s := handed
      clear_value read
      subst handed
      have asker : trackerOf (afterErrors record latch alertLow s) t = some tr := on
      have same_victim : victimOf (afterErrors record latch alertLow s) k = victimOf s k := victimOf_congr rfl rfl k
      have same_use : someWayInUse (afterErrors record latch alertLow s) k = someWayInUse s k :=
        someWayInUse_congr rfl rfl k
      rw [if_neg (by exact (Bool.not_eq_true _).mpr opened)]
      change (_ → (if (victimOf (afterErrors record latch alertLow s) k).isSome = true then _ else _) = _) ∧ _
      rw [same_victim, same_use]
      refine ⟨fun some_ => ?_, fun none_ used => ?_, fun none_ unused lost => ?_⟩
      · rw [if_pos (Option.isSome_iff_ne_none.mpr some_), waitForWay_eq asker]
        rfl
      · rw [if_neg (by simp [none_]), if_pos (someWayInUse_iff.mpr used), waitForWay_eq asker]
        rfl
      · have all_lost : allLost (afterErrors record latch alertLow s) (lineSet tr.line) = true := allLost_iff.mpr lost
        rw [if_neg (by simp [none_]), if_neg (mt someWayInUse_iff.mp unused), if_pos all_lost]
        refine ⟨rfl, fun h tag requester => ?_⟩
        have unbound (v : WayNo) : (wayOf s k v).binding ≠ some t := fun bound =>
          unused ⟨v, .inl (by rw [bound]; simp)⟩
        have refused : reply t (some .noEntry) (leaveVictimWait t (afterErrors record latch alertLow s)) = _ :=
          reply_refused .noEntry on unbound requester
        intro m x
        obtain ⟨hli, dir, mem, mgmt⟩ := freeTracker_frame
          (s := requestEnded h tag m (leaveVictimWait t (afterErrors record latch alertLow s))) on
        have links (p : HostNo) : hliOf x p =
            hliOf (requestEnded h tag m (leaveVictimWait t (afterErrors record latch alertLow s))) p := by
          change (reply t _ _).hli[p] = _
          rw [refused, hli]
          rfl
        refine ⟨refused, ?_, fun u other => ?_, ?_, fun p other => ?_, ?_, ?_, ?_⟩
        · change trackerOf (reply t _ _) t = _
          rw [refused, trackerOf_freeTracker, if_pos rfl]
        · change trackerOf (reply t _ _) u = _
          rw [refused, trackerOf_freeTracker, if_neg other.symm]
          rfl
        · rw [links, hliOf_requestEnded, if_pos rfl]
          rfl
        · rw [links, hliOf_requestEnded, if_neg other.symm]
          rfl
        · exact (congrArg State.dir refused).trans dir
        · exact (congrArg State.mem refused).trans mem
        · exact (congrArg State.mgmt refused).trans mgmt
  · refine victimOf_of_victim ?_
    rw [order, find_split ((victims ..).mpr v) fun u earlier => mt (victims ..).mp (first u earlier)]
  · rw [victimOf_of_no_victim fun u in_ => mt (victims ..).mp (none_ u in_), order,
      find_split ((scrubs ..).mpr v) fun u earlier => mt (scrubs ..).mp (first u earlier)]
  · rw [victimOf_of_no_victim fun u in_ => mt (victims ..).mp (none_ u in_).1, List.find?_eq_none]
    exact fun u in_ => mt (scrubs ..).mp (none_ u in_).2
  · rw [dueAsk, empty]
  · intro now asks
    rw [dueAsk_cons next]
    have asking : stillAsks s t = true ↔ asks := stillAsks_iff
    exact ⟨fun a => by rw [if_pos (asking.mpr a)], fun n => by rw [if_neg (mt asking.mp n)]⟩
  · have found := freeInternalTracker_of_free pool free lowest
    refine ⟨?_, ?_⟩
    · rintro t rfl
      exact dueInternal_evict next found
    · rintro rfl
      exact dueInternal_walker next found
  · intro a i tr s on k read
    refine ⟨grantEviction_closed on, fun opened tagged => ?_, fun opened untagged => ?_⟩
    · rw [grantEviction_open on opened rfl]
      exact if_pos (handErrors_closes tagged .reserve)
    · obtain ⟨record, latch, alertLow, handed⟩ := handErrors_of_no_tag untagged .reserve
      have still : isClosed read k = false := by
        change isClosed (handErrors k allWays .reserve s) k = _
        rw [handed]
        exact opened
      have victim_read : victimOf read k = victimOf s k := by
        change victimOf (handErrors k allWays .reserve s) k = _
        rw [handed]
        exact victimOf_congr rfl rfl k
      rw [grantEviction_open on opened (read := read) rfl, if_neg (by rw [still]; simp), victim_read]
      have handed : read = afterErrors record latch alertLow s := handed
      clear_value read
      subst handed
      refine ⟨fun none_ => by rw [none_]; rfl, fun w some_ => ?_⟩
      rw [some_]
      intro x bound
      exact ⟨fun good => if_neg (by exact ne_of_eq_of_ne good (by decide)), fun broken => if_pos broken⟩

/-! ### The lookup that refuses (R65, R71, R106) -/

/-- The refusal that an entry as reported brings (R71, R106). -/
theorem refusalAt_eq_some {tr : Tracker} {e : Entry} {reason : RefuseReason}
    (refused : (isCoherent tr.kind = true ∧ e = .owned h ∧ reason = .protocol) ∨
      (e = .lost ∧ isFullWrite tr = false ∧ reason = .lost)) : refusalAt tr h e = some reason := by
  rcases refused with ⟨coherent, rfl, rfl⟩ | ⟨rfl, part, rfl⟩
  · simp [refusalAt, coherent]
  · simp [refusalAt, part]

/-- The lookup in a closed set, and the one whose read finds a tag parity error, release the request (R165). -/
theorem lookup_closed {t : TrackerNo} {tr : Tracker} (on : trackerOf s t = some tr)
    (closed : isClosed s (lineSet tr.line) = true) : lookup t s = release t s := by
  unfold lookup
  rw [on]
  exact if_pos closed

theorem lookup_tagged {t : TrackerNo} {tr : Tracker} (on : trackerOf s t = some tr)
    (opened : isClosed s (lineSet tr.line) = false)
    (tagged : ∃ v, checkWay (wayOf s (lineSet tr.line) v) = .tagError) :
    lookup t s = release t (handErrors (lineSet tr.line) allWays .lookup s) := by
  unfold lookup
  rw [on]
  dsimp only
  rw [if_neg (by simp [opened]), if_pos (hasTagError_of_tag tagged)]

/-- A lookup that is not due is no event. -/
theorem exec_lookup_not_due {t : TrackerNo} {tr : Tracker} (on : trackerOf s t = some tr)
    (stays : s.resetPhase ≠ .noReset ∨ tr.mode = .directOnly ∨ tr.phase ≠ .setup ∨ t ∈ s.trk.reparkWait) :
    exec (.trackerLookup t) s = .next (settle s) := by
  change Host.Outcome.next (settle (trackerLookup t s)) = _
  rw [trackerLookup, if_neg]
  rintro ⟨service, due⟩
  have in_service : s.resetPhase = .noReset := by simpa [inReset] using service
  simp only [lookupDue, on, Bool.and_eq_true, decide_eq_true_eq, Bool.not_eq_true', List.contains_eq_mem,
    decide_eq_false_iff_not] at due
  obtain ⟨⟨tracked, setup⟩, unparked⟩ := due
  rcases stays with reset | direct | phase | parked
  · exact reset in_service
  · simp [direct] at tracked
  · exact phase setup
  · exact unparked parked

/-! ### The release (R66, R91, R165) -/

theorem giveUpReservation_unbound {t : TrackerNo} {tr : Tracker} (on : trackerOf s t = some tr)
    (unbound : ∀ v, (wayOf s (lineSet tr.line) v).binding ≠ some t) : giveUpReservation t s = s := by
  unfold giveUpReservation
  rw [on]
  dsimp only
  rw [boundWay_of_none unbound]

theorem giveUpReservation_reserved {t : TrackerNo} {tr : Tracker} {w : WayNo} (on : trackerOf s t = some tr)
    (bound : boundWay s (lineSet tr.line) t = some w) (reserved : (wayOf s (lineSet tr.line) w).code = 1) :
    giveUpReservation t s = reportChange (lineSet tr.line) (touchLeast (lineSet tr.line) w (putFree (lineSet tr.line) w s)) := by
  unfold giveUpReservation
  rw [on]
  dsimp only
  rw [bound]
  exact if_pos reserved

/-- The release of a tracker whose reservation is given up leaves a tracker bound to no way. -/
theorem release_eq {t : TrackerNo} {tr : Tracker} {y : State} (on : trackerOf s t = some tr)
    (gives : giveUpReservation t s = y) : release t s =
      if y.trk.reparkWait = [] ∧ y.disp.park.length < 48 then reparkNow t (leaveVictimWait t y)
      else (fun z : State => { z with trk := { z.trk with reparkWait := insertNew t z.trk.reparkWait } })
        (updTracker (leaveVictimWait t y) t (fun tr => { tr with phase := .setup })) := by
  subst gives
  unfold release
  rw [on]
  rfl

theorem boundWay_of_only {k : SetNo} {t : TrackerNo} {w : WayNo} (bound : (wayOf s k w).binding = some t)
    (only : ∀ v, v ≠ w → (wayOf s k v).binding ≠ some t) : boundWay s k t = some w :=
  find_allWays (decide_eq_true bound) fun v below => decide_eq_false (only v (ne_of_lt below))

/-- A release with a place free parks the request and frees the tracker (R91). -/
theorem release_parks {t : TrackerNo} {tr : Tracker} {p : Parked} (on : trackerOf s t = some tr)
    (unbound : ∀ v, (wayOf s (lineSet tr.line) v).binding ≠ some t) (request : requestOf tr = some p)
    (alone : s.trk.reparkWait = []) (room : s.disp.park.length < 48) : release t s =
      freeTracker t { leaveVictimWait t s with disp := { s.disp with park := parkAhead p s.disp.park } } := by
  rw [release_eq on (giveUpReservation_unbound on unbound), if_pos ⟨alone, room⟩]
  exact reparkNow_of_request on request

/-- A release with none waits in SETUP to re-park (R91). -/
theorem release_waits {t : TrackerNo} {tr : Tracker} (on : trackerOf s t = some tr)
    (unbound : ∀ v, (wayOf s (lineSet tr.line) v).binding ≠ some t)
    (full : s.trk.reparkWait ≠ [] ∨ 48 ≤ s.disp.park.length) : release t s = { s with
      trk := {
        table := s.trk.table.set t (some { tr with phase := .setup })
        claims := s.trk.claims.filter (· ≠ .evict t)
        victimWait := s.trk.victimWait.filter (· ≠ t)
        askAgain := s.trk.askAgain.filter (· ≠ t)
        reparkWait := if t ∈ s.trk.reparkWait then s.trk.reparkWait else s.trk.reparkWait ++ [t] } } := by
  have on' : trackerOf (leaveVictimWait t s) t = some tr := on
  rw [release_eq on (giveUpReservation_unbound on unbound), if_neg, updTracker_of_some _ on']
  · rfl
  · rintro ⟨alone, room⟩
    rcases full with others | full
    · exact others alone
    · omega

/-- A reserved way given up first (R66). -/
theorem release_reserved {t : TrackerNo} {tr : Tracker} {w : WayNo} (on : trackerOf s t = some tr)
    (bound : (wayOf s (lineSet tr.line) w).binding = some t) (reserved : (wayOf s (lineSet tr.line) w).code = 1)
    (only : ∀ v, v ≠ w → (wayOf s (lineSet tr.line) v).binding ≠ some t) : release t s =
      release t (reportChange (lineSet tr.line) (touchLeast (lineSet tr.line) w (putFree (lineSet tr.line) w s))) := by
  have gives := giveUpReservation_reserved on (boundWay_of_only bound only) reserved
  generalize made : reportChange (lineSet tr.line) (touchLeast (lineSet tr.line) w (putFree (lineSet tr.line) w s)) = y
    at gives ⊢
  have on' : trackerOf y t = some tr := by rw [← made]; exact on
  have unbound (v : WayNo) : (wayOf y (lineSet tr.line) v).binding ≠ some t := by
    have freed : wayOf y (lineSet tr.line) v = if lineSet tr.line = lineSet tr.line ∧ w = v
        then freeWay (wayOf s (lineSet tr.line) w) else wayOf s (lineSet tr.line) v := by
      rw [← made, ← wayOf_putFree]
      exact wayOf_touchLeast ..
    rw [freed]
    by_cases same : w = v
    · rw [if_pos ⟨rfl, same⟩]
      exact Option.some_ne_none t ∘ Eq.symm
    · rw [if_neg fun e => same e.2]
      exact only v fun e => same e.symm
  rw [release_eq on gives, release_eq on' (giveUpReservation_unbound on' unbound)]

theorem trackerOf_lookupTaken_other {s read : State} {t u : TrackerNo} (tr : Tracker) (h : HostNo) (w : WayNo)
    (other : u ≠ t) : trackerOf (lookupTaken s read t tr h w) u = trackerOf read u := by
  change trackerOf (setTracker read t _) u = _
  rw [trackerOf_setTracker, if_neg other.symm]

/-- The way just found is the way of its tracker. -/
theorem boundWay_lookupTaken {s read : State} {t : TrackerNo} {tr : Tracker} (h : HostNo) (w : WayNo)
    (dir : read.dir = s.dir) (alone : ∀ v, (wayOf s (lineSet tr.line) v).binding ≠ some t) :
    boundWay (lookupTaken s read t tr h w) (lineSet tr.line) t = some w := by
  refine boundWay_of_only ?_ fun v other => ?_
  · rw [wayOf_lookupTaken, if_pos ⟨rfl, rfl⟩]
  · rw [wayOf_lookupTaken, if_neg fun e => other e.2.symm, wayOf_of_dir dir]
    exact alone v

/-- What an entry is masked to follows the port states alone. -/
theorem maskEntry_congr {x : State} (ports : x.ports = s.ports) (e : Entry) : maskEntry x e = maskEntry s e := by
  have admitted : isAdmitted x = isAdmitted s := by
    have states (p : HostNo) : portState x p = portState s p := by rw [portState, portState, portOf, portOf, ports]
    funext p
    simp only [isAdmitted, states]
  cases e <;> simp only [maskEntry, holding, admitted] <;> rfl

theorem isPlaced_congr {x : State} (ports : x.ports = s.ports) (hli : x.hli = s.hli) (p : HostNo) (m : HubMsg) :
    isPlaced x p m = isPlaced s p m := by
  have states : portState x p = portState s p := by rw [portState, portState, portOf, portOf, ports]
  have links : hliOf x p = hliOf s p := by rw [hliOf, hliOf, hli]
  simp only [isPlaced, states, links]

/-- What a lookup that refuses for the entry found leaves (R65, R71, R106). -/
theorem reply_lookupTaken {read : State} {t : TrackerNo} {tr : Tracker} {tag : HostTag} (reason : RefuseReason)
    {w : WayNo} {record : Option DirRecord} {latch : BitVec 16} {alertLow : Bool}
    (errors : read = afterErrors record latch alertLow s) (requester : tr.requester = some (h, tag))
    (unbound : ∀ v, (wayOf s (lineSet tr.line) v).binding ≠ some t) (alone : tr.waitingRequester = none) :
    let stored := entryOf (wayOf s (lineSet tr.line) w)
    let m := HubMsg.refuseReq tag reason
    let x := reply t (some reason) (lookupTaken s read t tr h w)
    x = freeTracker t (reportChange (lineSet tr.line) (touchWritten (lineSet tr.line) w
      (writeEntry (lineSet tr.line) w (lineTag tr.line) stored .commit
        (requestEnded h tag m (lookupTaken s read t tr h w))))) ∧
    trackerOf x t = none ∧ (∀ u, u ≠ t → trackerOf x u = trackerOf s u) ∧
    wayOf x (lineSet tr.line) w = wayFor (wayOf s (lineSet tr.line) w) (lineTag tr.line) (maskEntry s stored) ∧
    (∀ j v, (j, v) ≠ (lineSet tr.line, w) → wayOf x j v = wayOf s j v) ∧
    hliOf x h = { hliOf s h with
      tags := (hliOf s h).tags.filter (· ≠ tag)
      outbound := (hliOf s h).outbound ++ (if isPlaced s h m then [m] else []) } ∧
    (∀ p, p ≠ h → hliOf x p = hliOf s p) ∧ x.mem = s.mem ∧ x.integ = read.integ := by
  intro stored m
  have dir : read.dir = s.dir := by rw [errors]; rfl
  have ports : read.ports = s.ports := by rw [errors]; rfl
  have hli : read.hli = s.hli := by rw [errors]; rfl
  have trk : read.trk = s.trk := by rw [errors]; rfl
  have mem : read.mem = s.mem := by rw [errors]; rfl
  have takes := trackerOf_lookupTaken s read t tr h w
  have binds := boundWay_lookupTaken (h := h) (w := w) dir unbound
  have sends (y : State) : sendResponse (hitTracker s h stored tr) (some reason) y = respond h tag m y := by
    simp only [sendResponse, hitTracker, requester]
    rfl
  have masks := maskEntry_congr (s := s) (x := lookupTaken s read t tr h w) ports stored
  have way := wayOf_lookupTaken s read t tr h w
  have others := fun u (other : u ≠ t) => trackerOf_lookupTaken_other (s := s) (read := read) tr h w other
  have links : (lookupTaken s read t tr h w).hli = s.hli := hli
  have memory : (lookupTaken s read t tr h w).mem = s.mem := mem
  have unit_ : (lookupTaken s read t tr h w).integ = read.integ := rfl
  have placed : isPlaced (lookupTaken s read t tr h w) h m = isPlaced s h m := isPlaced_congr ports hli h m
  have reads (j : SetNo) (v : WayNo) : wayOf read j v = wayOf s j v := wayOf_of_dir dir j v
  have tracks (u : TrackerNo) : trackerOf read u = trackerOf s u := by rw [trackerOf, trackerOf, trk]
  have line : (hitTracker s h stored tr).line = tr.line := rfl
  have keeps : (hitTracker s h stored tr).stored = stored := rfl
  have lone : (hitTracker s h stored tr).waitingRequester = none := alone
  change trackerOf (lookupTaken s read t tr h w) t = some (hitTracker s h stored tr) at takes
  generalize lookupTaken s read t tr h w = taken at *
  generalize hitTracker s h stored tr = hit at *
  rw [← line] at binds
  have ends := reply_bound (some reason) takes binds lone (sends taken)
  have spec := reply_spec (some reason) takes binds lone (sends taken)
  simp only [presented, keeps, line] at ends spec
  obtain ⟨freed, kept, bound, ways, link, rest, memory', _, integ⟩ := spec
  refine ⟨ends, freed, fun u other => ?_, ?_, fun j v other => ?_, ?_, fun p other => ?_, memory'.trans memory,
    integ.trans unit_⟩
  · exact (kept u other).trans ((others u other).trans (tracks u))
  · rw [bound, way, if_pos ⟨rfl, rfl⟩, masks]
    rfl
  · rw [ways j v other, way, if_neg (by rintro ⟨rfl, rfl⟩; exact other rfl), reads]
  · rw [link, placed, hliOf, hliOf, links]
  · rw [rest p other, hliOf, hliOf, links]

/-- What a freed tracker takes with it, beside its place in the table: it waits for nothing, and of the dispatcher only
the heads passed over change. -/
theorem freeTracker_lists {t : TrackerNo} {tr : Tracker} (on : trackerOf s t = some tr) :
    (freeTracker t s).trk.claims = s.trk.claims.filter (· ≠ .evict t) ∧
      (freeTracker t s).trk.victimWait = s.trk.victimWait.filter (· ≠ t) ∧
      (freeTracker t s).trk.reparkWait = s.trk.reparkWait.filter (· ≠ t) ∧
      (freeTracker t s).disp = { s.disp with passedOver := headsAfterFree t s.disp.passedOver } := by
  rw [freeTracker_of_some on]
  by_cases way : lineHasWay s tr.line = true
  · simp [way, reportChange, letAsk]
  · simp [way]

/-- Settles O32: the refusal with its commit, the two releases, the lookups not due, and what a release does. -/
theorem lookupEnds : Obligations.LookupEnds := by
  refine ⟨?_, fun t tr s on => exec_lookup_not_due on, ?_⟩
  · intro t tr h tag s k service on setup unparked requester tracked
    have due : LooksUp s t tr := ⟨service, on, setup, unparked, tracked⟩
    rw [due.exec]
    refine ⟨fun w reason opened untagged good tagged first unbound alone => ?_,
      fun closed => by rw [lookup_closed on closed], fun opened tagged => by rw [lookup_tagged on opened tagged]⟩
    intro stored refused read m taken
    obtain ⟨record, latch, alertLow, handed⟩ := handErrors_of_no_tag untagged .lookup
    have found : matchingWay s tr.line = some w := matchingWay_of_first (.inl good) tagged first
    have looked : lookup t s = reply t (some reason) (lookupTaken s read t tr h w) := by
      rw [lookup_good on opened untagged found good, lookupHit_eq handed on requester, refusalAt_eq_some refused]
    exact ⟨_, congrArg (fun x => Host.Outcome.next (settle x)) looked,
      reply_lookupTaken reason handed requester unbound alone⟩
  · intro t tr h tag kind s on requester kinds k x
    have request : requestOf tr = some ⟨h, ⟨kind, tag, tr.line, tr.operands⟩⟩ := by
      simp only [requestOf, requester, kinds]
    refine ⟨fun w bound reserved only => release_reserved on bound reserved only, fun unbound =>
      ⟨fun alone room => ?_, release_waits on unbound⟩⟩
    have parks : x = _ := release_parks on unbound request alone room
    have on' : trackerOf { leaveVictimWait t s with disp := { s.disp with
        park := parkAhead ⟨h, ⟨kind, tag, tr.line, tr.operands⟩⟩ s.disp.park } } t = some tr := on
    obtain ⟨claims, waits, repark, disp⟩ := freeTracker_lists on'
    obtain ⟨hli, dir, mem, _⟩ := freeTracker_frame on'
    have tracks := trackerOf_freeTracker t { leaveVictimWait t s with disp := { s.disp with
        park := parkAhead ⟨h, ⟨kind, tag, tr.line, tr.operands⟩⟩ s.disp.park } }
    rw [parks]
    refine ⟨(tracks t).trans (if_pos rfl), fun u other => (tracks u).trans (if_neg other.symm), claims.trans ?_,
      waits.trans ?_, repark.trans ?_, dir, hli, mem, disp.trans ?_⟩
    · simp [leaveVictimWait]
    · simp [leaveVictimWait]
    · simp [leaveVictimWait, alone]
    · rfl

end Sys2Proof.Machine
end

section
/-! PROOFS. How a tracker goes on, the deadlines, the masked write, and the replies with their commits (O33 to O36). -/

namespace Sys2Proof.Machine
variable {s : State} {h : HostNo}

/-! ### What a tracker goes on to (R77, R100, R101, R110, R120, R139, R162) -/

/-- The write of a tracker's modified data, whole (R101). -/
def modifiedWrite (tr : Tracker) : Option (LineData × ByteMask × Bool) :=
  match tr.buffer with
  | some b => if b.modified then some (b.data, fullMask, b.poisoned) else none
  | none => none

theorem holdsModified_eq (tr : Tracker) : holdsModified tr = (modifiedWrite tr).isSome := by
  unfold holdsModified modifiedWrite
  cases tr.buffer with
  | none => rfl
  | some b => cases e : b.modified <;> simp [e]

/-- A tracker that enters MEM_WAIT and claims the write buffer (R101, R136). -/
theorem claimWrite_eq {t : TrackerNo} {tr : Tracker} (on : trackerOf s t = some tr)
    (fresh : WbClaim.tracker t ∉ s.mem.claims) : claimWrite t s =
      { setTracker s t (some { tr with phase := .memWait }) with
        mem := { s.mem with claims := s.mem.claims ++ [.tracker t] } } := by
  rw [claimWrite, updTracker_of_some _ on, addClaim]
  have joins : insertNew (.tracker t) (setTracker s t (some { tr with phase := .memWait })).mem.claims =
      s.mem.claims ++ [.tracker t] := insertNew_of_not_mem fresh
  rw [joins]
  rfl

theorem writeOrReply_some {t : TrackerNo} {tr : Tracker} (on : trackerOf s t = some tr)
    (writes : (trackerWrite tr).isSome = true) : writeOrReply t s = claimWrite t s := by
  rw [writeOrReply, on]
  exact if_pos writes

theorem writeOrReply_none {t : TrackerNo} {tr : Tracker} (on : trackerOf s t = some tr)
    (nothing : trackerWrite tr = none) : writeOrReply t s = reply t none s := by
  rw [writeOrReply, on]
  exact if_neg (by simp [nothing])

theorem contentsReady_eq {t : TrackerNo} {tr : Tracker} (on : trackerOf s t = some tr) : contentsReady t s =
    writeOrReply t (if tr.kind = .atomic then setTracker s t (some { tr with result := atomicOutcome tr }) else s) := by
  rw [contentsReady, updTracker_of_some _ on]
  cases e : tr.kind <;> simp [setTracker_same on]

/-- A tracker that scrubs writes its modified data first, and else ends its scrub (R162). -/
theorem goOn_scrubbing {t : TrackerNo} {tr : Tracker} (on : trackerOf s t = some tr) (scrubs : tr.scrubbing = true) :
    goOn t s = if (modifiedWrite tr).isSome = true then claimWrite t s else endScrub t s := by
  unfold goOn
  rw [on]
  dsimp only
  rw [if_pos scrubs, holdsModified_eq]

theorem goOn_writes {t : TrackerNo} {tr : Tracker} (on : trackerOf s t = some tr) (steady : tr.scrubbing = false)
    (kind : tr.kind = .evict ∨ tr.kind = .sweepRecall ∨ tr.kind = .upgrade) : goOn t s = writeOrReply t s := by
  unfold goOn
  rw [on]
  dsimp only
  rw [if_neg (by simp [steady])]
  rcases kind with e | e | e <;> rw [e]

theorem goOn_write_kind {t : TrackerNo} {tr : Tracker} (on : trackerOf s t = some tr) (steady : tr.scrubbing = false)
    (kind : tr.kind = .directWrite) : goOn t s =
      if tr.ownerLost = true ∧ isFullWrite tr = false then reply t (some .lost) s else writeOrReply t s := by
  unfold goOn
  rw [on]
  dsimp only
  rw [if_neg (by simp [steady]), kind]
  simp only [Bool.not_eq_true']

theorem goOn_contents {t : TrackerNo} {tr : Tracker} (on : trackerOf s t = some tr) (steady : tr.scrubbing = false)
    (kind : tr.kind = .readShared ∨ tr.kind = .readOwn ∨ tr.kind = .directRead ∨ tr.kind = .atomic) : goOn t s =
      if tr.ownerLost = true then reply t (some .lost) s
      else if tr.buffer ≠ none then contentsReady t s else requestRead t s := by
  unfold goOn
  rw [on]
  dsimp only
  rw [if_neg (by simp [steady])]
  rcases kind with e | e | e | e <;> rw [e] <;> cases tr.buffer <;> rfl

/-! ### Asking memory (R139) -/

theorem requestRead_absent {t : TrackerNo} {tr : Tracker} (on : trackerOf s t = some tr)
    (absent : entryFor s.mem tr.line = none) (fresh : t ∉ s.mem.reads) : requestRead t s =
      { setTracker s t (some { tr with phase := .memWait }) with mem := { s.mem with reads := s.mem.reads ++ [t] } } := by
  unfold requestRead
  rw [on]
  dsimp only
  rw [updTracker_of_some _ on]
  have absent' : entryFor (setTracker s t (some { tr with phase := .memWait })).mem tr.line = none := absent
  have joins : insertNew t (setTracker s t (some { tr with phase := .memWait })).mem.reads = s.mem.reads ++ [t] :=
    insertNew_of_not_mem fresh
  rw [absent', joins]
  rfl

theorem requestRead_partial {t : TrackerNo} {tr : Tracker} {e : WbEntry} (on : trackerOf s t = some tr)
    (present : entryFor s.mem tr.line = some e) (partial_ : e.mask ≠ fullMask) (fresh : t ∉ s.mem.reads) :
    requestRead t s = { setTracker s t (some { tr with phase := .memWait }) with mem := { s.mem with
      wbuf := s.mem.wbuf.map (fun x => if x.line = tr.line then { x with held := true } else x)
      reads := s.mem.reads ++ [t] } } := by
  unfold requestRead
  rw [on]
  dsimp only
  rw [updTracker_of_some _ on]
  have present' : entryFor (setTracker s t (some { tr with phase := .memWait })).mem tr.line = some e := present
  have joins : insertNew t (setTracker s t (some { tr with phase := .memWait })).mem.reads = s.mem.reads ++ [t] :=
    insertNew_of_not_mem fresh
  rw [present', joins]
  exact if_neg partial_

theorem requestRead_full {t : TrackerNo} {tr : Tracker} {e : WbEntry} (on : trackerOf s t = some tr)
    (present : entryFor s.mem tr.line = some e) (full : e.mask = fullMask) :
    requestRead t s = contentsReady t (setTracker s t (some { tr with
        phase := .memWait, buffer := some ⟨e.data, false, e.poisoned, .forward, none⟩ })) := by
  unfold requestRead
  rw [on]
  dsimp only
  rw [updTracker_of_some _ on]
  have present' : entryFor (setTracker s t (some { tr with phase := .memWait })).mem tr.line = some e := present
  have on' : trackerOf (setTracker s t (some { tr with phase := .memWait })) t = some { tr with phase := .memWait } := by
    rw [trackerOf_setTracker, if_pos rfl]
  rw [present']
  refine (if_pos full).trans ?_
  rw [fillBuffer, updTracker_of_some _ on', setTracker_setTracker]

/-! ### The write of a tracker (R101, R123) -/

theorem trackerWrite_modified {tr : Tracker} (kind : tr.scrubbing = true ∨ (tr.kind ≠ .directWrite ∧ tr.kind ≠ .atomic)) :
    trackerWrite tr = modifiedWrite tr := by
  unfold trackerWrite
  by_cases scrubs : tr.scrubbing = true
  · exact if_pos scrubs
  · obtain ⟨noWrite, noAtomic⟩ := kind.resolve_left scrubs
    refine (if_neg scrubs).trans ?_
    cases k : tr.kind
    case directWrite => exact absurd k noWrite
    case atomic => exact absurd k noAtomic
    all_goals rfl

theorem trackerWrite_direct {tr : Tracker} {mask : ByteMask} {data : LineData} (steady : tr.scrubbing = false)
    (kind : tr.kind = .directWrite) (operands : tr.operands = .write mask data) : trackerWrite tr =
      match tr.buffer with
      | none => if mask = 0 then none else some (data, mask, false)
      | some b =>
        if mask = fullMask then some (data, fullMask, false)
        else if mask ≠ 0 then some (mergeUnder mask data b.data, fullMask, b.poisoned)
        else if b.modified then some (b.data, fullMask, b.poisoned) else none := by
  unfold trackerWrite
  refine (if_neg (by simp [steady])).trans ?_
  rw [kind, operands]
  cases tr.buffer with
  | none => rfl
  | some b => by_cases empty : mask = 0 <;> simp [empty]

/-! ### The end of a scrub (R162) -/

/-- The record of a host-pool tracker whose scrub has ended: back in SETUP, with its data (R162). -/
def scrubEnded (tr : Tracker) : Tracker :=
  { tr with
    phase := .setup, awaited := [], deadline := none, graceUsed := false, ownerLost := false
    stored := .free, reported := .free, scrubbing := false, dropped := 0, kept := false }

theorem endScrub_host {t : TrackerNo} {tr : Tracker} {w : WayNo} (on : trackerOf s t = some tr)
    (bound : boundWay s (lineSet tr.line) t = some w) (noEvict : tr.kind ≠ .evict) (noSweep : tr.kind ≠ .sweepRecall)
    (alone : tr.waitingRequester = none) : endScrub t s =
      setTracker (reportChange (lineSet tr.line) (touchLeast (lineSet tr.line) w (putFree (lineSet tr.line) w s))) t
        (some (scrubEnded tr)) := by
  have ends : endScrub t s = updTracker
      (reportChange (lineSet tr.line) (touchLeast (lineSet tr.line) w (putFree (lineSet tr.line) w s))) t scrubEnded := by
    unfold endScrub
    rw [on]
    dsimp only
    rw [bound, alone]
    cases k : tr.kind
    case evict => exact absurd k noEvict
    case sweepRecall => exact absurd k noSweep
    all_goals rfl
  rw [ends]
  exact updTracker_of_some _ on

theorem endScrub_internal {t : TrackerNo} {tr : Tracker} {w : WayNo} (on : trackerOf s t = some tr)
    (bound : boundWay s (lineSet tr.line) t = some w) (kind : tr.kind = .evict ∨ tr.kind = .sweepRecall) :
    endScrub t s = freeTracker t (reportChange (lineSet tr.line) (handOver (lineSet tr.line) w tr.waitingRequester
      (touchLeast (lineSet tr.line) w (putFree (lineSet tr.line) w s)))) := by
  unfold endScrub
  rw [on]
  dsimp only
  rw [bound]
  rcases kind with e | e <;> rw [e]

/-- A way made FREE is RESERVED at once for the requester that waits for it (R63). -/
theorem handOver_free {x : State} {k : SetNo} {w : WayNo} {r : TrackerNo} {rt : Tracker}
    (waits : trackerOf x r = some rt) (free : (wayOf x k w).code = 0) :
    handOver k w (some r) x = putWay k w (reservedWay (lineTag rt.line) r) x := by
  rw [handOver, waits]
  exact if_pos free

theorem trackerOf_touchLeast_putFree (k : SetNo) (w : WayNo) (u : TrackerNo) :
    trackerOf (touchLeast k w (putFree k w s)) u = trackerOf s u := rfl

theorem code_touchLeast_putFree (k : SetNo) (w : WayNo) : (wayOf (touchLeast k w (putFree k w s)) k w).code = 0 := by
  rw [wayOf_touchLeast, wayOf_putFree, if_pos ⟨rfl, rfl⟩]
  rfl

/-! ### Which tracker goes on first (assumption 9) -/

theorem roundEnded_iff {t : TrackerNo} : roundEnded s t = true ↔
    ∃ tr, trackerOf s t = some tr ∧ tr.phase = .recall ∧ tr.awaited = [] := by
  unfold roundEnded
  cases trackerOf s t <;> simp

theorem wayHanded_iff {t : TrackerNo} : wayHanded s t = true ↔ ∃ tr w, trackerOf s t = some tr ∧ tr.phase = .victimWait ∧
    (wayOf s (lineSet tr.line) w).binding = some t := by
  unfold wayHanded
  cases on : trackerOf s t with
  | none => simp
  | some tr =>
    have bound : (boundWay s (lineSet tr.line) t).isSome = true ↔ ∃ w, (wayOf s (lineSet tr.line) w).binding = some t := by
      rw [← not_iff_not, Bool.not_eq_true, Option.isSome_eq_false_iff, Option.isNone_iff_eq_none, boundWay_eq_none_iff]
      simp
    simp only [decide_eq_true_eq, bound, Option.some.injEq]
    constructor
    · rintro ⟨waits, w, binds⟩
      exact ⟨tr, w, rfl, waits, binds⟩
    · rintro ⟨_, w, rfl, waits, binds⟩
      exact ⟨waits, w, binds⟩

/-- Settles O33: whom the round's end and the way handed take first, and each way of going on. -/
theorem memoryAsked : Obligations.MemoryAsked := by
  refine ⟨fun s => ?_, fun t tr s on => ?_⟩
  · intro ended handed
    have no_end (t : TrackerNo) (none_ : ¬ended t) : roundEnded s t = false :=
      (Bool.not_eq_true _).mp (mt roundEnded_iff.mp none_)
    have no_hand (t : TrackerNo) (none_ : ¬handed t) : wayHanded s t = false :=
      (Bool.not_eq_true _).mp (mt wayHanded_iff.mp none_)
    refine ⟨fun none_ => ?_, fun t ends first => ?_, fun none_ => ?_, fun t pool hands first => ?_⟩
    · rw [dueRound, List.find?_eq_none.mpr fun t _ => by simp [no_end t (none_ t)], Option.map_none]
    · rw [dueRound, find_allTrackers (roundEnded_iff.mpr ends) fun u below => no_end u (first u below), Option.map_some]
    · rw [dueHanded, List.find?_eq_none.mpr ?_, Option.map_none]
      intro t host
      simp [no_hand t (none_ t (by simpa [hostPool] using (List.mem_filter.mp host).2))]
    · rw [dueHanded, find_hostPool pool (wayHanded_iff.mpr hands) fun u below => no_hand u (first u below),
        Option.map_some]
      rfl
  · intro waiting modified
    have joins (fresh : WbClaim.tracker t ∉ s.mem.claims) : claimWrite t s =
        { waiting with mem := { s.mem with claims := s.mem.claims ++ [.tracker t] } } := claimWrite_eq on fresh
    have writes : modified = modifiedWrite tr := by
      unfold modified modifiedWrite
      cases tr.buffer <;> rfl
    refine ⟨fun scrubs => ?_, fun steady => ⟨goOn_writes on steady, goOn_write_kind on steady, goOn_contents on steady⟩,
      contentsReady_eq on, requestRead_absent on, fun e => requestRead_partial on, fun e => requestRead_full on,
      fun some_ fresh => (writeOrReply_some on some_).trans (joins fresh), writeOrReply_none on,
      fun kind => (trackerWrite_modified kind).trans writes.symm, fun steady kind mask data operands => ?_,
      fun w bound => ?_⟩
    · rw [goOn_scrubbing on scrubs, writes]
      refine ⟨fun none_ => if_neg (by simp [none_]), fun some_ fresh => ?_⟩
      rw [if_pos (Option.isSome_iff_ne_none.mpr some_), joins fresh]
    · rw [trackerWrite_direct steady kind operands] <;> cases tr.buffer <;> rfl
    · intro k cleared
      refine ⟨endScrub_host on bound, fun kind => ⟨fun alone => ?_, fun r rt waits asks => ?_⟩⟩
      · rw [endScrub_internal on bound kind, alone]
        rfl
      · have reserves := handOver_free ((trackerOf_touchLeast_putFree (lineSet tr.line) w r).trans asks)
          (code_touchLeast_putFree (lineSet tr.line) w)
        rw [endScrub_internal on bound kind, waits, reserves]
        rfl

/-! ### The deadlines (R82, R83, R168) -/

/-- A fence of each of the hosts that is then admitted, one after another (R83, R168). -/
def fenceEach (reason : FenceReason) (l : List HostNo) (s : State) : State :=
  l.foldl (fun x h => if isAdmitted x h = true then startFence h reason x else x) s

/-- What the start of a fence does to the admitted ports, and to what is awaited of a tracker that stays (R34, R35). -/
theorem startFence_awaited (reason : FenceReason) (a : isAdmitted s h = true) :
    let x := startFence h reason s
    x.resetPhase = s.resetPhase ∧
    (∀ p, portOf x p = if p = h then ⟨.fencing, (portOf s p).admission, reason, false⟩ else portOf s p) ∧
    (∀ (t : TrackerNo) (tr : Tracker), trackerOf s t = some tr → t ∉ s.trk.reparkWait → t ∉ x.trk.reparkWait ∧
      ∃ y, trackerOf x t = some y ∧ y.awaited = tr.awaited.filter (fun a => a.host ≠ h) ∧
        (tr.deadline = none → y.deadline = none)) ∧
    x.integ.awaited = s.integ.awaited.filter (· ≠ h) ∧ (s.integ.deadline = none → x.integ.deadline = none) := by
  obtain ⟨port, others, _, _, _, _, trackers, _, repark, _, integ, _, _, _, _, _, rest⟩ := fenceStart h reason s a
  have phase := congrArg State.resetPhase rest
  dsimp only at phase
  refine ⟨phase, fun p => ?_, fun t tr on stays => ⟨?_, ?_⟩, ?_, fun none_ => ?_⟩
  · by_cases same : p = h
    · rw [if_pos same, same, port]
    · rw [if_neg same, others p same]
  · rw [repark]
    exact fun stillWaits => stays (List.mem_filter.mp stillWaits).1
  · have stayed := trackers t
    rw [if_neg fun gone => stays gone.1, on, Option.map_some] at stayed
    refine ⟨_, stayed, rfl, fun none_ => ?_⟩
    simp only [none_, ite_self]
  · rw [integ]
  · rw [integ]
    simp only [none_, ite_self]

/-- The hosts of a list that are fenced: those that are admitted. -/
theorem fenceEach_spec (reason : FenceReason) (l : List HostNo) : ∀ s : State,
    let x := fenceEach reason l s
    (∀ p, portOf x p = if isAdmitted s p = true ∧ p ∈ l then ⟨.fencing, (portOf s p).admission, reason, false⟩
      else portOf s p) ∧
    (∀ (t : TrackerNo) (tr : Tracker), trackerOf s t = some tr → t ∉ s.trk.reparkWait →
      ∃ y, trackerOf x t = some y ∧ y.awaited = tr.awaited.filter (fun a => !(isAdmitted s a.host && a.host ∈ l)) ∧
        (tr.deadline = none → y.deadline = none)) ∧
    x.integ.awaited = s.integ.awaited.filter (fun p => !(isAdmitted s p && p ∈ l)) ∧
    (s.integ.deadline = none → x.integ.deadline = none) := by
  induction l with
  | nil =>
    intro s
    refine ⟨fun p => by simp [fenceEach], fun t tr on _ => ⟨tr, on, by simp, id⟩, by simp [fenceEach], id⟩
  | cons h l ih =>
    intro s
    by_cases a : isAdmitted s h = true
    · have first : fenceEach reason (h :: l) s = fenceEach reason l (startFence h reason s) := by
        rw [fenceEach, List.foldl_cons, if_pos a]
        rfl
      obtain ⟨_, ports, trackers, awaited, deadline⟩ := startFence_awaited reason a
      obtain ⟨ports', trackers', awaited', deadline'⟩ := ih (startFence h reason s)
      have admitted (p : HostNo) : isAdmitted (startFence h reason s) p = (isAdmitted s p && p ≠ h) := by
        have state : portState (startFence h reason s) p = if p = h then .fencing else portState s p := by
          rw [portState, ports, apply_ite Port.state]
          rfl
        rw [isAdmitted, state]
        by_cases same : p = h
        · simp [same]
        · simp [same, isAdmitted]
      have leaves (p : HostNo) : (!((isAdmitted s p && decide (p ≠ h)) && decide (p ∈ l)) && decide (p ≠ h)) =
          !(isAdmitted s p && decide (p ∈ h :: l)) := by
        by_cases same : p = h
        · simp [same, a]
        · simp [same]
      rw [first]
      refine ⟨fun p => ?_, fun t tr on stays => ?_, ?_, fun none_ => deadline' (deadline none_)⟩
      · rw [ports', ports, admitted]
        by_cases same : p = h
        · simp [same, a]
        · simp [same]
      · obtain ⟨stays', y, on', left, none_⟩ := trackers t tr on stays
        obtain ⟨z, on'', left', none_'⟩ := trackers' t y on' stays'
        refine ⟨z, on'', ?_, fun n => none_' (none_ n)⟩
        rw [left', left, List.filter_filter]
        simp only [admitted]
        exact List.filter_congr fun a _ => leaves a.host
      · rw [awaited', awaited, List.filter_filter]
        simp only [admitted]
        exact List.filter_congr fun p _ => leaves p
    · have first : fenceEach reason (h :: l) s = fenceEach reason l s := by
        rw [fenceEach, List.foldl_cons, if_neg a]
        rfl
      have same (p : HostNo) : (isAdmitted s p && decide (p ∈ h :: l)) = (isAdmitted s p && decide (p ∈ l)) := by
        by_cases same : p = h
        · simp [same, a]
        · simp [same]
      have same' (p : HostNo) : (isAdmitted s p = true ∧ p ∈ h :: l) ↔ (isAdmitted s p = true ∧ p ∈ l) := by
        simpa using congrArg (· = true) (same p)
      rw [first]
      simp only [same, same']
      exact ih s

/-- Out of a hub reset, fence requests one after another fence those then admitted (R33). -/
theorem requestFences_eq (reason : FenceReason) (l : List HostNo) : ∀ s : State, s.resetPhase = .noReset →
    l.foldl (fun x h => requestFence h reason x) s = fenceEach reason l s := by
  induction l with
  | nil => exact fun _ _ => rfl
  | cons h l ih =>
    intro s service
    have step : requestFence h reason s = if isAdmitted s h = true then startFence h reason s else s := by
      rw [requestFence, inReset_eq_false service]
      rfl
    rw [fenceEach, List.foldl_cons, List.foldl_cons, step]
    refine ih _ ?_
    by_cases a : isAdmitted s h = true
    · rw [if_pos a]
      exact (startFence_awaited reason a).1.trans service
    · rwa [if_neg a]

theorem trackerDeadline_first {t : TrackerNo} {tr : Tracker} (on : trackerOf s t = some tr) (running : tr.deadline ≠ none)
    (awaits : tr.awaited ≠ []) (first : tr.graceUsed = false) : trackerDeadline t s =
      { setTracker s t (some { tr with graceUsed := true, deadline := some s.mgmt.recallLimit.toNat }) with
        mgmt := { s.mgmt with
          grace := ⟨1, BitVec.ofNat 8 t.val, hostSetOf (tr.awaited.map (fun a => a.host)), tr.line.setWidth 24⟩
          latch := s.mgmt.latch ||| 0x0002
          alertLow := alertLowOf (s.mgmt.latch ||| 0x0002) s.mgmt.mask } } := by
  unfold trackerDeadline
  rw [on]
  dsimp only
  rw [if_neg (by simp [running, awaits]), if_pos first, updTracker_of_some _ on]
  rfl

theorem trackerDeadline_second {t : TrackerNo} {tr : Tracker} (service : s.resetPhase = .noReset)
    (on : trackerOf s t = some tr) (running : tr.deadline ≠ none) (awaits : tr.awaited ≠ [])
    (second : tr.graceUsed = true) : trackerDeadline t s =
      fenceEach .recallTimeout (tr.awaited.map (fun a => a.host)) (setTracker s t (some { tr with deadline := none })) := by
  unfold trackerDeadline
  rw [on]
  dsimp only
  rw [if_neg (by simp [running, awaits]), if_neg (by simp [second]), updTracker_of_some _ on]
  exact requestFences_eq _ _ _ service

theorem purgeDeadline_first (purging : s.integ.phase = .purging) (running : s.integ.deadline ≠ none)
    (awaits : s.integ.awaited ≠ []) (first : s.integ.graceUsed = false) : purgeDeadline s = { s with
      integ := { s.integ with graceUsed := true, deadline := some s.mgmt.recallLimit.toNat }
      mgmt := { s.mgmt with
        grace := ⟨2, Config.purgeGraceTracker, hostSetOf s.integ.awaited, s.integ.set.setWidth 24⟩
        latch := s.mgmt.latch ||| 0x0002
        alertLow := alertLowOf (s.mgmt.latch ||| 0x0002) s.mgmt.mask } } := by
  rw [purgeDeadline, if_neg (by simp [purging, running, awaits]), if_pos first]
  rfl

theorem purgeDeadline_second (service : s.resetPhase = .noReset) (purging : s.integ.phase = .purging)
    (running : s.integ.deadline ≠ none) (awaits : s.integ.awaited ≠ []) (second : s.integ.graceUsed = true) :
    purgeDeadline s = fenceEach .purgeTimeout s.integ.awaited { s with integ := { s.integ with deadline := none } } := by
  rw [purgeDeadline, if_neg (by simp [purging, running, awaits]), if_neg (by simp [second])]
  exact requestFences_eq _ _ _ service

theorem exec_deadline (service : s.resetPhase = .noReset) (t : TrackerNo) :
    exec (.deadlineExpiry t) s = .next (settle (trackerDeadline t s)) :=
  congrArg (fun x => Host.Outcome.next (settle x)) (if_neg (by simp [inReset_eq_false service]))

theorem exec_purgeDeadline (service : s.resetPhase = .noReset) :
    exec .purgeDeadlineExpiry s = .next (settle (purgeDeadline s)) :=
  congrArg (fun x => Host.Outcome.next (settle x)) (if_neg (by simp [inReset_eq_false service]))

/-- Settles O34: the first and the second expiry, of a tracker and of the purge slot, and none during a hub reset. -/
theorem deadlinesExpire : Obligations.DeadlinesExpire := by
  refine ⟨fun t tr s service on running awaits => ?_, fun s service purging running awaits => ?_,
    fun t s reset => ?_⟩
  · rw [exec_deadline service]
    refine ⟨fun first => by rw [trackerDeadline_first on running awaits first], fun second => ?_, fun second stays => ?_⟩
    · rw [trackerDeadline_second service on running awaits second]
      rfl
    · obtain ⟨ports, trackers, _⟩ := fenceEach_spec .recallTimeout (tr.awaited.map (fun a => a.host))
        (setTracker s t (some { tr with deadline := none }))
      have on' : trackerOf (setTracker s t (some { tr with deadline := none })) t = some { tr with deadline := none } := by
        rw [trackerOf_setTracker, if_pos rfl]
      obtain ⟨y, on'', left, none_⟩ := trackers t _ on' stays
      refine ⟨_, y, by rw [trackerDeadline_second service on running awaits second], fun p => ?_, on'', ?_, none_ rfl⟩
      · rw [ports]
        simp only [List.mem_map]
        rfl
      · rw [left]
        refine List.filter_congr fun a mem => ?_
        have listed : a.host ∈ tr.awaited.map (fun a => a.host) := List.mem_map_of_mem mem
        change (!(isAdmitted s a.host && decide (a.host ∈ _))) = _
        simp [listed]
  · rw [exec_purgeDeadline service]
    refine ⟨fun first => by rw [purgeDeadline_first purging running awaits first], fun second => ?_, fun second => ?_⟩
    · rw [purgeDeadline_second service purging running awaits second]
      rfl
    · obtain ⟨ports, _, left, none_⟩ := fenceEach_spec .purgeTimeout s.integ.awaited
        { s with integ := { s.integ with deadline := none } }
      refine ⟨_, by rw [purgeDeadline_second service purging running awaits second], fun p => ports p, ?_, none_ rfl⟩
      rw [left]
      refine List.filter_congr fun p mem => ?_
      change (!(isAdmitted s p && decide (p ∈ s.integ.awaited))) = _
      simp [mem]
  · exact ⟨congrArg (fun x => Host.Outcome.next (settle x)) (if_pos (inReset_eq_true reset)),
      congrArg (fun x => Host.Outcome.next (settle x)) (if_pos (inReset_eq_true reset))⟩

/-! ### The masked write and its touch (R60, R65, R68, R69) -/

/-- The hosts whose holding counts are those admitted (R26). -/
theorem hasHost_holding (s : State) (h : HostNo) : hasHost (holding s) h = isAdmitted s h := by
  have mem : h ∈ members (holding s) ↔ isAdmitted s h = true := by
    rw [members_holding s h, List.mem_filter]
    exact and_iff_right (mem_hosts h)
  have reads : h ∈ members (holding s) ↔ hasHost (holding s) h = true := by
    rw [members, List.mem_filter]
    exact and_iff_right (mem_hosts h)
  exact Bool.eq_iff_iff.mpr (reads.symm.trans mem)

/-- The way that a masked entry is written as. -/
theorem wayFor_code_eq_four_iff (x : Way) (tag : DirTag) (e : Entry) : (wayFor x tag (maskEntry s e)).code = 4 ↔
    e = .lost ∨ ∃ o, e = .owned o ∧ isAdmitted s o = false := by
  cases e with
  | free => simp [maskEntry, wayFor, freeWay]
  | lost => simp [maskEntry, wayFor]
  | owned o => cases a : isAdmitted s o <;> simp [maskEntry, wayFor, a]
  | shared holders =>
    rw [maskEntry]
    by_cases none_ : holders &&& holding s = 0
    · rw [if_pos none_]
      simp [wayFor, freeWay]
    · rw [if_neg none_, wayFor, if_neg none_]
      simp

/-- A masked write loses nothing (R68). -/
theorem writeEntry_quiet (k : SetNo) (w : WayNo) (tag : DirTag) (e : Entry) (cause : LostCause)
    (keeps : (∀ o, e = .owned o → isAdmitted s o = true) ∨ (wayOf s k w).code = 4) :
    writeEntry k w tag e cause s = putWay k w (wayFor (wayOf s k w) tag (maskEntry s e)) s := by
  unfold writeEntry
  cases e with
  | free => rfl
  | lost => rfl
  | shared holders => rfl
  | owned o =>
    refine if_neg ?_
    rintro ⟨lost, fresh⟩
    rcases keeps with admitted | already
    · simp [maskEntry, wayFor, admitted o rfl] at lost
    · exact fresh already

/-- A masked write by which an owner's line becomes LOST (R69). -/
theorem writeEntry_loses (k : SetNo) (w : WayNo) (tag : DirTag) {o : HostNo} (cause : LostCause)
    (gone : isAdmitted s o = false) (fresh : (wayOf s k w).code ≠ 4) : writeEntry k w tag (.owned o) cause s =
      lostEvent (lineOf tag k) o cause (putWay k w (wayFor (wayOf s k w) tag (maskEntry s (.owned o))) s) := by
  unfold writeEntry
  exact if_pos ⟨(wayFor_code_eq_four_iff ..).mpr (.inr ⟨o, rfl, gone⟩), fresh⟩

/-- A masked write is the write of its way, with the LOST event or without. -/
theorem writeEntry_form (k : SetNo) (w : WayNo) (tag : DirTag) (e : Entry) (cause : LostCause) (s : State) :
    ∃ record mgmt, writeEntry k w tag e cause s =
      (fun x : State => { x with dir := { x.dir with lostRecord := record }, mgmt := mgmt })
        (putWay k w (wayFor (wayOf s k w) tag (maskEntry s e)) s) := by
  by_cases loses : ∃ o, e = .owned o ∧ isAdmitted s o = false ∧ (wayOf s k w).code ≠ 4
  · obtain ⟨o, rfl, gone, fresh⟩ := loses
    exact ⟨_, _, writeEntry_loses k w tag cause gone fresh⟩
  · refine ⟨s.dir.lostRecord, s.mgmt, writeEntry_quiet k w tag e cause ?_⟩
    by_contra none_
    obtain ⟨some_, fresh⟩ := not_or.mp none_
    push Not at some_
    obtain ⟨o, owned, gone⟩ := some_
    exact loses ⟨o, owned, by simpa using gone, fresh⟩

/-- The LOST count follows the stored code (R69). -/
theorem lostCount_writeEntry (k : SetNo) (w : WayNo) (tag : DirTag) (e : Entry) (cause : LostCause) (s : State) :
    (writeEntry k w tag e cause s).dir.lostCount =
      s.dir.lostCount + lostBit (wayOf (writeEntry k w tag e cause s) k w) - lostBit (wayOf s k w) := by
  rw [wayOf_writeEntry, if_pos ⟨rfl, rfl⟩]
  obtain ⟨record, mgmt, form⟩ := writeEntry_form k w tag e cause s
  rw [form]
  rfl

theorem order_writeEntry (k : SetNo) (w : WayNo) (tag : DirTag) (e : Entry) (cause : LostCause) (s : State) (j : SetNo) :
    (Machine.setOf (writeEntry k w tag e cause s) j).order = (Machine.setOf s j).order := by
  obtain ⟨record, mgmt, form⟩ := writeEntry_form k w tag e cause s
  rw [form]
  exact order_putWay ..

theorem writeEntry_frame (k : SetNo) (w : WayNo) (tag : DirTag) (e : Entry) (cause : LostCause) (s : State) :
    (writeEntry k w tag e cause s).dir.freed = s.dir.freed ∧
      { writeEntry k w tag e cause s with dir := s.dir, mgmt := s.mgmt } = s := by
  obtain ⟨record, mgmt, form⟩ := writeEntry_form k w tag e cause s
  rw [form]
  exact ⟨rfl, rfl⟩

/-- The way written FREE goes to the least recent end, one left VALID to the most recent (R60). -/
theorem touchWritten_free (k : SetNo) (w : WayNo) (free : (wayOf s k w).code = 0) :
    touchWritten k w s = touchFreed k [w] s := if_pos free

theorem touchWritten_valid (k : SetNo) (w : WayNo) (valid : (wayOf s k w).code ≠ 0) :
    touchWritten k w s = touchMost k w s := if_neg valid

theorem setOf_touchMost (k : SetNo) (w : WayNo) (s : State) (j : SetNo) : Machine.setOf (touchMost k w s) j =
    if k = j then { Machine.setOf s k with order := (Machine.setOf s k).order.filter (· ≠ w) ++ [w] }
    else Machine.setOf s j := setOf_putSet ..

/-- Settles O35: the touch of a way freed and of one left VALID, and the masked write entry by entry. -/
theorem entriesAreMasked : Obligations.EntriesAreMasked := by
  refine ⟨fun k w s => ?_, fun k w tag e cause s => ?_⟩
  · intro t together
    refine ⟨wayOf_touchWritten k w s, ?_⟩
    by_cases free : (wayOf s k w).code = 0
    · have least : t = touchFreed k [w] s := touchWritten_free k w free
      obtain ⟨_, others, order, rest, record, count, freed⟩ := touchFreed_spec k [w] s
      rw [← least] at others order rest record count freed
      refine ⟨others, fun _ => ⟨?_, freed⟩, fun valid => absurd free valid, count, record, rest⟩
      simpa [together] using order
    · have most : t = touchMost k w s := touchWritten_valid k w free
      rw [most]
      refine ⟨fun j other => ?_, fun zero => absurd zero free, fun _ => ⟨?_, rfl⟩, rfl, rfl, rfl⟩
      · rw [setOf_touchMost, if_neg other.symm]
      · rw [setOf_touchMost, if_pos rfl]
  · intro t kept
    have way : wayOf t k w = wayFor (wayOf s k w) tag (maskEntry s e) :=
      (wayOf_writeEntry ..).trans (if_pos ⟨rfl, rfl⟩)
    have count : t.dir.lostCount = s.dir.lostCount + lostBit (wayOf t k w) - lostBit (wayOf s k w) :=
      lostCount_writeEntry ..
    have order := order_writeEntry k w tag e cause s
    obtain ⟨freed, frame⟩ := writeEntry_frame k w tag e cause s
    have quiet := writeEntry_quiet (s := s) k w tag e cause
    refine ⟨hasHost_holding s, fun j v other => ?_, ?_, ?_, ?_, ?_, fun o owned gone => ⟨?_, ?_, ?_⟩, ?_, ?_, ?_, ?_, ?_,
      order, freed, frame⟩
    · refine (wayOf_writeEntry ..).trans (if_neg ?_)
      rintro ⟨rfl, rfl⟩
      exact other rfl
    · rintro holders rfl some_
      rw [way, maskEntry, if_neg some_]
      exact if_neg some_
    · rintro holders rfl none_
      rw [way, maskEntry, if_pos none_]
      exact ⟨rfl, rfl, rfl, rfl⟩
    · rintro rfl
      rw [way]
      exact ⟨rfl, rfl, rfl, rfl⟩
    · rintro o rfl admitted
      rw [way, maskEntry, if_pos admitted]
      rfl
    · rw [way, owned, maskEntry, if_neg (by simp [gone])]
      rfl
    · intro fresh
      subst owned
      have lost : t = _ := writeEntry_loses k w tag cause gone fresh
      rw [lost]
      exact ⟨rfl, rfl⟩
    · intro already
      have stays : t = _ := quiet (.inr already)
      rw [stays]
      exact ⟨rfl, rfl⟩
    · rintro rfl
      rw [way]
      rfl
    · intro was is
      rw [count, lostBit, lostBit, if_pos is, if_neg was]
      rfl
    · intro was is
      rw [count, lostBit, lostBit, if_neg is, if_pos was]
      rfl
    · intro same
      have bits : lostBit (wayOf t k w) = lostBit (wayOf s k w) := if_congr same.symm rfl rfl
      rw [count, bits]
      exact Nat.add_sub_cancel ..
    · intro admitted
      have stays : t = _ := quiet (.inl admitted)
      rw [stays]
      exact ⟨rfl, rfl⟩

/-! ### The replies of coherent requests (R103 to R109) -/

theorem hasHost_and (m n : HostSet) (h : HostNo) : hasHost (m &&& n) h = (hasHost m h && hasHost n h) := by
  simp [hasHost]

/-- The masking takes a host that is not admitted out of the entry written (R68). -/
theorem holders_masked (x : Way) (tag : DirTag) (e : Entry) (gone : isAdmitted s h = false) :
    hasHost (wayFor x tag (maskEntry s e)).holders h = false := by
  have none_ : hasHost 0 h = false := by simp [hasHost]
  cases e with
  | free => exact none_
  | lost => exact none_
  | owned o =>
    rw [maskEntry]
    by_cases a : isAdmitted s o = true
    · rw [if_pos a]
      have other : h ≠ o := by
        rintro rfl
        simp [gone] at a
      exact (hasHost_oneHost ..).trans (decide_eq_false other.symm)
    · rw [if_neg a]
      exact none_
  | shared holders =>
    rw [maskEntry]
    by_cases empty : holders &&& holding s = 0
    · rw [if_pos empty]
      exact none_
    · rw [if_neg empty, wayFor, if_neg empty, hasHost_and, hasHost_holding, gone, Bool.and_false]

theorem addHost_zero (h : HostNo) : addHost 0 h = oneHost h := BitVec.zero_or

/-- What a coherent tracker presents, kind by kind and entry by entry (R103 to R105, R109). -/
theorem presentCoherent_readShared {tr : Tracker} {tag : HostTag} (requester : tr.requester = some (h, tag))
    (kind : tr.kind = .readShared) : presentCoherent s tr =
      .shared (if portState s h = .online then addHost (sharersBeside tr) h else sharersBeside tr) := by
  simp only [presentCoherent, requesterOnline, requester, kind, decide_eq_true_eq]

theorem presentCoherent_owner {tr : Tracker} {tag : HostTag} (requester : tr.requester = some (h, tag))
    (kind : tr.kind ≠ .readShared) : presentCoherent s tr =
      if portState s h = .online then .owned h
      else match tr.stored with
        | .shared holders => if hasHost holders h then .shared (oneHost h) else .free
        | _ => .free := by
  cases k : tr.kind
  case readShared => exact absurd k kind
  all_goals simp only [presentCoherent, requesterOnline, requester, k, decide_eq_true_eq] <;> cases tr.stored <;> rfl

/-- A response to a fenced host is discarded at its queue (R3). -/
theorem isPlaced_fenced {m : HubMsg} (fenced : isFenced s h) (stops : passesFence m = false) : isPlaced s h m = false := by
  rcases fenced with e | e <;> simp [isPlaced, e, stops]

theorem isAdmitted_of_fenced (fenced : isFenced s h) : isAdmitted s h = false := by
  rcases fenced with e | e <;> simp [isAdmitted, e]

/-! ### The commit of an internal tracker (R63, R93, R147) -/

theorem reply_internal {t : TrackerNo} {tr : Tracker} {w : WayNo} (on : trackerOf s t = some tr)
    (internal : tr.requester = none) (bound : boundWay s (lineSet tr.line) t = some w) : reply t none s =
      freeTracker t (reportChange (lineSet tr.line) (handOver (lineSet tr.line) w tr.waitingRequester
        (touchWritten (lineSet tr.line) w
          (writeEntry (lineSet tr.line) w (lineTag tr.line) (presented s none tr) .commit s)))) := by
  unfold reply
  rw [on]
  dsimp only
  rw [sendResponse, internal]
  dsimp only
  unfold commit
  dsimp only
  rw [bound]

/-- Handing a way over changes that way and the trackers let ask again alone. -/
theorem handOver_frame (k : SetNo) (w : WayNo) (waiting : Option TrackerNo) (x : State) :
    let y := handOver k w waiting x
    (∀ u, trackerOf y u = trackerOf x u) ∧ (∀ j v, (j, v) ≠ (k, w) → wayOf y j v = wayOf x j v) ∧
    y.hli = x.hli ∧ y.mem = x.mem ∧ y.region = x.region ∧ y.integ = x.integ := by
  intro y
  unfold y handOver
  cases waiting with
  | none => exact ⟨fun _ => rfl, fun _ _ _ => rfl, rfl, rfl, rfl, rfl⟩
  | some r =>
    dsimp only
    cases trackerOf x r with
    | none => exact ⟨fun _ => rfl, fun _ _ _ => rfl, rfl, rfl, rfl, rfl⟩
    | some rt =>
      dsimp only
      split
      · refine ⟨fun _ => rfl, fun j v other => ?_, rfl, rfl, rfl, rfl⟩
        rw [wayOf_putWay, if_neg]
        rintro ⟨rfl, rfl⟩
        exact other rfl
      · exact ⟨fun _ => rfl, fun _ _ _ => rfl, rfl, rfl, rfl, rfl⟩

/-- A tracker freed leaves those that ask again and wait. -/
theorem mem_askAgain_freeTracker {t r : TrackerNo} (other : r ≠ t) (waits : r ∈ s.trk.victimWait)
    (asks : r ∈ s.trk.askAgain) : r ∈ (freeTracker t s).trk.askAgain := by
  cases on : trackerOf s t with
  | none => rwa [freeTracker_of_none on]
  | some tr =>
    rw [freeTracker_of_some on]
    by_cases way : lineHasWay s tr.line = true
    · simp [way, reportChange, letAsk, other, waits, asks]
    · simp [way, other, asks]

/-- A tracker freed leaves the tables and the integrity unit. -/
theorem freeTracker_units {t : TrackerNo} {tr : Tracker} (on : trackerOf s t = some tr) :
    (freeTracker t s).region = s.region ∧ (freeTracker t s).integ = s.integ := by
  obtain ⟨ask, freed⟩ := freeTracker_spec on
  rw [freed]
  exact ⟨rfl, rfl⟩

/-- What the commit of an internal tracker leaves beside the way and those that ask again. -/
theorem reply_internal_frame {t : TrackerNo} {tr : Tracker} {w : WayNo} (on : trackerOf s t = some tr)
    (internal : tr.requester = none) (bound : boundWay s (lineSet tr.line) t = some w) :
    let x := reply t none s
    trackerOf x t = none ∧ (∀ u, u ≠ t → trackerOf x u = trackerOf s u) ∧
    (∀ j v, (j, v) ≠ (lineSet tr.line, w) → wayOf x j v = wayOf s j v) ∧
    x.hli = s.hli ∧ x.mem = s.mem ∧ x.region = s.region ∧ x.integ = s.integ := by
  intro x
  have ends : x = _ := reply_internal on internal bound
  have written := writeEntry_same (lineSet tr.line) w (lineTag tr.line) (presented s none tr) .commit s
  have ways := wayOf_writeEntry (lineSet tr.line) w (lineTag tr.line) (presented s none tr) .commit s
  generalize writeEntry (lineSet tr.line) w (lineTag tr.line) (presented s none tr) .commit s = a at *
  have touched := touchWritten_same (lineSet tr.line) w a
  have ways' := wayOf_touchWritten (lineSet tr.line) w a
  generalize touchWritten (lineSet tr.line) w a = b at *
  obtain ⟨trackers, ways'', hli, mem, region, integ⟩ := handOver_frame (lineSet tr.line) w tr.waitingRequester b
  generalize handOver (lineSet tr.line) w tr.waitingRequester b = c at *
  have same (u : TrackerNo) : trackerOf (reportChange (lineSet tr.line) c) u = trackerOf s u := by
    refine (trackers u).trans ?_
    rw [trackerOf, trackerOf, touched.table, written.table]
  have freed := trackerOf_freeTracker t (reportChange (lineSet tr.line) c)
  obtain ⟨hli', dir, mem', _⟩ := freeTracker_frame ((same t).trans on)
  obtain ⟨region', integ'⟩ := freeTracker_units ((same t).trans on)
  rw [← ends] at freed hli' dir mem' region' integ'
  clear_value x
  refine ⟨(freed t).trans (if_pos rfl), fun u other => ?_, fun j v other => ?_, ?_, ?_, ?_, ?_⟩
  · rw [freed, if_neg other.symm, same]
  · rw [wayOf_of_dir dir]
    refine (ways'' j v other).trans ?_
    rw [ways', ways, if_neg]
    rintro ⟨rfl, rfl⟩
    exact other rfl
  · exact hli'.trans (hli.trans (touched.hli.trans written.hli))
  · exact mem'.trans (mem.trans (touched.mem.trans written.mem))
  · exact region'.trans (region.trans (touched.region.trans written.region))
  · exact integ'.trans (integ.trans (touched.integ.trans written.integ))

/-- A tracker freed leaves the ways. -/
theorem wayOf_freeTracker (t : TrackerNo) (y : State) (j : SetNo) (v : WayNo) :
    wayOf (freeTracker t y) j v = wayOf y j v := by
  cases on : trackerOf y t with
  | none => rw [freeTracker_of_none on]
  | some tr => exact wayOf_of_dir (freeTracker_frame on).2.1 j v

theorem presented_coherent {tr : Tracker} (coherent : isCoherent tr.kind = true) :
    presented s none tr = presentCoherent s tr := by
  unfold presented
  cases k : tr.kind <;> simp_all [isCoherent]

/-- The response of a coherent request (R29, R108). -/
theorem sendResponse_coherent {tr : Tracker} {tag : HostTag} (requester : tr.requester = some (h, tag))
    (coherent : isCoherent tr.kind = true) : sendResponse tr none s = respond h tag
      (if portState s h = .departing then .refuseReq tag .notOnline else responseOf tr tag) s := by
  simp only [sendResponse, requester, coherent, true_and]
  split <;> rfl

/-- Settles O36: the replies of the three coherent requests, and the commit of an internal tracker with its handover. -/
theorem coherentReplies : Obligations.CoherentReplies := by
  refine ⟨?_, ?_⟩
  · intro t tr h tag w s k on requester bound alone coherent x online response entry
    have kinds : tr.kind = .readShared ∨ tr.kind = .readOwn ∨ tr.kind = .upgrade := by
      cases e : tr.kind <;> simp_all [isCoherent]
    have spelled : response = if portState s h = .departing then .refuseReq tag .notOnline else responseOf tr tag := by
      unfold response responseOf
      rcases kinds with e | e | e <;> rw [e]
    have sends : sendResponse tr none s = respond h tag response s := by
      rw [spelled]
      exact sendResponse_coherent requester coherent
    have presents : presented s none tr = entry := by
      rw [presented_coherent coherent]
      unfold entry
      rcases kinds with e | e | e
      · rw [presentCoherent_readShared requester e, sharersBeside, e]
        cases tr.stored with
        | shared holders => rfl
        | owned o => rfl
        | lost => rw [addHost_zero]
        | free => rw [addHost_zero]
      · rw [presentCoherent_owner requester (by simp [e]), e]
        cases tr.stored <;> rfl
      · rw [presentCoherent_owner requester (by simp [e]), e]
        cases tr.stored <;> rfl
    have stops : passesFence response = false := by
      rw [spelled, responseOf]
      split
      · rfl
      · rcases kinds with e | e | e <;> rw [e] <;> rfl
    have ends := reply_bound none on bound alone sends
    obtain ⟨freed, kept, way, ways, link, links, mem, region, integ⟩ := reply_spec none on bound alone sends
    rw [presents] at ends way
    refine ⟨ends, freed, kept, way, ways, link, fun fenced => ⟨?_, ?_⟩, links, mem, region, integ⟩
    · exact (congrArg (fun v : Way => hasHost v.holders h) way).trans
        (holders_masked _ _ _ (isAdmitted_of_fenced fenced))
    · refine (congrArg Hli.outbound link).trans ?_
      simp [isPlaced_fenced fenced stops]
  · intro t tr w s k on internal bound kinds x entry written commit
    have presents : presented s none tr = entry := by
      rcases kinds with e | e
      · have evicts : presented s none tr = if tr.ownerLost ∨ tr.reported = .lost then tr.stored else .free := by
          rw [presented, e]
        rw [evicts]
        exact if_congr Iff.rfl rfl (if_pos e).symm
      · have sweeps : presented s none tr = presentSweep tr := by rw [presented, e]
        rw [sweeps, presentSweep]
        refine if_congr Iff.rfl rfl (Eq.trans ?_ (if_neg (by rw [e]; decide)).symm)
        cases tr.stored <;> rfl
    have ends : x = _ := reply_internal on internal bound
    rw [presents] at ends
    obtain ⟨freed, kept, ways, hli, mem, region, integ⟩ := reply_internal_frame on internal bound
    have wrote : wayOf commit k w = written := by
      refine (wayOf_touchWritten ..).trans ?_
      rw [wayOf_writeEntry, if_pos ⟨rfl, rfl⟩]
    have trk : commit.trk = s.trk := (touchWritten_trk ..).trans (writeEntry_trk ..)
    replace ends : x = freeTracker t (reportChange k (handOver k w tr.waitingRequester commit)) := ends
    refine ⟨freed, kept, ways, hli, mem, region, integ, ?_⟩
    clear_value x commit written
    refine ⟨fun alone => ?_, fun r rt waits other asks => ⟨fun free => ?_, fun held => ?_⟩⟩
    · rw [alone] at ends
      exact ⟨by rw [ends, wayOf_freeTracker]; exact wrote, ends⟩
    · have asks' : trackerOf commit r = some rt := by rw [trackerOf, trk]; exact asks
      rw [waits, handOver_free asks' (by rw [wrote]; exact free)] at ends
      refine ⟨?_, ends⟩
      rw [ends, wayOf_freeTracker]
      exact (wayOf_putWay ..).trans (if_pos ⟨rfl, rfl⟩)
    · have asks' : trackerOf commit r = some rt := by rw [trackerOf, trk]; exact asks
      have tells : handOver k w (some r) commit = letAsk (· = r) commit := by
        rw [handOver, asks']
        exact if_neg (by rw [wrote]; exact held)
      rw [waits, tells] at ends
      refine ⟨by rw [ends, wayOf_freeTracker]; exact wrote, fun listed => ?_, ?_⟩
      · rw [ends]
        refine mem_askAgain_freeTracker other ?_ ?_
        · change r ∈ commit.trk.victimWait
          rwa [trk]
        · simp [reportChange, letAsk, trk, listed]
      · rw [ends, letAsk, trk]

end Sys2Proof.Machine
end

section
/-! PROOFS. The pool and its write buffer: reads, drains, grants and placements, and the arbiter (O37 to O41). -/

namespace Sys2Proof.Machine
variable {s : State} {h : HostNo}

/-! ### What a pool read finds (R132, R133) -/

/-- Settles O37, by the line's condition. -/
theorem poolReadFindings : Obligations.PoolReadFindings := by
  intro m n double flips ok
  unfold judgeLine
  refine ⟨fun e => ?_, fun e => ?_, fun e => ?_, fun e => ?_⟩
  · rw [e]
  · rw [e]
  · rw [e]
  · rw [e]
    exact ⟨rfl, rfl, Option.some_ne_none _⟩

/-! ### The completion of a pool read (R133, R134, R139) -/

/-- The state in which what a pool read finds is recorded (R133, R134). -/
def recordedRead (n : LineNo) (access : MemAccess) (source : Option WriteSource) (s : State) : State :=
  match (judgeLine s.mem n (Config.doubleFaultReadsUncorrectable s.freeCount)).cause with
  | none => s
  | some cause => { s with
      freeCount := s.freeCount + 1
      mem := { s.mem with
        record := some (match s.mem.record with
          | none => ⟨n, access, cause, source, false⟩
          | some r => { r with more := true }) }
      mgmt := { s.mgmt with
        latch := s.mgmt.latch ||| 0x0100
        alertLow := alertLowOf (s.mgmt.latch ||| 0x0100) s.mgmt.mask } }

theorem readPool_eq (n : LineNo) (access : MemAccess) (source : Option WriteSource) (s : State) :
    readPool n access source s =
      (judgeLine s.mem n (Config.doubleFaultReadsUncorrectable s.freeCount), recordedRead n access source s) := by
  unfold readPool recordedRead doubleFault
  dsimp only
  cases (judgeLine s.mem n (Config.doubleFaultReadsUncorrectable s.freeCount)).cause with
  | none => rfl
  | some cause =>
    simp only [memError]
    cases s.mem.record <;> rfl

/-- A pool read leaves the buffer, the port and the trackers. -/
theorem recordedRead_frame (n : LineNo) (access : MemAccess) (source : Option WriteSource) (s : State) :
    (recordedRead n access source s).mem.wbuf = s.mem.wbuf ∧
      (recordedRead n access source s).mem.clearing = s.mem.clearing ∧
      (recordedRead n access source s).trk = s.trk ∧ (recordedRead n access source s).resetPhase = s.resetPhase := by
  unfold recordedRead
  split <;> exact ⟨rfl, rfl, rfl, rfl⟩

/-- What is delivered to a tracker whose read of its line has completed (R139). -/
theorem readContents_recorded (n : LineNo) (access : MemAccess) (source : Option WriteSource) (found : PoolRead)
    (s : State) : readContents (recordedRead n access source s).mem n found = readContents s.mem n found := by
  unfold readContents entryFor
  rw [(recordedRead_frame ..).1]

/-- The port and the hold on a line's entry are given up at once (R139, R191). -/
theorem freePort_releaseHold (n : LineNo) (s : State) : freePort (releaseHold n s) =
    (fun wbuf : List WbEntry => { s with
      mem := if s.mem.clearing = true then { s.mem with port := .rewrite, pool := [], conds := [], wbuf := wbuf }
        else { s.mem with port := .idle, wbuf := wbuf } })
      (s.mem.wbuf.map (fun e => if e.line = n then { e with held := false } else e)) := by
  unfold freePort releaseHold
  dsimp only
  split <;> rfl

/-- A completed read fills the buffer of its tracker and is done with the port. -/
theorem completeRead_eq {t : TrackerNo} {tr : Tracker} (port : s.mem.port = .read t) (on : trackerOf s t = some tr) :
    completeRead s = (fun filled : State => if inReset filled = true then filled else contentsReady t filled)
      (setTracker (freePort (releaseHold tr.line (recordedRead tr.line .read none s))) t
        (some { tr with buffer := some (readContents s.mem tr.line
          (judgeLine s.mem tr.line (Config.doubleFaultReadsUncorrectable s.freeCount))) })) := by
  have on' : trackerOf (freePort (releaseHold tr.line (recordedRead tr.line .read none s))) t = some tr := by
    rw [freePort_releaseHold, trackerOf, (recordedRead_frame ..).2.2.1]
    exact on
  unfold completeRead
  rw [port]
  dsimp only
  rw [on]
  dsimp only
  unfold completeReadFor
  rw [readPool_eq]
  dsimp only
  rw [readContents_recorded, fillBuffer, updTracker_of_some _ on']
  unfold readContents
  cases entryFor s.mem tr.line <;> rfl

/-- Settles O38. -/
theorem poolReadCompletes : Obligations.PoolReadCompletes := by
  intro t tr s port on found contents recorded wbuf done filled
  have buffered : contents = readContents s.mem tr.line found := by
    unfold contents readContents entryFor
    cases s.mem.wbuf.find? (fun e => e.line = tr.line) <;> rfl
  have records : recorded = recordedRead tr.line .read none s := by
    unfold recorded recordedRead
    cases found.cause <;> rfl
  obtain ⟨entries, clears, _, phase⟩ := recordedRead_frame tr.line .read none s
  have completes : done = freePort (releaseHold tr.line (recordedRead tr.line .read none s)) := by
    rw [freePort_releaseHold, entries, clears, ← records]
  have ends := completeRead_eq port on
  rw [← completes] at ends
  have same : inReset filled = inReset s := by
    have phase' : recorded.resetPhase = s.resetPhase := (congrArg State.resetPhase records).trans phase
    change decide (recorded.resetPhase ≠ _) = decide (s.resetPhase ≠ _)
    rw [phase']
  replace ends : completeRead s = if inReset filled = true then filled else contentsReady t filled := by
    unfold filled
    rw [buffered]
    exact ends
  refine ⟨fun service => ?_, fun reset => ?_⟩
  · refine congrArg (fun x => Host.Outcome.next (settle x)) (ends.trans (if_neg ?_))
    simp [same, inReset_eq_false service]
  · exact congrArg (fun x => Host.Outcome.next (settle x)) (ends.trans (if_pos (same.trans (inReset_eq_true reset))))

/-! ### The completion of a drain (R129, R138) -/

/-- What the drain of an entry writes to its line. -/
def drainedLine (e : WbEntry) (found : PoolRead) : LineData :=
  if e.mask = fullMask then e.data else mergeUnder e.mask e.data found.data

/-- The drain of an entry writes its one line, a partial one after a read that is recorded (R133, R138). -/
theorem drainToPool_spec (e : WbEntry) (s : State) :
    let found := judgeLine s.mem e.line (Config.doubleFaultReadsUncorrectable s.freeCount)
    let cause := if e.mask = fullMask then none else found.cause
    let x := drainToPool e s
    poolLine x.mem e.line = drainedLine e found ∧
    condOf x.mem e.line = ⟨if e.mask = fullMask then e.poisoned else found.poisoned, none⟩ ∧
    (∀ n, n ≠ e.line → poolLine x.mem n = poolLine s.mem n ∧ condOf x.mem n = condOf s.mem n) ∧
    x.mem.record = (match cause, s.mem.record with
      | none, r => r
      | some c, none => some ⟨e.line, .drain, c, some e.source, false⟩
      | some _, some r => some { r with more := true }) ∧
    x.mgmt = (match cause with
      | none => s.mgmt
      | some _ => { s.mgmt with
          latch := s.mgmt.latch ||| 0x0100, alertLow := alertLowOf (s.mgmt.latch ||| 0x0100) s.mgmt.mask }) ∧
    x.mem.wbuf = s.mem.wbuf ∧ x.mem.clearing = s.mem.clearing ∧ x.mem.claims = s.mem.claims ∧
    x.mem.reads = s.mem.reads ∧ x.disp = s.disp ∧ x.dir = s.dir ∧ x.trk = s.trk ∧ x.hli = s.hli ∧ x.ports = s.ports := by
  intro found cause x
  unfold x drainToPool drainedLine cause
  by_cases full : e.mask = fullMask
  · simp only [if_pos full]
    exact ⟨poolLine_writePool_same .., condOf_writePool_same ..,
      fun n other => ⟨poolLine_writePool_ne _ _ _ other, condOf_writePool_ne _ _ _ other⟩, rfl, rfl, rfl, rfl, rfl, rfl, rfl,
      rfl, rfl, rfl, rfl⟩
  · obtain ⟨read, reads, mem, mgmt, disp, dir, trk, hli, ports⟩ := readPool_spec e.line .drain (some e.source) s
    simp only [if_neg full]
    rw [reads]
    dsimp only
    have kept (n : LineNo) : poolLine read.mem n = poolLine s.mem n ∧ condOf read.mem n = condOf s.mem n := by
      rw [mem]
      exact ⟨rfl, rfl⟩
    refine ⟨poolLine_writePool_same .., condOf_writePool_same .., fun n other => ⟨?_, ?_⟩, ?_, mgmt, ?_, ?_, ?_, ?_, disp,
      dir, trk, hli, ports⟩
    · exact (poolLine_writePool_ne _ _ _ other).trans (kept n).1
    · exact (condOf_writePool_ne _ _ _ other).trans (kept n).2
    · exact (congrArg Memory.record mem :)
    · exact (congrArg Memory.wbuf mem :)
    · exact (congrArg Memory.clearing mem :)
    · exact (congrArg Memory.claims mem :)
    · exact (congrArg Memory.reads mem :)

theorem afterDrain_cons (clearing : Bool) (n : LineNo) (x : WbEntry) (b : List WbEntry) : afterDrain clearing n (x :: b) =
    (if x.line ≠ n then [x]
      else if staysAfterDrain clearing x = true then [{ x with draining := false, rewritten := false }] else []) ++
      afterDrain clearing n b := by
  unfold afterDrain
  rw [List.filterMap_cons]
  by_cases other : x.line ≠ n
  · simp only [if_pos other, List.singleton_append]
  · by_cases stays : staysAfterDrain clearing x = true
    · simp only [if_neg other, if_pos stays, List.singleton_append]
    · simp only [if_neg other, if_neg stays, List.nil_append]

/-- The buffer after a drain: the drained entry leaves, or stays with both drain marks clear (R138). -/
theorem afterDrain_kept (n : LineNo) (b : List WbEntry) : afterDrain false n b =
    (b.filter (fun x => x.line ≠ n ∨ x.rewritten ∨ x.held)).map
      (fun x => if x.line = n then { x with draining := false, rewritten := false } else x) := by
  induction b with
  | nil => rfl
  | cons x b ih =>
    rw [afterDrain_cons, ih]
    by_cases other : x.line = n
    · by_cases stays : x.rewritten = true ∨ x.held = true
      · have marked : staysAfterDrain false x = true := by simpa [staysAfterDrain] using stays
        simp [other, stays, marked]
      · have gone : staysAfterDrain false x = false := by simpa [staysAfterDrain] using stays
        simp [other, stays, gone]
    · simp [other]

/-- With a POOL_CLEAR waiting the drained entry leaves (R191). -/
theorem afterDrain_cleared (n : LineNo) (b : List WbEntry) : afterDrain true n b = b.filter (fun x => x.line ≠ n) := by
  induction b with
  | nil => rfl
  | cons x b ih =>
    rw [afterDrain_cons, ih]
    by_cases other : x.line = n <;> simp [other, staysAfterDrain]

/-- The port given up leaves the pool, or, with a POOL_CLEAR waiting, clears it (R191). -/
theorem freePort_idle (stands : s.mem.clearing = false) : freePort s = { s with mem := { s.mem with port := .idle } } :=
  if_neg (by simp [stands])

theorem freePort_rewrite (clears : s.mem.clearing = true) :
    freePort s = { s with mem := { s.mem with port := .rewrite, pool := [], conds := [] } } := if_pos clears

theorem nodup_hosts : hosts.Nodup := by decide

/-- The report of a drain to the FENCEs takes its line out of their drain lines (R129). -/
theorem markDrained_spec (n : LineNo) (s : State) :
    { markDrained n s with disp := { (markDrained n s).disp with slots := s.disp.slots } } = s ∧
    ∀ h, slotOf (markDrained n s) h =
      (slotOf s h).map (fun x => { x with drainLines := x.drainLines.filter (· ≠ n) }) := by
  obtain ⟨frame, slots⟩ := updSlotFold_spec
    (fun _ x => { x with drainLines := x.drainLines.filter (· ≠ n) }) hosts nodup_hosts s
  exact ⟨frame, fun h => (slots h).trans (if_pos (mem_hosts h))⟩

/-- What the report of a drain leaves. -/
theorem markDrained_frame (n : LineNo) (s : State) : (markDrained n s).mem = s.mem ∧ (markDrained n s).mgmt = s.mgmt ∧
    (markDrained n s).dir = s.dir ∧ (markDrained n s).trk = s.trk ∧ (markDrained n s).hli = s.hli ∧
    (markDrained n s).ports = s.ports := by
  obtain ⟨frame, _⟩ := markDrained_spec n s
  exact ⟨(congrArg State.mem frame :), (congrArg State.mgmt frame :), (congrArg State.dir frame :),
    (congrArg State.trk frame :), (congrArg State.hli frame :), (congrArg State.ports frame :)⟩

/-- The pool as the rewrite leaves it reads 0 and GOOD (R191). -/
theorem read_cleared {m : Memory} (pool : m.pool = []) (conds : m.conds = []) (n : LineNo) : poolLine m n = 0 ∧
    condOf m n = ⟨false, none⟩ := by
  refine ⟨?_, by rw [condOf, conds]; rfl⟩
  have zero : (List.range 64).map (lineByte 0) = (List.range 64).map (fun i => poolByte m (64 * n.toNat + i)) :=
    List.map_congr_left fun i _ => by simp [lineByte, poolByte, pool]
  rw [poolLine, ← zero]
  exact ofBytes_lineBytes 0

/-- The state at the end of a drain, the report to the FENCEs apart. -/
def drained (e : WbEntry) (s : State) : State :=
  freePort { drainToPool e s with mem := { (drainToPool e s).mem with
    wbuf := afterDrain (drainToPool e s).mem.clearing e.line (drainToPool e s).mem.wbuf } }

theorem completeDrain_eq (e : WbEntry) (s : State) : completeDrain e s =
    if (drainToPool e s).mem.wbuf.any (fun x => x.line = e.line ∧ x.rewritten) = true then drained e s
    else markDrained e.line (drained e s) := rfl

theorem drained_idle (e : WbEntry) (stands : (drainToPool e s).mem.clearing = false) : drained e s =
    { drainToPool e s with mem := { (drainToPool e s).mem with
      wbuf := afterDrain false e.line (drainToPool e s).mem.wbuf, port := .idle } } := by
  rw [drained, stands]
  exact freePort_idle stands

theorem drained_rewrite (e : WbEntry) (clears : (drainToPool e s).mem.clearing = true) : drained e s =
    { drainToPool e s with mem := { (drainToPool e s).mem with
      wbuf := afterDrain true e.line (drainToPool e s).mem.wbuf, port := .rewrite, pool := [], conds := [] } } := by
  rw [drained, clears]
  exact freePort_rewrite clears

/-- Giving the port up leaves all but the port, the buffer and the pool. -/
theorem drained_frame (e : WbEntry) (s : State) : (drained e s).mem.clearing = (drainToPool e s).mem.clearing ∧
    (drained e s).mem.claims = (drainToPool e s).mem.claims ∧ (drained e s).mem.reads = (drainToPool e s).mem.reads ∧
    (drained e s).mem.record = (drainToPool e s).mem.record ∧ (drained e s).mgmt = (drainToPool e s).mgmt ∧
    (drained e s).disp = (drainToPool e s).disp ∧ (drained e s).dir = (drainToPool e s).dir ∧
    (drained e s).trk = (drainToPool e s).trk ∧ (drained e s).hli = (drainToPool e s).hli ∧
    (drained e s).ports = (drainToPool e s).ports := by
  cases clears : (drainToPool e s).mem.clearing with
  | false =>
    rw [drained_idle e clears]
    exact ⟨clears, rfl, rfl, rfl, rfl, rfl, rfl, rfl, rfl, rfl⟩
  | true =>
    rw [drained_rewrite e clears]
    exact ⟨clears, rfl, rfl, rfl, rfl, rfl, rfl, rfl, rfl, rfl⟩

/-- Settles O39. -/
theorem drainCompletes_holds : Obligations.DrainCompletes := by
  intro e s port found overtaken cause
  obtain ⟨line, cond, others, record, mgmt, wbuf, clearing, claims, reads, disp, dir, trk, hli, ports⟩ :=
    drainToPool_spec e s
  obtain ⟨clearing', claims', reads', record', mgmt', disp', dir', trk', hli', ports'⟩ := drained_frame e s
  have rewritten : (drainToPool e s).mem.wbuf.any (fun x => x.line = e.line ∧ x.rewritten) = true ↔ overtaken := by
    rw [wbuf, List.any_eq_true]
    simp only [decide_eq_true_eq]
    rfl
  obtain ⟨slots_frame, slots⟩ := markDrained_spec e.line (drained e s)
  have sameBut : ∃ t, completeDrain e s = t ∧ t.mem = (drained e s).mem ∧ t.mgmt = (drained e s).mgmt ∧
      t.dir = (drained e s).dir ∧ t.trk = (drained e s).trk ∧ t.hli = (drained e s).hli ∧ t.ports = (drained e s).ports ∧
      (∀ h, overtaken → slotOf t h = slotOf s h) ∧
      ∀ h, ¬overtaken → slotOf t h =
        (slotOf s h).map (fun x => { x with drainLines := x.drainLines.filter (· ≠ e.line) }) := by
    have stands (h : HostNo) : slotOf (drained e s) h = slotOf s h := by rw [slotOf, disp', disp, slotOf]
    rw [completeDrain_eq]
    by_cases late : overtaken
    · rw [if_pos (rewritten.mpr late)]
      exact ⟨_, rfl, rfl, rfl, rfl, rfl, rfl, rfl, fun h _ => stands h, fun _ onTime => absurd late onTime⟩
    · rw [if_neg (mt rewritten.mp late)]
      obtain ⟨mem, mgmt, dir, trk, hli, ports⟩ := markDrained_frame e.line (drained e s)
      exact ⟨_, rfl, mem, mgmt, dir, trk, hli, ports, fun _ passed => absurd passed late, fun h _ => by rw [slots, stands]⟩
  obtain ⟨t, ends, t_mem, t_mgmt, t_dir, t_trk, t_hli, t_ports, t_late, t_slots⟩ := sameBut
  refine ⟨t, ?_, fun stands => ?_, fun clears => ?_, ?_, ?_, ?_, ?_, ?_, t_late, t_slots, ?_, ?_, ?_, ?_⟩
  · refine congrArg (fun x => Host.Outcome.next (settle x)) (Eq.trans ?_ ends)
    rw [drainCompletes, port]
  · have idle := drained_idle e (clearing.trans stands)
    rw [t_mem, idle]
    refine ⟨line, cond, others, ?_, rfl⟩
    rw [← wbuf]
    exact afterDrain_kept ..
  · have rewrites := drained_rewrite e (clearing.trans clears)
    rw [t_mem, rewrites]
    refine ⟨read_cleared rfl rfl, ?_, rfl⟩
    rw [← wbuf]
    exact afterDrain_cleared ..
  · rw [t_mem, clearing', clearing]
  · rw [t_mem, claims', claims]
  · rw [t_mem, reads', reads]
  · rw [t_mem, record', record] <;> rfl
  · rw [t_mgmt, mgmt', mgmt] <;> rfl
  · rw [t_dir, dir', dir]
  · rw [t_trk, trk', trk]
  · rw [t_hli, hli', hli]
  · rw [t_ports, ports', ports]

/-! ### Grants and placements (R129, R136, R137) -/

theorem find_among {α : Type} {P : α → Bool} {a : α} {before after : List α} (passes : P a = true)
    (first : ∀ b ∈ before, ¬P b = true) : (before ++ a :: after).find? P = some a := by
  rw [List.find?_append, List.find?_eq_none.mpr first, Option.none_or, List.find?_cons_of_pos passes]

theorem claimMerges_iff {c : WbClaim} : claimMerges s c = true ↔
    ∃ n e, claimLine s c = some n ∧ entryFor s.mem n = some e := by
  unfold claimMerges
  cases claimLine s c with
  | none => simp
  | some n => simp [Option.isSome_iff_exists]

theorem claimMerges_eq_false {c : WbClaim} (none_ : ∀ n, claimLine s c = some n → entryFor s.mem n = none) :
    claimMerges s c = false := by
  refine (Bool.not_eq_true _).mp fun merges => ?_
  obtain ⟨n, e, line, entry⟩ := claimMerges_iff.mp merges
  simp [none_ n line] at entry

/-- With a slot free the head of the claim list may be granted (R136). -/
theorem grantableClaim_room {c : WbClaim} {rest : List WbClaim} (service : s.resetPhase ≠ .drain)
    (stands : s.mem.clearing = false) (claims : s.mem.claims = c :: rest) (room : s.mem.wbuf.length < 8) :
    grantableClaim s = some c := by
  unfold grantableClaim
  rw [if_neg (by simp [service, stands]), claims]
  exact if_pos room

/-- With no slot free the first claim whose line the buffer has may be granted (R136). -/
theorem grantableClaim_full (service : s.resetPhase ≠ .drain) (stands : s.mem.clearing = false)
    (full : 8 ≤ s.mem.wbuf.length) : grantableClaim s = s.mem.claims.find? (claimMerges s) := by
  unfold grantableClaim
  rw [if_neg (by simp [service, stands])]
  cases s.mem.claims with
  | nil => rfl
  | cons c rest => exact if_neg (by omega)

/-- A write to a line that the buffer has no entry for is its youngest entry (R137). -/
theorem placeIn_new {w : Write} {b : List WbEntry} (absent : ∀ e ∈ b, e.line ≠ w.line) :
    placeIn w b = b ++ [⟨w.line, w.data, w.mask, w.poisoned, w.source, false, false, false⟩] :=
  if_neg (by simpa using absent)

/-- A write to a line that the buffer has merges into its entry (R137). -/
theorem placeIn_merge {w : Write} {e : WbEntry} {before after : List WbEntry} (line : e.line = w.line)
    (others : ∀ x ∈ before ++ after, x.line ≠ w.line) :
    placeIn w (before ++ e :: after) = before ++ mergeEntry w e :: after := by
  have kept (l : List WbEntry) (apart : ∀ x ∈ l, x.line ≠ w.line) :
      l.map (fun e => if e.line = w.line then mergeEntry w e else e) = l :=
    (List.map_congr_left fun x mem => if_neg (apart x mem)).trans l.map_id
  rw [placeIn, if_pos (by simp [line]), List.map_append, List.map_cons, if_pos line,
    kept before fun x mem => others x (by simp [mem]), kept after fun x mem => others x (by simp [mem])]

/-- A FENCE's marker after a placement by a tracker, as the statement of the placements gives it (R129). -/
def placedMark (t : TrackerNo) (tr : Tracker) (p : HostNo) (x : FenceSlot) : FenceSlot :=
  { x with
    drainLines := if (∃ tag, tr.requester = some (p, tag) ∧ tag ∈ x.requests) ∨ t ∈ x.absorptions
      then insertNew tr.line x.drainLines else x.drainLines
    absorptions := x.absorptions.filter (· ≠ t) }

theorem insertNew_insertNew {α : Type} [DecidableEq α] (x : α) (l : List α) :
    insertNew x (insertNew x l) = insertNew x l := by
  unfold insertNew
  by_cases mem : x ∈ l <;> simp [mem]

theorem filter_ne_of_not_mem {α : Type} [DecidableEq α] {x : α} {l : List α} (absent : x ∉ l) :
    l.filter (· ≠ x) = l := by
  rw [List.filter_eq_self]
  intro y mem
  simpa using fun e : y = x => absent (e ▸ mem)

/-- A request that a FENCE waits on, and then an absorption: each joins the line to its drain lines once. -/
theorem placedMark_eq (t : TrackerNo) (tr : Tracker) (p : HostNo) (x : FenceSlot) (carries : Bool)
    (carried : carries = true ↔ ∃ tag, tr.requester = some (p, tag) ∧ tag ∈ x.requests) :
    (fun x1 : FenceSlot => if t ∈ x1.absorptions
      then { joinDrain tr.line x1 with absorptions := x1.absorptions.filter (· ≠ t) } else x1)
      (if carries = true then joinDrain tr.line x else x) = placedMark t tr p x := by
  simp only [placedMark, ← carried]
  by_cases request : carries = true <;> by_cases absorbed : t ∈ x.absorptions
  · simp [joinDrain, request, absorbed, insertNew_insertNew]
  · simpa [joinDrain, request, absorbed] using (filter_ne_of_not_mem absorbed).symm
  · simp [joinDrain, request, absorbed]
  · rw [filter_ne_of_not_mem absorbed]
    simp [request, absorbed]

theorem markTrackerPlaced_eq (t : TrackerNo) (tr : Tracker) (s : State) : markTrackerPlaced t tr s =
    hosts.foldl (fun s h => updSlot s h (placedMark t tr h)) s := by
  unfold markTrackerPlaced
  refine congrArg (fun f => hosts.foldl f s) (funext fun s => funext fun h => congrArg (updSlot s h) (funext fun x => ?_))
  rw [← placedMark_eq t tr h x (match tr.requester with | some (r, tag) => decide (r = h ∧ tag ∈ x.requests) | none => false)]
  · cases tr.requester with
    | none => rfl
    | some r => simp only [decide_eq_true_eq]
  · cases tr.requester with
    | none => simp
    | some r =>
      obtain ⟨r, tag⟩ := r
      simp [and_assoc]

/-- All that the marker changes at a placement by a tracker do (R129). -/
theorem markTrackerPlaced_spec (t : TrackerNo) (tr : Tracker) (s : State) :
    { markTrackerPlaced t tr s with disp := { (markTrackerPlaced t tr s).disp with slots := s.disp.slots } } = s ∧
      ∀ p, slotOf (markTrackerPlaced t tr s) p = (slotOf s p).map (placedMark t tr p) := by
  rw [markTrackerPlaced_eq]
  obtain ⟨frame, slots⟩ := updSlotFold_spec (placedMark t tr) hosts nodup_hosts s
  exact ⟨frame, fun p => (slots p).trans (if_pos (mem_hosts p))⟩

/-- The grant to a tracker places its write, its data then unmodified, and it ends its scrub or replies (R101, R162). -/
theorem grantClaim_tracker {t : TrackerNo} {tr : Tracker} {data : LineData} {mask : ByteMask} {poisoned : Bool}
    (on : trackerOf s t = some tr) (writes : trackerWrite tr = some (data, mask, poisoned)) :
    grantClaim (.tracker t) s = (fun placed : State => if tr.scrubbing = true then endScrub t placed else reply t none placed)
      (setTracker (markTrackerPlaced t tr (placeWrite ⟨tr.line, data, mask, poisoned, .tracker⟩ (dropClaim (.tracker t) s)))
        t (some { tr with buffer := tr.buffer.map (fun b => { b with modified := false }) })) := by
  have on' : trackerOf (dropClaim (.tracker t) s) t = some tr := on
  have marked := congrArg (fun x : State => x.trk) (markTrackerPlaced_spec t tr
    (placeWrite ⟨tr.line, data, mask, poisoned, .tracker⟩ (dropClaim (.tracker t) s))).1
  have on'' : trackerOf (markTrackerPlaced t tr
      (placeWrite ⟨tr.line, data, mask, poisoned, .tracker⟩ (dropClaim (.tracker t) s))) t = some tr :=
    (congrArg (fun x : TrackerTable => x.table[t]) marked).trans on
  unfold grantClaim grantTracker
  dsimp only
  rw [on']
  dsimp only
  rw [writes]
  dsimp only
  rw [updTracker_of_some _ on'']

/-- Settles O40: the claim granted, the write placed, the merge, and the marker changes. -/
theorem writesPlaced : Obligations.WritesPlaced := by
  unfold Obligations.WritesPlaced
  intro joined
  refine ⟨fun c before after s service stands claims => ?_, fun s stops => ?_, fun t tr data mask poisoned s on writes => ?_,
    fun w s => rfl, fun w b => placeIn_new, fun w e before after line others => ?_, fun t tr h line s => ?_⟩
  · refine ⟨fun first room => ?_, fun full merges none_ => ?_, fun full none_ => ?_⟩
    · subst first
      rw [dueClaim, grantableClaim_room service stands claims room]
      rfl
    · rw [dueClaim, grantableClaim_full service stands full, claims, find_among (claimMerges_iff.mpr merges)
        fun d mem => by simp [claimMerges_eq_false (none_ d mem)]]
      rfl
    · rw [dueClaim, grantableClaim_full service stands full,
        List.find?_eq_none.mpr fun d mem => by simp [claimMerges_eq_false (none_ d mem)]]
      rfl
  · have none_ : grantableClaim s = none := by
      unfold grantableClaim
      by_cases stopped : s.resetPhase = .drain ∨ s.mem.clearing = true
      · exact if_pos stopped
      · have empty : s.mem.claims = [] := by
          rcases stops with drains | clears | empty
          · exact absurd (.inl drains) stopped
          · exact absurd (.inr clears) stopped
          · exact empty
        rw [if_neg stopped, empty]
    rw [dueClaim, none_]
    rfl
  · exact grantClaim_tracker on writes
  · refine ⟨_, placeIn_merge line others, fun i below => ?_⟩
    exact lineByte_mergeUnder _ _ _ i below
  · obtain ⟨frame, slots⟩ := markTrackerPlaced_spec t tr s
    refine ⟨slots, frame, ?_, ?_⟩
    · rw [markReturnPlaced, updSlot_eq]
      rfl
    · rw [markAbsorbed, updSlot_eq]
      rfl

/-! ### The arbiter (R140, R142) -/

theorem isEligible_iff {x : WbEntry} : isEligible x = true ↔ x.draining = false ∧ x.held = false := by
  simp [isEligible]

/-- Settles O41: an eligible entry with and without a read, no eligible entry, and the drain step of a hub reset. -/
theorem arbiterChooses : Obligations.ArbiterChooses := by
  intro s idle stands drained granted eligible
  have chooses : dueArbiter s = arbiterChoice s := if_pos ⟨idle, stands⟩
  rw [chooses]
  refine ⟨fun e before after wbuf fits first => ?_, fun none_ => ?_, fun e before after wbuf waits first => ?_⟩
  · have oldest : oldestEligible s.mem = some e := by
      rw [oldestEligible, wbuf]
      exact find_among (isEligible_iff.mpr fits) fun x mem => mt isEligible_iff.mp (first x mem)
    unfold arbiterChoice
    rw [oldest]
    refine ⟨fun empty => ?_, fun t rest reads presses => ?_, fun t rest reads room streak => ?_⟩
    · rw [empty]
      rfl
    · rw [reads]
      exact if_pos presses
    · rw [reads]
      refine (if_neg (by omega)).trans ?_
      rw [grantRead, oldest]
      rfl
  · have oldest : oldestEligible s.mem = none :=
      List.find?_eq_none.mpr fun x mem => mt isEligible_iff.mp (none_ x mem)
    unfold arbiterChoice
    rw [oldest]
    refine ⟨fun empty => ?_, fun t rest reads => ?_⟩
    · rw [empty]
    · rw [reads]
      dsimp only
      rw [grantRead, oldest]
      rfl
  · have oldest : s.mem.wbuf.find? (fun x => !x.draining) = some e := by
      rw [wbuf]
      exact find_among (by simp [waits]) fun x mem => by simp [first x mem]
    rw [dueResetDrain, if_pos idle, oldest]
    rfl

end Sys2Proof.Machine
end

section
/-! PROOFS. The direct accesses: the atomic operations and the replies (O42, O43). -/

namespace Sys2Proof.Machine
variable {s : State} {h : HostNo}

/-! ### The words of a line (R125) -/

theorem getLsbD_lineWord (d : LineData) (w : Fin 8) {i : Nat} (below : i < 64) :
    (lineWord d w).getLsbD i = d.getLsbD (64 * w.val + i) := by
  simp [lineWord, below]

/-- The bits of a line with one word replaced. -/
theorem getLsbD_setLineWord (d : LineData) (w : Fin 8) (x : Word64) {j : Nat} (below : j < 512) :
    (setLineWord d w x).getLsbD j =
      if 64 * w.val ≤ j ∧ j < 64 * w.val + 64 then x.getLsbD (j - 64 * w.val) else d.getLsbD j := by
  have inWord : (j - 64 * w.val < 512) = True := by
    simp only [eq_iff_iff, iff_true]
    omega
  simp only [setLineWord, BitVec.getLsbD_or, BitVec.getLsbD_and, BitVec.getLsbD_not, BitVec.getLsbD_shiftLeft,
    BitVec.getLsbD_setWidth, BitVec.getLsbD_allOnes, below, inWord, decide_true, Bool.true_and]
  by_cases low : j < 64 * w.val
  · have out : ¬(64 * w.val ≤ j ∧ j < 64 * w.val + 64) := by omega
    simp [low, out]
  · by_cases high : j < 64 * w.val + 64
    · have inside : 64 * w.val ≤ j ∧ j < 64 * w.val + 64 := by omega
      have small : j - 64 * w.val < 64 := by omega
      simp [low, inside, small]
    · have out : ¬(64 * w.val ≤ j ∧ j < 64 * w.val + 64) := by omega
      have large : ¬(j - 64 * w.val < 64) := by omega
      have zero : x.getLsbD (j - 64 * w.val) = false := BitVec.getLsbD_of_ge _ _ (by omega)
      simp [low, out, large, zero]

/-- One word is replaced and the other seven stand. -/
theorem lineWord_setLineWord (d : LineData) (w : Fin 8) (x : Word64) (v : Fin 8) :
    lineWord (setLineWord d w x) v = if v = w then x else lineWord d v := by
  refine BitVec.eq_of_getLsbD_eq fun i below => ?_
  rw [getLsbD_lineWord _ _ below, getLsbD_setLineWord _ _ _ (by omega)]
  by_cases same : v = w
  · have inside : 64 * w.val ≤ 64 * w.val + i ∧ 64 * w.val + i < 64 * w.val + 64 := by omega
    rw [if_pos same, same, if_pos inside, Nat.add_sub_cancel_left]
  · have apart : v.val ≠ w.val := fun e => same (Fin.ext e)
    rw [if_neg same, if_neg (by omega), getLsbD_lineWord _ _ below]

/-! ### The results of the atomic operations (R125, R126) -/

theorem atomicOutcome_eq {op : AtomicOp} {w : Fin 8} {first second : Word64} {b : DataBuffer} {tr : Tracker}
    (operands : tr.operands = .atomic op w first second) (buffer : tr.buffer = some b) : atomicOutcome tr =
      if b.poisoned then some (.poisoned, lineWord b.data w)
      else some ((atomicResult op first second (lineWord b.data w)).2, lineWord b.data w) := by
  unfold atomicOutcome
  rw [operands, buffer]

theorem trackerWrite_atomic {op : AtomicOp} {w : Fin 8} {first second : Word64} {b : DataBuffer} {tr : Tracker}
    (kind : tr.kind = .atomic) (operands : tr.operands = .atomic op w first second) (buffer : tr.buffer = some b)
    (steady : tr.scrubbing = false) : trackerWrite tr =
      if b.poisoned = true then (if b.modified then some (b.data, fullMask, b.poisoned) else none)
      else if (atomicResult op first second (lineWord b.data w)).1 ≠ lineWord b.data w ∨ b.modified = true then
        some (setLineWord b.data w (atomicResult op first second (lineWord b.data w)).1, fullMask, false)
      else none := by
  unfold trackerWrite
  refine (if_neg (by simp [steady])).trans ?_
  rw [kind, operands, buffer]

theorem atomicResult_eq (op : AtomicOp) (first second old : Word64) : atomicResult op first second old =
    (match op with
      | .fetchAdd => old + first
      | .swap => first
      | .compareSwap => if old = first then second else old,
    if op = .compareSwap ∧ old ≠ first then .mismatch else .ok) := by
  cases op with
  | fetchAdd => rfl
  | swap => rfl
  | compareSwap => by_cases same : old = first <;> simp [atomicResult, same]

/-- Settles O42. -/
theorem atomicResults : Obligations.AtomicResults := by
  intro op w first second b tr kind operands buffer steady old new status
  have outcome := atomicOutcome_eq operands buffer
  have writes := trackerWrite_atomic kind operands buffer steady
  have result : atomicResult op first second (lineWord b.data w) = (new, status) := by
    rw [atomicResult_eq] <;> cases op <;> rfl
  rw [result] at outcome writes
  refine ⟨fun i below => getLsbD_lineWord _ _ below, fun clean => ?_, fun poisoned => ?_⟩
  · rw [clean] at outcome writes
    refine ⟨outcome, fun same unmodified => ?_, fun changes => ⟨setLineWord b.data w new, ?_, lineWord_setLineWord _ _ _⟩⟩
    · exact writes.trans (if_neg (not_or.mpr ⟨not_not.mpr same, by simp [unmodified]⟩))
    · exact writes.trans (if_pos changes)
  · rw [poisoned] at outcome writes
    exact ⟨outcome, writes⟩

/-! ### The replies of direct kinds (R110, R119 to R126) -/

theorem sendResponse_direct {tr : Tracker} {tag : HostTag} (requester : tr.requester = some (h, tag))
    (direct : isCoherent tr.kind = false) : sendResponse tr none s = respond h tag (responseOf tr tag) s := by
  simp only [sendResponse, requester, direct, Bool.false_eq_true, false_and, if_false]

theorem sendResponse_refusal {tr : Tracker} {tag : HostTag} (requester : tr.requester = some (h, tag))
    (reason : RefuseReason) : sendResponse tr (some reason) s = respond h tag (.refuseReq tag reason) s := by
  simp only [sendResponse, requester]

theorem responseOf_directRead {tr : Tracker} {b : DataBuffer} (tag : HostTag) (kind : tr.kind = .directRead)
    (buffer : tr.buffer = some b) : responseOf tr tag = .dataDirect tag tr.line b.poisoned b.data := by
  simp only [responseOf, kind, bufferData, buffer]

theorem responseOf_directWrite {tr : Tracker} (tag : HostTag) (kind : tr.kind = .directWrite) :
    responseOf tr tag = .doneReq tag .ok none := by
  simp only [responseOf, kind]

theorem responseOf_atomic {tr : Tracker} {status : DoneStatus} {value : Word64} (tag : HostTag) (kind : tr.kind = .atomic)
    (result : tr.result = some (status, value)) : responseOf tr tag = .doneReq tag status (some value) := by
  simp only [responseOf, kind, result]

/-- The reply of a tracker bound to no way makes no commit (R78, R119). -/
theorem reply_unbound_spec {t : TrackerNo} {tr : Tracker} {tag : HostTag} {m : HubMsg} (on : trackerOf s t = some tr)
    (bound : boundWay s (lineSet tr.line) t = none) (sends : sendResponse tr none s = respond h tag m s) :
    let x := reply t none s
    x = freeTracker t (requestEnded h tag m s) ∧
      trackerOf x t = none ∧ (∀ u, u ≠ t → trackerOf x u = trackerOf s u) ∧
      hliOf x h = { hliOf s h with
        tags := (hliOf s h).tags.filter (· ≠ tag)
        outbound := (hliOf s h).outbound ++ (if isPlaced s h m then [m] else []) } ∧
      (∀ p, p ≠ h → hliOf x p = hliOf s p) ∧ x.dir = s.dir ∧ x.mem = s.mem ∧ x.ports = s.ports := by
  intro x
  have ends : x = freeTracker t (requestEnded h tag m s) := reply_unbound none on bound sends
  have on' : trackerOf (requestEnded h tag m s) t = some tr := on
  have trackers := trackerOf_freeTracker t (requestEnded h tag m s)
  obtain ⟨ask, freed⟩ := freeTracker_spec on'
  obtain ⟨hli, dir, mem, _⟩ := freeTracker_frame on'
  have links (p : HostNo) : hliOf x p = hliOf (requestEnded h tag m s) p := by rw [ends, hliOf, hli, hliOf]
  rw [ends]
  rw [ends] at links
  refine ⟨rfl, (trackers t).trans (if_pos rfl), fun u other => (trackers u).trans (if_neg other.symm), ?_,
    fun p other => ?_, dir.trans rfl, mem.trans rfl, ?_⟩
  · rw [links, hliOf_requestEnded, if_pos rfl]
  · rw [links, hliOf_requestEnded, if_neg other.symm]
  · rw [freed]
    rfl

/-- With its contents in the buffer and nothing to write a DIRECT_READ replies at once (R121). -/
theorem contentsReady_directRead {t : TrackerNo} {tr : Tracker} {b : DataBuffer} (on : trackerOf s t = some tr)
    (kind : tr.kind = .directRead) (buffer : tr.buffer = some b) (clean : b.modified = false) :
    contentsReady t s = reply t none s := by
  have noWrite : tr.kind ≠ .directWrite ∧ tr.kind ≠ .atomic := by simp [kind]
  have nothing : trackerWrite tr = none := by
    rw [trackerWrite_modified (.inr noWrite)]
    simp [modifiedWrite, buffer, clean]
  rw [contentsReady_eq on, if_neg noWrite.2, writeOrReply_none on nothing]

theorem presented_directRead {tr : Tracker} (kind : tr.kind = .directRead) :
    presented s none tr = presentDirectRead tr := by
  simp only [presented, kind]

theorem presented_freed {tr : Tracker} (kind : tr.kind = .directWrite ∨ tr.kind = .atomic) :
    presented s none tr = .free := by
  rcases kind with e | e <;> simp only [presented, e]

/-- Settles O43: the replies bound to no way, and those bound to one with what each commits. -/
theorem directReplies : Obligations.DirectReplies := by
  refine ⟨fun t tr h tag s on requester unbound => ?_, ?_⟩
  · intro x answered
    have replies (m : HubMsg) (direct : isCoherent tr.kind = false) (responds : responseOf tr tag = m) : answered m :=
      reply_unbound_spec on unbound (responds ▸ sendResponse_direct requester direct)
    refine ⟨fun b kind buffer => ⟨?_, fun _ clean => contentsReady_directRead on kind buffer clean⟩, fun kind => ?_,
      fun status value kind result => ?_⟩
    · exact replies _ (by rw [kind]; rfl) (responseOf_directRead tag kind buffer)
    · exact replies _ (by rw [kind]; rfl) (responseOf_directWrite tag kind)
    · exact replies _ (by rw [kind]; rfl) (responseOf_atomic tag kind result)
  · intro t tr h tag w s k on requester bound alone committed
    have ends (refuse : Option RefuseReason) (e : Entry) (m : HubMsg)
        (sends : sendResponse tr refuse s = respond h tag m s) (presents : presented s refuse tr = e) :
        committed (reply t refuse s) e m := by
      have spec := reply_bound refuse on bound alone sends
      obtain ⟨freed, kept, way, ways, link, links, mem, _⟩ := reply_spec refuse on bound alone sends
      rw [presents] at spec way
      exact ⟨spec, freed, kept, way, ways, link, links, mem⟩
    have direct (e : Entry) (m : HubMsg) (direct : isCoherent tr.kind = false) (responds : responseOf tr tag = m)
        (presents : presented s none tr = e) : committed (reply t none s) e m :=
      ends none e m (responds ▸ sendResponse_direct requester direct) presents
    refine ⟨fun b kind buffer => ?_, fun kind => ?_, fun status value kind result => ?_,
      ends (some .lost) _ _ (sendResponse_refusal requester .lost) rfl⟩
    · intro data
      have reads (e : Entry) (presents : presentDirectRead tr = e) : committed (reply t none s) e data :=
        direct e _ (by rw [kind]; rfl) (responseOf_directRead tag kind buffer)
          ((presented_directRead kind).trans presents)
      refine ⟨fun holders reported => reads _ ?_, fun o reported => reads _ ?_, fun reported => reads _ ?_⟩
      · rw [presentDirectRead, reported]
      · rw [presentDirectRead, reported]
      · rw [presentDirectRead, reported]
    · exact direct _ _ (by rw [kind]; rfl) (responseOf_directWrite tag kind) (presented_freed (.inl kind))
    · exact direct _ _ (by rw [kind]; rfl) (responseOf_atomic tag kind result) (presented_freed (.inr kind))

end Sys2Proof.Machine
end

section
/-! PROOFS. The Directory Walker: its visits and grants, its waits, and the steps of a cutover (O44, O45). -/

namespace Sys2Proof.Machine
variable {s : State} {h : HostNo}

/-! ### The steps of a cutover (R144, R153, R155) -/

theorem hostPoolInUse_iff : hostPoolInUse s = true ↔ ∃ t : TrackerNo, t.val < 56 ∧ trackerOf s t ≠ none := by
  simp [hostPoolInUse, hostPool, allTrackers, Option.isSome_iff_ne_none]

theorem dueWalker_draining {j : Job} (current : s.walker.current = some j) (draining : s.walker.draining = true) :
    dueWalker s = if hostPoolInUse s then none else some (endCutoverDrain s) := by
  unfold dueWalker
  rw [current]
  exact if_pos draining

theorem dueWalker_walking {j : Job} (current : s.walker.current = some j) (walks : s.walker.draining = false)
    (visit : s.walker.wait = .visit) :
    dueWalker s = if s.walker.walked = true ∧ s.walker.trackers = [] then some (endJob j s) else none := by
  unfold dueWalker
  rw [current]
  dsimp only
  rw [if_neg (by simp [walks]), visit]

theorem dueWalker_waiting {j : Job} (current : s.walker.current = some j) (walks : s.walker.draining = false)
    (visit : s.walker.wait = .visit) (waits : s.walker.walked = false ∨ s.walker.trackers ≠ []) : dueWalker s = none := by
  rw [dueWalker_walking current walks visit, if_neg]
  rintro ⟨walked, freed⟩
  rcases waits with unwalked | running
  · simp [walked] at unwalked
  · exact running freed

/-- The tables swapped, before the ONLINE ports are told (R155). -/
def swapped (s : State) : State :=
  latch .cutoverDone (setCutover .done
    { s with region := { s.region with active := s.region.staged, epoch := s.region.epoch + 1 } })

theorem swapTables_eq (s : State) : swapTables s =
    (fun y : State => { y with disp := { y.disp with halted := false } })
      (noticeOnline .cutoverDone 0 (fun _ => true) (swapped s)) := by
  rw [swapTables, swapped]

/-- The swap of a cutover tells the ONLINE ports and ends the halt (R155). -/
theorem swapTables_spec (s : State) : let t := swapTables s
    t.region = { s.region with active := s.region.staged, epoch := s.region.epoch + 1, status := .done, lock := false } ∧
    t.walker = s.walker ∧ t.disp = { s.disp with halted := false } ∧
    t.mgmt = { s.mgmt with
      latch := s.mgmt.latch ||| 0x0040, alertLow := alertLowOf (s.mgmt.latch ||| 0x0040) s.mgmt.mask } ∧
    (∀ p, hliOf t p = { hliOf s p with
      outbound := (hliOf s p).outbound ++
        (if portState s p = .online ∧ (hliOf s p).linkUp = true
         then [.notice .cutoverDone 0 (s.region.epoch + 1)] else []) }) ∧
    { t with region := s.region, walker := s.walker, disp := s.disp, mgmt := s.mgmt, hli := s.hli } = s := by
  intro t
  have told : t = (fun y : State => { y with disp := { y.disp with halted := false } })
      (noticeOnline .cutoverDone 0 (fun _ => true) (swapped s)) := swapTables_eq s
  have same := noticeOnline_same (s := swapped s) .cutoverDone 0 (fun _ => true)
  have links (p : HostNo) := hliOf_noticeOnline (s := swapped s) .cutoverDone 0 (fun _ => true) p
  generalize noticeOnline .cutoverDone 0 (fun _ => true) (swapped s) = y at told same links
  clear_value t
  subst told
  refine ⟨?_, ?_, ?_, ?_, fun p => ?_, ?_⟩
  · exact same.region
  · exact same.walker
  · exact congrArg (fun d : Dispatcher => { d with halted := false }) same.disp
  · exact same.mgmt
  · refine (links p).trans ?_
    simp only [true_and]
    rfl
  · exact state_ext same.hub same.resetPhase rfl same.ports rfl same.dir same.trk rfl same.mem rfl same.integ rfl
      same.freeCount same.pending

/-- Settles O45: the taking of the job, the end of the drain, and the swap. -/
theorem cutoverSteps : Obligations.CutoverSteps := by
  refine fun s => ⟨fun rest idle next => ?_, fun current draining => ?_, fun current walks visit =>
    ⟨dueWalker_waiting current walks visit, fun walked freed => ?_⟩⟩
  · unfold dueWalker
    rw [idle, next]
    rfl
  · rw [dueWalker_draining current draining]
    refine ⟨fun used => if_pos (hostPoolInUse_iff.mpr used), fun unused => if_neg ?_⟩
    intro inUse
    obtain ⟨t, pool, used⟩ := hostPoolInUse_iff.mp inUse
    exact used (unused t pool)
  · rw [dueWalker_walking current walks visit, if_pos ⟨walked, freed⟩]
    refine ⟨swapTables { s with walker := { s.walker with current := none } }, rfl, ?_⟩
    obtain ⟨region, walker, disp, mgmt, links, frame⟩ :=
      swapTables_spec { s with walker := { s.walker with current := none } }
    generalize swapTables { s with walker := { s.walker with current := none } } = t at *
    exact ⟨region, walker, disp, mgmt, links, (congrArg (fun x : State => { x with walker := s.walker }) frame :)⟩

end Sys2Proof.Machine
end

section
/-! PROOFS. The Directory Walker: its visits, its grants and its waits (O44). -/

namespace Sys2Proof.Machine
variable {s : State} {h : HostNo}

/-! ### Moving on (R145) -/

/-- The walker once it has finished with a set (R145). -/
def passedSet (x : Walker) : Walker :=
  if x.revisiting = true ∨ x.set = 2047 then
    { x with way := 0, wait := .visit, revisiting := true, walked := x.skipped.isEmpty }
  else { x with set := x.set + 1, way := 0, wait := .visit, walked := false }

/-- The walker once it has skipped a set (R145). -/
def skippedSet (x : Walker) : Walker := passedSet { x with skipped := x.skipped ++ [x.set] }

theorem finishSet_eq (s : State) : finishSet s = { s with walker := passedSet s.walker } := by
  unfold finishSet passedSet
  by_cases last : s.walker.revisiting = true ∨ s.walker.set = 2047
  · have isLast : (s.walker.revisiting || decide (s.walker.set = 2047)) = true := by simpa using last
    simp only [isLast, if_pos last, Bool.true_and, if_true]
  · have notLast : (s.walker.revisiting || decide (s.walker.set = 2047)) = false := by simpa using last
    have first : s.walker.revisiting = false := by simpa using (not_or.mp last).1
    simp only [notLast, if_neg last, Bool.false_and, Bool.false_eq_true, if_false]
    rw [first]

theorem skipSet_eq (s : State) : skipSet s = { s with walker := skippedSet s.walker } := by
  rw [skipSet, finishSet_eq]
  rfl

/-! ### One way (R145, R148, R150, R154) -/

theorem visitWay_unchecked (j : Job) {w : WayNo} (free : checkWay (wayOf s s.walker.set w) = .notChecked) :
    visitWay j w s = .goOn s := by
  unfold visitWay
  dsimp only
  rw [free]

theorem visitWay_tagError (j : Job) {w : WayNo} (tagged : checkWay (wayOf s s.walker.set w) = .tagError) :
    visitWay j w s = .stop (skipSet (handError s.walker.set .walker s (w, .tag))) := by
  unfold visitWay
  dsimp only
  rw [tagged]

theorem visitWay_stateError (j : Job) {w : WayNo} (broken : checkWay (wayOf s s.walker.set w) = .stateError) :
    visitWay j w s = if isBusy s s.walker.set w = true then .goOn (handError s.walker.set .walker s (w, .state))
      else .stop (claimWalker w true (handError s.walker.set .walker s (w, .state))) := by
  unfold visitWay
  dsimp only
  rw [broken]

theorem struckBy_of_recall {j : Job} (recalls : ∀ h, j ≠ .forfeit h) (e : Entry) : struckBy j e = none := by
  cases j with
  | forfeit h => exact absurd rfl (recalls h)
  | depart h => rfl
  | cutover => rfl

/-- A way of good parity met by a job that recalls. -/
theorem visitWay_good {j : Job} (recalls : ∀ h, j ≠ .forfeit h) {w : WayNo}
    (good : checkWay (wayOf s s.walker.set w) = .good) : visitWay j w s =
      if jobRound s j (lineOf (wayOf s s.walker.set w).tag s.walker.set) (entryOf (wayOf s s.walker.set w)) = [] then .goOn s
      else if isBusy s s.walker.set w = true then
        .stop (standAt w (.busy (lineOf (wayOf s s.walker.set w).tag s.walker.set)) s)
      else .stop (claimWalker w false s) := by
  unfold visitWay
  dsimp only
  rw [good]
  dsimp only
  rw [struckBy_of_recall recalls]

/-- A way of good parity met by a forfeit. -/
theorem visitWay_forfeit {w : WayNo} (good : checkWay (wayOf s s.walker.set w) = .good) : visitWay (.forfeit h) w s =
      .goOn (if hasHost (holdersOf (entryOf (wayOf s s.walker.set w))) h = true ∧ isBusy s s.walker.set w = false
        then forfeitUpdate s.walker.set w h s else s) := by
  unfold visitWay
  dsimp only
  rw [good]
  dsimp only
  rw [struckBy]
  by_cases holds : hasHost (holdersOf (entryOf (wayOf s s.walker.set w))) h = true
  · rw [if_pos holds]
    cases isBusy s s.walker.set w <;> simp [holds]
  · rw [if_neg holds]
    simp [holds, jobRound]

theorem claimWalker_eq {w : WayNo} (scrub : Bool) (fresh : InternalClaim.walker ∉ s.trk.claims) : claimWalker w scrub s =
    { s with
      walker := { s.walker with way := w, wait := .claim (lineOf (wayOf s s.walker.set w).tag s.walker.set) scrub }
      trk := { s.trk with claims := s.trk.claims ++ [.walker] } } := by
  have joins : insertNew InternalClaim.walker s.trk.claims = s.trk.claims ++ [.walker] := insertNew_of_not_mem fresh
  unfold claimWalker standAt
  dsimp only
  rw [joins]

/-- A state parity error handed over leaves the directory, the trackers and the walker. -/
theorem handError_state (k : SetNo) (reader : Reader) (w : WayNo) (s : State) :
    handError k reader s (w, .state) = recordParity k w .state reader s := handError_of_recorded (.inl rfl)

/-- The claim for a scrub, its error handed over (R146, R160). -/
theorem claimWalker_scrub {w : WayNo} (fresh : InternalClaim.walker ∉ s.trk.claims) :
    claimWalker w true (handError s.walker.set .walker s (w, .state)) =
      { handError s.walker.set .walker s (w, .state) with
        walker := { s.walker with way := w, wait := .claim (lineOf (wayOf s s.walker.set w).tag s.walker.set) true }
        trk := { s.trk with claims := s.trk.claims ++ [.walker] } } := by
  rw [handError_state]
  exact claimWalker_eq (s := recordParity s.walker.set w .state .walker s) true fresh

/-! ### The forfeit update (R70, R150) -/

theorem forfeitUpdate_shared {k : SetNo} {w : WayNo} {holders : HostSet}
    (entry : entryOf (wayOf s k w) = .shared holders) : forfeitUpdate k w h s =
      if dropHost holders h &&& holding s = 0 then reportChange k (touchLeast k w (putFree k w s))
      else putWay k w ⟨2, (wayOf s k w).tag, dropHost holders h &&& holding s, none, tagParityOf (wayOf s k w).tag,
        stateParityOf 2 (dropHost holders h &&& holding s)⟩ s := by
  unfold forfeitUpdate
  dsimp only
  have quiet : writeEntry k w (wayOf s k w).tag (strike h (entryOf (wayOf s k w))) .forfeit s =
      putWay k w (wayFor (wayOf s k w) (wayOf s k w).tag (maskEntry s (.shared (dropHost holders h)))) s := by
    rw [entry]
    exact writeEntry_quiet _ _ _ _ _ (.inl fun o e => by cases e)
  rw [quiet]
  by_cases none_ : dropHost holders h &&& holding s = 0
  · rw [if_pos none_, maskEntry, if_pos none_]
    refine if_pos ?_
    rw [wayOf_putWay, if_pos ⟨rfl, rfl⟩]
    rfl
  · rw [if_neg none_, maskEntry, if_neg none_, wayFor, if_neg none_]
    refine if_neg ?_
    rw [wayOf_putWay, if_pos ⟨rfl, rfl⟩]
    exact (by decide : (2 : BitVec 3) ≠ 0)

theorem forfeitUpdate_owned {k : SetNo} {w : WayNo} (entry : entryOf (wayOf s k w) = .owned h)
    (gone : isAdmitted s h = false) : forfeitUpdate k w h s = writeEntry k w (wayOf s k w).tag (.owned h) .forfeit s := by
  unfold forfeitUpdate
  dsimp only
  have stays : strike h (.owned h) = .owned h := rfl
  rw [entry, stays]
  refine if_neg ?_
  rw [wayOf_writeEntry, if_pos ⟨rfl, rfl⟩, maskEntry, if_neg (by simp [gone]), wayFor]
  exact (by decide : (4 : BitVec 3) ≠ 0)

/-- What a forfeit update does, whatever the entry struck from. -/
theorem forfeitUpdate_spec (k : SetNo) (w : WayNo) (h : HostNo) (s : State) :
    let y := forfeitUpdate k w h s
    let new := wayFor (wayOf s k w) (wayOf s k w).tag (maskEntry s (strike h (entryOf (wayOf s k w))))
    (∀ j v, wayOf y j v = if k = j ∧ w = v then new else wayOf s j v) ∧
    (y.walker = s.walker ∧ y.hli = s.hli ∧ y.mem = s.mem ∧ y.trk.table = s.trk.table ∧ y.ports = s.ports) ∧
    (new.code = 0 → y.dir.freed = s.dir.freed ++ [(k, w)] ∧
      (Machine.setOf y k).order = allWays.filter (fun v => v = w ∨ (k, v) ∈ s.dir.freed) ++
        (Machine.setOf s k).order.filter (· ∉ allWays.filter (fun v => v = w ∨ (k, v) ∈ s.dir.freed))) ∧
    (new.code ≠ 0 → y.dir.freed = s.dir.freed ∧ (Machine.setOf y k).order = (Machine.setOf s k).order) := by
  intro y new
  have ways := wayOf_writeEntry k w (wayOf s k w).tag (strike h (entryOf (wayOf s k w))) .forfeit s
  have order := order_writeEntry k w (wayOf s k w).tag (strike h (entryOf (wayOf s k w))) .forfeit s
  obtain ⟨freed, frame⟩ := writeEntry_frame k w (wayOf s k w).tag (strike h (entryOf (wayOf s k w))) .forfeit s
  have updates : y = if (wayOf (writeEntry k w (wayOf s k w).tag (strike h (entryOf (wayOf s k w))) .forfeit s) k w).code = 0
      then reportChange k (touchLeast k w (writeEntry k w (wayOf s k w).tag (strike h (entryOf (wayOf s k w))) .forfeit s))
      else writeEntry k w (wayOf s k w).tag (strike h (entryOf (wayOf s k w))) .forfeit s := rfl
  generalize writeEntry k w (wayOf s k w).tag (strike h (entryOf (wayOf s k w))) .forfeit s = a at *
  have code : wayOf a k w = new := (ways k w).trans (if_pos ⟨rfl, rfl⟩)
  rw [code] at updates
  have walker : a.walker = s.walker := (congrArg State.walker frame :)
  have hli : a.hli = s.hli := (congrArg State.hli frame :)
  have mem : a.mem = s.mem := (congrArg State.mem frame :)
  have table : a.trk.table = s.trk.table := (congrArg (fun x : State => x.trk.table) frame :)
  have ports : a.ports = s.ports := (congrArg State.ports frame :)
  clear_value y
  by_cases zero : new.code = 0
  · rw [if_pos zero] at updates
    obtain ⟨kept, _, moved, rest, _, _, noted⟩ := touchFreed_spec k [w] a
    subst updates
    refine ⟨fun j v => (kept j v).trans (ways j v), ⟨walker, hli, mem, table, ports⟩,
      fun _ => ⟨?_, ?_⟩, fun some_ => absurd zero some_⟩
    · exact noted.trans (by rw [freed]; rfl)
    · refine moved.trans ?_
      simp only [List.mem_singleton, freed, order]
  · rw [if_neg zero] at updates
    subst updates
    exact ⟨ways, ⟨walker, hli, mem, table, ports⟩, fun none_ => absurd none_ zero,
      fun _ => ⟨freed, order k⟩⟩

/-! ### A forfeit over a whole set (R60, R150) -/

/-- A way once a forfeit of host `h` has dealt with it. -/
def forfeited (s : State) (k : SetNo) (h : HostNo) (w : WayNo) : Way :=
  if checkWay (wayOf s k w) = .good ∧ hasHost (holdersOf (entryOf (wayOf s k w))) h = true ∧ isBusy s k w = false
  then wayFor (wayOf s k w) (wayOf s k w).tag (maskEntry s (strike h (entryOf (wayOf s k w)))) else wayOf s k w

/-- Whether a forfeit of host `h` frees a way. -/
def forfeitFrees (s : State) (k : SetNo) (h : HostNo) (w : WayNo) : Prop :=
  (wayOf s k w).code ≠ 0 ∧ (forfeited s k h w).code = 0

/-- The ways of a set made FREE at the present event, in ascending order. -/
def freedWays (x : State) (k : SetNo) : List WayNo := allWays.filter (fun v => (k, v) ∈ x.dir.freed)

/-- The state `x` that a forfeit of host `h` has reached from `s` once it has dealt with the ways `done` of set `k`. -/
structure ForfeitScan (s : State) (k : SetNo) (h : HostNo) (done : List WayNo) (x : State) : Prop where
  walker : x.walker = s.walker
  hli : x.hli = s.hli
  mem : x.mem = s.mem
  table : x.trk.table = s.trk.table
  ports : x.ports = s.ports
  ways : ∀ j v, wayOf x j v = if j = k ∧ v ∈ done then forfeited s k h v else wayOf s j v
  freed : (∀ v, (k, v) ∉ s.dir.freed) → ∀ v, (k, v) ∈ x.dir.freed ↔ v ∈ done ∧ forfeitFrees s k h v
  order : (∀ v, (k, v) ∉ s.dir.freed) →
    (Machine.setOf x k).order = freedWays x k ++ (Machine.setOf s k).order.filter (· ∉ freedWays x k)

theorem ForfeitScan.start (s : State) (k : SetNo) (h : HostNo) : ForfeitScan s k h [] s where
  walker := rfl
  hli := rfl
  mem := rfl
  table := rfl
  ports := rfl
  ways := fun j v => by simp
  freed := fun none_ v => by simp [none_ v]
  order := fun none_ => by simp [freedWays, none_]

/-- A way that the forfeit leaves. -/
theorem ForfeitScan.leave {k : SetNo} {done : List WayNo} {x : State} {w : WayNo} (scan : ForfeitScan s k h done x)
    (stands : forfeited s k h w = wayOf s k w) : ForfeitScan s k h (w :: done) x := by
  have kept : ¬forfeitFrees s k h w := by
    rintro ⟨some_, none_⟩
    rw [stands] at none_
    exact some_ none_
  refine { scan with ways := fun j v => ?_, freed := fun none_ v => ?_ }
  · rw [scan.ways]
    by_cases same : v = w
    · subst same
      by_cases here : j = k
      · subst here
        simp [stands]
      · simp [here]
    · simp [same]
  · rw [scan.freed none_]
    by_cases same : v = w
    · subst same
      simp [kept]
    · simp [same]

/-- Ways that stand together at the least recent end, joined by others, stand there together with them. -/
theorem filter_together {F G O : List WayNo} (within : ∀ v ∈ F, v ∈ G) :
    (F ++ O.filter (· ∉ F)).filter (· ∉ G) = O.filter (· ∉ G) := by
  have none_ : F.filter (· ∉ G) = [] := List.filter_eq_nil_iff.mpr fun v mem => by simpa using within v mem
  rw [List.filter_append, none_, List.nil_append, List.filter_filter]
  refine List.filter_congr fun v _ => ?_
  by_cases out : v ∈ G
  · simp [out]
  · have out' : v ∉ F := fun mem => out (within v mem)
    simp [out, out']

/-- A way that the forfeit strikes its host from. -/
theorem ForfeitScan.update {k : SetNo} {done : List WayNo} {x : State} {w : WayNo} (scan : ForfeitScan s k h done x)
    (new : w ∉ done) (good : checkWay (wayOf s k w) = .good)
    (holds : hasHost (holdersOf (entryOf (wayOf s k w))) h = true) (unbusy : isBusy s k w = false) :
    ForfeitScan s k h (w :: done) (forfeitUpdate k w h x) := by
  have way : wayOf x k w = wayOf s k w := by rw [scan.ways, if_neg fun e => new e.2]
  have struck : forfeited s k h w =
      wayFor (wayOf s k w) (wayOf s k w).tag (maskEntry s (strike h (entryOf (wayOf s k w)))) :=
    if_pos ⟨good, holds, unbusy⟩
  have valid : (wayOf s k w).code ≠ 0 := by
    obtain ⟨⟨used, _⟩, _⟩ := checkWay_good_iff.mp good
    rintro zero
    simp [zero] at used
  obtain ⟨ways, ⟨walker, hli, mem, table, ports⟩, freed, kept⟩ := forfeitUpdate_spec k w h x
  rw [way, maskEntry_congr scan.ports, ← struck] at ways freed kept
  refine ⟨walker.trans scan.walker, hli.trans scan.hli, mem.trans scan.mem, table.trans scan.table, ports.trans scan.ports,
    fun j v => ?_, fun none_ v => ?_, fun none_ => ?_⟩
  · rw [ways, scan.ways]
    by_cases here : j = k
    · subst here
      by_cases same : w = v
      · subst same
        simp
      · have same' : ¬v = w := fun e => same e.symm
        simp [same, same']
    · have here' : ¬k = j := fun e => here e.symm
      simp [here, here']
  · by_cases zero : (forfeited s k h w).code = 0
    · rw [(freed zero).1, List.mem_append, scan.freed none_]
      by_cases same : v = w
      · subst same
        have frees : forfeitFrees s k h v := ⟨valid, zero⟩
        simp [frees]
      · simp [same]
    · rw [(kept zero).1, scan.freed none_]
      by_cases same : v = w
      · subst same
        have kept : ¬forfeitFrees s k h v := fun frees => zero frees.2
        simp [new, kept]
      · simp [same]
  · by_cases zero : (forfeited s k h w).code = 0
    · obtain ⟨noted, moved⟩ := freed zero
      have together : freedWays (forfeitUpdate k w h x) k = allWays.filter (fun v => v = w ∨ (k, v) ∈ x.dir.freed) := by
        unfold freedWays
        rw [noted]
        refine List.filter_congr fun v _ => ?_
        simp [or_comm]
      rw [← together] at moved
      rw [moved, scan.order none_, filter_together]
      intro v mem
      rw [together]
      simp only [freedWays, List.mem_filter, decide_eq_true_eq] at mem ⊢
      exact ⟨mem.1, .inr mem.2⟩
    · obtain ⟨noted, stands⟩ := kept zero
      have same : freedWays (forfeitUpdate k w h x) k = freedWays x k := by rw [freedWays, noted, freedWays]
      rw [stands, same]
      exact scan.order none_

/-- Whether a way is busy depends on it and on the trackers alone. -/
theorem isBusy_congr {x y : State} {k : SetNo} {w : WayNo} (way : wayOf x k w = wayOf y k w)
    (table : x.trk.table = y.trk.table) : isBusy x k w = isBusy y k w := by
  simp only [isBusy, trackerOn, trackerOf, way, table]

/-- One way of a set without a parity error dealt with by a forfeit. -/
theorem ForfeitScan.step {done : List WayNo} {x : State} {w : WayNo} (scan : ForfeitScan s s.walker.set h done x)
    (new : w ∉ done)
    (clean : checkWay (wayOf s s.walker.set w) = .notChecked ∨ checkWay (wayOf s s.walker.set w) = .good) :
    ∃ y, visitWay (.forfeit h) w x = .goOn y ∧ ForfeitScan s s.walker.set h (w :: done) y := by
  have set : x.walker.set = s.walker.set := congrArg Walker.set scan.walker
  have way : wayOf x x.walker.set w = wayOf s s.walker.set w := by
    rw [set, scan.ways, if_neg fun e => new e.2]
  have busy : isBusy x x.walker.set w = isBusy s s.walker.set w := by
    rw [set] at way ⊢
    exact isBusy_congr way scan.table
  rcases clean with unchecked | good
  · refine ⟨x, visitWay_unchecked _ (way ▸ unchecked), scan.leave (if_neg ?_)⟩
    rintro ⟨good, _⟩
    simp [unchecked] at good
  · refine ⟨_, visitWay_forfeit (way ▸ good), ?_⟩
    rw [busy, way, set]
    by_cases strikes : hasHost (holdersOf (entryOf (wayOf s s.walker.set w))) h = true ∧ isBusy s s.walker.set w = false
    · rw [if_pos strikes]
      exact scan.update new good strikes.1 strikes.2
    · rw [if_neg strikes]
      exact scan.leave (if_neg fun all => strikes all.2)

/-- A whole set without a parity error dealt with by a forfeit. -/
theorem scanWays_forfeit {l : List WayNo} : ∀ {done : List WayNo} {x : State}, ForfeitScan s s.walker.set h done x →
    l.Nodup → (∀ w ∈ l, w ∉ done) →
    (∀ w, checkWay (wayOf s s.walker.set w) = .notChecked ∨ checkWay (wayOf s s.walker.set w) = .good) →
    ∃ y, scanWays (.forfeit h) l x = finishSet y ∧ ForfeitScan s s.walker.set h (l.reverse ++ done) y := by
  induction l with
  | nil => exact fun scan _ _ _ => ⟨_, rfl, scan⟩
  | cons w l ih =>
    intro done x scan nodup new clean
    obtain ⟨apart, nodup⟩ := List.nodup_cons.mp nodup
    obtain ⟨y, visits, scan⟩ := scan.step (new w (by simp)) (clean w)
    have fresh : ∀ v ∈ l, v ∉ w :: done := by
      intro v mem
      simp only [List.mem_cons, not_or]
      exact ⟨fun e => apart (e ▸ mem), new v (by simp [mem])⟩
    obtain ⟨z, scans, scan⟩ := ih scan nodup fresh clean
    refine ⟨z, ?_, by simpa using scan⟩
    rw [scanWays, visits]
    exact scans

/-! ### Claims, grants and waits (R146 to R148) -/

theorem claimHolds_iff {j : Job} {n : LineNo} {scrub : Bool} : claimHolds s j n scrub = true ↔
    isBusy s s.walker.set s.walker.way = false ∧
    lineOf (wayOf s s.walker.set s.walker.way).tag s.walker.set = n ∧
    (scrub = true → checkWay (wayOf s s.walker.set s.walker.way) = .stateError) ∧
    (scrub = false → checkWay (wayOf s s.walker.set s.walker.way) = .good ∧
      jobRound s j n (entryOf (wayOf s s.walker.set s.walker.way)) ≠ []) := by
  unfold claimHolds
  cases scrub <;> simp [and_assoc]

theorem grantWalker_eq {i : TrackerNo} {j : Job} {n : LineNo} {scrub : Bool} (current : s.walker.current = some j)
    (waits : s.walker.wait = .claim n scrub) : grantWalker i s =
      if isClosed s s.walker.set = true then skipSet s
      else if claimHolds s j n scrub = true then scanWays j (waysAfter s.walker.way) (startSweep i j n scrub s)
      else scanWays j (waysFrom s.walker.way) s := by
  unfold grantWalker
  rw [current, waits]

theorem stillBusy_iff {n : LineNo} : stillBusy s n = true ↔
    2 ≤ (wayOf s s.walker.set s.walker.way).code.toNat ∧ ∃ u tr, trackerOf s u = some tr ∧ tr.line = n := by
  rw [stillBusy, Bool.and_eq_true, decide_eq_true_eq, trackerOn_isSome_iff]

/-- A set visit that is not due is no event. -/
theorem visitSet_not_due (stays : s.walker.current = none ∨ s.resetPhase ≠ .noReset ∨ s.walker.draining = true ∨
    s.walker.walked = true ∨ s.walker.wait ≠ .visit) : visitSet s = s := by
  unfold visitSet
  cases current : s.walker.current with
  | none => rfl
  | some j =>
    refine if_pos ?_
    rcases stays with idle | reset | draining | walked | waits
    · simp [current] at idle
    · exact .inl (inReset_eq_true reset)
    · exact .inr (.inl draining)
    · exact .inr (.inr (.inl walked))
    · exact .inr (.inr (.inr waits))

theorem visitSet_due {j : Job} (current : s.walker.current = some j) (service : s.resetPhase = .noReset)
    (walks : s.walker.draining = false) (unwalked : s.walker.walked = false) (visit : s.walker.wait = .visit) :
    visitSet s =
      if s.walker.revisiting = true then
        match s.walker.skipped with
        | [] => s
        | k :: rest => revisitSet j k rest s
      else if isClosed s s.walker.set = true then skipSet s
      else scanWays j allWays s := by
  unfold visitSet
  rw [current]
  dsimp only
  rw [if_neg (by simp [inReset_eq_false service, walks, unwalked, visit])] <;> rfl

/-- A way that a recalling job goes past: no parity error, and nobody to recall. -/
theorem visitWay_passes {j : Job} (recalls : ∀ h, j ≠ .forfeit h) {w : WayNo}
    (clean : checkWay (wayOf s s.walker.set w) = .notChecked ∨ checkWay (wayOf s s.walker.set w) = .good)
    (unasked : ¬(checkWay (wayOf s s.walker.set w) = .good ∧
      jobRound s j (lineOf (wayOf s s.walker.set w).tag s.walker.set) (entryOf (wayOf s s.walker.set w)) ≠ [])) :
    visitWay j w s = .goOn s := by
  rcases clean with unchecked | good
  · exact visitWay_unchecked j unchecked
  · rw [visitWay_good recalls good, if_pos]
    by_contra some_
    exact unasked ⟨good, some_⟩

theorem entryOf_holders_of_unheld {x : Way} (unheld : entryOf x = .lost ∨ entryOf x = .free) (h : HostNo) :
    hasHost (holdersOf (entryOf x)) h = false := by
  rcases unheld with e | e <;> rw [e] <;> simp [holdersOf, hasHost]

theorem scanWays_cons {j : Job} {w : WayNo} {l : List WayNo} {y : State} (visits : visitWay j w s = .goOn y) :
    scanWays j (w :: l) s = scanWays j l y := by
  rw [scanWays, visits]

theorem scanWays_ends {j : Job} {w : WayNo} {l : List WayNo} {y : State} (visits : visitWay j w s = .stop y) :
    scanWays j (w :: l) s = y := by
  rw [scanWays, visits]

/-- The claim for the scrub of a way with a state parity error that is not busy, by any job (R146, R160). -/
theorem visitWay_scrub (j : Job) {w : WayNo} (broken : checkWay (wayOf s s.walker.set w) = .stateError)
    (unbusy : ¬isBusy s s.walker.set w = true) (fresh : InternalClaim.walker ∉ s.trk.claims) :
    visitWay j w s = .stop { handError s.walker.set .walker s (w, .state) with
      walker := { s.walker with way := w, wait := .claim (lineOf (wayOf s s.walker.set w).tag s.walker.set) true }
      trk := { s.trk with claims := s.trk.claims ++ [.walker] } } := by
  rw [visitWay_stateError j broken, if_neg unbusy, claimWalker_scrub fresh]

theorem visitWay_tagged (j : Job) {w : WayNo} (tagged : checkWay (wayOf s s.walker.set w) = .tagError) :
    visitWay j w s = .stop { handError s.walker.set .walker s (w, .tag) with
      walker := skippedSet (handError s.walker.set .walker s (w, .tag)).walker } := by
  rw [visitWay_tagError j tagged, skipSet_eq]

/-- What a forfeit does at a way whose entry has holders (R150). -/
theorem scanWays_forfeit_shared {w : WayNo} {l : List WayNo} {holders : HostSet}
    (good : checkWay (wayOf s s.walker.set w) = .good) (unbusy : ¬isBusy s s.walker.set w = true)
    (entry : entryOf (wayOf s s.walker.set w) = .shared holders) : scanWays (.forfeit h) (w :: l) s = scanWays (.forfeit h) l
      (if hasHost holders h = false then s
        else if dropHost holders h &&& holding s = 0 then
          reportChange s.walker.set (touchLeast s.walker.set w (putFree s.walker.set w s))
        else putWay s.walker.set w ⟨2, (wayOf s s.walker.set w).tag, dropHost holders h &&& holding s, none,
          tagParityOf (wayOf s s.walker.set w).tag, stateParityOf 2 (dropHost holders h &&& holding s)⟩ s) := by
  rw [scanWays_cons (visitWay_forfeit good), forfeitUpdate_shared entry, entry]
  refine congrArg (scanWays (.forfeit h) l) ?_
  cases holds : hasHost holders h with
  | false => exact if_neg fun struck => by simp [holdersOf, holds] at struck
  | true => exact (if_pos ⟨holds, by simpa using unbusy⟩).trans (if_neg (by simp)).symm

theorem scanWays_forfeit_owned {w : WayNo} {l : List WayNo} {o : HostNo}
    (good : checkWay (wayOf s s.walker.set w) = .good) (unbusy : ¬isBusy s s.walker.set w = true)
    (entry : entryOf (wayOf s s.walker.set w) = .owned o) (gone : isAdmitted s h = false) :
    scanWays (.forfeit h) (w :: l) s = scanWays (.forfeit h) l
      (if o = h then writeEntry s.walker.set w (wayOf s s.walker.set w).tag (.owned h) .forfeit s else s) := by
  rw [scanWays_cons (visitWay_forfeit good)]
  refine congrArg (scanWays (.forfeit h) l) ?_
  have holds : hasHost (holdersOf (entryOf (wayOf s s.walker.set w))) h = decide (o = h) := by
    rw [entry]
    exact hasHost_oneHost ..
  rw [holds]
  by_cases same : o = h
  · subst same
    rw [if_pos ⟨by simp, by simpa using unbusy⟩, if_pos rfl, forfeitUpdate_owned entry gone]
  · rw [if_neg (by simp [same]), if_neg same]

end Sys2Proof.Machine
end

section
/-! PROOFS. What the Directory Walker does at a visit, at a grant and of itself, put together (O44). -/

namespace Sys2Proof.Machine
variable {s : State} {h : HostNo}

/-- What a forfeit leaves of a set without a parity error, read off the whole scan (R60, R150). -/
theorem forfeit_whole_set (clean : ∀ w, checkWay (wayOf s s.walker.set w) = .notChecked ∨
    checkWay (wayOf s s.walker.set w) = .good) : ∃ t, scanWays (.forfeit h) allWays s = t ∧
    t.walker = passedSet s.walker ∧ (∀ i v, i ≠ s.walker.set → wayOf t i v = wayOf s i v) ∧ t.hli = s.hli ∧
    t.mem = s.mem ∧ t.trk.table = s.trk.table ∧
    ((∀ w, (s.walker.set, w) ∉ s.dir.freed) →
      let freed := allWays.filter (fun w => (wayOf s s.walker.set w).code ≠ 0 ∧ (wayOf t s.walker.set w).code = 0)
      (Machine.setOf t s.walker.set).order = freed ++ (Machine.setOf s s.walker.set).order.filter (· ∉ freed)) ∧
    ∀ w, wayOf t s.walker.set w = forfeited s s.walker.set h w := by
  obtain ⟨y, scans, scan⟩ := scanWays_forfeit (ForfeitScan.start s s.walker.set h) (List.nodup_finRange 8)
    (fun _ _ => List.not_mem_nil) clean
  have ways (w : WayNo) : wayOf y s.walker.set w = forfeited s s.walker.set h w := by
    rw [scan.ways, if_pos ⟨rfl, by simp⟩]
  have ends : scanWays (.forfeit h) allWays s = { y with walker := passedSet y.walker } := scans.trans (finishSet_eq y)
  refine ⟨_, ends, congrArg passedSet scan.walker, fun i v other => ?_, scan.hli, scan.mem, scan.table, fun none_ => ?_,
    ways⟩
  · exact (scan.ways i v).trans (if_neg fun e => other e.1)
  · intro freed
    have listed : freed = freedWays y s.walker.set := by
      refine List.filter_congr fun w _ => decide_eq_decide.mpr ?_
      change _ ∧ (wayOf y s.walker.set w).code = 0 ↔ _
      rw [ways w, scan.freed none_]
      simp [forfeitFrees]
    rw [listed]
    exact scan.order none_

/-- The grant for a way still as claimed: a SWEEP_RECALL tracker bound to it starts (R146, R147, R160). -/
theorem startSweep_eq (i : TrackerNo) (j : Job) (n : LineNo) (s : State) :
    let k := s.walker.set
    let w := s.walker.way
    let bound := { putWay k w { wayOf s k w with binding := some i }
        (setTracker s i (some (newTracker .sweepRecall n .tracked none .absent))) with
      walker := { s.walker with
        trackers := if i ∈ s.walker.trackers then s.walker.trackers else s.walker.trackers ++ [i] } }
    startSweep i j n false s = startInternal i (jobRound s j n (entryOf (wayOf s k w))) (entryOf (wayOf s k w)) bound ∧
    startSweep i j n true s = startScrub i (handError k .walker bound (w, .state)) := by
  intro k w bound
  exact ⟨rfl, congrArg (startScrub i) (handError_state k .walker w bound).symm⟩

theorem dueWalker_wait {j : Job} (current : s.walker.current = some j) (walks : s.walker.draining = false) :
    dueWalker s = match s.walker.wait with
      | .ready => some (resumeWalk j s)
      | .busy line => if stillBusy s line then none else some (resumeWalk j s)
      | .claim _ _ => none
      | .visit => if s.walker.walked = true ∧ s.walker.trackers = [] then some (endJob j s) else none := by
  unfold dueWalker
  rw [current]
  dsimp only
  rw [if_neg (by simp [walks])] <;> cases s.walker.wait <;> rfl

theorem resumeWalk_eq (j : Job) (s : State) : resumeWalk j s =
    if isClosed s s.walker.set = true then { s with walker := skippedSet s.walker }
    else scanWays j (allWays.filter (fun v => s.walker.way ≤ v)) s := by
  rw [resumeWalk, skipSet_eq]
  rfl

/-- The end of a sweep that is reported to the Port Controller (R149, R150). -/
theorem endJob_sweep {j : Job} (sweep : j = .depart h ∨ j = .forfeit h) (s : State) : endJob j s = { s with
    walker := { s.walker with current := none }
    ports := s.ports.set h { portOf s h with
      sweepDone := decide (portState s h = .departing ∨ portState s h = .fencing) } } := by
  rcases sweep with rfl | rfl <;> rfl

/-- Settles O44: the visit, the ways dealt with by a job that recalls and by a forfeit, the grant, the waits, and the end
of a sweep. -/
theorem walkerVisits : Obligations.WalkerVisits := by
  unfold Obligations.WalkerVisits
  intro passed skipped line asked busy clean
  have busy_iff (s : State) (w : WayNo) : busy s w ↔ isBusy s s.walker.set w = true := (isBusy_iff ..).symm
  refine ⟨fun j s current service walks unwalked visit => ?_, fun s stays => ?_, fun j ways s recalls => ?_,
    fun j w after s => ?_, fun h s gone all => ?_, fun i j n scrub s current waits => ?_, fun s idle => ?_,
    fun j s current walks => ?_⟩
  · have visits : exec .walkerSetVisit s = .next (settle (visitSet s)) := rfl
    rw [visits, visitSet_due current service walks unwalked visit]
    refine ⟨fun first closed => ?_, fun first opened => ?_, fun i rest again next => ?_⟩
    · rw [if_neg (by simp [first]), if_pos closed, skipSet_eq]
      rfl
    · rw [if_neg (by simp [first]), if_neg (by simp [opened])]
    · intro forgot
      rw [if_pos again, next]
      dsimp only
      rw [revisitSet]
      refine ⟨fun closed waits => ?_, fun closed reopened => ?_, fun opened => ?_⟩
      · rw [if_neg (by simp [closed]), if_neg waits]
      · rw [if_neg (by simp [closed]), if_pos reopened]
      · rw [if_pos opened]
  · exact congrArg (fun x => Host.Outcome.next (settle x)) (visitSet_not_due stays)
  · have passes (v : WayNo) (past : clean s v ∧ ¬asked j s v) : visitWay j v s = .goOn s :=
      visitWay_passes recalls past.1 past.2
    refine ⟨fun all => ?_, fun before w after split past => ?_⟩
    · rw [scanWays_pass j ways s fun w mem => passes w (all w mem), finishSet_eq]
      rfl
    · subst split
      have stops {t : State} (visits : visitWay j w s = .stop t) : scanWays j (before ++ w :: after) s = t :=
        scanWays_stop j before w after s t (fun v mem => passes v (past v mem)) visits
      refine ⟨fun asks isBusy => stops ?_, fun asks unbusy fresh => stops ?_, fun tagged => ?_,
        fun broken unbusy fresh => stops ?_⟩
      · rw [visitWay_good recalls asks.1, if_neg asks.2, if_pos ((busy_iff s w).mp isBusy)]
        rfl
      · rw [visitWay_good recalls asks.1, if_neg asks.2, if_neg (mt (busy_iff s w).mpr unbusy), claimWalker_eq _ fresh]
      · exact stops (visitWay_tagged j tagged)
      · exact visitWay_scrub j broken (mt (busy_iff s w).mpr unbusy) fresh
  · intro k x scanned
    refine ⟨fun broken isBusy => ?_, ?_⟩
    · refine scanWays_cons ?_
      rw [visitWay_stateError j broken, if_pos ((busy_iff s w).mp isBusy)]
    · rintro h rfl
      refine ⟨fun tagged => scanWays_ends (visitWay_tagged _ tagged),
        fun broken unbusy fresh => scanWays_ends (visitWay_scrub _ broken (mt (busy_iff s w).mpr unbusy) fresh),
        fun stands => ?_, fun holders good unbusy entry => ?_, fun o good unbusy entry gone => ?_⟩
      · rcases stands with unchecked | ⟨good, isBusy | unheld⟩
        · exact scanWays_cons (visitWay_unchecked _ unchecked)
        · refine scanWays_cons ((visitWay_forfeit good).trans ?_)
          rw [if_neg (by simp [(busy_iff s w).mp isBusy])]
        · refine scanWays_cons ((visitWay_forfeit good).trans ?_)
          have none_ : hasHost (holdersOf (entryOf (wayOf s s.walker.set w))) h = false :=
            entryOf_holders_of_unheld unheld h
          rw [if_neg (by simp [none_])]
      · exact scanWays_forfeit_shared good (mt (busy_iff s w).mpr unbusy) entry
      · exact scanWays_forfeit_owned good (mt (busy_iff s w).mpr unbusy) entry gone
  · obtain ⟨t, scans, walker, others, hli, mem, table, order, ways⟩ := forfeit_whole_set (h := h) all
    refine ⟨t, scans, walker, others, hli, mem, table, order, fun w => ?_⟩
    intro x
    rw [ways w, forfeited]
    refine ⟨fun stands => if_neg ?_, fun holders good unbusy entry => ?_, fun o good unbusy entry => ?_⟩
    · rintro ⟨good, _, unbusy⟩
      rcases stands with unchecked | isBusy
      · exact absurd (good.symm.trans unchecked) (by decide)
      · simp [(busy_iff s w).mp isBusy] at unbusy
    · have unbusy : isBusy s s.walker.set w = false := by simpa using mt (busy_iff s w).mpr unbusy
      have entry : entryOf (wayOf s s.walker.set w) = .shared holders := entry
      rw [entry]
      exact if_congr (by simp [show checkWay (wayOf s s.walker.set w) = .good from good, unbusy, holdersOf]) rfl rfl
    · have unbusy : isBusy s s.walker.set w = false := by simpa using mt (busy_iff s w).mpr unbusy
      have entry : entryOf (wayOf s s.walker.set w) = .owned o := entry
      have good : checkWay (wayOf s s.walker.set w) = .good := good
      rw [entry]
      by_cases same : o = h
      · subst same
        rw [if_pos ⟨good, by simp [holdersOf, hasHost_oneHost], unbusy⟩, if_pos rfl]
        change wayFor _ _ (maskEntry s (.owned o)) = _
        rw [maskEntry, if_neg (by simp [gone])]
        rfl
      · rw [if_neg, if_neg same]
        rintro ⟨_, holds, _⟩
        exact same (by simpa [holdersOf, hasHost_oneHost] using holds)
  · intro k w x still bound
    have granted := grantWalker_eq (i := i) current waits
    have holds : claimHolds s j n scrub = true ↔ still := by
      rw [claimHolds_iff]
      refine and_congr ?_ (and_congr_right fun isLine => ?_)
      · rw [← Bool.not_eq_true]
        exact not_congr (busy_iff s w).symm
      · rw [← isLine]
    obtain ⟨recalls, scrubs⟩ := startSweep_eq i j n s
    rw [granted]
    refine ⟨fun closed => ?_, fun opened stands plain => ?_, fun opened stands scrubbing => ?_, fun opened changed => ?_⟩
    · rw [if_pos closed, skipSet_eq]
      rfl
    · rw [if_neg (by simp [show isClosed s s.walker.set = false from opened]), if_pos (holds.mpr stands), plain, recalls]
      rfl
    · rw [if_neg (by simp [show isClosed s s.walker.set = false from opened]), if_pos (holds.mpr stands), scrubbing, scrubs]
      rfl
    · rw [if_neg (by simp [show isClosed s s.walker.set = false from opened]), if_neg (mt holds.mp changed)]
      rfl
  · unfold dueWalker
    rw [idle]
    refine ⟨fun empty => by rw [empty], fun j rest next other => ?_⟩
    rw [next]
    have noCutover : decide (j = .cutover) = false := decide_eq_false other
    simp only [takeJob, if_neg other, noCutover]
  · intro again held
    have waits := dueWalker_wait current walks
    have resumes : resumeWalk j s = again := resumeWalk_eq j s
    rw [waits]
    refine ⟨fun ready => ?_, fun n busy holds => ?_, fun n busy frees => ?_, fun n scrub claims => ?_,
      fun visit waiting => ?_, fun h sweep visit walked freed => ?_⟩
    · rw [ready, ← resumes]
    · rw [busy]
      exact if_pos (stillBusy_iff.mpr holds)
    · rw [busy, ← resumes]
      exact if_neg (mt stillBusy_iff.mp frees)
    · rw [claims]
    · rw [← waits]
      exact dueWalker_waiting current walks visit waiting
    · rw [visit]
      exact (if_pos ⟨walked, freed⟩).trans (congrArg some (endJob_sweep sweep s))

end Sys2Proof.Machine
end

section
/-! PROOFS. When a table is valid, and what a CUTOVER tests (O47). -/

namespace Sys2Proof.Machine
variable {s : State} {h : HostNo} {table : Vector Descriptor 16}

/-! ### Validity of a table (R44) -/

theorem isOffending_iff {d : Fin 16} : isOffending table d = true ↔ table[d].enabled = true ∧
    (table[d].size = 0 ∨ 256 < table[d].base.toNat + table[d].size.toNat ∨
      ∃ e : Fin 16, e ≠ d ∧ table[e].enabled = true ∧
        table[d].base.toNat < table[e].base.toNat + table[e].size.toNat ∧
        table[e].base.toNat < table[d].base.toNat + table[d].size.toNat) := by
  simp only [isOffending, badSize, overlaps, Bool.or_eq_true, Bool.and_eq_true, List.any_eq_true, List.mem_finRange,
    true_and, decide_eq_true_eq]
  constructor
  · rintro (⟨on, bad⟩ | ⟨e, other, ⟨⟨on, on'⟩, below⟩, below'⟩)
    · exact ⟨on, bad.imp_right .inl⟩
    · exact ⟨on, .inr (.inr ⟨e, other, on', below, below'⟩)⟩
  · rintro ⟨on, zero | large | ⟨e, other, on', below, below'⟩⟩
    · exact .inl ⟨on, .inl zero⟩
    · exact .inl ⟨on, .inr large⟩
    · exact .inr ⟨e, other, ⟨⟨on, on'⟩, below⟩, below'⟩

theorem getLsbD_bit (d i : Fin 16) : (1#16 <<< i.val).getLsbD d.val = decide (d = i) := by
  revert d i
  decide

/-- Bits set one after another: those of the list, beside those set before. -/
theorem getLsbD_setBits (P : Fin 16 → Bool) (d : Fin 16) (l : List (Fin 16)) : ∀ acc : BitVec 16,
    (l.foldl (fun acc i => if P i then acc ||| (1#16 <<< i.val) else acc) acc).getLsbD d.val =
      (acc.getLsbD d.val || (decide (d ∈ l) && P d)) := by
  induction l with
  | nil => simp
  | cons i l ih =>
    intro acc
    have sets : (if P i then acc ||| (1#16 <<< i.val) else acc).getLsbD d.val =
        (acc.getLsbD d.val || (decide (d = i) && P d)) := by
      by_cases same : d = i
      · subst same
        cases P d
        · simp
        · rw [if_pos rfl, BitVec.getLsbD_or, getLsbD_bit]
          simp
      · cases P i
        · simp [same]
        · rw [if_pos rfl, BitVec.getLsbD_or, getLsbD_bit]
          simp [same]
    rw [List.foldl_cons, ih, sets]
    by_cases same : d = i
    · subst same
      cases P d <;> simp
    · simp [same]

theorem getLsbD_offendingOf (d : Fin 16) : (offendingOf table).getLsbD d.val = isOffending table d := by
  rw [offendingOf, getLsbD_setBits]
  simp

theorem isValidTable_iff : isValidTable table = true ↔ ∀ d, isOffending table d = false := by
  simp [isValidTable]

theorem isValidTable_iff_offendingOf : isValidTable table = true ↔ offendingOf table = 0 := by
  rw [isValidTable_iff]
  constructor
  · intro none_
    refine BitVec.eq_of_getLsbD_eq fun i below => ?_
    rw [getLsbD_offendingOf ⟨i, below⟩, none_]
    simp
  · intro zero d
    rw [← getLsbD_offendingOf, zero]
    simp

/-- Two descriptors with a common line overlap, whatever else of them is wrong (R41, R44). -/
theorem overlap_of_common {d e : Descriptor} {line : LineNo} (first : d.Covers line) (second : e.Covers line) :
    d.base.toNat < e.base.toNat + e.size.toNat ∧ e.base.toNat < d.base.toNat + d.size.toNat := by
  obtain ⟨_, low, high⟩ := first
  obtain ⟨_, low', high'⟩ := second
  omega

/-- Two enabled descriptors of legal size that overlap have a common line: the first of the later one. -/
theorem common_of_overlap {d e : Descriptor} (on : d.enabled = true) (on' : e.enabled = true)
    (below : d.base.toNat < e.base.toNat + e.size.toNat) (below' : e.base.toNat < d.base.toNat + d.size.toNat)
    (some_ : 1 ≤ d.size.toNat) (some_' : 1 ≤ e.size.toNat) : ∃ line : LineNo, d.Covers line ∧ e.Covers line := by
  have small := d.base.isLt
  have small' := e.base.isLt
  refine ⟨BitVec.ofNat 22 (max d.base.toNat e.base.toNat * 16384), ?_⟩
  have line : (BitVec.ofNat 22 (max d.base.toNat e.base.toNat * 16384)).toNat =
      max d.base.toNat e.base.toNat * 16384 := by
    rw [BitVec.toNat_ofNat]
    exact Nat.mod_eq_of_lt (by omega)
  refine ⟨⟨on, ?_, ?_⟩, on', ?_, ?_⟩ <;> rw [line] <;> omega

theorem isValidTable_iff_disjoint : isValidTable table = true ↔
    (∀ d : Fin 16, table[d].enabled = true →
      1 ≤ table[d].size.toNat ∧ table[d].base.toNat + table[d].size.toNat ≤ 256) ∧
    ∀ (d e : Fin 16) (line : LineNo), table[d].Covers line → table[e].Covers line → d = e := by
  rw [isValidTable_iff]
  have zero (d : Fin 16) : table[d].size = 0 ↔ table[d].size.toNat = 0 := by
    rw [BitVec.toNat_eq] <;> rfl
  constructor
  · intro none_
    have legal (d : Fin 16) := mt (isOffending_iff (table := table) (d := d)).mpr (by simp [none_ d])
    refine ⟨fun d on => ?_, fun d e line first second => ?_⟩
    · have sizes := legal d
      simp only [on, true_and, not_or, zero] at sizes
      omega
    · by_contra other
      obtain ⟨below, below'⟩ := overlap_of_common first second
      exact legal d ⟨first.1, .inr (.inr ⟨e, Ne.symm other, second.1, below, below'⟩)⟩
  · rintro ⟨sizes, apart⟩ d
    refine (Bool.not_eq_true _).mp fun offends => ?_
    obtain ⟨on, none_ | large | ⟨e, other, on', below, below'⟩⟩ := isOffending_iff.mp offends
    · have := (sizes d on).1
      rw [zero] at none_
      omega
    · have := (sizes d on).2
      omega
    · obtain ⟨line, first, second⟩ := common_of_overlap on on' below below' (sizes d on).1 (sizes e on').1
      exact other (apart d e line first second).symm

/-! ### CUTOVER (R44, R152) -/

theorem locks_eq_true_iff {c : CutoverStatus} : locks c = true ↔ c = .pending ∨ c = .draining ∨ c = .recalling := by
  cases c <;> simp [locks]

theorem judgeCutover_failed (run : s.hub ≠ .init) (unlocked : locks s.region.status = false)
    (invalid : isValidTable s.region.staged = false) : judgeCutover s = .refuse (failCutover s) := by
  rw [judgeCutover, if_neg run, if_neg (by simp [unlocked]), if_pos invalid]

theorem judgeCutover_accepted (run : s.hub ≠ .init) (unlocked : locks s.region.status = false)
    (valid : isValidTable s.region.staged = true) : judgeCutover s = .finish (acceptCutover s) := by
  rw [judgeCutover, if_neg run, if_neg (by simp [unlocked]), if_neg (by simp [valid])]

/-- A CUTOVER refused for its staged table, and one accepted. -/
theorem issue_cutover_failed (at_ : atCommand s) (free : s.mgmt.status ≠ .busy) (run : s.hub ≠ .init)
    (unlocked : locks s.region.status = false) (invalid : isValidTable s.region.staged = false) :
    issue 0x01 judgeCutover s = commandRefused 0x01 s (failCutover s) :=
  issue_refused _ _ _ _ at_ free (judgeCutover_failed run unlocked invalid) rfl rfl

theorem issue_cutover_accepted (at_ : atCommand s) (free : s.mgmt.status ≠ .busy) (run : s.hub ≠ .init)
    (unlocked : locks s.region.status = false) (valid : isValidTable s.region.staged = true) :
    issue 0x01 judgeCutover s = commandTaken 0x01 .done s (acceptCutover s) :=
  issue_finished _ _ _ _ at_ free (judgeCutover_accepted run unlocked valid) rfl rfl

/-- Settles O47: the validity, the offending descriptors, and what a CUTOVER keeps of them. -/
theorem tableValidity : Obligations.TableValidity := by
  refine ⟨fun table => ⟨isValidTable_iff_disjoint, isValidTable_iff_offendingOf, fun d => ?_⟩,
    fun s at_ free run idle => ?_⟩
  · rw [getLsbD_offendingOf]
    exact isOffending_iff
  · have unlocked : locks s.region.status = false := (Bool.not_eq_true _).mp (mt locks_eq_true_iff.mp idle)
    cases valid : isValidTable s.region.staged with
    | true =>
      refine ⟨_, congrArg (fun x => Host.Outcome.next (settle x)) (issue_cutover_accepted at_ free run unlocked valid),
        fun _ => ⟨rfl, rfl⟩, fun invalid => absurd invalid (by decide)⟩
    | false =>
      refine ⟨_, congrArg (fun x => Host.Outcome.next (settle x)) (issue_cutover_failed at_ free run unlocked valid),
        fun valid => absurd valid (by decide), fun _ => ⟨rfl, rfl⟩⟩

end Sys2Proof.Machine
end

section
/-! PROOFS. What every address of the register window reads (O48). -/

namespace Sys2Proof.Machine
variable {s : State} {h : HostNo}

/-! ### Fields and gaps (R177, R179) -/

/-- The bytes from `a` on read the value `v`, its least significant byte first. -/
def Reads (s : State) (a width v : Nat) : Prop :=
  ∀ i, i < width → regByte s (BitVec.ofNat 16 (a + i)) = BitVec.ofNat 8 (v / 256 ^ i)

/-- The addresses from the first to the last read 00h. -/
def ReadsZero (s : State) (first last : Nat) : Prop :=
  ∀ a : BitVec 16, first ≤ a.toNat → a.toNat ≤ last → regByte s a = 0

/-- A field stands at the bytes from `a` on. -/
abbrev StandsAt (f : Field) (a width : Nat) : Prop :=
  ∀ i, i < width → fieldAt (BitVec.ofNat 16 (a + i)) = some (f, i)

theorem reads_field {f : Field} {a width : Nat} (stands : StandsAt f a width) : Reads s a width (fieldValue s f) :=
  regByte_field s f a width stands

/-- Addresses of one block read 00h where each row of the block that reaches among them has the value 0. -/
theorem readsZero_of_rows {first last : Nat} {rows : List Row}
    (block : ∀ a, first ≤ a → a ≤ last → rowsNear a = rows)
    (zero : ∀ r ∈ rows, r.start ≤ last → first < r.start + r.width → fieldValue s r.field = 0) :
    ReadsZero s first last := by
  intro a from_ upTo
  unfold regByte fieldAt
  cases found : rowAt a with
  | none => rfl
  | some r =>
    unfold rowAt at found
    rw [block _ from_ upTo] at found
    have within := List.find?_some found
    simp only [decide_eq_true_eq] at within
    have value := zero r (List.mem_of_find?_eq_some found) (by omega) (by omega)
    simp [value, valueByte]

/-- Addresses of one block that no row of the block reaches. -/
theorem readsZero_of_apart {first last : Nat} {rows : List Row}
    (block : ∀ a, first ≤ a → a ≤ last → rowsNear a = rows)
    (apart : ∀ r ∈ rows, last < r.start ∨ r.start + r.width ≤ first) : ReadsZero s first last := by
  refine readsZero_of_rows block ?_
  intro r among reaches ends
  have := apart r among
  omega

/-! ### The blocks of the window -/

theorem rowsNear_general {a : Nat} (below : a < 0x40) : rowsNear a = generalRows := by
  rw [rowsNear, if_pos below]

theorem rowsNear_port {a : Nat} (from_ : 0x40 + 16 * h.val ≤ a) (below : a < 0x50 + 16 * h.val) :
    rowsNear a = portRows (0x40 + 16 * h.val) h := by
  have number := h.isLt
  have block : a / 16 = h.val + 4 := by omega
  have host : Fin.ofNat 4 (h.val + 4) = h := Fin.ext (by simp [Fin.ofNat])
  have base : (h.val + 4) * 16 = 0x40 + 16 * h.val := by omega
  rw [rowsNear, if_neg (by omega), if_pos (by omega), block, base, host]

theorem rowsNear_staged {d : Fin 16} {a : Nat} (from_ : 0x200 + 8 * d.val ≤ a) (below : a < 0x208 + 8 * d.val) :
    rowsNear a = descRows (0x200 + 8 * d.val) (.staged d) := by
  have number := d.isLt
  have block : a / 8 = d.val + 64 := by omega
  have descriptor : Fin.ofNat 16 (d.val + 64) = d := Fin.ext (by simp [Fin.ofNat]; omega)
  have base : (d.val + 64) * 8 = 0x200 + 8 * d.val := by omega
  rw [rowsNear, if_neg (by omega), if_neg (by omega), if_pos (by omega), block, base, descriptor]

theorem rowsNear_active {d : Fin 16} {a : Nat} (from_ : 0x300 + 8 * d.val ≤ a) (below : a < 0x308 + 8 * d.val) :
    rowsNear a = descRows (0x300 + 8 * d.val) (.active d) := by
  have number := d.isLt
  have block : a / 8 = d.val + 96 := by omega
  have descriptor : Fin.ofNat 16 (d.val + 96) = d := Fin.ext (by simp [Fin.ofNat]; omega)
  have base : (d.val + 96) * 8 = 0x300 + 8 * d.val := by omega
  rw [rowsNear, if_neg (by omega), if_neg (by omega), if_neg (by omega), if_pos (by omega), block, base, descriptor]

theorem rowsNear_setting {a : Nat} (block : (0x80 ≤ a ∧ a < 0x200) ∨ (0x280 ≤ a ∧ a < 0x300) ∨ (0x380 ≤ a ∧ a < 0x500)) :
    rowsNear a = settingRows := by
  rw [rowsNear, if_neg (by omega), if_neg (by omega), if_neg (by omega), if_neg (by omega), if_neg (by omega),
    if_neg (by omega)]

theorem rowsNear_record {a : Nat} (from_ : 0x500 ≤ a) (below : a < 0x600) : rowsNear a = recordRows := by
  rw [rowsNear, if_neg (by omega), if_neg (by omega), if_neg (by omega), if_neg (by omega), if_neg (by omega),
    if_pos from_]

theorem rowsNear_status {a : Nat} (from_ : 0x600 ≤ a) : rowsNear a = statusRows := by
  rw [rowsNear, if_neg (by omega), if_neg (by omega), if_neg (by omega), if_neg (by omega), if_pos from_]

theorem readsZero_general {first last : Nat} (below : last < 0x40)
    (apart : ∀ r ∈ generalRows, last < r.start ∨ r.start + r.width ≤ first) : ReadsZero s first last :=
  readsZero_of_apart (fun _ _ _ => rowsNear_general (by omega)) apart

theorem readsZero_setting {first last : Nat}
    (block : (0x80 ≤ first ∧ last < 0x200) ∨ (0x280 ≤ first ∧ last < 0x300) ∨ (0x380 ≤ first ∧ last < 0x500))
    (apart : ∀ r ∈ settingRows, last < r.start ∨ r.start + r.width ≤ first) : ReadsZero s first last :=
  readsZero_of_apart (fun _ _ _ => rowsNear_setting (by omega)) apart

theorem readsZero_record {first last : Nat} (from_ : 0x500 ≤ first) (below : last < 0x600)
    (zero : ∀ r ∈ recordRows, r.start ≤ last → first < r.start + r.width → fieldValue s r.field = 0) :
    ReadsZero s first last :=
  readsZero_of_rows (fun _ _ _ => rowsNear_record (by omega) (by omega)) zero

theorem readsZero_status {first last : Nat} (from_ : 0x600 ≤ first)
    (apart : ∀ r ∈ statusRows, last < r.start ∨ r.start + r.width ≤ first) : ReadsZero s first last :=
  readsZero_of_apart (fun _ _ _ => rowsNear_status (by omega)) apart

/-! ### What stands where -/

theorem standsAt_port : ∀ h : HostNo, StandsAt (.port h .state) (0x40 + 16 * h.val) 1 ∧
    StandsAt (.port h .admission) (0x41 + 16 * h.val) 1 ∧ StandsAt (.port h .reason) (0x42 + 16 * h.val) 1 ∧
    StandsAt (.port h .tags) (0x43 + 16 * h.val) 2 ∧ StandsAt (.port h .returns) (0x45 + 16 * h.val) 1 ∧
    StandsAt (.port h .laneA) (0x46 + 16 * h.val) 1 := by
  decide

theorem standsAt_staged : ∀ d : Fin 16, StandsAt (.staged d .enabled) (0x200 + 8 * d.val) 1 ∧
    StandsAt (.staged d .base) (0x200 + 8 * d.val + 1) 1 ∧ StandsAt (.staged d .size) (0x200 + 8 * d.val + 2) 2 ∧
    StandsAt (.staged d .mode) (0x200 + 8 * d.val + 4) 1 ∧ StandsAt (.staged d .rights) (0x200 + 8 * d.val + 5) 1 := by
  decide

theorem standsAt_active : ∀ d : Fin 16, StandsAt (.active d .enabled) (0x300 + 8 * d.val) 1 ∧
    StandsAt (.active d .base) (0x300 + 8 * d.val + 1) 1 ∧ StandsAt (.active d .size) (0x300 + 8 * d.val + 2) 2 ∧
    StandsAt (.active d .mode) (0x300 + 8 * d.val + 4) 1 ∧ StandsAt (.active d .rights) (0x300 + 8 * d.val + 5) 1 := by
  decide

/-! ### The error records (R186) -/

/-- A clear record's block reads 00h; so does what no row lists, and the clear byte. -/
theorem reads_dirRecord : match s.integ.record with
    | none => ReadsZero s 0x0500 0x050F
    | some r => Reads s 0x0500 1 (1 + 2 * r.more.toNat) ∧ Reads s 0x0501 2 r.set.toNat ∧ Reads s 0x0503 1 r.way.val ∧
      Reads s 0x0504 1 (if r.kind = .tag then 0 else 1) ∧ Reads s 0x0505 1 r.reader.toCode ∧
      ReadsZero s 0x0506 0x050F := by
  have flags := reads_field (s := s) (f := .dirFlags) (a := 0x0500) (width := 1) (by decide)
  have set := reads_field (s := s) (f := .dirSet) (a := 0x0501) (width := 2) (by decide)
  have way := reads_field (s := s) (f := .dirWay) (a := 0x0503) (width := 1) (by decide)
  have kind := reads_field (s := s) (f := .dirKind) (a := 0x0504) (width := 1) (by decide)
  have reader := reads_field (s := s) (f := .dirReader) (a := 0x0505) (width := 1) (by decide)
  simp only [fieldValue, dirRecordValue] at flags set way kind reader
  cases held : s.integ.record with
  | none =>
    exact readsZero_record (by decide) (by decide) (by simp [recordRows, fieldValue, dirRecordValue, held])
  | some r =>
    rw [held] at flags set way kind reader
    refine ⟨flags, set, way, ?_, reader, readsZero_record (by decide) (by decide) (by simp [recordRows, fieldValue])⟩
    cases kinds : r.kind <;> simpa [kinds] using kind

theorem reads_memRecord : match s.mem.record with
    | none => ReadsZero s 0x0510 0x051F
    | some r => Reads s 0x0510 1 (1 + 2 * r.more.toNat) ∧ Reads s 0x0511 3 r.line.toNat ∧
      Reads s 0x0514 1 (if r.access = .read then 0 else 1) ∧
      Reads s 0x0515 1 (if r.cause = .uncorrectable then 0 else 1) ∧
      Reads s 0x0516 1
        (match r.source with | some .ret => 0 | some .tracker => 1 | none => Config.readErrorSource.toNat) ∧
      ReadsZero s 0x0517 0x051F := by
  have flags := reads_field (s := s) (f := .memFlags) (a := 0x0510) (width := 1) (by decide)
  have line := reads_field (s := s) (f := .memLine) (a := 0x0511) (width := 3) (by decide)
  have access := reads_field (s := s) (f := .memAccess) (a := 0x0514) (width := 1) (by decide)
  have cause := reads_field (s := s) (f := .memCause) (a := 0x0515) (width := 1) (by decide)
  have source := reads_field (s := s) (f := .memSource) (a := 0x0516) (width := 1) (by decide)
  simp only [fieldValue, memRecordValue] at flags line access cause source
  cases held : s.mem.record with
  | none =>
    exact readsZero_record (by decide) (by decide) (by simp [recordRows, fieldValue, memRecordValue, held])
  | some r =>
    rw [held] at flags line access cause source
    refine ⟨flags, line, ?_, ?_, source, readsZero_record (by decide) (by decide) (by simp [recordRows, fieldValue])⟩
    · cases kinds : r.access <;> simpa [kinds] using access
    · cases kinds : r.cause <;> simpa [kinds] using cause

theorem reads_protoRecord : match s.mgmt.proto with
    | none => ReadsZero s 0x0520 0x052F
    | some r => Reads s 0x0520 1 (1 + 2 * r.more.toNat + 4 * r.tag.isSome.toNat + 8 * r.line.isSome.toNat) ∧
      Reads s 0x0521 1 r.port.val ∧ Reads s 0x0522 1 r.kind.toNat ∧ Reads s 0x0523 1 r.cause.toCode ∧
      Reads s 0x0524 1 (match r.tag with | some tag => tag.toNat | none => Config.absentTag.toNat) ∧
      Reads s 0x0525 3 (match r.line with | some n => n.toNat | none => Config.absentLine.toNat) ∧
      ReadsZero s 0x0528 0x052F := by
  have flags := reads_field (s := s) (f := .protoFlags) (a := 0x0520) (width := 1) (by decide)
  have port := reads_field (s := s) (f := .protoPort) (a := 0x0521) (width := 1) (by decide)
  have kind := reads_field (s := s) (f := .protoKind) (a := 0x0522) (width := 1) (by decide)
  have cause := reads_field (s := s) (f := .protoCause) (a := 0x0523) (width := 1) (by decide)
  have tag := reads_field (s := s) (f := .protoTag) (a := 0x0524) (width := 1) (by decide)
  have line := reads_field (s := s) (f := .protoLine) (a := 0x0525) (width := 3) (by decide)
  simp only [fieldValue, protoRecordValue] at flags port kind cause tag line
  cases held : s.mgmt.proto with
  | none =>
    exact readsZero_record (by decide) (by decide) (by simp [recordRows, fieldValue, protoRecordValue, held])
  | some r =>
    rw [held] at flags port kind cause tag line
    refine ⟨flags, port, kind, cause, ?_, line,
      readsZero_record (by decide) (by decide) (by simp [recordRows, fieldValue])⟩
    cases tags : r.tag <;> simpa [tags] using tag

theorem reads_lostRecord : match s.dir.lostRecord with
    | none => ReadsZero s 0x0530 0x0535
    | some r => Reads s 0x0530 1 1 ∧ Reads s 0x0531 3 r.line.toNat ∧ Reads s 0x0534 1 r.owner.val ∧
      Reads s 0x0535 1 (if r.cause = .commit then 0 else 1) := by
  have flags := reads_field (s := s) (f := .lostFlags) (a := 0x0530) (width := 1) (by decide)
  have line := reads_field (s := s) (f := .lostLine) (a := 0x0531) (width := 3) (by decide)
  have owner := reads_field (s := s) (f := .lostOwner) (a := 0x0534) (width := 1) (by decide)
  have cause := reads_field (s := s) (f := .lostCause) (a := 0x0535) (width := 1) (by decide)
  simp only [fieldValue, lostRecordValue] at flags line owner cause
  cases held : s.dir.lostRecord with
  | none =>
    exact readsZero_record (by decide) (by decide) (by simp [recordRows, fieldValue, lostRecordValue, held])
  | some r =>
    rw [held] at flags line owner cause
    refine ⟨flags, line, owner, ?_⟩
    cases kinds : r.cause <;> simpa [kinds] using cause

/-! ### The blocks of the ports and the descriptors -/

theorem reads_port (h : HostNo) : Reads s (0x40 + 16 * h.val) 1 (portState s h).toCode ∧
    Reads s (0x41 + 16 * h.val) 1 (portOf s h).admission.toNat ∧
    Reads s (0x42 + 16 * h.val) 1 (portOf s h).reason.toCode ∧
    Reads s (0x43 + 16 * h.val) 2 (hliOf s h).tags.length ∧
    Reads s (0x45 + 16 * h.val) 1 (hliOf s h).returns.length ∧
    Reads s (0x46 + 16 * h.val) 1 (hliOf s h).laneA.length ∧
    ReadsZero s (0x47 + 16 * h.val) (0x4F + 16 * h.val) := by
  obtain ⟨state, admission, reason, tags, returns, laneA⟩ := standsAt_port h
  refine ⟨reads_field state, reads_field admission, reads_field reason, reads_field tags, reads_field returns,
    reads_field laneA, readsZero_of_apart (fun a _ _ => rowsNear_port (h := h) (by omega) (by omega)) ?_⟩
  simp only [portRows, List.forall_mem_cons, List.not_mem_nil, false_imp_iff, implies_true, and_true]
  omega

theorem reads_staged (d : Fin 16) : Reads s (0x200 + 8 * d.val) 1 s.region.staged[d].enabled.toNat ∧
    Reads s (0x200 + 8 * d.val + 1) 1 s.region.staged[d].base.toNat ∧
    Reads s (0x200 + 8 * d.val + 2) 2 s.region.staged[d].size.toNat ∧
    Reads s (0x200 + 8 * d.val + 4) 1 s.region.staged[d].mode.toCode ∧
    Reads s (0x200 + 8 * d.val + 5) 1 (rightsByte s.region.staged[d].rights) ∧
    ReadsZero s (0x200 + 8 * d.val + 6) (0x200 + 8 * d.val + 7) := by
  obtain ⟨enabled, base, size, mode, rights⟩ := standsAt_staged d
  refine ⟨reads_field enabled, reads_field base, reads_field size, reads_field mode, reads_field rights,
    readsZero_of_apart (fun a _ _ => rowsNear_staged (d := d) (by omega) (by omega)) ?_⟩
  simp only [descRows, List.forall_mem_cons, List.not_mem_nil, false_imp_iff, implies_true, and_true]
  omega

theorem reads_active (d : Fin 16) : Reads s (0x300 + 8 * d.val) 1 s.region.active[d].enabled.toNat ∧
    Reads s (0x300 + 8 * d.val + 1) 1 s.region.active[d].base.toNat ∧
    Reads s (0x300 + 8 * d.val + 2) 2 s.region.active[d].size.toNat ∧
    Reads s (0x300 + 8 * d.val + 4) 1 s.region.active[d].mode.toCode ∧
    Reads s (0x300 + 8 * d.val + 5) 1 (rightsByte s.region.active[d].rights) ∧
    ReadsZero s (0x300 + 8 * d.val + 6) (0x300 + 8 * d.val + 7) := by
  obtain ⟨enabled, base, size, mode, rights⟩ := standsAt_active d
  refine ⟨reads_field enabled, reads_field base, reads_field size, reads_field mode, reads_field rights,
    readsZero_of_apart (fun a _ _ => rowsNear_active (d := d) (by omega) (by omega)) ?_⟩
  simp only [descRows, List.forall_mem_cons, List.not_mem_nil, false_imp_iff, implies_true, and_true]
  omega

/-- Settles O48: each field stands at its address, and a gap holds no row of its block, or rows that read 0. -/
theorem windowReads : Obligations.WindowReads := by
  unfold Obligations.WindowReads
  intro s
  refine ⟨⟨reads_field (f := .deviceNumber) (by decide), reads_field (f := .hubState) (by decide),
      reads_field (f := .interfaceInUse) (by decide), readsZero_general (by decide) (by decide),
      reads_field (f := .commandCode) (by decide), reads_field (f := .commandStatus) (by decide),
      reads_field (f := .portOperand) (by decide), reads_field (f := .lineOperand) (by decide),
      readsZero_general (by decide) (by decide), reads_field (f := .alertLatch) (by decide),
      reads_field (f := .alertMask) (by decide), reads_field (f := .graceKind) (by decide),
      reads_field (f := .graceTracker) (by decide), reads_field (f := .graceHosts) (by decide),
      reads_field (f := .graceValue) (by decide), readsZero_general (by decide) (by decide)⟩,
    reads_port,
    ⟨readsZero_setting (by decide) (by decide), reads_field (f := .recallLimit) (by decide),
      reads_field (f := .diagEnable) (by decide), readsZero_setting (by decide) (by decide),
      readsZero_setting (by decide) (by decide), readsZero_setting (by decide) (by decide)⟩,
    ?_,
    ⟨reads_field (f := .cutoverStatus) (by decide), reads_field (f := .epoch) (by decide),
      reads_field (f := .offending) (by decide), readsZero_setting (by decide) (by decide)⟩,
    reads_dirRecord, reads_memRecord, reads_protoRecord,
    ⟨reads_lostRecord, reads_field (f := .lostCount) (by decide),
      readsZero_record (by decide) (by decide) (by simp [recordRows, fieldValue])⟩,
    ⟨reads_field (f := .diagSet) (by decide), reads_field (f := .diagWay) (by decide),
      reads_field (f := .diagCode) (by decide), reads_field (f := .diagTag) (by decide),
      reads_field (f := .diagHolders) (by decide), reads_field (f := .diagBinding) (by decide),
      reads_field (f := .diagTagParity) (by decide), reads_field (f := .diagStateParity) (by decide),
      reads_field (f := .diagOutcome) (by decide), readsZero_status (by decide) (by decide)⟩,
    ⟨reads_field (f := .hostTrackers) (by decide), reads_field (f := .internalTrackers) (by decide),
      reads_field (f := .parkCount) (by decide), reads_field (f := .internalClaims) (by decide),
      reads_field (f := .writeEntries) (by decide), reads_field (f := .writeClaims) (by decide),
      reads_field (f := .walkerJob) (by decide), reads_field (f := .walkerPort) (by decide),
      reads_field (f := .walkerSet) (by decide), reads_field (f := .walkCount) (by decide),
      reads_field (f := .skippedCount) (by decide), reads_field (f := .purgePhase) (by decide),
      reads_field (f := .purgeSet) (by decide), reads_field (f := .purgeCount) (by decide),
      readsZero_status (by decide) (by decide)⟩⟩
  intro d active
  cases active with
  | false => exact reads_staged d
  | true => exact reads_active d

end Sys2Proof.Machine
end

section
/-! PROOFS. The writes of the register window (O50 to O52). -/

namespace Sys2Proof.Machine
variable {s t : State} {h : HostNo} {b : Byte} {f : Field} {i n : Nat}

/-! ### A data byte at a field (R177, R178) -/

theorem fieldAt_index (index : s.mgmt.index.toNat = n) (stands : fieldAt (BitVec.ofNat 16 n) = some (f, i)) :
    fieldAt s.mgmt.index = some (f, i) := by
  rw [index_eq s n index, stands]

theorem registerWrite_eq (stands : fieldAt s.mgmt.index = some (f, i)) (own : hasOwnRow f = false) :
    registerWrite b s = writeData (writePlain f i b) s := by
  unfold registerWrite
  rw [stands]
  simp only [own, Bool.false_eq_true, if_false]

theorem registerWrite_stored (write : inWrite s) (stands : fieldAt s.mgmt.index = some (f, i))
    (own : hasOwnRow f = false) (effect : writePlain f i b s = (t, false))
    (interface : t.mgmt.interface = s.mgmt.interface) (index : t.mgmt.index = s.mgmt.index) :
    exec (.registerWrite b) s =
      .next { t with mgmt := wrote (regByte s s.mgmt.index) false t.mgmt } :=
  congrArg Host.Outcome.next ((registerWrite_eq stands own).trans (writeData_taken _ s t write effect interface index))

theorem registerWrite_turned (write : inWrite s) (stands : fieldAt s.mgmt.index = some (f, i))
    (own : hasOwnRow f = false) (effect : writePlain f i b s = (t, true))
    (interface : t.mgmt.interface = s.mgmt.interface) (index : t.mgmt.index = s.mgmt.index) :
    exec (.registerWrite b) s =
      .next { t with mgmt := wrote (regByte s s.mgmt.index) true (refusalLatched t.mgmt) } :=
  congrArg Host.Outcome.next ((registerWrite_eq stands own).trans (writeData_refused _ s t write effect interface index))

theorem flagOf_of_flag (flag : b = 0 ∨ b = 1) : flagOf b = some (decide (b = 1)) := by
  rcases flag with rfl | rfl <;> decide

theorem flagOf_of_not (none_ : ¬(b = 0 ∨ b = 1)) : flagOf b = none := by
  obtain ⟨zero, one⟩ := not_or.mp none_
  rw [flagOf, if_neg zero, if_neg one]

theorem storeSome_flag {store : Bool → State → State} (flag : b = 0 ∨ b = 1) :
    storeSome (flagOf b) store s = (store (decide (b = 1)) s, false) := by
  rw [flagOf_of_flag flag]
  rfl

theorem storeSome_flag_not {store : Bool → State → State} (none_ : ¬(b = 0 ∨ b = 1)) :
    storeSome (flagOf b) store s = (s, true) := by
  rw [flagOf_of_not none_]
  rfl

/-! ### Read-only and unlisted addresses (R177) -/

/-- Whether a byte written to a field is ignored. -/
def isIgnored : Field → Bool
  | .portOperand => false
  | .lineOperand => false
  | .port _ .admission => false
  | .recallLimit => false
  | .diagEnable => false
  | .diagSet => false
  | .diagWay => false
  | .diagCode => false
  | .diagTag => false
  | .diagHolders => false
  | .diagTagParity => false
  | .diagStateParity => false
  | f => !hasOwnRow f

theorem ignored_spec (ignored : isIgnored f = true) : hasOwnRow f = false ∧ writePlain f i b s = taken s := by
  cases f with
  | port h x => cases x <;> simp_all [isIgnored, hasOwnRow, writePlain]
  | _ => simp_all [isIgnored, hasOwnRow, writePlain]

/-- A byte written at `a` is ignored: no field stands there, or one whose bytes are ignored. -/
def IgnoredAt (a : BitVec 16) : Prop := ∀ f i, fieldAt a = some (f, i) → isIgnored f = true

theorem ignoredAt_of_rows {a : BitVec 16} {first last : Nat} {rows : List Row} (from_ : first ≤ a.toNat)
    (upTo : a.toNat ≤ last) (block : rowsNear a.toNat = rows)
    (apart : ∀ r ∈ rows, last < r.start ∨ r.start + r.width ≤ first ∨ isIgnored r.field = true) : IgnoredAt a := by
  intro f i stands
  obtain ⟨r, found, place⟩ := Option.map_eq_some_iff.mp stands
  obtain ⟨rfl, -⟩ := Prod.mk.inj place
  unfold rowAt at found
  rw [block] at found
  have within := List.find?_some found
  simp only [decide_eq_true_eq] at within
  rcases apart r (List.mem_of_find?_eq_some found) with after | before | ignored
  · omega
  · omega
  · exact ignored

theorem registerWrite_ignored (write : inWrite s) (ignored : IgnoredAt s.mgmt.index) :
    exec (.registerWrite b) s = .next { s with mgmt := wrote (regByte s s.mgmt.index) false s.mgmt } := by
  cases stands : fieldAt s.mgmt.index with
  | none =>
    refine congrArg Host.Outcome.next (Eq.trans ?_ (writeData_taken taken s s write rfl rfl rfl))
    unfold registerWrite
    rw [stands]
  | some place =>
    obtain ⟨own, effect⟩ := ignored_spec (s := s) (b := b) (i := place.2) (ignored place.1 place.2 stands)
    exact registerWrite_stored write stands own effect rfl rfl

/-- The addresses whose bytes no write of a register changes (R177, R179). -/
theorem ignoredAt_of_readOnly {a : BitVec 16}
    (listed : a.toNat < 0x10 ∨ a.toNat = 0x11 ∨ (0x16 ≤ a.toNat ∧ a.toNat < 0x20) ∨
      (0x24 ≤ a.toNat ∧ a.toNat < 0x100 ∧ ¬(0x40 ≤ a.toNat ∧ a.toNat < 0x80 ∧ a.toNat % 16 = 1)) ∨
      (0x103 ≤ a.toNat ∧ a.toNat < 0x200) ∨ (0x200 ≤ a.toNat ∧ a.toNat < 0x280 ∧ 6 ≤ a.toNat % 8) ∨
      (0x280 ≤ a.toNat ∧ a.toNat < 0x50F) ∨ (0x510 ≤ a.toNat ∧ a.toNat < 0x51F) ∨
      (0x520 ≤ a.toNat ∧ a.toNat < 0x52F) ∨ (0x530 ≤ a.toNat ∧ a.toNat < 0x53F) ∨
      (0x540 ≤ a.toNat ∧ a.toNat < 0x600) ∨ a.toNat = 0x607 ∨ 0x60A ≤ a.toNat) : IgnoredAt a := by
  have general : ∀ first last, first ≤ a.toNat → a.toNat ≤ last → last < 0x40 →
      (∀ r ∈ generalRows, last < r.start ∨ r.start + r.width ≤ first ∨ isIgnored r.field = true) → IgnoredAt a :=
    fun _ _ from_ upTo below => ignoredAt_of_rows from_ upTo (rowsNear_general (by omega))
  have setting : ∀ first last, first ≤ a.toNat → a.toNat ≤ last →
      ((0x80 ≤ first ∧ last < 0x200) ∨ (0x280 ≤ first ∧ last < 0x300) ∨ (0x380 ≤ first ∧ last < 0x500)) →
      (∀ r ∈ settingRows, last < r.start ∨ r.start + r.width ≤ first ∨ isIgnored r.field = true) → IgnoredAt a :=
    fun _ _ from_ upTo block => ignoredAt_of_rows from_ upTo (rowsNear_setting (by omega))
  have record : ∀ first last, first ≤ a.toNat → a.toNat ≤ last → 0x500 ≤ first → last < 0x600 →
      (∀ r ∈ recordRows, last < r.start ∨ r.start + r.width ≤ first ∨ isIgnored r.field = true) → IgnoredAt a :=
    fun _ _ from_ upTo block below => ignoredAt_of_rows from_ upTo (rowsNear_record (by omega) (by omega))
  have status : ∀ first last, first ≤ a.toNat → a.toNat ≤ last → 0x600 ≤ first →
      (∀ r ∈ statusRows, last < r.start ∨ r.start + r.width ≤ first ∨ isIgnored r.field = true) → IgnoredAt a :=
    fun _ _ from_ upTo block => ignoredAt_of_rows from_ upTo (rowsNear_status (by omega))
  have width := a.isLt
  rcases listed with below | command | operands | ports | settings | ⟨from_, below, within⟩ | tables | dir | mem | proto |
    lost | binding | results
  · exact general 0 0xF (by omega) (by omega) (by decide) (by decide)
  · exact general 0x11 0x11 (by omega) (by omega) (by decide) (by decide)
  · exact general 0x16 0x1F (by omega) (by omega) (by decide) (by decide)
  · obtain ⟨from_, below, other⟩ := ports
    rcases Nat.lt_or_ge a.toNat 0x40 with low | high
    · exact general 0x24 0x3F (by omega) (by omega) (by decide) (by decide)
    rcases Nat.lt_or_ge a.toNat 0x80 with port | high
    · have block := rowsNear_port (h := ⟨a.toNat / 16 - 4, by omega⟩) (a := a.toNat) (by simp only; omega)
        (by simp only; omega)
      refine ignoredAt_of_rows (Nat.le_refl _) (Nat.le_refl _) block ?_
      simp only [portRows, isIgnored, hasOwnRow, List.forall_mem_cons, List.not_mem_nil, false_imp_iff, implies_true,
        and_true, Bool.not_false, or_true, true_and]
      omega
    · exact setting 0x80 0xFF (by omega) (by omega) (by decide) (by decide)
  · exact setting 0x103 0x1FF (by omega) (by omega) (by decide) (by decide)
  · have block := rowsNear_staged (d := ⟨a.toNat / 8 - 64, by omega⟩) (a := a.toNat) (by simp only; omega)
      (by simp only; omega)
    refine ignoredAt_of_rows (Nat.le_refl _) (Nat.le_refl _) block ?_
    simp only [descRows, List.forall_mem_cons, List.not_mem_nil, false_imp_iff, implies_true, and_true]
    omega
  · rcases Nat.lt_or_ge a.toNat 0x300 with low | high
    · exact setting 0x280 0x2FF (by omega) (by omega) (by decide) (by decide)
    rcases Nat.lt_or_ge a.toNat 0x380 with active | high
    · have block := rowsNear_active (d := ⟨a.toNat / 8 - 96, by omega⟩) (a := a.toNat) (by simp only; omega)
        (by simp only; omega)
      refine ignoredAt_of_rows (Nat.le_refl _) (Nat.le_refl _) block ?_
      simp [descRows, isIgnored, hasOwnRow]
    rcases Nat.lt_or_ge a.toNat 0x500 with cutover | high
    · exact setting 0x380 0x4FF (by omega) (by omega) (by decide) (by decide)
    · exact record 0x500 0x50E (by omega) (by omega) (by decide) (by decide) (by decide)
  · exact record 0x510 0x51E (by omega) (by omega) (by decide) (by decide) (by decide)
  · exact record 0x520 0x52E (by omega) (by omega) (by decide) (by decide) (by decide)
  · exact record 0x530 0x53E (by omega) (by omega) (by decide) (by decide) (by decide)
  · exact record 0x540 0x5FF (by omega) (by omega) (by decide) (by decide) (by decide)
  · exact status 0x607 0x607 (by omega) (by omega) (by decide) (by decide)
  · exact status 0x60A 0xFFFF (by omega) (by omega) (by decide) (by decide)

theorem fieldAt_admission (index : s.mgmt.index.toNat = 0x41 + 16 * h.val) :
    fieldAt s.mgmt.index = some (.port h .admission, 0) :=
  fieldAt_index index ((standsAt_port h).2.1 0 (by decide))

/-- What a byte of ADMIT stores. -/
def setAdmission (h : HostNo) (v : Bool) (s : State) : State := updPort s h (fun p => { p with admission := v })

theorem portOf_setAdmission_same (v : Bool) :
    portOf (setAdmission h v s) h = { portOf s h with admission := v } := by
  simp [portOf, setAdmission, updPort]

theorem portOf_setAdmission_other (v : Bool) {p : HostNo} (other : p ≠ h) :
    portOf (setAdmission h v s) p = portOf s p := by
  simp [portOf, setAdmission, updPort, Vector.getElem_set_ne _ _ (fun same => other (Fin.ext same).symm)]

theorem writePlain_admission :
    writePlain (.port h .admission) i b s = storeSome (flagOf b) (setAdmission h) s := rfl

theorem admission_stored (write : inWrite s) (index : s.mgmt.index.toNat = 0x41 + 16 * h.val) (flag : b = 0 ∨ b = 1) :
    ∃ t, exec (.registerWrite b) s = .next t ∧
      portOf t h = { portOf s h with admission := decide (b = 1) } ∧ (∀ p, p ≠ h → portOf t p = portOf s p) ∧
      t.mgmt = wrote (regByte s s.mgmt.index) false s.mgmt ∧ { t with ports := s.ports, mgmt := s.mgmt } = s :=
  ⟨_, registerWrite_stored write (fieldAt_admission index) rfl
      (writePlain_admission.trans (storeSome_flag flag)) rfl rfl,
    portOf_setAdmission_same (decide (b = 1)), fun _ other => portOf_setAdmission_other (decide (b = 1)) other, rfl, rfl⟩

/-- Settles O50: a byte of a field is judged as `writePlain` has it; the other addresses are read-only or unlisted. -/
theorem registerWrites : Obligations.RegisterWrites := by
  unfold Obligations.RegisterWrites
  intro b s write a m old stored turned judged two d
  have at_ {f i n} (index : a = n) (stands : fieldAt (BitVec.ofNat 16 n) = some (f, i)) :
      fieldAt s.mgmt.index = some (f, i) := fieldAt_index index stands
  have whole {f i n} {x : Mgmt} (index : a = n) (stands : fieldAt (BitVec.ofNat 16 n) = some (f, i))
      (own : hasOwnRow f = false) (effect : writePlain f i b s = ({ s with mgmt := x }, false))
      (interface : x.interface = m.interface) (same : x.index = m.index) : stored x :=
    registerWrite_stored write (at_ index stands) own effect interface same
  have bad {f i n} {x : Mgmt} (index : a = n) (stands : fieldAt (BitVec.ofNat 16 n) = some (f, i))
      (own : hasOwnRow f = false) (effect : writePlain f i b s = ({ s with mgmt := x }, true))
      (interface : x.interface = m.interface) (same : x.index = m.index) : turned x :=
    registerWrite_turned write (at_ index stands) own effect interface same
  refine ⟨fun listed => registerWrite_ignored write (ignoredAt_of_readOnly listed),
    fun at12 => whole at12 (f := .portOperand) (i := 0) (by decide) rfl rfl rfl rfl,
    fun h index => ⟨fun flag => admission_stored write index flag,
      fun none_ => registerWrite_turned write (fieldAt_admission index) rfl
        (writePlain_admission.trans (storeSome_flag_not none_)) rfl rfl⟩,
    fun at13 => whole at13 (f := .lineOperand) (i := 0) (by decide) rfl rfl rfl rfl,
    fun at14 => whole at14 (f := .lineOperand) (i := 1) (by decide) rfl rfl rfl rfl,
    fun at15 => whole at15 (f := .lineOperand) (i := 2) (by decide) rfl rfl rfl rfl,
    fun at100 => whole at100 (f := .recallLimit) (i := 0) (by decide) rfl rfl rfl rfl, fun at101 => ⟨?_, ?_⟩,
    fun at102 => ⟨?_, ?_⟩,
    fun at600 => whole at600 (f := .diagSet) (i := 0) (by decide) rfl rfl rfl rfl,
    fun at601 => whole at601 (f := .diagSet) (i := 1) (by decide) rfl rfl rfl rfl,
    fun at602 => whole at602 (f := .diagWay) (i := 0) (by decide) rfl rfl rfl rfl, fun at603 => ⟨?_, ?_⟩,
    fun at604 => whole at604 (f := .diagTag) (i := 0) (by decide) rfl rfl rfl rfl, fun at605 => ⟨?_, ?_⟩,
    fun at606 => ⟨?_, ?_⟩, fun at608 => ⟨?_, ?_⟩, fun at609 => ⟨?_, ?_⟩⟩
  · intro good
    exact whole at101 (f := .recallLimit) (i := 1) (by decide) rfl (if_pos (decide_eq_true good)) rfl rfl
  · intro low
    exact bad at101 (f := .recallLimit) (i := 1) (by decide) rfl (if_neg (fun passed => low (of_decide_eq_true passed))) rfl rfl
  · intro flag
    exact whole at102 (f := .diagEnable) (i := 0) (by decide) rfl (storeSome_flag flag) rfl rfl
  · intro none_
    exact bad at102 (f := .diagEnable) (i := 0) (by decide) rfl (storeSome_flag_not none_) rfl rfl
  · intro good
    exact whole at603 (f := .diagCode) (i := 0) (by decide) rfl (if_pos good) rfl rfl
  · intro high
    exact bad at603 (f := .diagCode) (i := 0) (by decide) rfl (if_neg high) rfl rfl
  · intro good
    exact whole at605 (f := .diagTag) (i := 1) (by decide) rfl (if_pos (decide_eq_true good)) rfl rfl
  · intro high
    exact bad at605 (f := .diagTag) (i := 1) (by decide) rfl (if_neg (fun passed => high (of_decide_eq_true passed))) rfl rfl
  · intro good
    exact whole at606 (f := .diagHolders) (i := 0) (by decide) rfl (if_pos good) rfl rfl
  · intro high
    exact bad at606 (f := .diagHolders) (i := 0) (by decide) rfl (if_neg high) rfl rfl
  · intro flag
    exact whole at608 (f := .diagTagParity) (i := 0) (by decide) rfl (storeSome_flag flag) rfl rfl
  · intro none_
    exact bad at608 (f := .diagTagParity) (i := 0) (by decide) rfl (storeSome_flag_not none_) rfl rfl
  · intro flag
    exact whole at609 (f := .diagStateParity) (i := 0) (by decide) rfl (storeSome_flag flag) rfl rfl
  · intro none_
    exact bad at609 (f := .diagStateParity) (i := 0) (by decide) rfl (storeSome_flag_not none_) rfl rfl

/-! ### The staged table (R42, R47) -/

section Staged
variable {d : Fin 16} {x : DescField}

theorem stagedTableWrite_eq (stands : fieldAt s.mgmt.index = some (.staged d x, i)) :
    stagedTableWrite b s = writeData (writeStaged d x i b) s := by
  unfold stagedTableWrite
  rw [stands]

theorem stagedTableWrite_stored (write : inWrite s) (stands : fieldAt s.mgmt.index = some (.staged d x, i))
    (effect : writeStaged d x i b s = (t, false)) (interface : t.mgmt.interface = s.mgmt.interface)
    (index : t.mgmt.index = s.mgmt.index) :
    exec (.stagedTableWrite b) s = .next { t with mgmt := wrote (regByte s s.mgmt.index) false t.mgmt } :=
  congrArg Host.Outcome.next ((stagedTableWrite_eq stands).trans (writeData_taken _ s t write effect interface index))

theorem stagedTableWrite_turned (write : inWrite s) (stands : fieldAt s.mgmt.index = some (.staged d x, i))
    (effect : writeStaged d x i b s = (s, true)) : exec (.stagedTableWrite b) s =
      .next { s with mgmt := wrote (regByte s s.mgmt.index) true (refusalLatched s.mgmt) } :=
  congrArg Host.Outcome.next ((stagedTableWrite_eq stands).trans (writeData_refused _ s s write effect rfl rfl))

/-- The six bytes of a staged descriptor. -/
theorem fieldAt_staged (index : s.mgmt.index.toNat = 0x200 + 8 * d.val + i) (below : i < 6) :
    ∃ x j, fieldAt s.mgmt.index = some (.staged d x, j) := by
  obtain ⟨enabled, base, size, mode, rights⟩ := standsAt_staged d
  have cases_ : i = 0 ∨ i = 1 ∨ i = 2 ∨ i = 3 ∨ i = 4 ∨ i = 5 := by omega
  rcases cases_ with rfl | rfl | rfl | rfl | rfl | rfl
  · exact ⟨_, _, fieldAt_index index (enabled 0 (by decide))⟩
  · exact ⟨_, _, fieldAt_index index (base 0 (by decide))⟩
  · exact ⟨_, _, fieldAt_index index (size 0 (by decide))⟩
  · exact ⟨_, _, fieldAt_index index (size 1 (by decide))⟩
  · exact ⟨_, _, fieldAt_index index (mode 0 (by decide))⟩
  · exact ⟨_, _, fieldAt_index index (rights 0 (by decide))⟩

theorem writeStaged_locked (lock : s.region.lock = true) : writeStaged d x i b s = (s, true) := by
  unfold writeStaged
  rw [if_pos lock]
  rfl

theorem writeStaged_free (lock : s.region.lock = false) : writeStaged d x i b s = match x with
    | .enabled => storeSome (flagOf b) (fun v => updStaged d (fun x => { x with enabled := v })) s
    | .base => taken (updStaged d (fun x => { x with base := b }) s)
    | .size => writeStagedSize d i b s
    | .mode => storeSome (modeOf b) (fun v => updStaged d (fun x => { x with mode := v })) s
    | .rights => storeSome (rightsOfByte b) (fun v => updStaged d (fun x => { x with rights := v })) s := by
  cases x <;> simp only [writeStaged, lock, Bool.false_eq_true, if_false]

theorem modeOf_of_not (none_ : ¬(b = 0 ∨ b = 1)) : modeOf b = none := by
  obtain ⟨zero, one⟩ := not_or.mp none_
  rw [modeOf, if_neg zero, if_neg one]

/-! ### The rights byte (R42) -/

/-- The two bits of a host are the code of a right, but for 3. -/
theorem rightOfCode_of_ne {n : Nat} (below : n < 4) (other : n ≠ 3) :
    ∃ r, rightOfCode n = some r ∧ r.toCode = n := by
  have cases_ : n = 0 ∨ n = 1 ∨ n = 2 := by omega
  rcases cases_ with rfl | rfl | rfl
  · exact ⟨.noRight, rfl, rfl⟩
  · exact ⟨.read, rfl, rfl⟩
  · exact ⟨.write, rfl, rfl⟩

theorem rightsOfByte_some (good : ∀ h : HostNo, b.toNat / 4 ^ h.val % 4 ≠ 3) :
    ∃ r, rightsOfByte b = some r ∧ ∀ h : HostNo, (r[h] : Right).toCode = b.toNat / 4 ^ h.val % 4 := by
  have code (h : HostNo) := rightOfCode_of_ne (Nat.mod_lt _ (by decide)) (good h)
  obtain ⟨r0, is0, code0⟩ := code 0
  obtain ⟨r1, is1, code1⟩ := code 1
  obtain ⟨r2, is2, code2⟩ := code 2
  obtain ⟨r3, is3, code3⟩ := code 3
  simp only [Fin.isValue, Fin.coe_ofNat_eq_mod, Nat.reduceMod, Nat.reducePow, Nat.div_one] at is0 is1 is2 is3
  refine ⟨#v[r0, r1, r2, r3], by simp [rightsOfByte, is0, is1, is2, is3], ?_⟩
  intro h
  match h with
  | 0 => exact code0
  | 1 => exact code1
  | 2 => exact code2
  | 3 => exact code3

theorem rightsOfByte_none (bad : ∃ h : HostNo, b.toNat / 4 ^ h.val % 4 = 3) : rightsOfByte b = none := by
  have stops {n : Nat} (three : n = 3) : rightOfCode n = none := by rw [three]; rfl
  obtain ⟨h, three⟩ := bad
  match h with
  | 0 => simp [rightsOfByte, stops (n := b.toNat % 4) (by simpa using three)]
  | 1 => simp [rightsOfByte, stops (n := b.toNat / 4 % 4) (by simpa using three)]
  | 2 => simp [rightsOfByte, stops (n := b.toNat / 16 % 4) (by simpa using three)]
  | 3 => simp [rightsOfByte, stops (n := b.toNat / 64 % 4) (by simpa using three)]

end Staged

/-- Settles O51: the byte lies in one of the five fields of the descriptor, each of which judges it. -/
theorem stagedWrites : Obligations.StagedWrites := by
  unfold Obligations.StagedWrites
  intro b d i s write index m x old c stored refused
  obtain ⟨enabled, base, size, mode, rights⟩ := standsAt_staged d
  have atIndex {f i' j} (place : i = i') (stands : fieldAt (BitVec.ofNat 16 (0x200 + 8 * d.val + i')) = some (f, j)) :
      fieldAt s.mgmt.index = some (f, j) := by
    subst place
    exact fieldAt_index index stands
  refine ⟨?_, fun free => ⟨?_, ?_, ?_, ?_, ?_, ?_, ?_, ?_, ?_, ?_⟩⟩
  · intro lock below
    obtain ⟨f, j, stands⟩ := fieldAt_staged index below
    exact stagedTableWrite_turned write stands (writeStaged_locked lock)
  · intro at0 flag
    exact stagedTableWrite_stored write (atIndex at0 (enabled 0 (by decide)))
      ((writeStaged_free free).trans (storeSome_flag flag)) rfl rfl
  · intro at0 none_
    exact stagedTableWrite_turned write (atIndex at0 (enabled 0 (by decide)))
      ((writeStaged_free free).trans (storeSome_flag_not none_))
  · intro at1
    exact stagedTableWrite_stored write (atIndex at1 (base 0 (by decide))) (writeStaged_free free) rfl rfl
  · intro at2
    exact stagedTableWrite_stored write (atIndex at2 (size 0 (by decide))) (writeStaged_free free) rfl rfl
  · intro at3
    exact stagedTableWrite_stored write (atIndex at3 (size 1 (by decide))) (writeStaged_free free) rfl rfl
  · intro at4 zero
    subst zero
    exact stagedTableWrite_stored write (atIndex at4 (mode 0 (by decide)))
      (t := updStaged d (fun x => { x with mode := .tracked }) s) (writeStaged_free free) rfl rfl
  · intro at4 one
    subst one
    exact stagedTableWrite_stored write (atIndex at4 (mode 0 (by decide)))
      (t := updStaged d (fun x => { x with mode := .directOnly }) s) (writeStaged_free free) rfl rfl
  · intro at4 none_
    refine stagedTableWrite_turned write (atIndex at4 (mode 0 (by decide))) ((writeStaged_free free).trans ?_)
    simp only [modeOf_of_not none_, storeSome]
    rfl
  · intro at5 good
    obtain ⟨r, is, codes⟩ := rightsOfByte_some good
    refine ⟨r, codes, stagedTableWrite_stored write (atIndex at5 (rights 0 (by decide)))
      (t := updStaged d (fun x => { x with rights := r }) s) ((writeStaged_free free).trans ?_) rfl rfl⟩
    simp only [is, storeSome]
    rfl
  · intro at5 bad
    refine stagedTableWrite_turned write (atIndex at5 (rights 0 (by decide))) ((writeStaged_free free).trans ?_)
    simp only [rightsOfByte_none bad, storeSome]
    rfl

/-! ### The alert latch and mask, the record clears (R183, R184, R186) -/

theorem alertLowOf_iff {l k : BitVec 16} :
    alertLowOf l k = true ↔ ∃ i, i < 16 ∧ l.getLsbD i = true ∧ k.getLsbD i = false := by
  rw [alertLowOf, decide_eq_true_iff]
  constructor
  · intro some_
    by_contra none_
    refine some_ (BitVec.eq_of_getLsbD_eq (fun i below => ?_))
    have := fun latched unmasked => none_ ⟨i, below, latched, unmasked⟩
    simp only [BitVec.getLsbD_and, BitVec.getLsbD_not, below, decide_true, Bool.true_and, BitVec.ofNat_eq_ofNat,
      BitVec.getLsbD_zero]
    cases latched : l.getLsbD i <;> cases masked : k.getLsbD i <;> simp_all
  · rintro ⟨i, below, latched, unmasked⟩ zero
    have bit := congrArg (BitVec.getLsbD · i) zero
    simp only [BitVec.getLsbD_and, BitVec.getLsbD_not, latched, unmasked, below, decide_true, Bool.not_false,
      Bool.and_self, BitVec.ofNat_eq_ofNat, BitVec.getLsbD_zero, Bool.true_eq_false] at bit

/-- A byte of a 16-bit register, its low or its high one, loses bits or is replaced. -/
theorem clear_low (l : BitVec 16) (b : Byte) :
    l &&& ~~~byteAt 0 b = l.extractLsb' 8 8 ++ (l.extractLsb' 0 8 &&& ~~~b) := by
  apply BitVec.eq_of_getLsbD_eq
  intro i below
  by_cases low : i < 8 <;> simp [byteAt, low, below] <;> grind

theorem clear_high (l : BitVec 16) (b : Byte) :
    l &&& ~~~byteAt 1 b = (l.extractLsb' 8 8 &&& ~~~b) ++ l.extractLsb' 0 8 := by
  apply BitVec.eq_of_getLsbD_eq
  intro i below
  by_cases low : i < 8 <;> simp [byteAt, low, below] <;> grind

theorem getLsbD_outside_low : ∀ i < 16, (~~~byteAt 0 0xFF).getLsbD i = decide (8 ≤ i) := by
  decide

theorem getLsbD_outside_high : ∀ i < 16, (~~~byteAt 1 0xFF).getLsbD i = decide (i < 8) := by
  decide

theorem replace_low (k : BitVec 16) (b : Byte) :
    (k &&& ~~~byteAt 0 0xFF) ||| byteAt 0 b = k.extractLsb' 8 8 ++ b := by
  apply BitVec.eq_of_getLsbD_eq
  intro i below
  rw [BitVec.getLsbD_or, BitVec.getLsbD_and, getLsbD_outside_low i below]
  by_cases low : i < 8 <;> simp [byteAt, low, below] <;> grind

theorem replace_high (k : BitVec 16) (b : Byte) :
    (k &&& ~~~byteAt 1 0xFF) ||| byteAt 1 b = b ++ k.extractLsb' 0 8 := by
  apply BitVec.eq_of_getLsbD_eq
  intro i below
  rw [BitVec.getLsbD_or, BitVec.getLsbD_and, getLsbD_outside_high i below]
  by_cases low : i < 8 <;> simp [byteAt, low, below] <;> grind

/-- The Management Port with the latch and the mask as given, after a data byte. -/
def alertsWrote (s : State) (l k : BitVec 16) : Mgmt :=
  wrote (regByte s s.mgmt.index) false { s.mgmt with latch := l, mask := k, alertLow := alertLowOf l k }

theorem alertLatchClear_eq (write : inWrite s) (stands : fieldAt s.mgmt.index = some (.alertLatch, i)) :
    exec (.alertLatchClear b) s =
      .next { s with mgmt := alertsWrote s (s.mgmt.latch &&& ~~~byteAt i b) s.mgmt.mask } := by
  refine congrArg Host.Outcome.next (Eq.trans ?_
    (writeData_taken (fun s => taken (setAlerts (s.mgmt.latch &&& ~~~byteAt i b) s.mgmt.mask s)) s _ write rfl rfl rfl))
  unfold alertLatchClear
  rw [stands]

theorem alertMaskWrite_eq (write : inWrite s) (stands : fieldAt s.mgmt.index = some (.alertMask, i)) :
    exec (.alertMaskWrite b) s =
      .next { s with mgmt := alertsWrote s s.mgmt.latch ((s.mgmt.mask &&& ~~~byteAt i 0xFF) ||| byteAt i b) } := by
  refine congrArg Host.Outcome.next (Eq.trans ?_ (writeData_taken
    (fun s => taken (setAlerts s.mgmt.latch ((s.mgmt.mask &&& ~~~byteAt i 0xFF) ||| byteAt i b) s)) s _ write rfl rfl rfl))
  unfold alertMaskWrite
  rw [stands]

/-- A clear byte reads 0, and is written beside the clearing of its record. -/
theorem recordClear_eq (write : inWrite s) (stands : fieldAt s.mgmt.index = some (f, i)) (clears : isClearByte f = true)
    (effect : (if b.getLsbD 0 then clearRecord f s else s) = t) (interface : t.mgmt.interface = s.mgmt.interface)
    (index : t.mgmt.index = s.mgmt.index) :
    exec (.recordClear b) s = .next { t with mgmt := wrote 0 false t.mgmt } := by
  have reads : regByte s s.mgmt.index = 0 := by
    unfold regByte
    rw [stands]
    cases f <;> simp_all [isClearByte, fieldValue, valueByte]
  refine congrArg Host.Outcome.next (Eq.trans ?_ ((writeData_taken (fun s => taken (if b.getLsbD 0 then clearRecord f s else s))
    s t write (congrArg taken effect) interface index).trans (by rw [reads])))
  unfold recordClear
  rw [stands]
  simp only [clears, if_true]

/-- Settles O52: the byte named of the latch or the mask, or the record whose clear byte it is. -/
theorem alertAndRecordWrites : Obligations.AlertAndRecordWrites := by
  unfold Obligations.AlertAndRecordWrites
  refine ⟨fun l k => alertLowOf_iff, ?_⟩
  intro b s write m old high low alerts
  have at_ {n : BitVec 16} {f i} (index : m.index = n) (stands : fieldAt n = some (f, i)) :
      fieldAt s.mgmt.index = some (f, i) := index ▸ stands
  refine ⟨fun at20 => ?_, fun at21 => ?_, fun at22 => ?_, fun at23 => ?_, ?_, fun set => ⟨?_, ?_, ?_, ?_⟩⟩
  · rw [alertLatchClear_eq write (at_ (f := .alertLatch) (i := 0) at20 (by decide)), clear_low]
    rfl
  · rw [alertLatchClear_eq write (at_ (f := .alertLatch) (i := 1) at21 (by decide)), clear_high]
    rfl
  · rw [alertMaskWrite_eq write (at_ (f := .alertMask) (i := 0) at22 (by decide)), replace_low]
    rfl
  · rw [alertMaskWrite_eq write (at_ (f := .alertMask) (i := 1) at23 (by decide)), replace_high]
    rfl
  · intro listed unset
    have kept {f} : (if b.getLsbD 0 then clearRecord f s else s) = s := if_neg (by rw [unset]; decide)
    simp only [List.mem_cons, List.not_mem_nil, or_false] at listed
    rcases listed with dir | mem | proto | lost
    · exact recordClear_eq write (at_ (f := .dirClear) (i := 0) dir (by decide)) rfl kept rfl rfl
    · exact recordClear_eq write (at_ (f := .memClear) (i := 0) mem (by decide)) rfl kept rfl rfl
    · exact recordClear_eq write (at_ (f := .protoClear) (i := 0) proto (by decide)) rfl kept rfl rfl
    · exact recordClear_eq write (at_ (f := .lostClear) (i := 0) lost (by decide)) rfl kept rfl rfl
  · intro dir
    exact recordClear_eq write (at_ (f := .dirClear) (i := 0) dir (by decide)) rfl (if_pos set) rfl rfl
  · intro mem
    exact recordClear_eq write (at_ (f := .memClear) (i := 0) mem (by decide)) rfl (if_pos set) rfl rfl
  · intro proto
    exact recordClear_eq write (at_ (f := .protoClear) (i := 0) proto (by decide)) rfl (if_pos set) rfl rfl
  · intro lost
    exact recordClear_eq write (at_ (f := .lostClear) (i := 0) lost (by decide)) rfl (if_pos set) rfl rfl

end Sys2Proof.Machine
end

section
/-! PROOFS. The interface, the index and the reads of the register window (O49). -/

/- One theorem at a time, as in the laws above. -/
set_option Elab.async false

namespace Sys2Proof.Machine
variable {s u : State} {b : Byte} {first address : Byte} {acknowledged : Bool}

/-! ### The first byte of a frame or transaction (R174 to R176) -/

/-- The address byte of the hub: 1011 0 A1 A0, and the read or write bit. -/
theorem namesHub_iff (maddr : BitVec 2) (address : Byte) :
    namesHub maddr address = true ↔ address >>> 1 = 0x58 ||| maddr.setWidth 8 := by
  have pins : maddr = 0 ∨ maddr = 1 ∨ maddr = 2 ∨ maddr = 3 := by revert maddr; decide
  have seven : (address.extractLsb' 1 7).toNat = (address >>> 1).toNat := by
    simp only [BitVec.extractLsb'_toNat, BitVec.toNat_ushiftRight, Nat.shiftRight_eq_div_pow]
    omega
  rw [namesHub, decide_eq_true_iff, ← BitVec.toNat_inj, ← BitVec.toNat_inj, seven]
  rcases pins with rfl | rfl | rfl | rfl <;> rfl

section Undetermined
variable (undetermined : s.mgmt.interface = .undetermined)
include undetermined

theorem lock_frame (recognised : first = 0x3A ∨ first = 0x3B) : lockInterface (.fourWire first) s =
    updMgmt (fun m => beginTransfer (afterCommandByte first) { m with interface := .fourWire }) s := by
  simp only [lockInterface, undetermined, if_pos recognised]

theorem lock_frame_other (other : ¬(first = 0x3A ∨ first = 0x3B)) : lockInterface (.fourWire first) s = s := by
  simp only [lockInterface, undetermined, if_neg other]

theorem lock_transaction (names : namesHub s.mgmt.maddr address = true) : lockInterface (.i2c address) s =
    updMgmt (fun m => beginTransfer (afterAddress m.maddr address)
      { m with interface := .i2c, sdaAck := some true }) s := by
  simp only [lockInterface, undetermined, names, if_true]

theorem lock_transaction_other (other : ¬namesHub s.mgmt.maddr address = true) :
    lockInterface (.i2c address) s = s := by
  simp only [lockInterface, undetermined, if_neg other]

end Undetermined

theorem frame_begins (locked : s.mgmt.interface = .fourWire) : lockInterface (.fourWire first) s =
    updMgmt (fun m => beginTransfer (afterCommandByte first) { m with mdo := some 0 }) s := by
  simp only [lockInterface, locked]

theorem frame_ignored (locked : s.mgmt.interface = .i2c) : lockInterface (.fourWire first) s = s := by
  simp only [lockInterface, locked]

theorem transaction_begins (locked : s.mgmt.interface = .i2c) : lockInterface (.i2c address) s =
    updMgmt (fun m => beginTransfer (afterAddress m.maddr address)
      { m with sdaAck := some (namesHub m.maddr address) }) s := by
  simp only [lockInterface, locked]

theorem transaction_ignored (locked : s.mgmt.interface = .fourWire) : lockInterface (.i2c address) s = s := by
  simp only [lockInterface, locked]

theorem afterCommandByte_other (write : first ≠ 0x3A) (read : first ≠ 0x3B) : afterCommandByte first = .ignored := by
  rw [afterCommandByte, if_neg write, if_neg read]

theorem afterAddress_named {maddr : BitVec 2} (names : namesHub maddr address = true) :
    afterAddress maddr address = if address.getLsbD 0 then .read else .index false := by
  rw [afterAddress, names, if_neg (by decide)]

theorem afterAddress_other {maddr : BitVec 2} (other : namesHub maddr address = false) :
    afterAddress maddr address = .ignored := by
  rw [afterAddress, if_pos other]

/-! ### The index (R177) -/

theorem inTransfer_iff {x : Transfer} : inTransfer s x = true ↔ s.mgmt.interface ≠ .undetermined ∧ s.mgmt.transfer = x := by
  rw [inTransfer, decide_eq_true_iff]

/-- What the index bytes do where they are called for, the transfer then standing at `x`. -/
def indexLoaded (s : State) (index : IndexBytes) (x : Transfer) : State :=
  { s with mgmt := { s.mgmt with
    transfer := x
    index := index.first ++ index.second
    capture := none
    mdo := if s.mgmt.interface = .fourWire then some 0 else s.mgmt.mdo
    sdaAck := if s.mgmt.interface = .i2c then some true else s.mgmt.sdaAck } }

theorem driveWrite_index {m : Mgmt} {index : BitVec 16} {x : Transfer} (locked : m.interface ≠ .undetermined) :
    ({ driveWrite 0 false m with index := index, capture := none, transfer := x } : Mgmt) =
      { m with
        transfer := x
        index := index
        capture := none
        mdo := if m.interface = .fourWire then some 0 else m.mdo
        sdaAck := if m.interface = .i2c then some true else m.sdaAck } := by
  unfold driveWrite
  cases interface : m.interface
  · exact absurd interface locked
  · simp
  · simp

theorem loadIndex_write {index : IndexBytes} (locked : s.mgmt.interface ≠ .undetermined)
    (calls : s.mgmt.transfer = .index false) : loadIndex index s = indexLoaded s index .write := by
  have called : inTransfer s (.index false) = true := inTransfer_iff.mpr ⟨locked, calls⟩
  simp only [loadIndex, called, if_true, updMgmt, driveWrite_index locked]
  rfl

theorem loadIndex_read {index : IndexBytes} (locked : s.mgmt.interface ≠ .undetermined)
    (calls : s.mgmt.transfer = .index true) : loadIndex index s = indexLoaded s index .read := by
  have called : inTransfer s (.index true) = true := inTransfer_iff.mpr ⟨locked, calls⟩
  have other : inTransfer s (.index false) = false :=
    Bool.eq_false_iff.mpr (fun it => by simpa [calls] using (inTransfer_iff.mp it).2)
  simp only [loadIndex, called, other, if_true, Bool.false_eq_true, if_false, updMgmt, driveWrite_index locked]
  rfl

theorem loadIndex_uncalled {index : IndexBytes}
    (uncalled : ¬(s.mgmt.interface ≠ .undetermined ∧ ∃ reads, s.mgmt.transfer = .index reads)) :
    loadIndex index s = s := by
  have other (reads : Bool) : inTransfer s (.index reads) = false :=
    Bool.eq_false_iff.mpr (fun it => uncalled ⟨(inTransfer_iff.mp it).1, reads, (inTransfer_iff.mp it).2⟩)
  simp only [loadIndex, other, Bool.false_eq_true, if_false]

/-! ### Bytes that no write calls for (R175, R176) -/

section Outside
variable (outside : ¬inWrite s)
include outside

theorem registerWrite_outside : registerWrite b s = s := by
  unfold registerWrite
  split
  · exact writeData_outside _ _ outside
  · split
    · rfl
    · exact writeData_outside _ _ outside

theorem stagedTableWrite_outside : stagedTableWrite b s = s := by
  unfold stagedTableWrite
  split
  · exact writeData_outside _ _ outside
  · rfl

theorem alertLatchClear_outside : alertLatchClear b s = s := by
  unfold alertLatchClear
  split
  · exact writeData_outside _ _ outside
  · rfl

theorem alertMaskWrite_outside : alertMaskWrite b s = s := by
  unfold alertMaskWrite
  split
  · exact writeData_outside _ _ outside
  · rfl

theorem recordClear_outside : recordClear b s = s := by
  unfold recordClear
  split
  · split
    · exact writeData_outside _ _ outside
    · rfl
  · rfl

theorem issue_outside {code : Byte} {judge : State → Verdict} : issue code judge s = s := by
  unfold issue
  split
  · exact writeData_outside _ _ outside
  · rfl

theorem invalidCommand_outside : exec (.invalidCommand b) s = .next s := by
  change execInvalidCommand b s = _
  unfold execInvalidCommand
  rw [issue_outside outside, ite_self]

theorem commands_outside : ∀ c code, commandCode c = some code → exec c s =
    .next (if c ∈ [.releaseCommand, .maintEnter, .maintExit, .poolClear] then s else settle s) := by
  intro c code isCommand
  have settles {judge : State → Verdict} {code : Byte} : Host.Outcome.next (φ := Fault) (ρ := Refusal)
      (settle (issue code judge s)) = .next (settle s) := by rw [issue_outside outside]
  have stands {judge : State → Verdict} {code : Byte} : Host.Outcome.next (φ := Fault) (ρ := Refusal)
      (issue code judge s) = .next s := by rw [issue_outside outside]
  cases c with
  | cutover => exact settles
  | fenceCommand => exact settles
  | releaseCommand => exact stands
  | hubReset => exact settles
  | clearLost => exact settles
  | diagRead => exact settles
  | diagWrite => exact settles
  | maintEnter => exact stands
  | maintExit => exact stands
  | poolClear => exact stands
  | _ => exact absurd isCommand (by simp [commandCode])

end Outside

/-! ### Reads (R175 to R177) -/

theorem readData_uncalled (uncalled : ¬(s.mgmt.interface ≠ .undetermined ∧ s.mgmt.transfer = .read)) :
    readData acknowledged s = s := by
  have other : inTransfer s .read = false := Bool.eq_false_iff.mpr (fun it => uncalled (inTransfer_iff.mp it))
  rw [readData, if_pos other]

/-- A byte is shown on the wire of the interface in use. -/
def Shows (interface : Interface) (b : Byte) (t : State) : Prop :=
  (interface = .fourWire → t.mgmt.mdo = some b) ∧ (interface = .i2c → t.mgmt.sdaData = some b)

/-- What a data byte read changes. -/
structure ReadOf (s : State) (acknowledged : Bool) (t : State) : Prop where
  exec : exec (.registerRead acknowledged) s = .next t
  shows : Shows s.mgmt.interface (readByte s).1 t
  index : t.mgmt.index = s.mgmt.index + 1
  interface : t.mgmt.interface = s.mgmt.interface
  capture : t.mgmt.capture = (readByte s).2
  transfer : t.mgmt.transfer = afterRead acknowledged s.mgmt
  frame : { t with mgmt := { t.mgmt with
    transfer := s.mgmt.transfer
    index := s.mgmt.index
    capture := s.mgmt.capture
    mdo := s.mgmt.mdo
    sdaData := s.mgmt.sdaData } } = s

theorem readOf_readData (locked : s.mgmt.interface ≠ .undetermined) (reading : s.mgmt.transfer = .read) :
    ReadOf s acknowledged (readData acknowledged s) := by
  have called : inTransfer s .read = true := inTransfer_iff.mpr ⟨locked, reading⟩
  have form : readData acknowledged s = { s with mgmt := { driveRead (readByte s).1 s.mgmt with
      index := s.mgmt.index + 1
      capture := (readByte s).2
      transfer := afterRead acknowledged s.mgmt } } := by
    rw [readData, if_neg (by simp [called])]
  generalize hb : (readByte s).1 = byte at form
  rw [form]
  cases interface : s.mgmt.interface with
  | undetermined => exact absurd interface locked
  | fourWire =>
    have drive : driveRead byte s.mgmt = { s.mgmt with mdo := some byte } := by simp only [driveRead, interface]
    rw [drive]
    refine ⟨?_, ⟨fun _ => by rw [hb], fun i2c => by rw [interface] at i2c; cases i2c⟩, rfl, rfl, rfl, rfl, rfl⟩
    rw [← drive, ← form]
    rfl
  | i2c =>
    have drive : driveRead byte s.mgmt = { s.mgmt with sdaData := some byte } := by simp only [driveRead, interface]
    rw [drive]
    refine ⟨?_, ⟨fun wire => by (rw [interface] at wire; cases wire), fun _ => by rw [hb]⟩, rfl, rfl, rfl, rfl, rfl⟩
    rw [← drive, ← form]
    rfl

theorem readByte_fresh (fresh : ∀ c, s.mgmt.capture = some c → c.next ≠ s.mgmt.index) :
    readByte s = (regByte s s.mgmt.index, captureOf s s.mgmt.index) := by
  unfold readByte
  cases capture : s.mgmt.capture with
  | none => rfl
  | some c => exact if_neg (fresh c capture)

theorem readByte_captured {c : Capture} (capture : s.mgmt.capture = some c) (next : c.next = s.mgmt.index) :
    readByte s = (c.rest.setWidth 8, restOfCapture c) := by
  unfold readByte
  rw [capture]
  exact if_pos next

theorem captureOf_lowest {a : BitVec 16} {r : Row} (found : rowAt a = some r) (lowest : r.start = a.toNat)
    (wide : 1 < r.width) : captureOf s a =
      some ⟨a + 1, BitVec.ofNat 16 (r.start + r.width), BitVec.ofNat 24 (fieldValue s r.field / 256)⟩ := by
  unfold captureOf
  rw [found]
  exact if_pos ⟨lowest, wide⟩

/-- A field of three bytes has one more byte after its second. -/
theorem restOfCapture_three {a : BitVec 16} {rest : BitVec 24} :
    restOfCapture ⟨a + 1, BitVec.ofNat 16 (a.toNat + 3), rest⟩ =
      some ⟨a + 2, BitVec.ofNat 16 (a.toNat + 3), rest >>> 8⟩ := by
  have stop : BitVec.ofNat 16 (a.toNat + 3) = a + 3 := by bv_omega
  have more : a + 1 + 1 ≠ BitVec.ofNat 16 (a.toNat + 3) := by rw [stop]; bv_omega
  have next : a + 1 + 1 = a + 2 := by bv_omega
  exact (if_neg more).trans (by rw [next])

theorem second_byte (v : Nat) : (BitVec.ofNat 24 (v / 256)).setWidth 8 = BitVec.ofNat 8 (v / 256) := by
  apply BitVec.eq_of_toNat_eq
  simp only [BitVec.toNat_setWidth, BitVec.toNat_ofNat]
  omega

theorem third_byte (v : Nat) : (BitVec.ofNat 24 (v / 256) >>> 8).setWidth 8 = BitVec.ofNat 8 (v / 65536) := by
  apply BitVec.eq_of_toNat_eq
  simp only [BitVec.toNat_setWidth, BitVec.toNat_ushiftRight, BitVec.toNat_ofNat, Nat.shiftRight_eq_div_pow]
  omega

/-- The capture's next byte, read on: it is the one shown, the rest stays captured, and the read goes on as it stood. -/
theorem read_captured {c : Capture} (locked : u.mgmt.interface ≠ .undetermined) (reading : u.mgmt.transfer = .read)
    (capture : u.mgmt.capture = some c) (next : c.next = u.mgmt.index) :
    ∃ v, exec (.registerRead acknowledged) u = .next v ∧ Shows u.mgmt.interface (c.rest.setWidth 8) v ∧
      v.mgmt.index = u.mgmt.index + 1 ∧ v.mgmt.interface = u.mgmt.interface ∧ v.mgmt.capture = restOfCapture c ∧
      v.mgmt.transfer = afterRead acknowledged u.mgmt := by
  have read := readOf_readData (acknowledged := acknowledged) locked reading
  have byte := readByte_captured capture next
  exact ⟨_, read.exec, by simpa only [byte] using read.shows, read.index, read.interface,
    by rw [read.capture, byte], read.transfer⟩

theorem afterRead_on {m : Mgmt} (on : ¬(m.interface = .i2c ∧ acknowledged = false)) :
    afterRead acknowledged m = .read := by
  rw [afterRead, if_neg on]

/-- Settles O49: the first byte by the interface in use, the index bytes where they are called for, and a field of more
than one byte by its capture. -/
theorem managementReads : Obligations.ManagementReads := by
  unfold Obligations.ManagementReads
  intro s m names begun frame transaction shown loaded
  have hubNamed {address} (named : names address) : namesHub s.mgmt.maddr address = true := (namesHub_iff _ _).mpr named
  have unnamed {address} (other : ¬names address) : ¬namesHub m.maddr address = true :=
    fun named => other ((namesHub_iff _ _).mp named)
  refine ⟨fun undetermined byte => ⟨⟨?_, ?_⟩, ?_, ?_, ?_⟩, fun wire byte => ⟨⟨?_, ?_⟩, ?_, ?_⟩,
    fun i2c byte => ⟨?_, ?_, ?_⟩, ?_, ?_, ?_, ?_, ?_, ?_⟩
  · rintro rfl
    exact congrArg Host.Outcome.next (lock_frame undetermined (.inl rfl))
  · rintro rfl
    exact congrArg Host.Outcome.next (lock_frame undetermined (.inr rfl))
  · intro named
    refine congrArg Host.Outcome.next ((lock_transaction undetermined (hubNamed named)).trans ?_)
    have hub := hubNamed named
    simp only [updMgmt, afterAddress_named hub]
    rfl
  · intro write read
    exact congrArg Host.Outcome.next (lock_frame_other undetermined (not_or.mpr ⟨write, read⟩))
  · intro other
    exact congrArg Host.Outcome.next (lock_transaction_other undetermined (unnamed other))
  · rintro rfl
    exact congrArg Host.Outcome.next (frame_begins wire)
  · rintro rfl
    exact congrArg Host.Outcome.next (frame_begins wire)
  · exact congrArg Host.Outcome.next (transaction_ignored wire)
  · intro write read
    refine congrArg Host.Outcome.next ((frame_begins wire).trans ?_)
    simp only [updMgmt, afterCommandByte_other write read]
    rfl
  · intro named
    refine congrArg Host.Outcome.next ((transaction_begins i2c).trans ?_)
    have hub := hubNamed named
    simp only [updMgmt, afterAddress_named hub, hub]
    rfl
  · exact congrArg Host.Outcome.next (frame_ignored i2c)
  · intro other
    have not_ : namesHub s.mgmt.maddr byte = false := Bool.eq_false_iff.mpr (unnamed other)
    refine congrArg Host.Outcome.next ((transaction_begins i2c).trans ?_)
    simp only [updMgmt, afterAddress_other not_, not_]
    rfl
  · exact fun locked calls b => congrArg Host.Outcome.next (loadIndex_write locked calls)
  · exact fun locked calls b => congrArg Host.Outcome.next (loadIndex_read locked calls)
  · exact fun uncalled b => congrArg Host.Outcome.next (loadIndex_uncalled uncalled)
  · exact fun uncalled _ => congrArg Host.Outcome.next (readData_uncalled uncalled)
  · exact fun outside => ⟨fun b => ⟨congrArg Host.Outcome.next (registerWrite_outside outside),
      congrArg Host.Outcome.next (stagedTableWrite_outside outside),
      congrArg Host.Outcome.next (alertLatchClear_outside outside),
      congrArg Host.Outcome.next (alertMaskWrite_outside outside),
      congrArg Host.Outcome.next (recordClear_outside outside), invalidCommand_outside outside⟩,
      commands_outside outside⟩
  · intro locked reading fresh last i
    have read := readOf_readData (acknowledged := i) locked reading
    have byte := readByte_fresh fresh
    have showsByte : Shows s.mgmt.interface (regByte s s.mgmt.index) (readData i s) := by
      simpa only [byte] using read.shows
    refine ⟨_, read.exec, showsByte, read.index, read.transfer, read.frame, ?_⟩
    intro r found lowest width notLast j u same
    have capture : u.mgmt.capture = captureOf s s.mgmt.index := by rw [same, read.capture, byte]
    rw [captureOf_lowest found lowest (by omega)] at capture
    have interface : u.mgmt.interface = s.mgmt.interface := by rw [same, read.interface]
    obtain ⟨v, runs, shows, index, interface', capture', transfer⟩ := read_captured (acknowledged := j)
      (by rw [interface]; exact locked) (by rw [same, read.transfer]; exact afterRead_on notLast) capture
      (by rw [same, read.index])
    rw [interface, second_byte] at shows
    have indexTwo : v.mgmt.index = s.mgmt.index + 2 := by
      rw [index, same, read.index]
      bv_omega
    refine ⟨v, runs, shows, indexTwo, ?_⟩
    intro three notLast' k x same'
    rw [lowest, three, restOfCapture_three] at capture'
    obtain ⟨y, runs', shows', index', -⟩ := read_captured (acknowledged := k) (u := x)
      (by rw [same', interface', interface]; exact locked)
      (by
        rw [same', transfer]
        exact afterRead_on (by rw [interface]; exact notLast'))
      (by rw [same', capture'])
      (by rw [same', indexTwo])
    rw [same', interface', interface, third_byte] at shows'
    have indexThree : y.mgmt.index = s.mgmt.index + 3 := by
      rw [index', same', indexTwo]
      bv_omega
    exact ⟨y, runs', shows', indexThree⟩

end Sys2Proof.Machine
end

section
/-! PROOFS. How commands are judged, CUTOVER, the commands on ports, and maintenance (O53, O54). -/

/- One theorem at a time, as in the laws above. -/
set_option Elab.async false

namespace Sys2Proof.Machine
variable {s t : State} {h : HostNo} {code : Byte} {judge : State → Verdict}

/-! ### The judging of a command (R180) -/

/-- `s` with a command turned away while another is in progress (R180). -/
def commandTurned (s : State) : State := { s with mgmt := wrote s.mgmt.code true (refusalLatched s.mgmt) }

theorem issue_busy (at_ : atCommand s) (busy : s.mgmt.status = .busy) : issue code judge s = commandTurned s := by
  have turned : judgeCommand code judge s = (s, true) := if_pos busy
  unfold issue
  rw [if_pos (fieldAt_command s at_), writeData_refused _ s s at_.1 turned rfl rfl, regByte_command s at_]
  rfl

/-- A command refused with nothing changed by its judging. -/
theorem issue_denied (at_ : atCommand s) (free : s.mgmt.status ≠ .busy) (denied : judge s = .refuse s) :
    issue code judge s = commandRefused code s s :=
  issue_refused code judge s s at_ free denied rfl rfl

theorem commands_busy (at_ : atCommand s) (busy : s.mgmt.status = .busy) : ∀ c code, commandCode c = some code →
    exec c s = .next (if c ∈ [.releaseCommand, .maintEnter, .maintExit, .poolClear] then commandTurned s
      else settle (commandTurned s)) := by
  intro c code isCommand
  have settles {judge : State → Verdict} {code : Byte} : Host.Outcome.next (φ := Fault) (ρ := Refusal)
      (settle (issue code judge s)) = .next (settle (commandTurned s)) := by rw [issue_busy at_ busy]
  have stands {judge : State → Verdict} {code : Byte} : Host.Outcome.next (φ := Fault) (ρ := Refusal)
      (issue code judge s) = .next (commandTurned s) := by rw [issue_busy at_ busy]
  cases c with
  | cutover => exact settles
  | fenceCommand => exact settles
  | releaseCommand => exact stands
  | hubReset => exact settles
  | clearLost => exact settles
  | diagRead => exact settles
  | diagWrite => exact settles
  | maintEnter => exact stands
  | maintExit => exact stands
  | poolClear => exact stands
  | _ => exact absurd isCommand (by simp [commandCode])

theorem invalidCommand_eq (unlisted : isListedCommand code = false) :
    exec (.invalidCommand code) s = .next (issue code judgeInvalid s) := by
  change execInvalidCommand code s = _
  rw [execInvalidCommand, if_neg (by simp [unlisted])]

/-- Settles O53: a busy register turns every command away; CUTOVER by its three judgements. -/
theorem commandsJudged : Obligations.CommandsJudged := by
  unfold Obligations.CommandsJudged
  intro s at_ turned
  refine ⟨fun busy => commands_busy at_ busy, fun code unlisted => ⟨fun busy => ?_, fun free => ?_⟩, fun free => ?_⟩
  · rw [invalidCommand_eq unlisted, issue_busy at_ busy]
    rfl
  · rw [invalidCommand_eq unlisted, issue_denied (judge := judgeInvalid) at_ free rfl]
  intro running
  have unlocked (idle : ¬running) : locks s.region.status = false :=
    (Bool.not_eq_true _).mp (mt locks_eq_true_iff.mp idle)
  have cutover {x : State} (e : issue 0x01 judgeCutover s = x) : exec .cutover s = .next (settle x) :=
    congrArg (fun y => Host.Outcome.next (settle y)) e
  refine ⟨fun denied => cutover (issue_denied at_ free ?_),
    fun run idle invalid => cutover (issue_cutover_failed at_ free run (unlocked idle) invalid),
    fun run idle valid => cutover (issue_cutover_accepted at_ free run (unlocked idle) valid)⟩
  unfold judgeCutover
  by_cases init : s.hub = .init
  · rw [if_pos init]
  · rw [if_neg init, if_pos (locks_eq_true_iff.mpr (denied.resolve_left init))]

/-! ### FENCE and RELEASE (R37, R38) -/

theorem operandPort_of (names : s.mgmt.portOperand.toNat = h.val) : operandPort s = some h := by
  have port : s.mgmt.portOperand.toNat < 4 := by omega
  rw [operandPort, dif_pos port]
  exact congrArg some (Fin.ext names)

theorem operandPort_none (above : 4 ≤ s.mgmt.portOperand.toNat) : operandPort s = none :=
  dif_neg (by omega)

theorem judgeFence_named (names : s.mgmt.portOperand.toNat = h.val) :
    judgeFence s = if isAdmitted s h then .finish (startFence h .command s) else .refuse s := by
  simp only [judgeFence, operandPort_of names]

theorem judgeFence_unnamed (above : 4 ≤ s.mgmt.portOperand.toNat) : judgeFence s = .refuse s := by
  simp only [judgeFence, operandPort_none above]

theorem judgeRelease_named (names : s.mgmt.portOperand.toNat = h.val) : judgeRelease s =
    if portState s h = .fenced ∧ s.hub ≠ .init then .finish (setPortState h .offline s) else .refuse s := by
  simp only [judgeRelease, operandPort_of names]

theorem judgeRelease_unnamed (above : 4 ≤ s.mgmt.portOperand.toNat) : judgeRelease s = .refuse s := by
  simp only [judgeRelease, operandPort_none above]

/-- A fence of an admitted port touches neither the interface nor the index. -/
theorem startFence_wire {reason : FenceReason} (admitted : isAdmitted s h = true) :
    (startFence h reason s).mgmt.interface = s.mgmt.interface ∧ (startFence h reason s).mgmt.index = s.mgmt.index := by
  obtain ⟨-, -, -, -, mgmt, -⟩ := fenceStart h reason s admitted
  rw [mgmt]
  exact ⟨rfl, rfl⟩

/-! ### Maintenance (R190, R191) -/

theorem quiet_iff : (s.hub = .run ∧ hosts.all (fun h => portState s h = .offline ∨ portState s h = .fenced) = true) ↔
    s.hub = .run ∧ ∀ h, portState s h = .offline ∨ portState s h = .fenced := by
  refine and_congr_right fun _ => ?_
  simp only [List.all_eq_true, decide_eq_true_eq]
  exact ⟨fun all h => all h (mem_hosts h), fun all h _ => all h⟩

/-- The memory as a POOL_CLEAR leaves it at its beginning. -/
theorem beginClear_spec : ∃ t, beginClear s = t ∧ t.mem.clearing = true ∧
    t.mem.wbuf = s.mem.wbuf.filter (fun e => e.draining) ∧ t.mem.claims = s.mem.claims ∧
    t.mem.reads = s.mem.reads ∧ t.mem.record = s.mem.record ∧ { t with mem := s.mem } = s ∧
    (s.mem.port = .idle → t.mem.port = .rewrite ∧ ∀ n, poolLine t.mem n = 0 ∧ condOf t.mem n = ⟨false, none⟩) ∧
    (s.mem.port ≠ .idle → t.mem.port = s.mem.port ∧ t.mem.pool = s.mem.pool ∧ t.mem.conds = s.mem.conds) := by
  by_cases idle : s.mem.port = .idle
  · have begins : beginClear s = { s with mem := { s.mem with
        clearing := true, wbuf := s.mem.wbuf.filter (fun e => e.draining), port := .rewrite, pool := [], conds := [] } } := by
      rw [beginClear, if_pos idle, freePort_rewrite rfl]
    rw [begins]
    exact ⟨_, rfl, rfl, rfl, rfl, rfl, rfl, rfl, fun _ => ⟨rfl, fun n => read_cleared rfl rfl n⟩,
      fun held => absurd idle held⟩
  · rw [beginClear, if_neg idle]
    exact ⟨_, rfl, rfl, rfl, rfl, rfl, rfl, rfl, fun free => absurd free idle, fun _ => ⟨rfl, rfl, rfl⟩⟩

/-- Settles O54: each command by the case of its judging. -/
theorem portAndMaintenanceCommands : Obligations.PortAndMaintenanceCommands := by
  unfold Obligations.PortAndMaintenanceCommands
  refine ⟨fun s at_ free => ?_, fun s => ⟨fun clearing port => ?_, fun none_ => ?_⟩⟩
  · have settles {judge : State → Verdict} {code : Byte} {x : State} (e : issue code judge s = x) :
        Host.Outcome.next (φ := Fault) (ρ := Refusal) (settle (issue code judge s)) = .next (settle x) := by rw [e]
    have stands {judge : State → Verdict} {code : Byte} {x : State} (e : issue code judge s = x) :
        Host.Outcome.next (φ := Fault) (ρ := Refusal) (issue code judge s) = .next x := by rw [e]
    refine ⟨fun h names => ⟨fun admitted => ?_, fun other => ?_, fun fenced run => ?_, fun other => ?_⟩,
      fun above => ⟨?_, ?_⟩, ⟨fun quiet => ?_, fun busy => ?_⟩, fun maint => ?_, fun other => ?_, fun maint => ?_,
      fun other => ?_⟩
    · obtain ⟨interface, index⟩ := startFence_wire (reason := .command) admitted
      exact settles (issue_finished _ _ _ _ at_ free
        ((judgeFence_named names).trans (if_pos admitted)) interface index)
    · exact settles (issue_denied at_ free ((judgeFence_named names).trans (if_neg (by simp [other]))))
    · exact stands (issue_finished _ _ _ (setPortState h .offline s) at_ free
        ((judgeRelease_named names).trans (if_pos ⟨fenced, run⟩)) rfl rfl)
    · exact stands (issue_denied at_ free ((judgeRelease_named names).trans (if_neg other)))
    · exact settles (issue_denied at_ free (judgeFence_unnamed above))
    · exact stands (issue_denied at_ free (judgeRelease_unnamed above))
    · exact stands (issue_finished _ _ _ { s with hub := .maint } at_ free (if_pos (quiet_iff.mpr quiet)) rfl rfl)
    · exact stands (issue_denied at_ free (if_neg (fun quiet => busy (quiet_iff.mp quiet))))
    · exact stands (issue_finished _ _ _ { s with hub := .run } at_ free (if_pos maint) rfl rfl)
    · exact stands (issue_denied at_ free (if_neg other))
    · obtain ⟨t, begins, clearing, wbuf, claims, reads, record, frame, rest⟩ := beginClear_spec (s := s)
      have mgmt : t.mgmt = s.mgmt := (congrArg State.mgmt frame :)
      exact ⟨t, stands (issue_started _ _ _ t at_ free ((if_pos maint).trans (congrArg Verdict.start begins))
        (by rw [mgmt]) (by rw [mgmt])), clearing, wbuf, claims, reads, record, frame, rest⟩
    · exact stands (issue_denied at_ free (if_neg other))
  · exact congrArg (fun x => Host.Outcome.next (settle x)) (if_pos ⟨clearing, port⟩)
  · exact congrArg (fun x => Host.Outcome.next (settle x)) (if_neg none_)

end Sys2Proof.Machine
end

section
/-! PROOFS. HUB_RESET and its steps (O55). -/

/- One theorem at a time, as in the laws above. -/
set_option Elab.async false

namespace Sys2Proof.Machine
variable {s t : State} {h : HostNo}

/-! ### The beginning of a hub reset (R23, R182) -/

/-- What the notice of a hub reset makes of a link interface: an ONLINE port's outbound queue holds the notice alone. -/
def noticedLink (s : State) (h : HostNo) : Hli :=
  if portState s h = .online then { hliOf s h with
    outbound := if (hliOf s h).linkUp then [.notice .hubReset 0 s.region.epoch] else [] }
  else hliOf s h

theorem place_frame {m : HubMsg} : { place h m s with hli := s.hli } = s := by
  unfold place
  split
  · rfl
  · split <;> rfl

theorem noticeReset_frame : { noticeReset s h with hli := s.hli } = s := by
  unfold noticeReset
  split
  · exact congrArg (fun x : State => { x with hli := s.hli })
      (place_frame (s := updHli s h (fun x => { x with outbound := [] })))
  · rfl

theorem hliOf_noticeReset (p : HostNo) :
    hliOf (noticeReset s h) p = if h = p then noticedLink s p else hliOf s p := by
  unfold noticeReset noticedLink
  by_cases same : h = p
  · subst same
    by_cases online : portState s h = .online
    · have placed : isPlaced (updHli s h (fun x => { x with outbound := [] })) h (.notice .hubReset 0 s.region.epoch) =
          (hliOf s h).linkUp := by simp [isPlaced, online]
      rw [if_pos online, if_pos rfl, if_pos online, hliOf_place, placed]
      cases up : (hliOf s h).linkUp <;> simp
    · simp [online]
  · by_cases online : portState s h = .online
    · rw [if_pos online, if_neg same, hliOf_place, if_neg (by simp [same]), hliOf_updHli, if_neg same]
    · rw [if_neg online, if_neg same]

/-- The notices of a hub reset, one after another. -/
theorem noticeResets_spec (l : List HostNo) (once : l.Nodup) : ∀ s : State,
    { l.foldl noticeReset s with hli := s.hli } = s ∧
      ∀ p, hliOf (l.foldl noticeReset s) p = if p ∈ l then noticedLink s p else hliOf s p := by
  induction l with
  | nil => exact fun s => ⟨rfl, fun p => by simp⟩
  | cons h l ih =>
    intro s
    obtain ⟨fresh, once⟩ := List.nodup_cons.mp once
    obtain ⟨frame, links⟩ := ih once (noticeReset s h)
    have head := noticeReset_frame (s := s) (h := h)
    have ports : (noticeReset s h).ports = s.ports := (congrArg State.ports head :)
    have region : (noticeReset s h).region = s.region := (congrArg State.region head :)
    refine ⟨(congrArg (fun x : State => { x with hli := s.hli }) frame).trans head, fun p => ?_⟩
    rw [List.foldl_cons, links p]
    by_cases same : h = p
    · subst same
      rw [if_neg fresh, if_pos (by simp), hliOf_noticeReset, if_pos rfl]
    · have link : hliOf (noticeReset s h) p = hliOf s p := by rw [hliOf_noticeReset, if_neg same]
      have noticed : noticedLink (noticeReset s h) p = noticedLink s p := by
        have state : portState (noticeReset s h) p = portState s p := by rw [portState, portState, portOf, portOf, ports]
        unfold noticedLink
        rw [state, link, region]
      have among : p ∈ h :: l ↔ p ∈ l := by simp [Ne.symm same]
      simp only [among, noticed, link]

/-- `s` with the intake stopped and the drain step begun. -/
def resetBegun (s : State) : State :=
  { s with resetPhase := .drain, hli := s.hli.map (fun x => { x with intakeStopped := true, linkFell := false }) }

/-- `x` with the waiting reads dropped and the holds they had set in `s` removed. -/
def readsDropped (s x : State) : State :=
  { x with mem := { x.mem with
    reads := []
    wbuf := x.mem.wbuf.map (fun e => { e with held := e.held && holdStays s e }) } }

theorem beginReset_eq : beginReset s = readsDropped s (hosts.foldl noticeReset (resetBegun s)) := by
  simp only [beginReset, readsDropped, resetBegun]

theorem hliOf_resetBegun (h : HostNo) :
    hliOf (resetBegun s) h = { hliOf s h with intakeStopped := true, linkFell := false } := by
  simp [hliOf, resetBegun]

theorem noticedLink_resetBegun (h : HostNo) :
    noticedLink (resetBegun s) h = { noticedLink s h with intakeStopped := true, linkFell := false } := by
  unfold noticedLink
  rw [hliOf_resetBegun]
  by_cases online : portState s h = .online
  · rw [if_pos online]
    exact if_pos online
  · rw [if_neg online]
    exact if_neg online

theorem eq_of_hli_frame {x y : State} (frame : { x with hli := y.hli } = y) : x = { y with hli := x.hli } := by
  cases x
  cases y
  cases frame
  rfl

/-- The interfaces and the write buffer as the beginning of a hub reset leaves them; nothing else changes. -/
theorem beginReset_spec : ∃ links : Vector Hli 4,
    beginReset s = readsDropped s { s with resetPhase := .drain, hli := links } ∧
    ∀ h : HostNo, links[h] = { noticedLink s h with intakeStopped := true, linkFell := false } := by
  obtain ⟨frame, reads⟩ := noticeResets_spec hosts nodup_hosts (resetBegun s)
  refine ⟨(hosts.foldl noticeReset (resetBegun s)).hli,
    beginReset_eq.trans (congrArg (readsDropped s) (eq_of_hli_frame frame)), fun h => ?_⟩
  exact (reads h).trans ((if_pos (mem_hosts h)).trans (noticedLink_resetBegun h))

theorem holdStays_read {u : TrackerNo} {tr : Tracker} (port : s.mem.port = .read u) (on : trackerOf s u = some tr)
    (e : WbEntry) : holdStays s e = decide (e.line = tr.line) := by
  simp only [holdStays, port, on]
  exact decide_eq_decide.mpr eq_comm

theorem holdStays_other (port : ∀ u, s.mem.port ≠ .read u) (e : WbEntry) : holdStays s e = false := by
  unfold holdStays
  split
  · next u read => exact absurd read (port u)
  · rfl

/-! ### The end of the drain step (R39, R74, R182) -/

theorem portOf_resetBlocks (h : HostNo) :
    portOf (resetBlocks s) h = { portOf s h with state := .offline, sweepDone := false } :=
  Vector.getElem_map ..

theorem hliOf_resetBlocks (h : HostNo) : hliOf (resetBlocks s) h = emptyHli (hliOf s h) :=
  Vector.getElem_map ..

theorem isFreed_freeWay (x : Way) : isFreed (freeWay x) := ⟨rfl, rfl, rfl, rfl⟩

theorem abandoned_iff (c : CutoverStatus) : (if locks c then CutoverStatus.abandoned else c) =
    if c = .pending ∨ c = .draining ∨ c = .recalling then .abandoned else c :=
  if_congr locks_eq_true_iff rfl rfl

/-! ### The links (R1, R182) -/

theorem split_hosts : ∀ h : HostNo, hosts = hosts.filter (· < h) ++ h :: hosts.filter (h < ·) := by
  decide

theorem find_hosts {P : HostNo → Bool} (passes : P h = true) (lower : ∀ p, p < h → ¬P p = true) :
    hosts.find? P = some h := by
  rw [split_hosts h]
  exact find_among passes (fun p among => lower p (by simpa using (List.mem_filter.mp among).2))

theorem linkDue_iff : linkDue s h = true ↔ (hliOf s h).intakeStopped = true ∧
    ((hliOf s h).linkFell = true ∨ (hliOf s h).linkUp = false ∨ (hliOf s h).outbound = []) := by
  simp only [linkDue, Bool.and_eq_true, Bool.or_eq_true, decide_eq_true_eq, List.isEmpty_iff, or_assoc]

/-- Settles O55: the beginning, the end of the drain step, and the links one after another. -/
theorem hubResetSteps : Obligations.HubResetSteps := by
  unfold Obligations.HubResetSteps
  refine ⟨fun s at_ free => ⟨fun init => ?_, fun run => ?_⟩, fun s => ⟨fun held => ?_, fun empty idle => ?_⟩,
    fun s => ?_⟩
  · exact congrArg (fun x => Host.Outcome.next (settle x)) (issue_denied at_ free (if_pos init))
  · obtain ⟨links, form, reads⟩ := beginReset_spec (s := s)
    have started := issue_started 0x04 judgeHubReset s _ at_ free ((if_neg run).trans (congrArg Verdict.start form))
      rfl rfl
    refine ⟨_, congrArg (fun x => Host.Outcome.next (settle x)) started, rfl, fun h online => (reads h).trans ?_,
      fun h other => (reads h).trans ?_, rfl, fun u tr port on => ?_, fun port => ?_, rfl⟩
    · rw [noticedLink, if_pos online]
    · rw [noticedLink, if_neg other]
    · exact List.map_congr_left fun e _ => by rw [holdStays_read port on]
    · exact List.map_congr_left fun e _ => by rw [holdStays_other port, Bool.and_false]
  · exact if_neg (fun both => held.elim (fun some_ => some_ both.1) (fun busy => busy both.2))
  · refine ⟨resetBlocks s, if_pos ⟨empty, idle⟩, rfl, rfl, rfl, ?_, fun h => ?_, fun h => ?_, fun k w => ?_, fun k => ?_,
      rfl, rfl, rfl, rfl, rfl, ?_, rfl, rfl, rfl⟩
    · simp only [resetBlocks, empty]
    · exact portOf_resetBlocks h
    · exact hliOf_resetBlocks h
    · have way : wayOf (resetBlocks s) k w = freeWay (wayOf s k w) := by
        simp [wayOf, setOf_resetBlocks, freeSet]
      rw [way]
      exact isFreed_freeWay _
    · rw [setOf_resetBlocks]
      rfl
    · simp only [resetBlocks, abandoned_iff]
  · intro gone
    refine ⟨fun h stopped goes lower => ?_, fun waits some_ => ?_, fun none_ => ?_⟩
    · have due : dueLinks s = some (takeLinkDown h s) := by
        unfold dueLinks
        rw [find_hosts (linkDue_iff.mpr ⟨stopped, goes⟩)
          (fun p below isDue => lower p below (linkDue_iff.mp isDue).1 (linkDue_iff.mp isDue).2)]
      refine ⟨_, due, fun fell => ?_, fun stands => ?_, ?_, rfl⟩
      · rw [takeLinkDown, hliOf_updHli, if_pos rfl, if_pos fell]
      · rw [takeLinkDown, hliOf_updHli, if_pos rfl, if_neg (by simp [stands])]
      · exact fun p other => (hliOf_updHli s h p _).trans (if_neg (Ne.symm other))
    · have nobody : hosts.find? (linkDue s) = none := List.find?_eq_none.mpr fun p _ isDue =>
        waits p (linkDue_iff.mp isDue).1 (linkDue_iff.mp isDue).2
      obtain ⟨h, stopped⟩ := some_
      have not_all : ¬hosts.all (fun h => (hliOf s h).intakeStopped = false) = true := fun all => by
        have := List.all_eq_true.mp all h (mem_hosts h)
        simp [stopped] at this
      simp only [dueLinks, nobody, if_neg not_all]
    · have nobody : hosts.find? (linkDue s) = none := List.find?_eq_none.mpr fun p _ isDue => by
        have := (linkDue_iff.mp isDue).1
        simp [none_ p] at this
      have all : hosts.all (fun h => (hliOf s h).intakeStopped = false) = true :=
        List.all_eq_true.mpr fun h _ => by simp [none_ h]
      simp only [dueLinks, nobody, if_pos all]
      rfl

end Sys2Proof.Machine
end

section
/-! PROOFS. CLEAR_LOST and the diagnostic commands (O56, O57). -/

/- One theorem at a time, as in the laws above. -/
set_option Elab.async false

namespace Sys2Proof.Machine
variable {s x y : State} {h : HostNo} {k : SetNo} {w : WayNo} {line : LineNo}

/-! ### The interface and the index stand when errors are handed over (R159) -/

theorem freeTracker_mgmt (t : TrackerNo) (s : State) : (freeTracker t s).mgmt = s.mgmt := by
  cases on : trackerOf s t with
  | none => rw [freeTracker_of_none on]
  | some tr => exact (freeTracker_frame on).2.2.2

theorem reparkNow_mgmt (t : TrackerNo) (s : State) : (reparkNow t s).mgmt = s.mgmt := by
  unfold reparkNow
  split
  · rfl
  · split
    · exact freeTracker_mgmt ..
    · exact freeTracker_mgmt ..

theorem giveUpReservation_mgmt (t : TrackerNo) (s : State) : (giveUpReservation t s).mgmt = s.mgmt := by
  unfold giveUpReservation
  split
  · rfl
  · split
    · rfl
    · split <;> rfl

theorem release_mgmt (t : TrackerNo) (s : State) : (release t s).mgmt = s.mgmt := by
  have gives := giveUpReservation_mgmt t s
  unfold release
  split
  · rfl
  · dsimp only
    split
    · rw [reparkNow_mgmt]
      exact gives
    · exact (updTracker_mgmt ..).trans gives

/-- A fold of steps that leave the Management Port alone leaves it alone. -/
theorem foldl_mgmt {α : Type} {f : State → α → State} (same : ∀ s a, (f s a).mgmt = s.mgmt) (l : List α) :
    ∀ s, (l.foldl f s).mgmt = s.mgmt := by
  induction l with
  | nil => exact fun s => rfl
  | cons a l ih => exact fun s => (ih (f s a)).trans (same s a)

theorem closeSet_mgmt (k : SetNo) (s : State) : (closeSet k s).mgmt = s.mgmt := by
  unfold closeSet
  refine (foldl_mgmt (fun s t => release_mgmt t s) _ _).trans ((foldl_mgmt (fun s i => ?_) _ _).trans rfl)
  split
  · split
    · exact updTracker_mgmt ..
    · rfl
  · rfl

/-- The interface and the index are those of `s`. -/
def SameWire (s t : State) : Prop := t.mgmt.interface = s.mgmt.interface ∧ t.mgmt.index = s.mgmt.index

theorem handError_wire (k : SetNo) (reader : Reader) (s : State) (e : WayNo × ParityKind) :
    SameWire s (handError k reader s e) := by
  unfold handError
  dsimp only
  split
  · unfold SameWire
    rw [closeSet_mgmt]
    exact ⟨rfl, rfl⟩
  · exact ⟨rfl, rfl⟩

theorem handErrorFold_wire (k : SetNo) (reader : Reader) (l : List (WayNo × ParityKind)) : ∀ s,
    SameWire s (l.foldl (handError k reader) s) := by
  induction l with
  | nil => exact fun s => ⟨rfl, rfl⟩
  | cons e l ih =>
    intro s
    obtain ⟨interface, index⟩ := ih (handError k reader s e)
    obtain ⟨interface', index'⟩ := handError_wire k reader s e
    exact ⟨interface.trans interface', index.trans index'⟩

theorem handErrors_wire (k : SetNo) (ways : List WayNo) (reader : Reader) (s : State) :
    SameWire s (handErrors k ways reader s) :=
  handErrorFold_wire ..

/-! ### A way made FREE and moved to least recent (R55, R60, R69) -/

/-- Everything that freeing a way and moving it does. -/
theorem freedLeast_spec (k : SetNo) (w : WayNo) (s : State) :
    isFreed (wayOf (touchLeast k w (putFree k w s)) k w) ∧
    (∀ i v, (i, v) ≠ (k, w) → wayOf (touchLeast k w (putFree k w s)) i v = wayOf s i v) ∧
    (let together := allWays.filter (fun v => v = w ∨ (k, v) ∈ s.dir.freed)
     (setOf (touchLeast k w (putFree k w s)) k).order = together ++ (setOf s k).order.filter (· ∉ together)) ∧
    (∀ i, i ≠ k → (setOf (touchLeast k w (putFree k w s)) i).order = (setOf s i).order) ∧
    (touchLeast k w (putFree k w s)).dir.freed = s.dir.freed ++ [(k, w)] ∧
    (touchLeast k w (putFree k w s)).dir.lostCount = s.dir.lostCount - (if (wayOf s k w).code = 4 then 1 else 0) ∧
    (touchLeast k w (putFree k w s)).dir.lostRecord = s.dir.lostRecord ∧
    { touchLeast k w (putFree k w s) with dir := s.dir } = s := by
  obtain ⟨ways, others, order, frame, record, count, freed⟩ := touchFreed_spec k [w] (putFree k w s)
  have way (i : SetNo) (v : WayNo) : wayOf (touchLeast k w (putFree k w s)) i v =
      if k = i ∧ w = v then freeWay (wayOf s k w) else wayOf s i v := by
    rw [wayOf_touchLeast, wayOf_putFree]
  refine ⟨?_, fun i v other => ?_, ?_, fun i other => ?_, freed, count.trans (lostCount_putFree k w s), record, rfl⟩
  · rw [way, if_pos ⟨rfl, rfl⟩]
    exact isFreed_freeWay _
  · rw [way, if_neg]
    rintro ⟨rfl, rfl⟩
    exact other rfl
  · rw [order_putFree] at order
    have least : touchLeast k w (putFree k w s) = touchFreed k [w] (putFree k w s) := rfl
    rw [least]
    have freedSame : (putFree k w s).dir.freed = s.dir.freed := rfl
    simpa only [List.mem_singleton, freedSame] using order
  · exact (congrArg DirSet.order (others i other)).trans (order_putFree k w i s)

/-! ### CLEAR_LOST (R72) -/

theorem setOf_of_dir (dir : x.dir = y.dir) (j : SetNo) : Machine.setOf x j = Machine.setOf y j := by
  simp only [Machine.setOf, dir]

theorem matchingWay_of_lowest (holds : (checkWay (wayOf s (lineSet line) w) = .good ∨
      checkWay (wayOf s (lineSet line) w) = .stateError) ∧ (wayOf s (lineSet line) w).tag = lineTag line)
    (lower : ∀ v, v < w → ¬((checkWay (wayOf s (lineSet line) v) = .good ∨
      checkWay (wayOf s (lineSet line) v) = .stateError) ∧ (wayOf s (lineSet line) v).tag = lineTag line)) :
    matchingWay s line = some w :=
  matchingWay_of_first holds.1 holds.2 fun v below reads tag => lower v below ⟨reads, tag⟩

theorem clearableWay_some (matching : matchingWay s line = some w)
    (good : checkWay (wayOf s (lineSet line) w) = .good) (lost : (wayOf s (lineSet line) w).code = 4)
    (unbound : (wayOf s (lineSet line) w).binding = none) : clearableWay s line = some w := by
  simp only [clearableWay, matching, good, lost, unbound, and_self, if_true]

theorem clearableWay_other (matching : matchingWay s line = some w)
    (other : ¬(checkWay (wayOf s (lineSet line) w) = .good ∧ (wayOf s (lineSet line) w).code = 4 ∧
      (wayOf s (lineSet line) w).binding = none)) : clearableWay s line = none := by
  simp only [clearableWay, matching, if_neg other]

theorem clearableWay_none (matching : matchingWay s line = none) : clearableWay s line = none := by
  simp only [clearableWay, matching]

theorem operandLine (names : s.mgmt.lineOperand.toNat = line.toNat) : s.mgmt.lineOperand.setWidth 22 = line := by
  apply BitVec.eq_of_toNat_eq
  rw [BitVec.toNat_setWidth, names]
  exact Nat.mod_eq_of_lt line.isLt

section Line
variable (names : s.mgmt.lineOperand.toNat = line.toNat)
include names

theorem operand_legal : ¬4194303 < s.mgmt.lineOperand.toNat := by
  have := line.isLt
  omega

theorem judgeClearLost_closed (closed : isClosed s (lineSet line) = true) : judgeClearLost s = .refuse s := by
  simp only [judgeClearLost, if_neg (operand_legal names), operandLine names, closed, if_true]

theorem judgeClearLost_open (open_ : isClosed s (lineSet line) = false) : judgeClearLost s =
    ((clearableWay s line).map (fun w => Verdict.finish (makeFree (lineSet line) w
      (handErrors (lineSet line) allWays .command s)))).getD
        (.refuse (handErrors (lineSet line) allWays .command s)) := by
  simp only [judgeClearLost, if_neg (operand_legal names), operandLine names, open_, Bool.false_eq_true, if_false]
  cases clearableWay s line <;> rfl

end Line

/-- Settles O56: the operand, the closed set, and in an open set the lowest way that holds the line. -/
theorem clearLostJudged : Obligations.ClearLostJudged := by
  unfold Obligations.ClearLostJudged
  intro line s at_ free k read refused holds
  have clearLost {x : State} (e : issue 0x05 judgeClearLost s = x) : exec .clearLost s = .next (settle x) :=
    congrArg (fun y => Host.Outcome.next (settle y)) e
  have wire : SameWire s read := handErrors_wire ..
  refine ⟨fun above => clearLost (issue_denied at_ free (if_pos above)), fun names =>
    ⟨fun closed => clearLost (issue_denied at_ free (judgeClearLost_closed names closed)), fun open_ => ?_⟩⟩
  have judged := judgeClearLost_open names open_
  have turned (nothing : clearableWay s line = none) : refused read := by
    rw [nothing] at judged
    exact clearLost (issue_refused _ _ _ _ at_ free judged wire.1 wire.2)
  have clean (tags : ∀ v, checkWay (wayOf s k v) ≠ .tagError) : read.dir = s.dir := by
    obtain ⟨record, latch, low, errors⟩ := handErrors_of_no_tag tags .command
    exact (congrArg State.dir errors :).trans rfl
  refine ⟨clean, fun nobody => turned (clearableWay_none (matchingWay_of_no_way fun v reads tag => nobody v ⟨reads, tag⟩)),
    fun w held lower => ?_⟩
  have matching : matchingWay s line = some w := matchingWay_of_lowest held lower
  intro x t
  refine ⟨fun good lost unbound => ⟨?_, fun tags => ?_⟩, fun bad => turned (clearableWay_other matching ?_)⟩
  · rw [clearableWay_some matching good lost unbound] at judged
    exact clearLost (issue_finished _ _ _ _ at_ free judged wire.1 wire.2)
  · have dir := clean tags
    obtain ⟨way, others, order, orders, freed, count, record, frame⟩ := freedLeast_spec k w read
    simp only [wayOf_of_dir dir, setOf_of_dir dir, dir] at others order orders freed count record frame
    refine ⟨way, others, order, orders, freed, ?_, record, frame⟩
    rw [count, if_pos lost]
  · rintro ⟨good, lost, unbound⟩
    rcases bad with error | other | bound
    · rw [good] at error
      cases error
    · exact other lost
    · exact bound unbound

/-! ### The place the window names (R171) -/

theorem diagPlace_of (set : s.mgmt.diag.set.toNat = k.toNat) (way : s.mgmt.diag.way.toNat = w.val) :
    diagPlace s = some (k, w) := by
  have below : s.mgmt.diag.way.toNat < 8 := by omega
  have legal : s.mgmt.diag.set.toNat ≤ 2047 := by
    have := k.isLt
    omega
  have named : s.mgmt.diag.set.setWidth 11 = k := by
    apply BitVec.eq_of_toNat_eq
    rw [BitVec.toNat_setWidth, set]
    exact Nat.mod_eq_of_lt k.isLt
  simp [diagPlace, legal, named, way]

theorem diagPlace_none (out : 2047 < s.mgmt.diag.set.toNat ∨ 7 < s.mgmt.diag.way.toNat) : diagPlace s = none := by
  unfold diagPlace
  dsimp only
  split
  · rw [if_neg (by omega)]
  · rfl

theorem judgeDiagRead_denied
    (denied : s.mgmt.diagEnable = false ∨ 2047 < s.mgmt.diag.set.toNat ∨ 7 < s.mgmt.diag.way.toNat) :
    judgeDiagRead s = .refuse s := by
  rcases denied with off | out
  · exact if_pos off
  · simp only [judgeDiagRead, diagPlace_none out, ite_self]

theorem judgeDiagWrite_denied
    (denied : s.mgmt.diagEnable = false ∨ 2047 < s.mgmt.diag.set.toNat ∨ 7 < s.mgmt.diag.way.toNat) :
    judgeDiagWrite s = .refuse s := by
  rcases denied with off | out
  · exact if_pos off
  · simp only [judgeDiagWrite, diagPlace_none out, ite_self]

/-! ### DIAG_READ (R171) -/

theorem judgeDiagRead_eq (on : s.mgmt.diagEnable = true) (place : diagPlace s = some (k, w)) :
    judgeDiagRead s = .finish (handErrors k [w] .diag (showWay (wayOf s k w) s)) := by
  simp only [judgeDiagRead, on, place, Bool.true_eq_false, if_false]

theorem handErrors_one_good {reader : Reader} (good : checkWay (wayOf s k w) = .notChecked ∨
    checkWay (wayOf s k w) = .good) : handErrors k [w] reader s = s := by
  rcases good with e | e <;> simp [handErrors, errorsIn, e]

theorem handErrors_one_tag {reader : Reader} (error : checkWay (wayOf s k w) = .tagError) :
    handErrors k [w] reader s = handError k reader s (w, .tag) := by
  simp [handErrors, errorsIn, error]

theorem handErrors_one_state {reader : Reader} (error : checkWay (wayOf s k w) = .stateError) :
    handErrors k [w] reader s = handError k reader s (w, .state) := by
  simp [handErrors, errorsIn, error]

/-! ### DIAG_WRITE (R172) -/

theorem mem_members_iff {holders : HostSet} : h ∈ members holders ↔ holders.getLsbD h.val = true := by
  simp [members, hasHost, mem_hosts]

theorem one_member_iff : ∀ holders : HostSet, (members holders).length ≠ 1 ↔ ∀ h, holders ≠ oneHost h := by
  decide

theorem breaksHolders_iff {code : BitVec 3} {holders : HostSet} : breaksHolders code holders = true ↔
    (code = 2 ∧ holders = 0) ∨ (code = 3 ∧ ∀ h, holders ≠ oneHost h) ∨ (code = 4 ∧ holders ≠ 0) := by
  rw [← one_member_iff]
  unfold breaksHolders
  by_cases two : code = 2
  · simp [two]
  · by_cases three : code = 3
    · simp [three]
    · by_cases four : code = 4
      · simp [four]
      · simp only [two, three, four, if_false, false_and, or_false, Bool.false_eq_true]

theorem exists_offline_or_recalled {held offline recalled : HostNo → Prop} {recalling : Prop} :
    (∃ h, held h ∧ (offline h ∨ (recalling ∧ recalled h))) ↔
      (∃ h, held h ∧ offline h) ∨ (recalling ∧ ∃ h, held h ∧ recalled h) := by
  simp only [and_or_left, exists_or, and_left_comm (b := recalling), exists_and_left]

theorem regroup_bad {reserved line other holders sharers offline recalling recalled : Prop} :
    (((((reserved ∨ line) ∨ other) ∨ holders) ∨ (sharers ∧ offline)) ∨ ((recalling ∧ sharers) ∧ recalled)) ↔
      reserved ∨ line ∨ other ∨ holders ∨ (sharers ∧ (offline ∨ (recalling ∧ recalled))) := by
  tauto

/-- The conditions of R172 on what is written, in the words of the claim. -/
theorem diagWriteBad_iff {v : Way} : diagWriteBad s k w v = true ↔
    v.code = 1 ∨ (∃ u tr, trackerOf s u = some tr ∧ tr.line = lineOf v.tag k) ∨
      (∃ u, u ≠ w ∧ (wayOf s k u).code ≠ 0 ∧ (wayOf s k u).tag = v.tag) ∨
      ((v.code = 2 ∧ v.holders = 0) ∨ (v.code = 3 ∧ ∀ h, v.holders ≠ oneHost h) ∨ (v.code = 4 ∧ v.holders ≠ 0)) ∨
      ((v.code = 2 ∨ v.code = 3) ∧ ∃ h : HostNo, v.holders.getLsbD h.val = true ∧
        (portState s h ≠ .online ∨ (s.region.status = .recalling ∧
          recallUnder s.region.staged (lineOf v.tag k) (decide (v.code = 3)) h ≠ none))) := by
  have offline : (members v.holders).any (fun h => portState s h ≠ .online) = true ↔
      ∃ h : HostNo, v.holders.getLsbD h.val = true ∧ portState s h ≠ .online := by
    simp [List.any_eq_true, mem_members_iff]
  have recalled : (members v.holders).any (fun h =>
        (recallUnder s.region.staged (lineOf v.tag k) (v.code = 3) h).isSome) = true ↔
      ∃ h : HostNo, v.holders.getLsbD h.val = true ∧
        recallUnder s.region.staged (lineOf v.tag k) (decide (v.code = 3)) h ≠ none := by
    simp only [List.any_eq_true, mem_members_iff, Option.isSome_iff_ne_none]
  have other : allWays.any (fun u => u ≠ w ∧ (wayOf s k u).code ≠ 0 ∧ (wayOf s k u).tag = v.tag) = true ↔
      ∃ u, u ≠ w ∧ (wayOf s k u).code ≠ 0 ∧ (wayOf s k u).tag = v.tag := by
    simp [List.any_eq_true, mem_allWays]
  simp only [diagWriteBad, breaksRecall, Bool.or_eq_true, Bool.and_eq_true, decide_eq_true_eq, trackerOn_isSome_iff,
    breaksHolders_iff, offline, recalled, other, exists_offline_or_recalled]
  exact regroup_bad

/-- The judging of a DIAG_WRITE at the place named (R172). -/
theorem judgeDiagWrite_eq (on : s.mgmt.diagEnable = true) (place : diagPlace s = some (k, w)) : judgeDiagWrite s =
    if (wayOf s k w).binding.isSome ∨ (wayOf s k w).code = 1 ∨ isClosed s k then .refuse s
    else if s.mgmt.diag.code = 0 then .finish (diagFree k w s)
    else if diagWriteBad s k w (diagWay s.mgmt.diag) then .refuse s
    else .finish (putWay k w (diagWay s.mgmt.diag) s) := by
  simp only [judgeDiagWrite, on, place, Bool.true_eq_false, if_false]
  rfl

/-- Settles O57: the place named, what a read of it shows and hands over, and the conditions of a write. -/
theorem diagnosticCommands : Obligations.DiagnosticCommands := by
  unfold Obligations.DiagnosticCommands
  intro s at_ free d
  have diagRead {x : State} (e : issue 0x06 judgeDiagRead s = x) : exec .diagRead s = .next (settle x) :=
    congrArg (fun y => Host.Outcome.next (settle y)) e
  have diagWrite {x : State} (e : issue 0x07 judgeDiagWrite s = x) : exec .diagWrite s = .next (settle x) :=
    congrArg (fun y => Host.Outcome.next (settle y)) e
  refine ⟨fun denied => ⟨diagRead (issue_denied at_ free (judgeDiagRead_denied denied)),
    diagWrite (issue_denied at_ free (judgeDiagWrite_denied denied))⟩, fun k w on set way => ?_⟩
  have place := diagPlace_of set way
  intro x shown read given line owned breaksR56 bad
  have shows : showWay (wayOf s k w) s = shown := rfl
  have judged := judgeDiagRead_eq on place
  have done {t : State} (reads : handErrors k [w] .diag shown = t) : read t := by
    have wire : SameWire shown t := reads ▸ handErrors_wire ..
    rw [shows, reads] at judged
    exact diagRead (issue_finished _ _ _ _ at_ free judged wire.1 wire.2)
  have write := judgeDiagWrite_eq on place
  have ownedIff : ((wayOf s k w).binding.isSome ∨ (wayOf s k w).code = 1 ∨ isClosed s k) ↔ owned := by
    simp only [owned, x, Option.isSome_iff_ne_none]
  have badIff : diagWriteBad s k w (diagWay s.mgmt.diag) = true ↔ bad := diagWriteBad_iff
  refine ⟨fun good => done (handErrors_one_good good), fun error => done (handErrors_one_tag error),
    fun error => done (handErrors_one_state error), fun isOwned => ?_, fun clear zero => ?_, fun clear other isBad => ?_,
    fun clear other good => ?_⟩
  · exact diagWrite (issue_denied at_ free (write.trans (if_pos (ownedIff.mpr isOwned))))
  · refine diagWrite (issue_finished _ _ _ _ at_ free
      (write.trans ((if_neg (mt ownedIff.mp clear)).trans (if_pos zero))) ?_ ?_)
    · split <;> rfl
    · split <;> rfl
  · exact diagWrite (issue_denied at_ free (write.trans ((if_neg (mt ownedIff.mp clear)).trans ((if_neg other).trans
      (if_pos (badIff.mpr isBad))))))
  · exact diagWrite (issue_finished _ _ _ _ at_ free (write.trans ((if_neg (mt ownedIff.mp clear)).trans
      ((if_neg other).trans (if_neg (mt badIff.mp good))))) rfl rfl)

end Sys2Proof.Machine
end

section
/-! PROOFS. The bytes of an arriving message (O58). -/

/- One theorem at a time, as in the laws above. -/
set_option Elab.async false

namespace Sys2Proof.Machine
variable {h : HostNo} {lane : Lane} {w n : Nat}

/-! ### Bytes (R4) -/

/-- Bit `j` of the number that bytes make, the first byte least significant. -/
theorem getLsbD_ofBytes (l : List Byte) : ∀ j, j < w →
    (ofBytes w l).getLsbD j = (l.getD (j / 8) 0).getLsbD (j % 8) := by
  induction l with
  | nil => intro j below; simp [ofBytes]
  | cons b l ih =>
    intro j below
    have head : ofBytes w (b :: l) = (ofBytes w l <<< 8) ||| b.setWidth w := rfl
    rw [head, BitVec.getLsbD_or, BitVec.getLsbD_shiftLeft, BitVec.getLsbD_setWidth]
    by_cases low : j < 8
    · have byte : j / 8 = 0 := by omega
      have place : j % 8 = j := by omega
      simp [low, below, byte, place]
    · have byte : j / 8 = (j - 8) / 8 + 1 := by omega
      have place : j % 8 = (j - 8) % 8 := by omega
      have above : b.getLsbD j = false := BitVec.getLsbD_of_ge b j (by omega)
      rw [ih (j - 8) (by omega), above, byte, place, List.getD_cons_succ]
      simp [low, below]

theorem length_bytesOf (v : BitVec w) : (bytesOf n v).length = n := by
  simp [bytesOf]

/-- The bytes of a number make the number. -/
theorem ofBytes_bytesOf (v : BitVec w) (whole : w = 8 * n) : ofBytes w (bytesOf n v) = v := by
  apply BitVec.eq_of_getLsbD_eq
  intro j below
  have among : j / 8 < n := by omega
  have place : 8 * (j / 8) + j % 8 = j := by omega
  have byte : (bytesOf n v).getD (j / 8) 0 = v.extractLsb' (8 * (j / 8)) 8 := by
    simp [bytesOf, among]
  rw [getLsbD_ofBytes _ j below, byte, BitVec.getLsbD_extractLsb', place]
  simp [Nat.mod_lt]

/-! ### The header (R4) -/

/-- A field below the highest of an append. -/
theorem extract_low {a b m : Nat} (hi : BitVec a) (lo : BitVec b) (within : n + m ≤ b) :
    (hi ++ lo).extractLsb' n m = lo.extractLsb' n m := by
  apply BitVec.eq_of_getLsbD_eq
  intro j below
  have low : n + j < b := by omega
  simp [BitVec.getLsbD_extractLsb', BitVec.getLsbD_append, low]

/-- The highest field of an append. -/
theorem extract_high {a b : Nat} (hi : BitVec a) (lo : BitVec b) (top : n = b) : (hi ++ lo).extractLsb' n a = hi := by
  subst top
  apply BitVec.eq_of_getLsbD_eq
  intro j below
  simp [BitVec.getLsbD_append, below]

theorem bit_low {a b : Nat} (hi : BitVec a) (lo : BitVec b) (within : n < b) :
    (hi ++ lo).getLsbD n = lo.getLsbD n := by
  rw [BitVec.getLsbD_append, if_pos within]

theorem bit_high {b : Nat} (bit : Bool) (lo : BitVec b) (top : n = b) : (BitVec.ofBool bit ++ lo).getLsbD n = bit := by
  subst top
  rw [BitVec.getLsbD_append]
  simp

/-- No field of a header is lost on the wire (R4). -/
theorem unpackHeader_packHeader (f : HeaderFields) : unpackHeader (packHeader f) = f := by
  simp (disch := omega) only [unpackHeader, packHeader, extract_low, extract_high, bit_low, bit_high,
    BitVec.extractLsb'_eq_self]

/-! ### A whole message (R5) -/

theorem arrivalOf_message {f : HeaderFields} {payload : List Byte} (listed : isUnknownKind lane f = false)
    (whole : payload.length = payloadLength f) :
    arrivalOf h lane (message f payload) = arrivalOfFields h f payload := by
  have header : (bytesOf 12 (packHeader f)).length = 12 := length_bytesOf _
  have front : (message f payload).take 12 = bytesOf 12 (packHeader f) := List.take_left' header
  have rest : (message f payload).drop 12 = payload := List.drop_left' header
  have long : ¬(message f payload).length < 12 := by
    rw [message, List.length_append, header]
    omega
  have fields : unpackHeader (ofBytes 96 (bytesOf 12 (packHeader f))) = f := by
    rw [ofBytes_bytesOf _ (by decide), unpackHeader_packHeader]
  simp only [arrivalOf, if_neg long, front, rest, fields, listed, Bool.false_eq_true, if_false, whole, ne_eq,
    not_true_eq_false]

theorem take_bytes {v : BitVec w} {rest : List Byte} : (bytesOf n v ++ rest).take n = bytesOf n v :=
  List.take_left' (length_bytesOf v)

theorem drop_bytes {v : BitVec w} {rest : List Byte} : (bytesOf n v ++ rest).drop n = rest :=
  List.drop_left' (length_bytesOf v)

theorem ofBytes_word (v : Word64) : ofBytes 64 (bytesOf 8 v) = v := ofBytes_bytesOf v (by decide)

theorem ofBytes_line (d : LineData) : ofBytes 512 (bytesOf 64 d) = d := ofBytes_bytesOf d (by decide)

/-- Settles O58: kind by kind, the header's fields and the payload are those of the command. -/
theorem wireRoundTrip : Obligations.WireRoundTrip := by
  unfold Obligations.WireRoundTrip
  intro c h lane bytes wf from_ sent
  cases c with
  | readShared | readOwn | upgrade | directRead | fenceMessage | releaseMessage | purgeDoneMessage | join | depart =>
    cases from_
    cases sent
    exact arrivalOf_message rfl rfl
  | directWrite h' tag line mask data =>
    cases from_
    cases sent
    refine (arrivalOf_message rfl (by simp [length_bytesOf, payloadLength, headerOfKind])).trans ?_
    change some (Instr.directWrite h' tag line (ofBytes 64 ((bytesOf 8 mask ++ bytesOf 64 data).take 8))
      (ofBytes 512 ((bytesOf 8 mask ++ bytesOf 64 data).drop 8))) = _
    rw [take_bytes, drop_bytes, ofBytes_word, ofBytes_line]
  | atomic h' tag line op word first second =>
    cases from_
    cases sent
    have place : (BitVec.ofNat 3 word.val).toFin = word := by simp
    cases op with
    | fetchAdd =>
      have none_ : second = 0 := of_decide_eq_true wf
      refine (arrivalOf_message rfl (length_bytesOf first)).trans ?_
      change some (Instr.atomic h tag line .fetchAdd (BitVec.ofNat 3 word.val).toFin
        (ofBytes 64 ((bytesOf 8 first).take 8)) 0) = _
      rw [List.take_of_length_le (by simp [length_bytesOf]), ofBytes_word, place, none_]
    | swap =>
      have none_ : second = 0 := of_decide_eq_true wf
      refine (arrivalOf_message rfl (length_bytesOf first)).trans ?_
      change some (Instr.atomic h tag line .swap (BitVec.ofNat 3 word.val).toFin
        (ofBytes 64 ((bytesOf 8 first).take 8)) 0) = _
      rw [List.take_of_length_le (by simp [length_bytesOf]), ofBytes_word, place, none_]
    | compareSwap =>
      refine (arrivalOf_message rfl (by simp [length_bytesOf, payloadLength, headerOfKind, atomicCode])).trans ?_
      change some (Instr.atomic h tag line .compareSwap (BitVec.ofNat 3 word.val).toFin
        (ofBytes 64 ((bytesOf 8 first ++ bytesOf 8 second).take 8))
        (ofBytes 64 ((bytesOf 8 first ++ bytesOf 8 second).drop 8))) = _
      rw [take_bytes, drop_bytes, ofBytes_word, ofBytes_word, place]
  | writeback h' line modified poisoned data =>
    cases from_
    cases sent
    refine (arrivalOf_message rfl (length_bytesOf data)).trans ?_
    change some (Instr.writeback h' line modified poisoned (ofBytes 512 (bytesOf 64 data))) = _
    rw [ofBytes_line]
  | answer h' line tracker held modified poisoned data =>
    cases from_
    cases sent
    have number : (BitVec.ofNat 6 tracker.val).toFin = tracker := by simp
    cases held with
    | notHeld =>
      have none_ : data = 0 := of_decide_eq_true wf
      refine (arrivalOf_message rfl rfl).trans ?_
      change some (Instr.answer h line (BitVec.ofNat 6 tracker.val).toFin .notHeld modified poisoned 0) = _
      rw [number, none_]
    | shared =>
      have none_ : data = 0 := of_decide_eq_true wf
      refine (arrivalOf_message rfl rfl).trans ?_
      change some (Instr.answer h line (BitVec.ofNat 6 tracker.val).toFin .shared modified poisoned 0) = _
      rw [number, none_]
    | owned =>
      refine (arrivalOf_message rfl (length_bytesOf data)).trans ?_
      change some (Instr.answer h line (BitVec.ofNat 6 tracker.val).toFin .owned modified poisoned
        (ofBytes 512 (bytesOf 64 data))) = _
      rw [number, ofBytes_line]
  | unknownKind => cases from_
  | _ => cases sent

end Sys2Proof.Machine
end
